-- ==== Sys2Proof/Word.lean ====
section
/-! DEFINITION. The words of the LQ-4: bytes of the control link and of the lines, the 16-bit sync word, and the
index types of its lanes, entries, slots and conditions (00_scope.md, Conventions). -/

namespace Sys2Proof

/-- A byte of the control link, of a line frame or of the test pattern. -/
abbrev Byte := BitVec 8

/-- The sync word of a profile (02 R26). -/
abbrev SyncWord := BitVec 16

/-- Lane 0 to lane 3. -/
abbrev LaneNo := Fin 4

/-- Schedule entry 0 to 7 (06 R111). -/
abbrev EntryNo := Fin 8

/-- Capture slot 0 to 3 (08 R151). -/
abbrev SlotNo := Fin 4

/-- Attention condition 0 to 9, numbered as 09 R168 numbers them. -/
abbrev CondNo := Fin 10

end Sys2Proof
end

