-- ==== Sys2Proof/Syntax.lean ====
section
/-! DEFINITION. The commands of the LQ-4: one constructor for each row of spec/opcode_table.json. A request carries its
tag and its raw parameter bytes, in the order of 10 R183, so that the length and range checks of R180, R182 and the
owners' rules are the machine's; an event carries what arrives with it. -/

namespace Sys2Proof

/-- What a lane sees of one cell (01 R2). -/
inductive Cell where
  | one | zero | violation
  deriving DecidableEq, Repr

/-- The event inputs (09 R173). -/
inductive Pin where
  | ext0 | ext1
  deriving DecidableEq, Repr

/-- Why the port discards a frame handed over as a whole (10 R178); the gap has its own command. -/
inductive FrameFault where
  | badStopBit | lenOutOfRange | wrongCheck | overrun
  deriving DecidableEq, Repr

inductive Instr where
  /-- POWER_ON_RESET (R89): the straps RATE1 and RATE0 as they stand at its end (R176). -/
  | powerOnReset (rate1 rate0 : Bool)
  /-- RESET_PIN (R89): the release of RSTN, with the straps at that moment. -/
  | resetPin (rate1 rate0 : Bool)
  /-- RESET (R188), request 02h. -/
  | reset (tag : Byte) (params : List Byte)
  /-- RESET_TAKES_EFFECT (R188): the CHECK character of the RESET reply has been sent. -/
  | resetTakesEffect
  /-- DEVICE_INFO (R189), request 01h. -/
  | deviceInfo (tag : Byte) (params : List Byte)
  /-- ATTENTION (R171), request 03h. -/
  | attention (tag : Byte) (params : List Byte)
  /-- ATTENTION_CONFIG (R172), request 04h. -/
  | attentionConfig (tag : Byte) (params : List Byte)
  /-- EXT_CONFIG (R174), request 05h. -/
  | extConfig (tag : Byte) (params : List Byte)
  /-- PATTERN_SET (R136), request 06h. -/
  | patternSet (tag : Byte) (params : List Byte)
  /-- PATTERN_GET (R135), request 07h. -/
  | patternGet (tag : Byte) (params : List Byte)
  /-- TIME_GET (R98), request 10h. -/
  | timeGet (tag : Byte) (params : List Byte)
  /-- TIME_SET (R100), request 11h. -/
  | timeSet (tag : Byte) (params : List Byte)
  /-- TIME_STOP (R104), request 12h. -/
  | timeStop (tag : Byte) (params : List Byte)
  /-- TIME_RUN (R105), request 13h. -/
  | timeRun (tag : Byte) (params : List Byte)
  /-- LANE_START (R17), request 20h. -/
  | laneStart (tag : Byte) (params : List Byte)
  /-- LANE_STOP (R19), request 21h. -/
  | laneStop (tag : Byte) (params : List Byte)
  /-- LANE_STATUS (R24), request 22h. -/
  | laneStatus (tag : Byte) (params : List Byte)
  /-- PROFILE_SET (R31), request 23h. -/
  | profileSet (tag : Byte) (params : List Byte)
  /-- PROFILE_GET (R32), request 24h. -/
  | profileGet (tag : Byte) (params : List Byte)
  /-- PAGE_SWAP (R33), request 25h. -/
  | pageSwap (tag : Byte) (params : List Byte)
  /-- INTERVAL_CLOSE (R63), request 26h. -/
  | intervalClose (tag : Byte) (params : List Byte)
  /-- INTERVAL_TAKE (R65), request 27h. -/
  | intervalTake (tag : Byte) (params : List Byte)
  /-- TEST_START (R144), request 28h. -/
  | testStart (tag : Byte) (params : List Byte)
  /-- TEST_STOP (R145), request 29h. -/
  | testStop (tag : Byte) (params : List Byte)
  /-- INSERT (R146), request 2Ah. -/
  | insert (tag : Byte) (params : List Byte)
  /-- ENTRY_SET (R116), request 30h. -/
  | entrySet (tag : Byte) (params : List Byte)
  /-- ENTRY_GET (R117), request 31h. -/
  | entryGet (tag : Byte) (params : List Byte)
  /-- ENTRY_ARM (R118), request 32h. -/
  | entryArm (tag : Byte) (params : List Byte)
  /-- ENTRY_DISARM (R119), request 33h. -/
  | entryDisarm (tag : Byte) (params : List Byte)
  /-- ENTRY_PAUSE (R120), request 34h. -/
  | entryPause (tag : Byte) (params : List Byte)
  /-- ENTRY_RESUME (R120), request 35h. -/
  | entryResume (tag : Byte) (params : List Byte)
  /-- ENTRY_CLEAR (R121), request 36h. -/
  | entryClear (tag : Byte) (params : List Byte)
  /-- JOURNAL_TAKE (R83), request 40h. -/
  | journalTake (tag : Byte) (params : List Byte)
  /-- JOURNAL_STATUS (R86), request 41h. -/
  | journalStatus (tag : Byte) (params : List Byte)
  /-- JOURNAL_CONFIG (R81), request 42h. -/
  | journalConfig (tag : Byte) (params : List Byte)
  /-- JOURNAL_MARK (R87), request 43h. -/
  | journalMark (tag : Byte) (params : List Byte)
  /-- CAPTURE (R155), request 50h. -/
  | capture (tag : Byte) (params : List Byte)
  /-- CAPTURE_STATUS (R165), request 51h. -/
  | captureStatus (tag : Byte) (params : List Byte)
  /-- CAPTURE_TAKE (R164), request 52h. -/
  | captureTake (tag : Byte) (params : List Byte)
  /-- CAPTURE_ABORT (R162), request 53h. -/
  | captureAbort (tag : Byte) (params : List Byte)
  /-- UNKNOWN_CODE (R180): a good frame whose CODE the request table does not have. -/
  | unknownCode (tag code : Byte) (params : List Byte)
  /-- BAD_FRAME (R178). -/
  | badFrame (cause : FrameFault)
  /-- FRAME_GAP_TIMEOUT (R177): more than 5 ms without a character inside a frame. -/
  | frameGapTimeout
  /-- REPLY_SENT (R181): the CHECK character of the reply in progress has been sent. -/
  | replySent
  /-- CELL_ARRIVAL (R3): a cell on RXn. -/
  | cellArrival (lane : LaneNo) (cell : Cell)
  /-- TRANSMIT_CELL (R138). -/
  | transmitCell (lane : LaneNo)
  /-- DRIVER_FAULT (R22, R23): TXFn takes a level; low (false) in TEST is the driver fault. -/
  | driverFault (lane : LaneNo) (level : Bool)
  /-- FINE_TICK (R93): the divider delivers a 1/1024 s tick and the timebase takes it. -/
  | fineTick
  /-- SECOND_ARRIVAL (R52): the lane's accounting unit takes its oldest second arrival. -/
  | secondArrival (lane : LaneNo)
  /-- SCHEDULE_SECOND_ARRIVAL (R123): the table takes a second arrival, or goes on with the event it is working on;
  `share` is how many of its steps are done now, all where absent (R129: other blocks' events may fall between). -/
  | scheduleSecondArrival (share : Option Nat)
  /-- MINUTE_ARRIVAL (R124), with `share` as above. -/
  | minuteArrival (share : Option Nat)
  /-- SCHEDULE_FINE_TICK (R124), with `share` as above. -/
  | scheduleFineTick (share : Option Nat)
  /-- COUNTDOWN_EXPIRY (R124): a countdown the table has found due has its turn. -/
  | countdownExpiry (entry : EntryNo)
  /-- FILTER_SAMPLE (R173): the levels sampled on EXT0 and EXT1, true for high. -/
  | filterSample (ext0 ext1 : Bool)
  /-- SCHEDULE_EDGE (R126): the table takes a filtered edge of the pin, with `share` as above. -/
  | scheduleEdge (pin : Pin) (share : Option Nat)
  /-- EXT_EDGE (R174): the journal side takes a filtered edge of the pin. -/
  | extEdge (pin : Pin)
  /-- OSC_FAULT (R107): 10 ms without a crystal cycle. -/
  | oscFault
  /-- OSC_MEASURE_RESTART (R108): 1 ms without a crystal cycle during a fault. -/
  | oscMeasureRestart
  /-- OSC_RESUMED (R108): the recovery measure reaches 100 ms. -/
  | oscResumed
  /-- RECORD_ARRIVAL (R76): the record at this place of those on their way arrives at the journal. -/
  | recordArrival (place : Nat)
  /-- CONDITION_CHANGE (R169): the oldest change of this condition's level reaches the attention unit. -/
  | conditionChange (cond : CondNo)
  /-- CRX_CHARACTER (R177): a character on CRX and whether its stop bit is good. -/
  | crxCharacter (data : Byte) (goodStop : Bool)
  /-- CRYSTAL_CYCLE_SEEN (R108): a crystal cycle seen while osc_fault is set. -/
  | crystalCycleSeen
  deriving DecidableEq, Repr

end Sys2Proof
end

