-- ==== Sys2Proof/Decode.lean ====
section
/-! DEFINITION. The command that a word of the opcode table spells. No row of spec/opcode_table.json gives its command any
bits (every "fields" is empty and no row has "fixed"), so no word spells a command; requests are spelled by link frames,
which CRX_CHARACTER takes character by character (Machine/Port.lean). -/

namespace Sys2Proof

/-- No row of the table has bits, so no word of any width is a command. -/
def decodeTableWord (_nbits _w : Nat) : Option Instr := none

end Sys2Proof
end

