-- ==== Sys2Proof/Config.lean ====
section
/-! DEFINITION. What is fixed for every LQ-4: the capacities and the identity of 00_scope.md and 10 R189, the thresholds
the rules name as numbers, and the request codes of 10 R183. No value of the spec is left open, so no free value stands
here. -/

namespace Sys2Proof.Config

/-- Records the event journal holds (04 R69). -/
def journalCapacity : Nat := 64

/-- Closed interval records a lane's ring holds (03 R58). -/
def ringCapacity : Nat := 8

/-- Bytes a lane's history ring holds (01 R12). -/
def historyCapacity : Nat := 32

/-- Where slot counts, units seen, the violation run and the discard count stop (01 R4, 03 R46, R48, 04 R79). -/
def countMax : Nat := 65535

/-- The last sequence number before the return to 1 (04 R75). -/
def sequenceMax : Nat := 4294967295

/-- Bytes of a reply frame left for the records of one JOURNAL TAKE (04 R84). -/
def takeBudget : Nat := 245

/-- Where late_by stops (08 R154). -/
def lateMax : Nat := 255

/-- Valid cells in a row that bring the signal back (01 R6). -/
def signalBackCells : Nat := 64

/-- Cells of the sync window (01 R7). -/
def windowCells : Nat := 16

/-- Frame-check mismatches in a row that lose the lock (01 R9). -/
def unlockMismatches : Nat := 3

/-- Matching cells in a row that enter TRACK (07 R140). -/
def trackCells : Nat := 32

/-- Cells of a block of the pattern checker, and the mismatches of a block that lose TRACK (07 R141, R142). -/
def blockCells : Nat := 256
def blockMismatches : Nat := 16

/-- Start of frame (10 R177). -/
def startOfFrame : Byte := 0xC3#8

/-- The least and greatest LEN of a request frame (10 R178). -/
def lenMin : Nat := 2
def lenMax : Nat := 250

/-- The most parameter bytes a request frame carries: LEN less TAG and CODE (10 FRAMES). -/
def paramsMax : Nat := 248

/-- The nine result bytes of DEVICE INFO: vendor, part, revision and capacities (10 R189). -/
def identity : List Byte := [0x6A#8, 0x41#8, 0x01#8, 4#8, 64#8, 8#8, 4#8, 2#8, 8#8]

/-- The request codes of the request table (10 R183). -/
def requestCodes : List Byte :=
  [0x01#8, 0x02#8, 0x03#8, 0x04#8, 0x05#8, 0x06#8, 0x07#8, 0x10#8, 0x11#8, 0x12#8, 0x13#8] ++
  [0x20#8, 0x21#8, 0x22#8, 0x23#8, 0x24#8, 0x25#8, 0x26#8, 0x27#8, 0x28#8, 0x29#8, 0x2A#8] ++
  [0x30#8, 0x31#8, 0x32#8, 0x33#8, 0x34#8, 0x35#8, 0x36#8, 0x40#8, 0x41#8, 0x42#8, 0x43#8] ++
  [0x50#8, 0x51#8, 0x52#8, 0x53#8]

end Sys2Proof.Config
end

