-- ==== Sys2Proof/Machine/State.lean ====
section
/-! DEFINITION. The state of the LQ-4 as plain data: the records of its chapters, each block's state, the events one block
has handed another and that are not yet taken, the queue of commands, and the state after power-on reset. -/

namespace Sys2Proof.Machine

/-- RUNNING or STOPPED (05 R91). -/
inductive RunState where
  | running | stopped
  deriving DecidableEq, Repr

/-- A calendar time without its fraction (05, TIMEBASE STATE). -/
structure CalTime where
  year : Nat
  month : Nat
  day : Nat
  hour : Nat
  minute : Nat
  second : Nat
  deriving DecidableEq, Repr

/-- A copy of the timebase taken at one moment (05 R97). -/
structure Stamp where
  time : CalTime
  fraction : Nat
  timeValid : Bool
  held : Bool
  deriving DecidableEq, Repr

/-- A second or minute arrival: the new calendar time, fraction 0, with the weekday held then (05 R93, R94, 06 R123). -/
structure Arrival where
  time : CalTime
  weekday : Nat
  deriving DecidableEq, Repr

/-- The timebase (05 R91, R92, R108). `divider` counts the 1/1024 s ticks into the current 1/64 s; `measure` is
the recovery measure of R108 while one is under way, held as the crystal cycles seen since it last started (log 8). -/
structure Timebase where
  time : CalTime
  fraction : Nat
  weekday : Nat
  leapPending : Bool
  run : RunState
  timeValid : Bool
  oscFault : Bool
  oscFaultSeen : Bool
  divider : Nat
  measure : Option Nat
  deriving DecidableEq, Repr

/-- The mode of a lane (01 R1). -/
inductive Mode where
  | off | monitor | test
  deriving DecidableEq, Repr

/-- The receive or checker state of a lane; `none` in OFF (01 R1). -/
inductive LineState where
  | none | hunt | locked | noSignal | search | track
  deriving DecidableEq, Repr

/-- The class a counting slot is bound to (02 R28, 01 R13). -/
inductive SlotClass where
  | none | code | idle | slip | pattern | codeIdle
  deriving DecidableEq, Repr

/-- The class of a detected error (01 R13). -/
inductive LineError where
  | code | idle | slip | pattern
  deriving DecidableEq, Repr

/-- interval_mode: MANUAL, or AUTO with one of the thirteen lengths of the profile table (02). -/
inductive IntervalMode where
  | manual
  | auto (choice : Fin 13)
  deriving DecidableEq, Repr

inductive Invert where
  | none | a | b | both
  deriving DecidableEq, Repr

inductive Loopback where
  | external | internal
  deriving DecidableEq, Repr

/-- The profile record of seventeen fields (02 R26). -/
structure Profile where
  bitRate : Fin 9
  syncWord : SyncWord
  frameLength : Nat
  idleThreshold : Nat
  losThreshold : Nat
  slotX : SlotClass
  slotY : SlotClass
  intervalMode : IntervalMode
  burstThreshold : Option Nat
  burstCapture : Bool
  triggerByte : Option Byte
  capturePre : Nat
  capturePost : Nat
  invert : Invert
  loopback : Loopback
  journalCloses : Bool
  snapshot : Bool
  deriving DecidableEq, Repr

/-- The default profile (02, THE PROFILE RECORD, and R42). -/
def Profile.default : Profile where
  bitRate := 4
  syncWord := 0xB54D#16
  frameLength := 64
  idleThreshold := 16
  losThreshold := 1024
  slotX := .code
  slotY := .slip
  intervalMode := .auto 6
  burstThreshold := Option.none
  burstCapture := false
  triggerByte := Option.none
  capturePre := 8
  capturePost := 24
  invert := .none
  loopback := .external
  journalCloses := false
  snapshot := false

/-- Why an interval closed (03, CLOSE CAUSES). -/
inductive CloseReason where
  | boundary | request | schedule | stopped | testStart | testStop | timeSet
  deriving DecidableEq, Repr

/-- The open interval (03 R43), but for its number, which the lane keeps in OFF too. -/
structure OpenInterval where
  start : Stamp
  x : Nat
  y : Nat
  units : Nat
  xSaturated : Bool
  ySaturated : Bool
  lostLock : Bool
  lostSignal : Bool
  burstReported : Bool
  deriving DecidableEq, Repr

/-- The closed interval record (03 R57). -/
structure ClosedInterval where
  lane : LaneNo
  number : Nat
  page : Fin 2
  reason : CloseReason
  xClass : SlotClass
  xCount : Nat
  yClass : SlotClass
  yCount : Nat
  xSaturated : Bool
  ySaturated : Bool
  units : Nat
  lostLock : Bool
  lostSignal : Bool
  start : Stamp
  stop : Stamp
  deriving DecidableEq, Repr

/-- The receive side of a lane (01 R4 to R9): what every change of mode starts afresh (R20). `candidate` is the number of
cells since the candidate frame start; `position` is the newest cell's place in the line frame, used in LOCKED; `idleCounted`
says that the violation run under way has counted its IDLE error, since a run counts one (R4). -/
structure Receiver where
  run : Nat
  idleCounted : Bool
  validCells : Nat
  window : List Cell
  candidate : Option Nat
  position : Nat
  mismatches : Nat
  deriving DecidableEq, Repr

def Receiver.fresh : Receiver := ⟨0, false, 0, [], Option.none, 0, 0⟩

/-- The transmitter of a lane (07 R138, R146, R147). `position` is the place of the next cell to send, `reading` the invert
read for the repetition under way, `recent` the last three cells sent since the entry to TEST, oldest first. -/
structure Transmitter where
  insertPending : Bool
  position : Nat
  reading : Invert
  recent : List Cell
  deriving DecidableEq, Repr

def Transmitter.fresh : Transmitter := ⟨false, 0, .none, []⟩

/-- The pattern checker of a lane (07 R140, R141). `counts` is used in SEARCH: its k-th number is the run of matching cells
of the alignment that gave the newest cell position k. `alignment` is held in TRACK: the position of the newest cell.
`whole` says that the repetition under way began in TRACK, `bits` are the cells of the byte being formed. -/
structure Checker where
  counts : Vector Nat 16
  alignment : Option (Fin 16)
  reading : Invert
  whole : Bool
  bits : List Bool
  blockCells : Nat
  blockMismatches : Nat
  deriving DecidableEq, Repr

def Checker.fresh : Checker := ⟨Vector.replicate 16 0, Option.none, .none, false, [], 0, 0⟩

/-- A lane with its accounting unit and its part of the test unit (01 R1, 02 R26, 03 R43, R58, 07 R146). `txf` is the level
on the pin TXFn, true for high; `seconds` are the second arrivals delivered to accounting and not yet taken. -/
structure Lane where
  mode : Mode
  line : LineState
  pages : Vector Profile 2
  live : Fin 2
  swapPending : Bool
  history : List Byte
  rx : Receiver
  tx : Transmitter
  checker : Checker
  txFault : Bool
  txf : Bool
  number : Nat
  interval : Option OpenInterval
  ring : List ClosedInterval
  seconds : List Arrival
  deriving DecidableEq, Repr

/-- A lane after every reset (01 R25, 02 R42, 03 R68, 07 R150), on a pin TXFn at the given level. -/
def Lane.afterReset (txf : Bool) : Lane where
  mode := .off
  line := .none
  pages := #v[Profile.default, Profile.default]
  live := 0
  swapPending := false
  history := []
  rx := Receiver.fresh
  tx := Transmitter.fresh
  checker := Checker.fresh
  txFault := false
  txf := txf
  number := 0
  interval := Option.none
  ring := []
  seconds := []

/-- The global test pattern (07 R135). -/
structure Pattern where
  a : Byte
  b : Byte
  deriving DecidableEq, Repr

def Pattern.default : Pattern := ⟨0xF0#8, 0x66#8⟩

/-- The block that wrote a record (04 R71). -/
inductive Source where
  | lane (n : LaneNo)
  | timebase
  | schedule (e : EntryNo)
  | ext (p : Pin)
  | capture | journal | device | port
  deriving DecidableEq, Repr

/-- The record kinds (04 R73). -/
inductive Kind where
  | restart | timeSet | clockStopped | clockRun | oscFault | oscResumed | journalResumed
  | laneStarted | laneStopped | laneLock | laneUnlock | signalLost | signalBack | intervalClosed | ringOverrun
  | slotSaturated | burst | pageSwapped
  | testStarted | testStopped | patternLock | patternUnlock | insertDone | insertCancelled | txFault
  | captureDone | captureDropped | captureMissed
  | scheduleFired | actionRefused | mark
  | extEdge
  deriving DecidableEq, Repr

/-- The lane snapshot (04 R72). -/
structure Snapshot where
  mode : Mode
  line : LineState
  live : Fin 2
  swapPending : Bool
  number : Nat
  x : Nat
  y : Nat
  deriving DecidableEq, Repr

/-- A record as a block writes it, before the journal gives it a number (04, THE JOURNAL RECORD). -/
structure Record where
  stamp : Stamp
  source : Source
  kind : Kind
  detail : Nat
  snapshot : Option Snapshot
  deriving DecidableEq, Repr

/-- A stored record (04 R69, R75). -/
structure Stored where
  seq : Nat
  record : Record
  deriving DecidableEq, Repr

/-- A record on its way to the journal, with the number of the event that wrote it (04 R76), whether a request wrote it (04 R87)
and whether it is one of the records of a close (03 R50, R55); the three are the model's own (log 1). -/
structure Sent where
  event : Nat
  record : Record
  byRequest : Bool
  ofClose : Bool
  deriving DecidableEq, Repr

inductive Policy where
  | wrap | hold
  deriving DecidableEq, Repr

/-- The event journal (04 R69, R75, R78). -/
structure Journal where
  records : List Stored
  next : Nat
  policy : Policy
  threshold : Nat
  holdOff : Bool
  discards : Nat
  deriving DecidableEq, Repr

/-- The journal emptied by a power-on reset or the reset pin, before RESTART is stored (04 R89). -/
def Journal.emptied : Journal := ⟨[], 1, .wrap, 48, false, 0⟩

/-- The trigger kinds (08 R152). -/
inductive TriggerKind where
  | byte | burst | request | schedule
  deriving DecidableEq, Repr

/-- An entry of the pending list (08 R151). -/
structure Waiting where
  lane : LaneNo
  kind : TriggerKind
  stamp : Stamp
  lateBy : Nat
  deriving DecidableEq, Repr

/-- A capture held in a slot (08, STATE OF THE CAPTURE UNIT). -/
structure Capture where
  lane : LaneNo
  kind : TriggerKind
  stamp : Stamp
  lateBy : Nat
  page : Fin 2
  post : Nat
  pre : Nat
  data : List Byte
  truncated : Bool
  deriving DecidableEq, Repr

inductive Slot where
  | free
  | filling (c : Capture)
  | full (c : Capture)
  deriving DecidableEq, Repr

/-- The capture unit (08 R151): the pending list oldest first, the slot each engine is bound to, the four slots. -/
structure CaptureUnit where
  waiting : List Waiting
  engines : Vector (Option SlotNo) 2
  slots : Vector Slot 4
  deriving DecidableEq, Repr

/-- The capture unit after every reset (08 R167). -/
def CaptureUnit.afterReset : CaptureUnit :=
  ⟨[], #v[Option.none, Option.none], #v[.free, .free, .free, .free]⟩

/-- The bases of a countdown (06 R113). -/
inductive Base where
  | fine1024 | fine64 | second | minute
  deriving DecidableEq, Repr

/-- The edges an EXTERNAL entry or the journal side takes; NONE is the journal side's alone (06 R114, 09 R174). -/
inductive EdgeChoice where
  | none | rising | falling | both
  deriving DecidableEq, Repr

/-- The day selector of a MATCH entry; a weekday set has bit n for weekday n (06 R112, 10 R187). -/
inductive DaySelector where
  | any
  | weekdays (set : Byte)
  | dayOfMonth (day : Nat)
  deriving DecidableEq, Repr

/-- The kind of an entry with its fields; an absent second, minute or hour is ANY (06 R112 to R114). -/
inductive EntryKind where
  | atTime (second minute hour : Option Nat) (day : DaySelector)
  | countdown (base : Base) (preset : Nat)
  | external (pin : Pin) (edge : EdgeChoice)
  deriving DecidableEq, Repr

/-- The actions on lanes (06 R115). -/
inductive LaneAction where
  | close | swap | testStart | testStop | insert | capture
  deriving DecidableEq, Repr

/-- An action of an entry's list (06 R115); a lane mask has bit n for lane n. -/
inductive Action where
  | onLanes (a : LaneAction) (mask : Byte)
  | mark (tag : Byte)
  | arm (e : EntryNo)
  | disarm (e : EntryNo)
  deriving DecidableEq, Repr

/-- An entry's definition (06, ENTRY DEFINITIONS). `repeats` and `journalFire` are its repeat and journal_fire fields. -/
structure Definition where
  kind : EntryKind
  repeats : Bool
  journalFire : Bool
  actions : List Action
  deriving DecidableEq, Repr

/-- The states of an entry that holds a definition (06 R111). -/
inductive EntryState where
  | idle | armed | paused
  deriving DecidableEq, Repr

/-- A place of the schedule table (06 R111). -/
inductive Entry where
  | empty
  | held (state : EntryState) (definition : Definition) (remaining : Nat)
  deriving DecidableEq, Repr

/-- A step of the table's work on one event (06 R122, R128, R129): the turn of a due entry, or one action of a firing
entry at one target. `place` is the action's place in the list. -/
inductive TableOp where
  | turn (e : EntryNo)
  | onLane (e : EntryNo) (place : Nat) (a : LaneAction) (lane : LaneNo)
  | mark (e : EntryNo) (tag : Byte)
  | arm (e : EntryNo) (place : Nat) (target : EntryNo)
  | disarm (e : EntryNo) (place : Nat) (target : EntryNo)
  deriving DecidableEq, Repr

/-- The event the table is working on: its stamp, the number its records carry, and the steps still to do. -/
structure Work where
  stamp : Stamp
  event : Nat
  ops : List TableOp
  deriving DecidableEq, Repr

/-- A filtered edge handed to the table (09 R174). -/
structure Edge where
  pin : Pin
  rising : Bool
  deriving DecidableEq, Repr

/-- The schedule table (06 R111) with what has been delivered to it and is not yet taken. `ticks` is the fine ticks
delivered less those taken. -/
structure Schedule where
  entries : Vector Entry 8
  seconds : List Arrival
  minutes : List Arrival
  ticks : Int
  edges : List Edge
  work : Option Work
  deriving DecidableEq, Repr

/-- The table after every reset (06 R133), with the fine ticks it has taken before the timebase has (DESIGN CHOICE, log 7):
`ticks` is 0 or less. -/
def Schedule.afterReset (ticks : Int) : Schedule :=
  ⟨#v[.empty, .empty, .empty, .empty, .empty, .empty, .empty, .empty], [], [], ticks, [], Option.none⟩

/-- One pin of the event input filter and its journal side (09 R173, R174); `level` is true for high. -/
structure PinFilter where
  level : Bool
  count : Nat
  choice : EdgeChoice
  deriving DecidableEq, Repr

/-- A filtered edge handed to the journal side, with the stamp of the tick that completed it (09 R174). -/
structure StampedEdge where
  edge : Edge
  stamp : Stamp
  deriving DecidableEq, Repr

/-- The event inputs: the two pins and the edges handed to the journal side and not yet taken. -/
structure EventInputs where
  ext0 : PinFilter
  ext1 : PinFilter
  edges : List StampedEdge
  deriving DecidableEq, Repr

/-- The event inputs after every reset (09 R175). -/
def EventInputs.afterReset : EventInputs := ⟨⟨false, 0, .none⟩, ⟨false, 0, .none⟩, []⟩

inductive AttentionMode where
  | rise | fall | both | level
  deriving DecidableEq, Repr

/-- Enable, mode and latch of one condition (09 R169). -/
structure Condition where
  enabled : Bool
  mode : AttentionMode
  latch : Bool
  deriving DecidableEq, Repr

/-- A change of a condition's level presented to the attention unit and not yet taken (09 R168). -/
structure LevelChange where
  cond : CondNo
  level : Bool
  deriving DecidableEq, Repr

structure Attention where
  conditions : Vector Condition 10
  changes : List LevelChange
  deriving DecidableEq, Repr

/-- The attention unit after every reset (09 R175). -/
def Attention.afterReset : Attention := ⟨Vector.replicate 10 ⟨false, .rise, false⟩, []⟩

/-- The reply statuses (10 R182). -/
inductive Status where
  | ok | unknown | badLength | badValue | wrongState | laneOff | pending | txFault | captureBusy | empty
  | entryActive | noEntry | clockFault | slotBusy
  deriving DecidableEq, Repr

/-- The four link rates of 00_scope.md. -/
inductive LinkRate where
  | baud115200 | baud230400 | baud460800 | baud921600
  deriving DecidableEq, Repr

/-- The port's receiver (10 R177); in a frame it holds the bytes from LEN on. -/
inductive RxState where
  | waiting
  | inFrame (bytes : List Byte)
  deriving DecidableEq, Repr

/-- The reply in progress (10 R181): the tag, the reply code, the status and the results. -/
structure Reply where
  tag : Byte
  code : Byte
  status : Status
  results : List Byte
  deriving DecidableEq, Repr

structure Port where
  rx : RxState
  rate : LinkRate
  reply : Option Reply
  deriving DecidableEq, Repr

/-- The device: its ten blocks, and the records on their way to the journal. `events` is the number the next writing event
takes; it is the model's own (04 R76 needs the records of one event told from those of another). -/
structure Device where
  lanes : Vector Lane 4
  pattern : Pattern
  timebase : Timebase
  schedule : Schedule
  inputs : EventInputs
  journal : Journal
  inFlight : List Sent
  events : Nat
  capture : CaptureUnit
  attention : Attention
  port : Port
  deriving DecidableEq, Repr

/-- The machine: the device and the commands that wait, first in first out. -/
structure State where
  dev : Device
  pending : List Instr
  deriving DecidableEq, Repr

/-- No rule of the spec stops the block, so no step of the model faults and this type has no constructor: whatever the
outside does, the device answers with a status, a record or no effect (INVENTORY.md, Faults). -/
inductive Fault where
  deriving DecidableEq, Repr

/-- Refusals; the one constructor is the host's for a command without a meaning, and no arm of exec answers it. -/
inductive Refusal where
  /-- Raised by an arm of exec that has no meaning yet; safe. No arm raises it now. -/
  | notModelled (mnemonic : String)
  deriving DecidableEq, Repr

/-- The timebase after a power-on reset (05 R110). -/
def Timebase.afterPowerOn : Timebase where
  time := ⟨0, 1, 1, 0, 0, 0⟩
  fraction := 0
  weekday := 6
  leapPending := false
  run := .running
  timeValid := false
  oscFault := false
  oscFaultSeen := false
  divider := 0
  measure := none

/-- The RESTART record of a reset (04 R73, R89, R90): source DEVICE, the cause as detail, no snapshot. -/
def Record.restart (st : Stamp) (cause : Nat) : Record := ⟨st, .device, .restart, cause, Option.none⟩

/-- The device right after a power-on reset (R25, R42, R68, R89, R110, R133, R135, R150, R167, R175, R176) with the link
rate its straps gave; the TXFn pins stand high (DESIGN CHOICE, log 11). -/
def Device.afterPowerOn (rate : LinkRate) : Device where
  lanes := #v[Lane.afterReset true, Lane.afterReset true, Lane.afterReset true, Lane.afterReset true]
  pattern := Pattern.default
  timebase := Timebase.afterPowerOn
  schedule := Schedule.afterReset 0
  inputs := EventInputs.afterReset
  journal :=
    { Journal.emptied with
      records := [⟨1, Record.restart ⟨⟨0, 1, 1, 0, 0, 0⟩, 0, false, false⟩ 1⟩]
      next := 2 }
  inFlight := []
  events := 0
  capture := CaptureUnit.afterReset
  attention := Attention.afterReset
  port := ⟨.waiting, rate, Option.none⟩

/-- The machine right after a power-on reset with both rate straps low (DESIGN CHOICE, log 12) and an empty queue. -/
def State.reset : State := ⟨Device.afterPowerOn .baud115200, []⟩

end Sys2Proof.Machine
end

