-- ==== Sys2Proof/Machine/Operands.lean ====
section
/-! DEFINITION. Operand forms: the byte images of 10 R182 to R187 in both directions, the check byte of R179 and the image of
a reply frame (R180). A parser answers none where the rules give BAD_VALUE. -/

namespace Sys2Proof.Machine

/-! ### Numbers and bits (R182) -/

/-- Values of more than one byte go low byte first (R182). -/
def le16 (n : Nat) : List Byte := [BitVec.ofNat 8 n, BitVec.ofNat 8 (n / 256)]

def le24 (n : Nat) : List Byte := [BitVec.ofNat 8 n, BitVec.ofNat 8 (n / 256), BitVec.ofNat 8 (n / 65536)]

def le32 (n : Nat) : List Byte :=
  [BitVec.ofNat 8 n, BitVec.ofNat 8 (n / 256), BitVec.ofNat 8 (n / 65536), BitVec.ofNat 8 (n / 16777216)]

def word16 (lo hi : Byte) : Nat := lo.toNat + 256 * hi.toNat

def word24 (lo mid hi : Byte) : Nat := lo.toNat + 256 * mid.toNat + 65536 * hi.toNat

/-- A one-bit field at bit `k`. -/
def bitAt (b : Bool) (k : Nat) : Nat := if b then 2 ^ k else 0

def byte (n : Nat) : Byte := BitVec.ofNat 8 n

/-- A byte of two values (R182): 1 for yes or set. -/
def flagByte (b : Bool) : Byte := if b then 1#8 else 0#8

/-- Any other value in such a byte of a request is out of range (R182). -/
def flagOf (b : Byte) : Option Bool :=
  if b = 0#8 then some false else if b = 1#8 then some true else none

def inRange (lo hi n : Nat) : Option Nat := if lo ≤ n ∧ n ≤ hi then some n else none

/-- A lane number, 0 to 3 (R182, R183). -/
def laneOf (b : Byte) : Option LaneNo := if h : b.toNat < 4 then some ⟨b.toNat, h⟩ else none

/-- An entry number, 0 to 7 (R183). -/
def entryOf (b : Byte) : Option EntryNo := if h : b.toNat < 8 then some ⟨b.toNat, h⟩ else none

/-- A slot number, 0 to 3 (08 R164). -/
def slotOf (b : Byte) : Option SlotNo := if h : b.toNat < 4 then some ⟨b.toNat, h⟩ else none

/-- A page number, 0 or 1 (02 R32). -/
def pageOf (b : Byte) : Option (Fin 2) := if h : b.toNat < 2 then some ⟨b.toNat, h⟩ else none

def allLanes : List LaneNo := [0, 1, 2, 3]

def allEntries : List EntryNo := [0, 1, 2, 3, 4, 5, 6, 7]

def allSlots : List SlotNo := [0, 1, 2, 3]

def allConditions : List CondNo := [0, 1, 2, 3, 4, 5, 6, 7, 8, 9]

/-- The lanes a mask names, in increasing number (R16, R182). -/
def maskLanes (mask : Byte) : List LaneNo := allLanes.filter fun n => mask.getLsbD n.val

/-- A mask names at least one lane and has bits 4 to 7 zero (R182). -/
def maskOk (mask : Byte) : Bool := decide (mask ≠ 0#8) && decide (mask.toNat < 16)

/-! ### Codes (R182, R184) -/

def Status.code : Status → Byte
  | .ok => 0x00#8 | .unknown => 0x01#8 | .badLength => 0x02#8 | .badValue => 0x03#8 | .wrongState => 0x04#8
  | .laneOff => 0x05#8 | .pending => 0x06#8 | .txFault => 0x07#8 | .captureBusy => 0x08#8 | .empty => 0x09#8
  | .entryActive => 0x0A#8 | .noEntry => 0x0B#8 | .clockFault => 0x0C#8 | .slotBusy => 0x0D#8

def Mode.code : Mode → Nat
  | .off => 0 | .monitor => 1 | .test => 2

def LineState.code : LineState → Nat
  | .none => 0 | .hunt => 1 | .locked => 2 | .noSignal => 3 | .search => 4 | .track => 5

/-- The mode and state byte: mode at bits 0 and 1, state at bits 4 to 6. -/
def modeByte (m : Mode) (l : LineState) : Byte := byte (m.code + 16 * l.code)

def SlotClass.number : SlotClass → Nat
  | .none => 0 | .code => 1 | .idle => 2 | .slip => 3 | .pattern => 4 | .codeIdle => 5

def slotClassOf (n : Nat) : Option SlotClass :=
  match n with
  | 0 => some .none | 1 => some .code | 2 => some .idle | 3 => some .slip | 4 => some .pattern | 5 => some .codeIdle
  | _ => Option.none

def CloseReason.code : CloseReason → Nat
  | .boundary => 1 | .request => 2 | .schedule => 3 | .stopped => 4 | .testStart => 5 | .testStop => 6 | .timeSet => 7

def TriggerKind.code : TriggerKind → Nat
  | .byte => 1 | .burst => 2 | .request => 3 | .schedule => 4

def Policy.code : Policy → Byte
  | .wrap => 0#8 | .hold => 1#8

def policyOf (b : Byte) : Option Policy :=
  if b = 0#8 then some .wrap else if b = 1#8 then some .hold else none

def EntryState.code : EntryState → Byte
  | .idle => 1#8 | .armed => 2#8 | .paused => 3#8

def AttentionMode.code : AttentionMode → Nat
  | .rise => 0 | .fall => 1 | .both => 2 | .level => 3

def attentionModeOf (n : Nat) : AttentionMode :=
  match n with
  | 0 => .rise | 1 => .fall | 2 => .both | _ => .level

def EdgeChoice.code : EdgeChoice → Byte
  | .none => 0#8 | .rising => 1#8 | .falling => 2#8 | .both => 3#8

def edgeChoiceOf (b : Byte) : Option EdgeChoice :=
  if b = 0#8 then some .none else if b = 1#8 then some .rising else if b = 2#8 then some .falling
  else if b = 3#8 then some .both else Option.none

/-- The source byte without its snapshot bit (R184). -/
def Source.code : Source → Nat
  | .lane n => n.val | .timebase => 0x10 | .schedule e => 0x20 + e.val
  | .ext .ext0 => 0x30 | .ext .ext1 => 0x31
  | .capture => 0x40 | .journal => 0x50 | .device => 0x60 | .port => 0x70

/-- The kind codes (R184). -/
def Kind.code : Kind → Byte
  | .restart => 0x01#8 | .timeSet => 0x02#8 | .clockStopped => 0x03#8 | .clockRun => 0x04#8 | .oscFault => 0x05#8
  | .oscResumed => 0x06#8 | .journalResumed => 0x07#8
  | .laneStarted => 0x10#8 | .laneStopped => 0x11#8 | .laneLock => 0x12#8 | .laneUnlock => 0x13#8 | .signalLost => 0x14#8
  | .signalBack => 0x15#8 | .intervalClosed => 0x16#8 | .ringOverrun => 0x17#8 | .slotSaturated => 0x18#8
  | .burst => 0x19#8 | .pageSwapped => 0x1A#8
  | .testStarted => 0x20#8 | .testStopped => 0x21#8 | .patternLock => 0x22#8 | .patternUnlock => 0x23#8
  | .insertDone => 0x24#8 | .insertCancelled => 0x25#8 | .txFault => 0x26#8
  | .captureDone => 0x30#8 | .captureDropped => 0x31#8 | .captureMissed => 0x32#8
  | .scheduleFired => 0x40#8 | .actionRefused => 0x41#8 | .mark => 0x42#8
  | .extEdge => 0x50#8

/-! ### Records (R184, R185) -/

/-- A stamp takes 8 bytes (R184). -/
def Stamp.image (st : Stamp) : List Byte :=
  [byte st.time.year, byte st.time.month, byte st.time.day, byte st.time.hour, byte st.time.minute, byte st.time.second] ++
  le16 (st.fraction + bitAt st.held 14 + bitAt st.timeValid 15)

def Snapshot.image (p : Snapshot) : List Byte :=
  [modeByte p.mode p.line, byte (p.live.val + bitAt p.swapPending 1)] ++ le16 p.number ++ le16 p.x ++ le16 p.y

/-- A journal record takes 16 bytes, 24 with a snapshot (R71, R184). -/
def Stored.image (r : Stored) : List Byte :=
  le32 r.seq ++ r.record.stamp.image ++
  [byte (r.record.source.code + bitAt r.record.snapshot.isSome 7), r.record.kind.code] ++ le16 r.record.detail ++
  match r.record.snapshot with
  | Option.none => []
  | some p => p.image

/-- The encoded size of a record (R71). -/
def Stored.size (r : Stored) : Nat := if r.record.snapshot.isSome then 24 else 16

/-- A closed interval record takes 27 bytes (R185). -/
def ClosedInterval.image (r : ClosedInterval) : List Byte :=
  [byte (r.lane.val + 4 * r.page.val + 16 * r.reason.code)] ++ le16 r.number ++
  [byte (r.xClass.number + 16 * r.yClass.number)] ++ le16 r.xCount ++ le16 r.yCount ++ le16 r.units ++
  [byte (bitAt r.xSaturated 0 + bitAt r.ySaturated 1 + bitAt r.lostLock 2 + bitAt r.lostSignal 3)] ++
  r.start.image ++ r.stop.image

/-- A capture record takes 15 bytes followed by its data (R185). -/
def Capture.image (slot : SlotNo) (c : Capture) : List Byte :=
  [byte slot.val, byte c.lane.val, byte c.kind.code] ++ c.stamp.image ++
  [byte c.lateBy, byte (c.page.val + bitAt c.truncated 7), byte c.pre, byte c.data.length] ++ c.data

/-! ### Profiles (R186) -/

def intervalModeOf (b : Byte) : Option IntervalMode :=
  if b = 0#8 then some .manual
  else if h : b.toNat - 1 < 13 then some (.auto ⟨b.toNat - 1, h⟩) else none

def IntervalMode.code : IntervalMode → Byte
  | .manual => 0#8
  | .auto k => byte (k.val + 1)

/-- The AUTO lengths in seconds, in the order of their codes (02, R186). -/
def intervalLengths : List Nat := [1, 2, 5, 10, 15, 30, 60, 120, 300, 600, 900, 1800, 3600]

/-- The length of an AUTO interval; none in MANUAL. -/
def IntervalMode.length : IntervalMode → Option Nat
  | .manual => Option.none
  | .auto k => intervalLengths[k.val]?

def Invert.code : Invert → Nat
  | .none => 0 | .a => 1 | .b => 2 | .both => 3

def invertOf (n : Nat) : Invert :=
  match n with
  | 0 => .none | 1 => .a | 2 => .b | _ => .both

def bitRateOf (b : Byte) : Option (Fin 9) := if h : b.toNat < 9 then some ⟨b.toNat, h⟩ else none

/-- The profile a PROFILE SET carries, or none where a byte is outside its field's range or an unnamed bit is set
(R31, R182, R186). -/
def profileOf : List Byte → Option Profile
  | [b0, b1, b2, b3, b4, b5, b6, b7, b8, b9, b10, b11, b12, b13, b14, b15, b16] => do
    let bitRate ← bitRateOf b0
    let frameLength ← inRange 4 256 (word16 b3 b4)
    let idleThreshold ← inRange 8 255 b5.toNat
    let losThreshold ← inRange 256 65535 (word16 b6 b7)
    let slotX ← slotClassOf (b8.toNat % 16)
    let slotY ← slotClassOf (b8.toNat / 16)
    let intervalMode ← intervalModeOf b9
    let capturePre ← inRange 0 32 b13.toNat
    let capturePost ← inRange 1 96 b14.toNat
    let line ← inRange 0 7 b15.toNat
    let flags ← inRange 0 15 b16.toNat
    let burst := word16 b10 b11
    some {
      bitRate := bitRate
      syncWord := BitVec.ofNat 16 (word16 b1 b2)
      frameLength := frameLength
      idleThreshold := idleThreshold
      losThreshold := losThreshold
      slotX := slotX
      slotY := slotY
      intervalMode := intervalMode
      burstThreshold := if burst = 0 then Option.none else some burst
      burstCapture := flags.testBit 0
      triggerByte := if flags.testBit 3 then some b12 else Option.none
      capturePre := capturePre
      capturePost := capturePost
      invert := invertOf (line % 4)
      loopback := if line.testBit 2 then .internal else .external
      journalCloses := flags.testBit 1
      snapshot := flags.testBit 2 }
  | _ => Option.none

/-- A profile takes 17 bytes (R186). -/
def Profile.image (p : Profile) : List Byte :=
  [byte p.bitRate.val] ++ le16 p.syncWord.toNat ++ le16 p.frameLength ++ [byte p.idleThreshold] ++ le16 p.losThreshold ++
  [byte (p.slotX.number + 16 * p.slotY.number), p.intervalMode.code] ++ le16 (p.burstThreshold.getD 0) ++
  [p.triggerByte.getD 0#8, byte p.capturePre, byte p.capturePost,
    byte (p.invert.code + bitAt (decide (p.loopback = .internal)) 2),
    byte (bitAt p.burstCapture 0 + bitAt p.journalCloses 1 + bitAt p.snapshot 2 + bitAt p.triggerByte.isSome 3)]

/-- Every field within the range of the profile table (02 R26, R31). -/
def Profile.inRange (p : Profile) : Bool :=
  decide (4 ≤ p.frameLength ∧ p.frameLength ≤ 256) && decide (8 ≤ p.idleThreshold ∧ p.idleThreshold ≤ 255) &&
  decide (256 ≤ p.losThreshold ∧ p.losThreshold ≤ 65535) && decide (p.capturePre ≤ 32) &&
  decide (1 ≤ p.capturePost ∧ p.capturePost ≤ 96) &&
  match p.burstThreshold with
  | Option.none => true
  | some t => decide (1 ≤ t ∧ t ≤ 65535)

/-! ### Schedule definitions (R187) -/

/-- An action code and its argument (R187). -/
def actionOf (code arg : Byte) : Option Action :=
  let onMask (a : LaneAction) : Option Action := if maskOk arg then some (.onLanes a arg) else none
  match code.toNat with
  | 1 => onMask .close
  | 2 => onMask .swap
  | 3 => onMask .testStart
  | 4 => onMask .testStop
  | 5 => onMask .insert
  | 6 => onMask .capture
  | 7 => some (.mark arg)
  | 8 => (entryOf arg).map .arm
  | 9 => (entryOf arg).map .disarm
  | _ => none

def actionsOf : List Byte → Option (List Action)
  | [] => some []
  | [_] => none
  | code :: arg :: rest => do
    let a ← actionOf code arg
    let more ← actionsOf rest
    some (a :: more)

/-- A numeric field or FFh for ANY (R187). -/
def fieldOf (hi : Nat) (b : Byte) : Option (Option Nat) :=
  if b = 0xFF#8 then some none else (inRange 0 hi b.toNat).map some

def daySelectorOf (selector arg : Byte) : Option DaySelector :=
  match selector.toNat with
  | 0 => if arg = 0#8 then some .any else none
  | 1 => if 1 ≤ arg.toNat ∧ arg.toNat ≤ 127 then some (.weekdays arg) else none
  | 2 => (inRange 1 31 arg.toNat).map .dayOfMonth
  | _ => none

/-- The kind fields of bytes 2 to 7; the unnamed ones are 0 (R182, R187). -/
def entryKindOf (kind b2 b3 b4 b5 b6 b7 : Byte) : Option EntryKind :=
  match kind.toNat with
  | 1 => do
    let second ← fieldOf 59 b2
    let minute ← fieldOf 59 b3
    let hour ← fieldOf 23 b4
    let day ← daySelectorOf b5 b6
    if b7 = 0#8 then some (.atTime second minute hour day) else none
  | 2 => do
    let base ← match b2.toNat with
      | 0 => some Base.fine1024 | 1 => some Base.fine64 | 2 => some Base.second | 3 => some Base.minute | _ => none
    let preset ← inRange 1 16777215 (word24 b3 b4 b5)
    if b6 = 0#8 ∧ b7 = 0#8 then some (.countdown base preset) else none
  | 3 => do
    let pin ← if b2 = 0#8 then some Pin.ext0 else if b2 = 1#8 then some Pin.ext1 else none
    let edge ← match b3.toNat with
      | 1 => some EdgeChoice.rising | 2 => some EdgeChoice.falling | 3 => some EdgeChoice.both | _ => none
    if b4 = 0#8 ∧ b5 = 0#8 ∧ b6 = 0#8 ∧ b7 = 0#8 then some (.external pin edge) else none
  | _ => none

/-- The definition an ENTRY SET carries (R116, R187); the caller has checked its length. -/
def definitionOf : List Byte → Option Definition
  | k :: fl :: b2 :: b3 :: b4 :: b5 :: b6 :: b7 :: rest => do
    let kind ← entryKindOf k b2 b3 b4 b5 b6 b7
    let flags ← inRange 0 3 fl.toNat
    let actions ← actionsOf rest
    some ⟨kind, flags.testBit 0, flags.testBit 1, actions⟩
  | _ => none

def fieldByte (f : Option Nat) : Byte := match f with
  | none => 0xFF#8
  | some n => byte n

def LaneAction.code : LaneAction → Byte
  | .close => 1#8 | .swap => 2#8 | .testStart => 3#8 | .testStop => 4#8 | .insert => 5#8 | .capture => 6#8

def Action.image : Action → List Byte
  | .onLanes a mask => [a.code, mask]
  | .mark tag => [7#8, tag]
  | .arm e => [8#8, byte e.val]
  | .disarm e => [9#8, byte e.val]

def DaySelector.image : DaySelector → List Byte
  | .any => [0#8, 0#8]
  | .weekdays set => [1#8, set]
  | .dayOfMonth d => [2#8, byte d]

def Base.code : Base → Byte
  | .fine1024 => 0#8 | .fine64 => 1#8 | .second => 2#8 | .minute => 3#8

def EntryKind.code : EntryKind → Byte
  | .atTime .. => 1#8 | .countdown .. => 2#8 | .external .. => 3#8

/-- Bytes 2 to 7 of a definition (R187). -/
def EntryKind.fields : EntryKind → List Byte
  | .atTime second minute hour day => [fieldByte second, fieldByte minute, fieldByte hour] ++ day.image ++ [0#8]
  | .countdown base preset => base.code :: le24 preset ++ [0#8, 0#8]
  | .external pin edge => [if pin = .ext1 then 1#8 else 0#8, edge.code, 0#8, 0#8, 0#8, 0#8]

/-- A definition takes 8 bytes and 2 for each action (R187). -/
def Definition.image (d : Definition) : List Byte :=
  [d.kind.code, byte (bitAt d.repeats 0 + bitAt d.journalFire 1)] ++ d.kind.fields ++ d.actions.flatMap Action.image

/-! ### The check byte and the reply frame (R179, R180) -/

/-- One shift of the check register (R179). -/
def crcShift (r : Byte) : Byte := if r.msb then (r <<< 1) ^^^ 0x07#8 else r <<< 1

/-- One byte into the check register: exclusive or, then eight shifts (R179). -/
def crcByte (r b : Byte) : Byte :=
  crcShift (crcShift (crcShift (crcShift (crcShift (crcShift (crcShift (crcShift (r ^^^ b))))))))

/-- The check byte over the bytes from LEN on (R179). -/
def crc (bytes : List Byte) : Byte := bytes.foldl crcByte 0#8

/-- The bytes a reply puts on CTX, SOF to CHECK (R180). -/
def Reply.frame (r : Reply) : List Byte :=
  let body := byte (3 + r.results.length) :: r.tag :: r.code :: r.status.code :: r.results
  Config.startOfFrame :: body ++ [crc body]

/-- What an owner answers to a request: a status and, for OK, the results (R180). -/
structure Answer where
  status : Status
  results : List Byte
  deriving DecidableEq, Repr

def Answer.ok (results : List Byte) : Answer := ⟨.ok, results⟩

/-- A reply whose status is not OK carries no results (R180). -/
def Answer.refuse (st : Status) : Answer := ⟨st, []⟩

/-- The four per-lane status bytes: FFh for a lane the mask does not name (R182). -/
def laneStatusBytes (statuses : List (LaneNo × Status)) : List Byte :=
  allLanes.map fun n => match statuses.lookup n with
    | some st => st.code
    | none => 0xFF#8

end Sys2Proof.Machine
end

