-- ==== Sys2Proof/Machine/Flags.lean ====
section
/-! DEFINITION. Condition levels, latches and ATN (09 R168 to R172): the levels as their blocks present them, and what a
change of a level, a port error, a clear and a configuration do to the latches. -/

namespace Sys2Proof.Machine

/-- The lane of that number. -/
def Device.lane (d : Device) (n : LaneNo) : Lane := d.lanes[n.val]

/-- The alarm level of a lane: in MONITOR and not LOCKED, or in TEST and not TRACK (01 R1). -/
def Lane.alarm (l : Lane) : Bool :=
  match l.mode with
  | .off => false
  | .monitor => decide (l.line ≠ .locked)
  | .test => decide (l.line ≠ .track)

def Slot.isFull : Slot → Bool
  | .full _ => true
  | _ => false

/-- JOURNAL_LEVEL (04 R88). -/
def Journal.level (j : Journal) : Bool := decide (j.threshold ≤ j.records.length)

/-- CAPTURE_READY (08 R164). -/
def CaptureUnit.ready (c : CaptureUnit) : Bool := allSlots.any fun k => (c.slots[k.val]).isFull

/-- CLOCK (05 R91). -/
def Timebase.clockLevel (t : Timebase) : Bool := !t.timeValid || t.oscFaultSeen

/-- The level of each condition as its block presents it (R168); PORT_ERROR reads false at all times. -/
def Device.level (d : Device) (c : CondNo) : Bool :=
  match c with
  | 0 => d.journal.level
  | 1 => d.journal.holdOff
  | 2 => d.capture.ready
  | 3 => (d.lane 0).alarm
  | 4 => (d.lane 1).alarm
  | 5 => (d.lane 2).alarm
  | 6 => (d.lane 3).alarm
  | 7 => allLanes.any fun n => (d.lane n).txFault
  | 8 => d.timebase.clockLevel
  | 9 => false

/-- PORT_ERROR, which is an event and no level (R168). -/
def portErrorCond : CondNo := 9

/-- Whether an enabled condition of this mode latches at a change of its level to the given value (R169). -/
def AttentionMode.takes (m : AttentionMode) (level : Bool) : Bool :=
  match m with
  | .rise => level
  | .fall => !level
  | .both => true
  | .level => level

/-- A change of the level reaches the condition (R169); while disabled it is lost. -/
def Condition.change (c : Condition) (level : Bool) : Condition :=
  { c with latch := c.latch || (c.enabled && c.mode.takes level) }

/-- A port error reaches PORT_ERROR; its mode is ignored (R169). -/
def Condition.event (c : Condition) : Condition := { c with latch := c.latch || c.enabled }

/-- Steps 2 and 3 of ATTENTION for one condition (R171). -/
def Condition.serve (c : Condition) (clear level : Bool) : Condition :=
  { c with latch := (c.latch && !clear) || (c.enabled && decide (c.mode = .level) && level) }

/-- ATTENTION CONFIG at one condition (R172). -/
def Condition.configure (c : Condition) (enable : Bool) (mode : AttentionMode) (level : Bool) : Condition :=
  { enabled := enable, mode := mode, latch := enable && (c.latch || (decide (mode = .level) && level)) }

/-- ATN is driven low while at least one latch is set (R170). -/
def Attention.atnLow (a : Attention) : Bool := allConditions.any fun c => (a.conditions[c.val]).latch

def Attention.modify (a : Attention) (c : CondNo) (f : Condition → Condition) : Attention :=
  { a with conditions := a.conditions.set c.val (f a.conditions[c.val]) }

/-- The first change of this condition in the list, and the list without it. -/
def takeChange (c : CondNo) : List LevelChange → Option (Bool × List LevelChange)
  | [] => none
  | ch :: rest =>
    if ch.cond = c then some (ch.level, rest)
    else (takeChange c rest).map fun (level, more) => (level, ch :: more)

/-- The level of a condition as the attention unit has taken it: that of its block, but for the changes that are still on their
way, of which the first moves it away from this level (09 R168, R171; DEDUCED, log 24). -/
def Device.levelTaken (d : Device) (c : CondNo) : Bool :=
  match takeChange c d.attention.changes with
  | some (first, _) => !first
  | none => d.level c

/-- The conditions whose level one event has moved, with the new levels, as it presents them (R168). -/
def changesBetween (before after : Device) : List LevelChange :=
  (allConditions.filter fun c => before.level c != after.level c).map fun c => ⟨c, after.level c⟩

/-- An event presents its level changes to the attention unit (R168). -/
def Device.present (before after : Device) : Device :=
  { after with attention.changes := after.attention.changes ++ changesBetween before after }

/-- A port error reaches the attention unit as one event (10 R178). -/
def Device.portError (d : Device) : Device :=
  { d with attention := d.attention.modify portErrorCond Condition.event }

/-- TXEn is asserted while the lane is in TEST (01 R21). -/
def Lane.txe (l : Lane) : Bool := decide (l.mode = .test)

/-- What TXn carries: the newest transmitted cell, or nothing (held low) while TXEn is released (01 R21, 07 R138). DESIGN CHOICE
(log 26): between the entry to TEST and the first TRANSMIT_CELL it carries no cell yet. -/
def Lane.txd (l : Lane) : Option Cell := if l.txe then l.tx.recent.getLast? else none

end Sys2Proof.Machine
end

