-- ==== Sys2Proof/Machine/Ops.lean ====
section
/-! DEFINITION. The operations every block shares: stamps (05 R97), the journal's taking of a record (04 R75 to R79, R82),
the order on the way (03 R50, 04 R76), writing a record (04 R70 to R72), changing one lane, the end of an event, and a request at
the port (10 R180, R181). -/

namespace Sys2Proof.Machine

/-! ### Stamps (05 R91, R97) -/

/-- The timebase is held while STOPPED or while osc_fault is set (05 R91). -/
def Timebase.held (t : Timebase) : Bool := decide (t.run = .stopped) || t.oscFault

/-- The stamp of this moment (05 R97). -/
def Timebase.stamp (t : Timebase) : Stamp := ⟨t.time, t.fraction, t.timeValid, t.held⟩

/-- The stamp of an arrival: its calendar time, fraction 0, with the flags as they stand when it is taken (05 R97; DEDUCED,
log 2). -/
def Timebase.stampOf (t : Timebase) (time : CalTime) : Stamp := ⟨time, 0, t.timeValid, t.held⟩

def Device.now (d : Device) : Stamp := d.timebase.stamp

/-! ### The journal (04) -/

/-- The sequence number after `n`: 4294967295 is followed by 1 (04 R75). -/
def nextSeq (n : Nat) : Nat := if n = Config.sequenceMax then 1 else n + 1

/-- A record joins the list as the newest with the next sequence number (04 R69, R75). -/
def Journal.append (j : Journal) (r : Record) : Journal :=
  { j with records := j.records ++ [⟨j.next, r⟩], next := nextSeq j.next }

/-- The oldest record leaves the list to make room (04 R77). -/
def Journal.giveUp (j : Journal) : Journal := { j with records := j.records.tail }

/-- Under WRAP the oldest record makes room in a full journal (04 R77). -/
def Journal.appendWrap (j : Journal) (r : Record) : Journal :=
  if j.records.length < Config.journalCapacity then j.append r else j.giveUp.append r

/-- The record that ends a hold-off: source JOURNAL, detail the discard count, no snapshot (04 R79, R82). -/
def Record.resumed (st : Stamp) (discards : Nat) : Record := ⟨st, .journal, .journalResumed, discards, none⟩

/-- Whether an arriving record is stored under the policy held (04 R77 to R79). -/
def Journal.stores (j : Journal) : Bool :=
  match j.policy with
  | .wrap => true
  | .hold =>
    if j.holdOff then decide (j.records.length + 2 ≤ Config.journalCapacity)
    else decide (j.records.length < Config.journalCapacity)

/-- A record arrives at the journal (04 R76 to R79). -/
def Journal.arrive (j : Journal) (r : Record) : Journal :=
  match j.policy with
  | .wrap => j.appendWrap r
  | .hold =>
    if j.stores then
      if j.holdOff then
        Journal.append { j.append (Record.resumed r.stamp j.discards) with holdOff := false, discards := 0 } r
      else j.append r
    else
      { j with holdOff := true, discards := min (j.discards + 1) Config.countMax }

/-- The journal changes, and presents the levels that the change moved (04 R88, 09 R168). -/
def Device.setJournal (d : Device) (j : Journal) : Device := Device.present d { d with journal := j }

/-- A full WRAP journal gives up its oldest record before it stores an arriving one (04 R77). -/
def Journal.makesRoom (j : Journal) : Bool :=
  decide (j.policy = .wrap) && decide (Config.journalCapacity ≤ j.records.length)

/-- A record arrives at the journal, which presents each level change in the order it happens: where the oldest record makes
room, its leaving and the storing are two changes of the count (04 R77, R88, 09 R168). -/
def Device.recordArrives (d : Device) (r : Record) : Device :=
  if d.journal.makesRoom then (d.setJournal d.journal.giveUp).setJournal (d.journal.giveUp.append r)
  else d.setJournal (d.journal.arrive r)

/-- A change of policy with the stamp of its request: from HOLD to WRAP in hold-off, hold-off clears, JOURNAL_RESUMED is
appended under WRAP, and the discard count is set to 0 (04 R82). -/
def Device.setPolicy (d : Device) (p : Policy) : Device :=
  let j := d.journal
  if j.policy = .hold ∧ p = .wrap ∧ j.holdOff = true then
    let d := d.setJournal { j with policy := .wrap, holdOff := false }
    let d := d.recordArrives (Record.resumed d.now j.discards)
    d.setJournal { d.journal with discards := 0 }
  else d.setJournal { j with policy := p }

/-! ### The order on the way (03 R50, 04 R76) -/

/-- Whether a record of this kind is written by an error's count (03 R46, R47). -/
def Kind.ofCount (k : Kind) : Bool := decide (k = .burst) || decide (k = .slotSaturated)

/-- A record on its way may not reach the journal before this earlier one: one of its own event (04 R76), or, of one lane, the
one a count's and the other a close's (03 R50; DEDUCED, log 27). -/
def Sent.waitsFor (x earlier : Sent) : Bool :=
  decide (earlier.event = x.event) ||
  match x.record.source with
  | .lane _ => decide (earlier.record.source = x.record.source) &&
      (x.ofClose && earlier.record.kind.ofCount || x.record.kind.ofCount && earlier.ofClose)
  | _ => false

/-- The records on their way that arrive where those that `first` names must, and those that need not: each one named, and what
such a record waits for. -/
def splitSent (first : Sent → Bool) : List Sent → List Sent × List Sent
  | [] => ([], [])
  | x :: rest =>
    let later := splitSent first rest
    if first x || later.1.any fun y => y.waitsFor x then (x :: later.1, later.2) else (later.1, x :: later.2)

/-- The records that `first` names, and what they wait for, arrive in the order they were written (04 R76). -/
def Device.arriveFirst (d : Device) (first : Sent → Bool) : Device :=
  let split := splitSent first d.inFlight
  split.1.foldl (fun d x => d.recordArrives x.record) { d with inFlight := split.2 }

/-! ### Lanes and records -/

/-- The page a lane runs on (02 R26). -/
def Lane.page (l : Lane) : Profile := l.pages[l.live.val]

/-- The page the host may write (02 R26). -/
def Lane.idle (l : Lane) : Fin 2 := 1 - l.live

/-- Change one lane and nothing else. -/
def Device.modLane (d : Device) (n : LaneNo) (f : Lane → Lane) : Device :=
  { d with lanes := d.lanes.set n.val (f d.lanes[n.val]) }

/-- A lane assembles bytes in LOCKED and TRACK (01 R1). -/
def Lane.assembling (l : Lane) : Bool := decide (l.line = .locked) || decide (l.line = .track)

/-- Slot counts and units of the open interval; 0 while none is open (01 R24, 04 R72). -/
def Lane.xCount (l : Lane) : Nat := (l.interval.map (·.x)).getD 0
def Lane.yCount (l : Lane) : Nat := (l.interval.map (·.y)).getD 0
def Lane.unitsSeen (l : Lane) : Nat := (l.interval.map (·.units)).getD 0

/-- The lane snapshot at this moment (04 R72). -/
def Lane.snapshot (l : Lane) : Snapshot := ⟨l.mode, l.line, l.live, l.swapPending, l.number, l.xCount, l.yCount⟩

/-- A block hands a record to the journal; it is then on its way (04 R76), as one of the records of a close or not (03 R55). -/
def Device.send (d : Device) (r : Record) (ofClose : Bool) : Device :=
  { d with inFlight := d.inFlight ++ [⟨d.events, r, false, ofClose⟩] }

/-- A record that is none of a close. -/
def Device.write (d : Device) (r : Record) : Device := d.send r false

/-- A record whose source is no lane carries no snapshot (04 R71). -/
def Device.writePlain (d : Device) (src : Source) (st : Stamp) (k : Kind) (detail : Nat) : Device :=
  d.write ⟨st, src, k, detail, none⟩

/-- A record of a lane carries a snapshot when the snapshot field of its live page is yes (02 R30, 04 R71). -/
def Device.laneRecord (d : Device) (n : LaneNo) (st : Stamp) (k : Kind) (detail : Nat) : Record :=
  ⟨st, .lane n, k, detail, if (d.lane n).page.snapshot then some (d.lane n).snapshot else none⟩

def Device.writeLane (d : Device) (n : LaneNo) (st : Stamp) (k : Kind) (detail : Nat) : Device :=
  d.write (d.laneRecord n st k detail)

/-- A record of a close: RING_OVERRUN, INTERVAL_CLOSED or the PAGE_SWAPPED of its pending swap (03 R55). -/
def Device.writeClose (d : Device) (n : LaneNo) (st : Stamp) (k : Kind) (detail : Nat) : Device :=
  d.send (d.laneRecord n st k detail) true

/-- The end of an event: its records keep a number of their own (04 R76) and its level changes are presented (09 R168). -/
def Device.settle (before after : Device) : Device :=
  Device.present before
    (if after.inFlight.length = before.inFlight.length then after else { after with events := after.events + 1 })

/-! ### Requests (10 R180, R181) -/

/-- A complete frame returns the receiver to WAITING (10 R177). -/
def Device.frameEnds (d : Device) : Device := { d with port := { d.port with rx := .waiting } }

/-- A frame that is discarded raises one port error (10 R178). -/
def Device.discardFrame (d : Device) : Device := d.frameEnds.portError

/-- The reply begins: tag echoed, code plus 80h (10 R180). -/
def Device.replyWith (d : Device) (tag code : Byte) (a : Answer) : Device :=
  { d with port := { d.port with reply := some ⟨tag, code + 0x80#8, a.status, a.results⟩ } }

/-- A good frame with this code and tag completes. While a reply is in progress it is discarded as an overrun (10 R181);
otherwise its owner takes the request as one event and the reply begins (10 R180). -/
def Device.request (d : Device) (code tag : Byte) (owner : Device → Device × Answer) : Device :=
  if d.port.reply.isSome then d.discardFrame
  else (owner d.frameEnds).1.replyWith tag code (owner d.frameEnds).2

/-- A request taken whole as one event, at whose end its records and level changes stand. -/
def asEvent (owner : Device → Device × Answer) (d : Device) : Device × Answer :=
  (Device.settle d (owner d).1, (owner d).2)

/-- The records written between two devices are a request's (04 R87; the mark is the model's own, log 1). -/
def Device.claim (before after : Device) : Device :=
  { after with inFlight := after.inFlight.take before.inFlight.length ++
      (after.inFlight.drop before.inFlight.length).map fun x => { x with byRequest := true } }

/-- A request whose event may write records: they are its own (04 R87). -/
def asRequest (owner : Device → Device × Answer) (d : Device) : Device × Answer :=
  (Device.claim d (asEvent owner d).1, (asEvent owner d).2)

/-- Every command completes: it changes the device and leaves the queue alone. -/
def State.onDevice (s : State) (f : Device → Device) : Host.Outcome State Fault Refusal :=
  .next { s with dev := f s.dev }

end Sys2Proof.Machine
end

