-- ==== Sys2Proof/Machine/CaptureOps.lean ====
section
/-! DEFINITION. The capture unit's work (08): triggers, the grant, the filling, the completion, truncation and dropping. -/

namespace Sys2Proof.Machine

def Slot.isFree : Slot → Bool
  | .free => true
  | _ => false

/-- The slot is FILLING for that lane. -/
def Slot.fillsFor (n : LaneNo) : Slot → Bool
  | .filling c => decide (c.lane = n)
  | _ => false

/-- The slot FILLING for a lane, if any; a lane has at most one (08 R151). -/
def CaptureUnit.fillingSlot (c : CaptureUnit) (n : LaneNo) : Option SlotNo :=
  allSlots.find? fun k => (c.slots[k.val]).fillsFor n

/-- The lane's pending entry, if any (08 R151). -/
def CaptureUnit.entryOf (c : CaptureUnit) (n : LaneNo) : Option Waiting := c.waiting.find? fun w => decide (w.lane = n)

/-- A capture in progress: a pending entry or a FILLING capture (08 R151). -/
def CaptureUnit.busy (c : CaptureUnit) (n : LaneNo) : Bool := (c.entryOf n).isSome || (c.fillingSlot n).isSome

def CaptureUnit.freeEngine (c : CaptureUnit) : Option (Fin 2) :=
  if (c.engines[0]).isNone then some 0 else if (c.engines[1]).isNone then some 1 else none

def CaptureUnit.freeSlot (c : CaptureUnit) : Option SlotNo := allSlots.find? fun k => (c.slots[k.val]).isFree

def CaptureUnit.setSlot (c : CaptureUnit) (k : SlotNo) (x : Slot) : CaptureUnit := { c with slots := c.slots.set k.val x }

/-- The engine bound to a slot is freed (08 R159, R160). -/
def CaptureUnit.freeEngineOf (c : CaptureUnit) (k : SlotNo) : CaptureUnit :=
  let free (e : Option SlotNo) : Option SlotNo := if e = some k then none else e
  { c with engines := #v[free c.engines[0], free c.engines[1]] }

/-- One grant: the oldest entry, the lower-numbered free engine and the lowest-numbered FREE slot (08 R156). The capture
takes its page and sizes from the lane's live page and its pre-bytes from the lane's history ring (08 R157). -/
def Device.grantOne (d : Device) : Option Device :=
  match d.capture.waiting, d.capture.freeEngine, d.capture.freeSlot with
  | w :: rest, some e, some k =>
    let l := d.lane w.lane
    let pre := l.history.drop (l.history.length - l.page.capturePre)
    some { d with capture := {
      waiting := rest
      engines := d.capture.engines.set e.val (some k)
      slots := d.capture.slots.set k.val (.filling
        { lane := w.lane, kind := w.kind, stamp := w.stamp, lateBy := w.lateBy, page := l.live,
          post := l.page.capturePost, pre := pre.length, data := pre, truncated := false }) } }
  | _, _, _ => none

/-- The grant test, repeated at most `k` times (08 R156). -/
def Device.grantTimes : Nat → Device → Device
  | 0, d => d
  | k + 1, d => match d.grantOne with
    | none => d
    | some d' => Device.grantTimes k d'

/-- The grant test; two engines allow no more than two grants (08 R156). -/
def Device.grantTest (d : Device) : Device := Device.grantTimes 2 d

/-- The detail of CAPTURE_DONE: slot at bits 0 and 1, truncated at bit 15 (10 R184). -/
def captureDoneDetail (k : SlotNo) (truncated : Bool) : Nat := k.val + bitAt truncated 15

/-- The end of the capture in slot `k` (08 R159, R160): FULL, engine freed, CAPTURE_DONE, grant test. -/
def Device.endCapture (d : Device) (k : SlotNo) (c : Capture) (truncated : Bool) (st : Stamp) : Device :=
  let unit := (d.capture.setSlot k (.full { c with truncated := truncated })).freeEngineOf k
  (Device.writePlain { d with capture := unit } .capture st .captureDone (captureDoneDetail k truncated)).grantTest

/-- A FILLING capture of the lane, if there is one, ends truncated (08 R160). -/
def Device.truncate (d : Device) (n : LaneNo) (st : Stamp) : Device :=
  match d.capture.fillingSlot n with
  | none => d
  | some k => match d.capture.slots[k.val] with
    | .filling c => d.endCapture k c true st
    | _ => d

/-- The lane's pending entry, if there is one, is removed and CAPTURE_DROPPED written (08 R161). -/
def Device.dropEntry (d : Device) (n : LaneNo) (st : Stamp) : Device :=
  match d.capture.entryOf n with
  | none => d
  | some w =>
    Device.writeLane { d with capture.waiting := d.capture.waiting.filter fun v => decide (v.lane ≠ n) }
      n st .captureDropped w.kind.code

/-- What a change of the lane's mode does to its captures (01 R19, R20). -/
def Device.endCaptures (d : Device) (n : LaneNo) (st : Stamp) : Device := (d.truncate n st).dropEntry n st

/-- A trigger reaches the unit (08 R153); the Bool says whether it was taken. -/
def Device.trigger (d : Device) (n : LaneNo) (kind : TriggerKind) (st : Stamp) : Device × Bool :=
  if d.capture.busy n then (d, false)
  else (Device.grantTest { d with capture.waiting := d.capture.waiting ++ [⟨n, kind, st, 0⟩] }, true)

/-- A BYTE or BURST trigger; the lane writes CAPTURE_MISSED where it is refused (08 R153). -/
def Device.triggerOrMiss (d : Device) (n : LaneNo) (kind : TriggerKind) (st : Stamp) : Device × Bool :=
  if d.capture.busy n then (d.writeLane n st .captureMissed kind.code, false) else d.trigger n kind st

/-- A byte joins the capture FILLING for the lane, which may complete it (08 R158, R159). -/
def Device.captureByte (d : Device) (n : LaneNo) (b : Byte) (st : Stamp) : Device :=
  match d.capture.fillingSlot n with
  | none => d
  | some k => match d.capture.slots[k.val] with
    | .filling c =>
      let c := { c with data := c.data ++ [b] }
      if c.data.length - c.pre = c.post then d.endCapture k c false st
      else { d with capture := d.capture.setSlot k (.filling c) }
    | _ => d

/-- One more byte assembled since the trigger of the lane's pending entry (08 R154). -/
def CaptureUnit.later (c : CaptureUnit) (n : LaneNo) : CaptureUnit :=
  { c with waiting := c.waiting.map fun w =>
      if w.lane = n then { w with lateBy := min (w.lateBy + 1) Config.lateMax } else w }

end Sys2Proof.Machine
end

