-- ==== Sys2Proof/Machine/AccountingOps.lean ====
section
/-! DEFINITION. The accounting units' work (03) and the swap that a close carries out (02 R34 to R39). -/

namespace Sys2Proof.Machine

/-- Change the lane's open interval, if one is open. -/
def Device.modInterval (d : Device) (n : LaneNo) (f : OpenInterval → OpenInterval) : Device :=
  d.modLane n fun l => { l with interval := l.interval.map f }

/-- A new interval: the given start stamp, counts 0, flags clear (03 R44). -/
def OpenInterval.fresh (start : Stamp) : OpenInterval := ⟨start, 0, 0, 0, false, false, false, false, false⟩

/-- Which error classes a slot's bound class counts (01 R13, 03 COUNTING ERRORS). -/
def SlotClass.counts : SlotClass → LineError → Bool
  | .none, _ => false
  | .code, e => decide (e = .code)
  | .idle, e => decide (e = .idle)
  | .slip, e => decide (e = .slip)
  | .pattern, e => decide (e = .pattern)
  | .codeIdle, e => decide (e = .code ∨ e = .idle)

/-- The burst test after an addition to slot X that made its count `x` (03 R47). -/
def Device.burstTest (d : Device) (n : LaneNo) (x : Nat) (st : Stamp) : Device :=
  let l := d.lane n
  let reported := (l.interval.map (·.burstReported)).getD true
  if l.page.burstThreshold = some x ∧ reported = false then
    let d := d.modInterval n fun iv => { iv with burstReported := true }
    let d := d.writeLane n st .burst x
    if l.page.burstCapture then (d.triggerOrMiss n .burst st).1 else d
  else d

/-- Slot X takes an error (03 R45 to R47). -/
def Device.addX (d : Device) (n : LaneNo) (st : Stamp) : Device :=
  match (d.lane n).interval with
  | none => d
  | some iv =>
    if iv.xSaturated then d
    else
      let x := iv.x + 1
      let d := d.modInterval n fun iv => { iv with x := x }
      let d := d.burstTest n x st
      if x = Config.countMax then
        (d.modInterval n fun iv => { iv with xSaturated := true }).writeLane n st .slotSaturated 0
      else d

/-- Slot Y takes an error (03 R45, R46). -/
def Device.addY (d : Device) (n : LaneNo) (st : Stamp) : Device :=
  match (d.lane n).interval with
  | none => d
  | some iv =>
    if iv.ySaturated then d
    else
      let y := iv.y + 1
      let d := d.modInterval n fun iv => { iv with y := y }
      if y = Config.countMax then
        (d.modInterval n fun iv => { iv with ySaturated := true }).writeLane n st .slotSaturated 1
      else d

/-- An error handed over by the lane: slot X first, then slot Y (03 R45). -/
def Device.countError (d : Device) (n : LaneNo) (e : LineError) (st : Stamp) : Device :=
  let d := if (d.lane n).page.slotX.counts e then d.addX n st else d
  if (d.lane n).page.slotY.counts e then d.addY n st else d

/-- One unit seen (03 R48). -/
def Device.countUnit (d : Device) (n : LaneNo) : Device :=
  d.modInterval n fun iv => { iv with units := min (iv.units + 1) Config.countMax }

/-- The lane reports that it has left synchronisation (01 R14, 03 R49). -/
def Device.reportUnlock (d : Device) (n : LaneNo) : Device := d.modInterval n fun iv => { iv with lostLock := true }

/-- The lane reports the loss of signal (01 R14, 03 R49). -/
def Device.reportNoSignal (d : Device) (n : LaneNo) : Device := d.modInterval n fun iv => { iv with lostSignal := true }

/-- The closed interval record (03 R57). -/
def Lane.closedRecord (l : Lane) (n : LaneNo) (iv : OpenInterval) (reason : CloseReason) (stop : Stamp) : ClosedInterval where
  lane := n
  number := l.number
  page := l.live
  reason := reason
  xClass := l.page.slotX
  xCount := iv.x
  yClass := l.page.slotY
  yCount := iv.y
  xSaturated := iv.xSaturated
  ySaturated := iv.ySaturated
  units := iv.units
  lostLock := iv.lostLock
  lostSignal := iv.lostSignal
  start := iv.start
  stop := stop

/-- The push into the lane's ring, with RING_OVERRUN where it was full (03 R58). -/
def Device.pushClosed (d : Device) (n : LaneNo) (r : ClosedInterval) (st : Stamp) : Device :=
  let ring := (d.lane n).ring
  if ring.length < Config.ringCapacity then d.modLane n fun l => { l with ring := l.ring ++ [r] }
  else
    let d := d.modLane n fun l => { l with ring := l.ring.tail }
    let d := d.writeClose n st .ringOverrun ((ring.head?.map (·.number)).getD 0)
    d.modLane n fun l => { l with ring := l.ring ++ [r] }

/-- The pages exchange roles and the flag clears (02 R34). -/
def Device.exchangePages (d : Device) (n : LaneNo) : Device :=
  d.modLane n fun l => { l with live := l.idle, swapPending := false }

/-- A swap of a lane in OFF (02 R33, R34): the pages exchange roles and PAGE_SWAPPED is written, which is no record of a close. -/
def Device.swapInOff (d : Device) (n : LaneNo) (st : Stamp) : Device :=
  let d := d.exchangePages n
  d.writeLane n st .pageSwapped (d.lane n).live.val

/-- The receive fields whose difference restarts the receive side (02 R35). -/
def Profile.sameLine (p q : Profile) : Bool :=
  decide (p.bitRate = q.bitRate) && decide (p.syncWord = q.syncWord) && decide (p.frameLength = q.frameLength)

/-- The receive side of a lane in MONITOR restarts at a swap (02 R36). -/
def Device.restartReceiver (d : Device) (n : LaneNo) (st : Stamp) : Device :=
  let locked := decide ((d.lane n).line = .locked)
  let d := if locked then d.reportUnlock n else d
  let d := (d.modLane n fun l => { l with history := [] }).truncate n st
  let d := d.modLane n fun l => { l with rx := Receiver.fresh, line := .hunt }
  if locked then d.writeLane n st .laneUnlock 0 else d

/-- The checker of a lane in TEST restarts at a swap (02 R37); `newRate` says that bit_rate differs. -/
def Device.restartChecker (d : Device) (n : LaneNo) (newRate : Bool) (st : Stamp) : Device :=
  let tracking := decide ((d.lane n).line = .track)
  let d := if tracking then d.reportUnlock n else d
  let d := (d.modLane n fun l => { l with history := [] }).truncate n st
  let d := d.modLane n fun l => { l with rx := Receiver.fresh, checker := Checker.fresh, line := .search }
  let d := if newRate then d.modLane n fun l => { l with tx := { l.tx with position := 0 } } else d
  if tracking then d.writeLane n st .patternUnlock 0 else d

/-- The closes that belong to a change of mode carry out a swap without a restart (02 R35, R39). -/
def CloseReason.ofModeChange : CloseReason → Bool
  | .stopped | .testStart | .testStop => true
  | .boundary | .request | .schedule | .timeSet => false

/-- The pending swap at a close, with PAGE_SWAPPED and its restart (02 R34 to R37). -/
def Device.swapAtClose (d : Device) (n : LaneNo) (reason : CloseReason) (st : Stamp) : Device :=
  let old := (d.lane n).page
  let d := d.exchangePages n
  let d := d.writeClose n st .pageSwapped (d.lane n).live.val
  let l := d.lane n
  if reason.ofModeChange || old.sameLine l.page then d
  else match l.mode with
    | .off => d
    | .monitor => d.restartReceiver n st
    | .test => d.restartChecker n (decide (old.bitRate ≠ l.page.bitRate)) st

/-- The close of the lane's open interval (03 R55, R56): `stop` is the end stamp and the stamp of the records of the old
interval, `start` the start stamp of the new interval and the stamp of the records of the swap. -/
def Device.close (d : Device) (n : LaneNo) (reason : CloseReason) (stop start : Stamp) : Device :=
  let l := d.lane n
  match l.interval with
  | none => d
  | some iv =>
    let d := d.pushClosed n (l.closedRecord n iv reason stop) stop
    let d := if l.page.journalCloses then d.writeClose n stop .intervalClosed l.number else d
    let d := d.modLane n fun l => { l with
      number := (l.number + 1) % 65536
      interval := if reason = .stopped then none else some (OpenInterval.fresh start) }
    if (d.lane n).swapPending then d.swapAtClose n reason start else d

/-- Second-of-day of a time (03, CALENDAR BOUNDARIES). -/
def CalTime.secondOfDay (t : CalTime) : Nat := t.hour * 3600 + t.minute * 60 + t.second

/-- The boundary test (03 R52): second 60 is no boundary, and the second-of-day is a multiple of the length. -/
def CalTime.isBoundary (t : CalTime) (length : Nat) : Bool :=
  decide (t.second ≠ 60) && decide (t.secondOfDay % length = 0)

end Sys2Proof.Machine
end

