-- ==== Sys2Proof/Machine/LineOps.lean ====
section
/-! DEFINITION. What a lane does with a cell (01 R2 to R13), what its pattern checker does (07 R140 to R143) and what its
transmitter sends (07 R137, R138, R147). -/

namespace Sys2Proof.Machine

/-- The value of a cell for byte assembly: a violation counts as 0 (01 R2). -/
def cellBit : Cell → Bool
  | .one => true
  | .zero | .violation => false

/-- Bits, the first the least significant. -/
def bitsNat : List Bool → Nat
  | [] => 0
  | b :: rest => (if b then 1 else 0) + 2 * bitsNat rest

/-- The byte whose j-th cell gives bit j (01 R8, R9, 07 R141). -/
def byteOfBits (bits : List Bool) : Byte := BitVec.ofNat 8 (bitsNat bits)

def byteOfCells (cells : List Cell) : Byte := byteOfBits (cells.map cellBit)

/-! ### The sync window (01 R7) -/

/-- The window keeps the 16 most recent cells, oldest first. -/
def pushWindow (w : List Cell) (c : Cell) : List Cell :=
  if w.length < Config.windowCells then w ++ [c] else w.tail ++ [c]

/-- The window matches: 16 cells, none a violation, the k-th equal to bit k of the sync word (01 R7). -/
def windowMatches (w : List Cell) (sync : SyncWord) : Bool :=
  decide (w.length = Config.windowCells) &&
  (List.range Config.windowCells).all fun k =>
    decide (w[k]? = some (if sync.getLsbD k then Cell.one else Cell.zero))

/-! ### Byte hand-off (01 R11, R12) -/

/-- A byte joins the history ring as the newest; a full ring gives up its oldest (01 R12). -/
def pushHistory (h : List Byte) (b : Byte) : List Byte :=
  if h.length < Config.historyCapacity then h ++ [b] else h.tail ++ [b]

/-- The hand-off of one byte (01 R11); `payload` says that it is a payload byte of a line frame. The byte's own trigger
takes neither step 3 nor step 4 (08 R154). -/
def Device.handByte (d : Device) (n : LaneNo) (b : Byte) (payload : Bool) (st : Stamp) : Device :=
  let d := d.modLane n fun l => { l with history := pushHistory l.history b }
  let l := d.lane n
  let compared := decide (l.line = .locked) && payload && decide (l.page.triggerByte = some b)
  let raised := if compared then d.triggerOrMiss n .byte st else (d, false)
  if raised.2 then raised.1
  else
    let d := raised.1.captureByte n b st
    { d with capture := d.capture.later n }

/-- The two sync bytes of a frame, low byte first (01 R11). -/
def Device.handSyncBytes (d : Device) (n : LaneNo) (window : List Cell) (st : Stamp) : Device :=
  (d.handByte n (byteOfCells (window.take 8)) false st).handByte n (byteOfCells (window.drop 8)) false st

/-! ### Losing and regaining the signal (01 R4 to R6) -/

/-- The lane enters NOSIGNAL (01 R5). -/
def Device.loseSignal (d : Device) (n : LaneNo) (st : Stamp) : Device :=
  let assembling := (d.lane n).assembling
  let d := d.reportNoSignal n
  let d := if assembling then d.reportUnlock n else d
  let d := if assembling then (d.modLane n fun l => { l with history := [] }).truncate n st else d
  let d := d.modLane n fun l => { l with
    line := .noSignal
    rx := { l.rx with run := 0, idleCounted := false, validCells := 0, window := [], candidate := none }
    checker := if l.mode = .test then Checker.fresh else l.checker }
  d.writeLane n st .signalLost 0

/-- A cell in NOSIGNAL (01 R6). -/
def Device.noSignalCell (d : Device) (n : LaneNo) (c : Cell) (st : Stamp) : Device :=
  if c = .violation then d.modLane n fun l => { l with rx := { l.rx with validCells := 0 } }
  else
    let count := (d.lane n).rx.validCells + 1
    if count < Config.signalBackCells then d.modLane n fun l => { l with rx := { l.rx with validCells := count } }
    else
      let d := d.modLane n fun l => { l with
        line := if l.mode = .test then .search else .hunt
        rx := { l.rx with run := 0, idleCounted := false, validCells := 0, window := [], candidate := none }
        checker := if l.mode = .test then Checker.fresh else l.checker }
      d.writeLane n st .signalBack 0

/-- A further violation makes the run reach idle_threshold, and the run has counted no IDLE error yet (01 R4). -/
def Lane.idleDue (l : Lane) : Bool := decide (l.rx.run + 1 = l.page.idleThreshold) && !l.rx.idleCounted

/-- Step 2 of R3: the violation run (01 R4, R5). The model's readings: a run at 65535 stays there and reaches no threshold (log 13);
a run under way at a swap to INTERNAL loopback goes on in the new stream and may reach one there (R4, R38 and R139, log 29). -/
def Device.runStep (d : Device) (n : LaneNo) (c : Cell) (st : Stamp) : Device :=
  if c = .violation then
    let l := d.lane n
    if l.rx.run < Config.countMax then
      let d := d.modLane n fun l => { l with rx :=
        { l.rx with run := l.rx.run + 1, idleCounted := l.rx.idleCounted || l.idleDue } }
      let d := if l.idleDue then d.countError n .idle st else d
      if l.rx.run + 1 = l.page.losThreshold then d.loseSignal n st else d
    else d
  else d.modLane n fun l => { l with rx := { l.rx with run := 0, idleCounted := false } }

/-! ### Frame synchronisation (01 R8 to R10) -/

/-- Cells of a line frame (01 FRAME SYNCHRONISATION). -/
def Profile.frameCells (p : Profile) : Nat := p.frameLength * 8

/-- A cell in HUNT: the window test and the candidate (01 R8). -/
def Device.huntCell (d : Device) (n : LaneNo) (c : Cell) (st : Stamp) : Device :=
  let l := d.lane n
  let window := pushWindow l.rx.window c
  let since := l.rx.candidate.map (· + 1)
  if windowMatches window l.page.syncWord then
    if since = some l.page.frameCells then
      let d := d.modLane n fun l => { l with
        line := .locked
        rx := { l.rx with window := window, candidate := none, position := 15, mismatches := 0 } }
      (d.handSyncBytes n window st).writeLane n st .laneLock 0
    else d.modLane n fun l => { l with rx := { l.rx with window := window, candidate := some 0 } }
  else d.modLane n fun l => { l with rx := { l.rx with window := window, candidate := since } }

/-- Loss of lock (01 R10), after the SLIP error of the check has been handed over. -/
def Device.loseLock (d : Device) (n : LaneNo) (st : Stamp) : Device :=
  let d := d.reportUnlock n
  let d := (d.modLane n fun l => { l with history := [] }).truncate n st
  let d := d.modLane n fun l => { l with
    line := .hunt
    rx := { l.rx with window := [], candidate := none } }
  d.writeLane n st .laneUnlock 0

/-- The frame check at position 15 (01 R9, R10). -/
def Device.frameCheck (d : Device) (n : LaneNo) (st : Stamp) : Device :=
  let l := d.lane n
  if windowMatches l.rx.window l.page.syncWord then
    let d := d.countUnit n
    let d := d.modLane n fun l => { l with rx := { l.rx with mismatches := 0 } }
    d.handSyncBytes n l.rx.window st
  else
    let misses := l.rx.mismatches + 1
    let d := d.modLane n fun l => { l with rx := { l.rx with mismatches := misses } }
    let d := d.countError n .slip st
    if misses < Config.unlockMismatches then d.handSyncBytes n l.rx.window st else d.loseLock n st

/-- A cell in LOCKED (01 R9). The newest eight cells of the window are the cells of the byte that a position 8k + 7 ends. -/
def Device.lockedCell (d : Device) (n : LaneNo) (c : Cell) (st : Stamp) : Device :=
  let l := d.lane n
  let position := if l.rx.position + 1 < l.page.frameCells then l.rx.position + 1 else 0
  let window := pushWindow l.rx.window c
  let d := d.modLane n fun l => { l with rx := { l.rx with window := window, position := position } }
  if position = 15 then d.frameCheck n st
  else if 16 ≤ position ∧ position % 8 = 7 then d.handByte n (byteOfCells (window.drop 8)) true st
  else d

/-! ### The pattern (07 R137) and its checker (07 R140 to R142) -/

/-- The lane's pattern under an invert reading (07 R137). -/
def Pattern.inverted (p : Pattern) : Invert → Pattern
  | .none => p
  | .a => { p with a := ~~~p.a }
  | .b => { p with b := ~~~p.b }
  | .both => ⟨~~~p.a, ~~~p.b⟩

/-- The cell at position k of a repetition: bit k of byte A, then bit k - 8 of byte B (07 R137). -/
def Pattern.cell (p : Pattern) (k : Nat) : Bool := if k < 8 then p.a.getLsbD k else p.b.getLsbD (k - 8)

/-- The alignment counts after a cell in SEARCH (07 R140): the alignment that gives this cell position k gave the cell
before it position k - 1. -/
def searchCounts (counts : Vector Nat 16) (p : Pattern) (c : Cell) : Vector Nat 16 :=
  Vector.ofFn fun k : Fin 16 =>
    if c = .violation then 0
    else if cellBit c = p.cell k.val then min ((counts[(k - 1).val]) + 1) Config.trackCells else 0

/-- The alignment that has reached 32, the lowest position first (07 R140). -/
def foundAlignment (counts : Vector Nat 16) : Option (Fin 16) :=
  (List.finRange 16).find? fun k => decide (Config.trackCells ≤ counts[k.val])

/-- A cell in SEARCH (07 R140). -/
def Device.searchCell (d : Device) (n : LaneNo) (c : Cell) (st : Stamp) : Device :=
  let l := d.lane n
  let counts := searchCounts l.checker.counts (d.pattern.inverted l.page.invert) c
  match foundAlignment counts with
  | none => d.modLane n fun l => { l with checker := { l.checker with counts := counts } }
  | some k =>
    let d := d.modLane n fun l => { l with
      line := .track
      checker := { Checker.fresh with alignment := some k, reading := l.page.invert } }
    d.writeLane n st .patternLock 0

/-- The loss of TRACK by mismatches (07 R142), after the PATTERN error has been handed over. -/
def Device.loseTrack (d : Device) (n : LaneNo) (st : Stamp) : Device :=
  let d := d.reportUnlock n
  let d := (d.modLane n fun l => { l with history := [] }).truncate n st
  let d := d.modLane n fun l => { l with
    line := .search
    rx := { l.rx with window := [] }
    checker := Checker.fresh }
  d.writeLane n st .patternUnlock 0

/-- The checker after a cell in TRACK, and whether the cell is a mismatch (07 R137, R141). -/
def Checker.track (k : Checker) (p : Pattern) (live : Invert) (c : Cell) : Checker × Bool :=
  let position : Fin 16 := (k.alignment.getD 15) + 1
  let reading := if position = 0 then live else k.reading
  let whole := decide (position = 0) || k.whole
  let mismatch := decide (cellBit c ≠ (p.inverted reading).cell position.val)
  let newBlock := decide (Config.blockCells ≤ k.blockCells)
  let misses := if newBlock then 0 else k.blockMismatches
  ({ counts := k.counts
     alignment := some position
     reading := reading
     whole := whole
     bits := if !whole then [] else if position = 0 ∨ position = 8 then [cellBit c] else k.bits ++ [cellBit c]
     blockCells := if newBlock then 1 else k.blockCells + 1
     blockMismatches := if mismatch then misses + 1 else misses }, mismatch)

/-- A cell in TRACK (07 R141, R142). -/
def Device.trackCell (d : Device) (n : LaneNo) (c : Cell) (st : Stamp) : Device :=
  let l := d.lane n
  let (checker, mismatch) := l.checker.track d.pattern l.page.invert c
  let d := d.modLane n fun l => { l with checker := checker }
  let d := if mismatch then d.countError n .pattern st else d
  if mismatch = true ∧ Config.blockMismatches ≤ checker.blockMismatches then d.loseTrack n st
  else
    let d := if checker.whole = true ∧ checker.alignment = some 15 then d.countUnit n else d
    if checker.whole = true ∧ (checker.alignment = some 7 ∨ checker.alignment = some 15) then
      d.handByte n (byteOfBits checker.bits) false st
    else d

/-! ### One cell arrival (01 R3) -/

/-- Steps 4 to 6 of R3. -/
def Device.lineCell (d : Device) (n : LaneNo) (c : Cell) (st : Stamp) : Device :=
  match (d.lane n).line with
  | .none | .noSignal => d
  | .hunt => d.huntCell n c st
  | .locked => d.lockedCell n c st
  | .search => d.searchCell n c st
  | .track => d.trackCell n c st

/-- The lane judges a cell of its stream (01 R3). -/
def Device.takeCell (d : Device) (n : LaneNo) (c : Cell) (st : Stamp) : Device :=
  match (d.lane n).line with
  | .none => d
  | .noSignal => d.noSignalCell n c st
  | .hunt | .locked | .search | .track =>
    let d := if c = .violation then d.countError n .code st else d
    (d.runStep n c st).lineCell n c st

/-! ### The transmitter (07 R137, R138, R147) -/

/-- The last three cells sent. -/
def lastThree (cells : List Cell) : List Cell := cells.drop (cells.length - 3)

/-- The invert reading of the cell about to be sent: read at position 0 (07 R137). -/
def Lane.txReading (l : Lane) : Invert := if l.tx.position = 0 then l.page.invert else l.tx.reading

/-- An insertion replaces the cell that follows three transmitted valid 1-cells (07 R147). -/
def Transmitter.inserts (t : Transmitter) : Bool := t.insertPending && decide (t.recent = [.one, .one, .one])

/-- The cell the transmitter sends next (07 R138, R147). -/
def Device.nextCell (d : Device) (n : LaneNo) : Cell :=
  let l := d.lane n
  if l.tx.inserts then .violation
  else if (d.pattern.inverted l.txReading).cell l.tx.position then .one else .zero

/-- The transmitter of a lane in TEST sends its next cell (07 R138, R147). -/
def Device.transmit (d : Device) (n : LaneNo) (st : Stamp) : Device :=
  let l := d.lane n
  let inserts := l.tx.inserts
  let cell := d.nextCell n
  let d := d.modLane n fun l => { l with tx :=
    { insertPending := l.tx.insertPending && !inserts
      position := if l.tx.position < 15 then l.tx.position + 1 else 0
      reading := l.txReading
      recent := lastThree (l.tx.recent ++ [cell]) } }
  if inserts then d.writeLane n st .insertDone 0 else d

end Sys2Proof.Machine
end

