-- ==== Sys2Proof/Machine/LaneOps.lean ====
section
/-! DEFINITION. What a lane does with a request or a schedule action that names it (01 R15 to R23, 02 R33, 03 R63, R64,
07 R144 to R146, 08 R155), and lane masks (01 R16). -/

namespace Sys2Proof.Machine

/-- Who asks: the host or a schedule entry, with the codes of 04 R74. -/
inductive Origin where
  | host | schedule
  deriving DecidableEq, Repr

def Origin.code : Origin → Nat
  | .host => 1 | .schedule => 2

/-- Why a test ended (04 R73): 1 host, 2 schedule, 3 fault, 4 lane stop. -/
inductive TestEnd where
  | host | schedule | fault | laneStop
  deriving DecidableEq, Repr

def TestEnd.code : TestEnd → Nat
  | .host => 1 | .schedule => 2 | .fault => 3 | .laneStop => 4

def Origin.testEnd : Origin → TestEnd
  | .host => .host | .schedule => .schedule

def Origin.closeReason : Origin → CloseReason
  | .host => .request | .schedule => .schedule

def Origin.triggerKind : Origin → TriggerKind
  | .host => .request | .schedule => .schedule

/-- The state a mode starts in (01 R20). -/
def Mode.firstLine : Mode → LineState
  | .off => .none | .monitor => .hunt | .test => .search

/-- The receive side, the transmitter and the checker start afresh in a new mode (01 R20, 07 R144, R145). -/
def Lane.enter (l : Lane) (m : Mode) : Lane :=
  { l with mode := m, line := m.firstLine, history := [], rx := Receiver.fresh, tx := Transmitter.fresh,
           checker := Checker.fresh }

/-- LANE START at a lane (01 R17). -/
def Device.startLane (d : Device) (n : LaneNo) (st : Stamp) : Device × Status :=
  match (d.lane n).mode with
  | .off =>
    let d := d.modLane n fun l => { l.enter .monitor with interval := some (OpenInterval.fresh st) }
    (d.writeLane n st .laneStarted Origin.host.code, .ok)
  | .monitor | .test => (d, .wrongState)

/-- A pending insertion ends unsent (07 R145, 01 R19). -/
def Device.cancelInsert (d : Device) (n : LaneNo) (st : Stamp) : Device :=
  if (d.lane n).tx.insertPending then
    (d.modLane n fun l => { l with tx := { l.tx with insertPending := false } }).writeLane n st .insertCancelled 0
  else d

/-- The stop sequence of a lane in MONITOR or TEST (01 R19). -/
def Device.stopSequence (d : Device) (n : LaneNo) (st : Stamp) : Device :=
  let d := if (d.lane n).mode = .test then
      (d.writeLane n st .testStopped TestEnd.laneStop.code).cancelInsert n st
    else d
  let d := d.endCaptures n st
  let d := d.close n .stopped st st
  let d := d.modLane n fun l => { l with txFault := false }
  (d.modLane n fun l => l.enter .off).writeLane n st .laneStopped Origin.host.code

/-- LANE STOP at a lane (01 R18). -/
def Device.stopLane (d : Device) (n : LaneNo) (st : Stamp) : Device × Status :=
  match (d.lane n).mode with
  | .off => (d, .ok)
  | .monitor | .test => (d.stopSequence n st, .ok)

/-- The end of a test by request, action or fault (07 R145). -/
def Device.endTest (d : Device) (n : LaneNo) (why : TestEnd) (st : Stamp) : Device :=
  let d := d.close n .testStop st st
  let d := d.cancelInsert n st
  let d := d.endCaptures n st
  let tracking := decide ((d.lane n).line = .track)
  let d := d.modLane n fun l => l.enter .monitor
  let d := if tracking then d.reportUnlock n else d
  d.writeLane n st .testStopped why.code

/-- The lane takes a driver fault (01 R22). -/
def Device.takeFault (d : Device) (n : LaneNo) (st : Stamp) : Device :=
  let d := d.modLane n fun l => { l with txFault := true }
  (d.writeLane n st .txFault 0).endTest n .fault st

/-- The start of a test (07 R144); a TXFn already low is the driver fault, taken last (01 R22). -/
def Device.beginTest (d : Device) (n : LaneNo) (origin : Origin) (st : Stamp) : Device :=
  let d := d.close n .testStart st st
  let d := d.endCaptures n st
  let d := d.modLane n fun l => l.enter .test
  let d := d.writeLane n st .testStarted origin.code
  if (d.lane n).txf then d else d.takeFault n st

/-- TEST START at a lane (07 R144). -/
def Device.testStart (d : Device) (n : LaneNo) (origin : Origin) (st : Stamp) : Device × Status :=
  match (d.lane n).mode with
  | .off => (d, .laneOff)
  | .test => (d, .wrongState)
  | .monitor => if (d.lane n).txFault then (d, .txFault) else (d.beginTest n origin st, .ok)

/-- TEST STOP at a lane (07 R145). -/
def Device.testStop (d : Device) (n : LaneNo) (origin : Origin) (st : Stamp) : Device × Status :=
  match (d.lane n).mode with
  | .off => (d, .laneOff)
  | .monitor => (d, .wrongState)
  | .test => (d.endTest n origin.testEnd st, .ok)

/-- INSERT at a lane (07 R146). -/
def Device.insert (d : Device) (n : LaneNo) : Device × Status :=
  match (d.lane n).mode with
  | .off => (d, .laneOff)
  | .monitor => (d, .wrongState)
  | .test =>
    if (d.lane n).tx.insertPending then (d, .pending)
    else (d.modLane n fun l => { l with tx := { l.tx with insertPending := true } }, .ok)

/-- INTERVAL CLOSE at a lane (03 R63, R64). -/
def Device.closeByRequest (d : Device) (n : LaneNo) (origin : Origin) (st : Stamp) : Device × Status :=
  match (d.lane n).mode with
  | .off => (d, .laneOff)
  | .monitor | .test => (d.close n origin.closeReason st st, .ok)

/-- CAPTURE at a lane (08 R155). -/
def Device.captureByRequest (d : Device) (n : LaneNo) (origin : Origin) (st : Stamp) : Device × Status :=
  match (d.lane n).mode with
  | .off => (d, .laneOff)
  | .monitor | .test =>
    let taken := d.trigger n origin.triggerKind st
    (taken.1, if taken.2 then .ok else .captureBusy)

/-- PAGE SWAP with ARM at a lane (02 R33). -/
def Device.armSwap (d : Device) (n : LaneNo) (st : Stamp) : Device × Status :=
  match (d.lane n).mode with
  | .off => (d.swapInOff n st, .ok)
  | .monitor | .test => (d.modLane n fun l => { l with swapPending := true }, .ok)

/-- PAGE SWAP with CANCEL at a lane (02 R33). -/
def Device.cancelSwap (d : Device) (n : LaneNo) : Device × Status :=
  match (d.lane n).mode with
  | .off => (d, .ok)
  | .monitor | .test => (d.modLane n fun l => { l with swapPending := false }, .ok)

/-- An operation on lanes by its name, taken by one lane (01 R15, 06 R115, R129). -/
def Device.laneAction (d : Device) (a : LaneAction) (n : LaneNo) (origin : Origin) (st : Stamp) : Device × Status :=
  match a with
  | .close => d.closeByRequest n origin st
  | .swap => d.armSwap n st
  | .testStart => d.testStart n origin st
  | .testStop => d.testStop n origin st
  | .insert => d.insert n
  | .capture => d.captureByRequest n origin st

/-- The lanes take a request one after another, each whole (01 R16). -/
def Device.onLanes (f : LaneNo → Device → Device × Status) : List LaneNo → Device → Device × List (LaneNo × Status)
  | [], d => (d, [])
  | n :: rest, d =>
    let one := f n d
    let more := Device.onLanes f rest one.1
    (more.1, (n, one.2) :: more.2)

/-- A request with a lane mask (01 R16, 10 R182): BAD_VALUE for a mask that names no lane or has an unnamed bit; otherwise
OK with one status for each lane. -/
def Device.maskRequest (f : LaneNo → Device → Device × Status) (mask : Byte) (d : Device) : Device × Answer :=
  if maskOk mask then
    let taken := Device.onLanes f (maskLanes mask) d
    (taken.1, .ok (laneStatusBytes taken.2))
  else (d, .refuse .badValue)

end Sys2Proof.Machine
end

