-- ==== Sys2Proof/Machine/TableOps.lean ====
section
/-! DEFINITION. The schedule table's work (06): the states of an entry, which events make it due, one fire, its actions, and
the work on an event, which other blocks' events may interrupt between two steps (R129). -/

namespace Sys2Proof.Machine

/-! ### Entry states (06 R118 to R121) -/

/-- A countdown loads its preset; other kinds keep their count, which is 0 (06 R118). -/
def Definition.loaded (d : Definition) (remaining : Nat) : Nat :=
  match d.kind with
  | .countdown _ preset => preset
  | .atTime .. | .external .. => remaining

def Definition.isCountdown (d : Definition) : Bool :=
  match d.kind with
  | .countdown .. => true
  | .atTime .. | .external .. => false

/-- ENTRY ARM and the ARM action (06 R118). -/
def Entry.arm : Entry → Entry × Status
  | .empty => (.empty, .noEntry)
  | .held _ d r => (.held .armed d (d.loaded r), .ok)

/-- ENTRY DISARM and the DISARM action (06 R119). -/
def Entry.disarm : Entry → Entry × Status
  | .empty => (.empty, .noEntry)
  | .held _ d r => (.held .idle d r, .ok)

/-- ENTRY PAUSE (06 R120). -/
def Entry.pause : Entry → Entry × Status
  | .empty => (.empty, .noEntry)
  | .held .armed d r => if d.isCountdown then (.held .paused d r, .ok) else (.held .armed d r, .wrongState)
  | .held st d r => (.held st d r, .wrongState)

/-- ENTRY RESUME (06 R120). -/
def Entry.resume : Entry → Entry × Status
  | .empty => (.empty, .noEntry)
  | .held .paused d r => (.held .armed d r, .ok)
  | .held st d r => (.held st d r, .wrongState)

/-- ENTRY CLEAR (06 R121). -/
def Entry.clear : Entry → Entry × Status
  | _ => (.empty, .ok)

def Device.entry (d : Device) (e : EntryNo) : Entry := d.schedule.entries[e.val]

def Device.setEntry (d : Device) (e : EntryNo) (x : Entry) : Device :=
  { d with schedule := { d.schedule with entries := d.schedule.entries.set e.val x } }

/-- The remaining count an entry reports: 0 for other kinds than a countdown (06 R117). An EMPTY entry holds none (06 R111), and the
0 that the reply of ENTRY CLEAR has in its three bytes is the model's choice (DESIGN CHOICE, log 30). -/
def Entry.remaining : Entry → Nat
  | .empty => 0
  | .held _ d r => if d.isCountdown then r else 0

def Entry.stateCode : Entry → Byte
  | .empty => 0#8
  | .held st _ _ => st.code

/-! ### What makes an entry due (06 R122 to R126) -/

/-- The events the table takes (06 R122). A fine tick may be a 1/64 s tick too. -/
inductive TableEvent where
  | second (a : Arrival)
  | minute (a : Arrival)
  | fine (is64 : Bool)
  | edge (e : Edge)
  deriving DecidableEq, Repr

/-- A field of ANY matches every value (06 R123); a numeric second is at most 59, so it never matches second 60. -/
def fieldMatches (f : Option Nat) (n : Nat) : Bool :=
  match f with
  | none => true
  | some v => decide (v = n)

def DaySelector.matches (s : DaySelector) (a : Arrival) : Bool :=
  match s with
  | .any => true
  | .weekdays set => set.getLsbD a.weekday
  | .dayOfMonth day => decide (day = a.time.day)

/-- The ticks of a countdown's base (06 R113, R124). -/
def Base.ticksAt : Base → TableEvent → Bool
  | .fine1024, .fine _ => true
  | .fine64, .fine is64 => is64
  | .second, .second _ => true
  | .minute, .minute _ => true
  | _, _ => false

def EdgeChoice.takes (c : EdgeChoice) (rising : Bool) : Bool :=
  match c with
  | .none => false
  | .rising => rising
  | .falling => !rising
  | .both => true

/-- A MATCH entry is due at a second arrival that matches, an EXTERNAL entry at an edge it takes (06 R123, R126). -/
def EntryKind.meets : EntryKind → TableEvent → Bool
  | .atTime s m h day, .second a =>
    fieldMatches s a.time.second && fieldMatches m a.time.minute && fieldMatches h a.time.hour && day.matches a
  | .external pin edge, .edge e => decide (pin = e.pin) && edge.takes e.rising
  | _, _ => false

/-- Step 1 of R122 at one entry: the entry after the event, and whether it is due. -/
def Entry.judge (ev : TableEvent) : Entry → Entry × Bool
  | .held .armed d r =>
    match d.kind with
    | .countdown base _ =>
      if base.ticksAt ev then (.held .armed d (r - 1), decide (r - 1 = 0)) else (.held .armed d r, false)
    | k => (.held .armed d r, k.meets ev)
  | x => (x, false)

/-! ### One fire (06 R128 to R131) -/

/-- The fire cause (04 R74): 1 MATCH, 2 COUNTDOWN, 3 EXTERNAL. -/
def EntryKind.fireCause : EntryKind → Nat
  | .atTime .. => 1 | .countdown .. => 2 | .external .. => 3

/-- An entry whose turn has come still fires: ARMED, and a countdown still at 0 (06 R122). -/
def Entry.stillDue : Entry → Bool
  | .held .armed d r => !d.isCountdown || decide (r = 0)
  | _ => false

/-- Step 1 of a fire: a repeating entry stays ARMED and a countdown reloads, a one-shot entry becomes IDLE (06 R128). -/
def Entry.settled : Entry → Entry
  | .empty => .empty
  | .held st d r => if d.repeats then .held st d (d.loaded r) else .held .idle d r

/-- The steps of one action, one for each target (06 R129). DESIGN CHOICE (log 25): a share may end between two lanes of one
mask, and other blocks may then take events there. -/
def Action.ops (e : EntryNo) (place : Nat) : Action → List TableOp
  | .onLanes a mask => (maskLanes mask).map (.onLane e place a)
  | .mark tag => [.mark e tag]
  | .arm target => [.arm e place target]
  | .disarm target => [.disarm e place target]

/-- The steps of an action list, the first action at the given place. -/
def actionOps (e : EntryNo) : Nat → List Action → List TableOp
  | _, [] => []
  | place, a :: rest => a.ops e place ++ actionOps e (place + 1) rest

def Entry.fireOps (e : EntryNo) : Entry → List TableOp
  | .empty => []
  | .held _ d _ => actionOps e 0 d.actions

/-- The detail of ACTION_REFUSED: status at bits 0 to 7, target at bits 8 to 10, place at bits 12 and 13 (10 R184). -/
def refusedDetail (place target : Nat) (st : Status) : Nat := st.code.toNat + 256 * target + 4096 * place

/-- A refusal by an owner writes ACTION_REFUSED; OK writes nothing (06 R130). -/
def Device.noteRefusal (d : Device) (e : EntryNo) (place target : Nat) (st : Stamp) (status : Status) : Device :=
  if status = .ok then d
  else d.writePlain (.schedule e) st .actionRefused (refusedDetail place target status)

/-- SCHEDULE_FIRED, written when journal_fire is yes (06 R128). -/
def Device.noteFire (d : Device) (e : EntryNo) (st : Stamp) : Device :=
  match d.entry e with
  | .empty => d
  | .held _ df _ =>
    if df.journalFire then d.writePlain (.schedule e) st .scheduleFired df.kind.fireCause else d

/-- A MARK action: the journal takes the MARK before the next step of the work (06 R128, R129), behind the records that the event
has written before it (04 R76; DEDUCED, log 28). -/
def Device.markAction (d : Device) (e : EntryNo) (tag : Byte) (st : Stamp) : Device :=
  (d.arriveFirst fun x => decide (x.event = d.events)).recordArrives ⟨st, .schedule e, .mark, tag.toNat, none⟩

/-- One step of the table's work: the device after it, with the levels it moved presented, and the steps still to do. A DISARM takes the turn of its target
away: an entry that an earlier fire at this event has disarmed is no longer due (06 R122, R131). -/
def Device.tableOp (d : Device) (st : Stamp) (op : TableOp) (rest : List TableOp) : Device × List TableOp :=
  match op with
  | .turn e =>
    if (d.entry e).stillDue then
      ((d.setEntry e (d.entry e).settled).noteFire e st, (d.entry e).fireOps e ++ rest)
    else (d, rest)
  | .onLane e place a n =>
    let taken := d.laneAction a n .schedule st
    (Device.present d (taken.1.noteRefusal e place n.val st taken.2), rest)
  | .mark e tag => (d.markAction e tag st, rest)
  | .arm e place target =>
    ((d.setEntry target (d.entry target).arm.1).noteRefusal e place target.val st (d.entry target).arm.2, rest)
  | .disarm e place target =>
    ((d.setEntry target (d.entry target).disarm.1).noteRefusal e place target.val st (d.entry target).disarm.2,
      rest.filter fun o => decide (o ≠ .turn target))

/-- At most `k` steps of the table's work. -/
def Device.tableOps (st : Stamp) : Nat → Device → List TableOp → Device × List TableOp
  | 0, d, ops => (d, ops)
  | _ + 1, d, [] => (d, [])
  | k + 1, d, op :: rest =>
    let next := d.tableOp st op rest
    Device.tableOps st k next.1 next.2

/-- How many steps are left at most: a turn may put the actions of its entry before the rest (06 R128). -/
def Device.stepsLeft (d : Device) (ops : List TableOp) : Nat :=
  (ops.map fun op => match op with
    | .turn e => 1 + ((d.entry e).fireOps e).length
    | .onLane .. | .mark .. | .arm .. | .disarm .. => 1).sum

/-- The table does a share of the work on its event, all of it where no share is given; its records carry the number of
that event. -/
def Device.runTable (d : Device) (share : Option Nat) : Device :=
  match d.schedule.work with
  | none => d
  | some w =>
    let done := Device.tableOps w.stamp (share.getD (d.stepsLeft w.ops)) { d with events := w.event } w.ops
    { done.1 with
      events := d.events
      schedule := { done.1.schedule with work := if done.2.isEmpty then none else some { w with ops := done.2 } } }

/-- Step 1 of R122 at all eight entries. -/
def Device.judgeAll (d : Device) (ev : TableEvent) : Device :=
  { d with schedule := { d.schedule with
      entries := Vector.ofFn fun e : EntryNo => ((d.entry e).judge ev).1 } }

/-- The entries an event makes due, in increasing number (06 R122). -/
def Device.dueEntries (d : Device) (ev : TableEvent) : List EntryNo :=
  allEntries.filter fun e => ((d.entry e).judge ev).2

/-- The table takes an event: it judges its entries, and the due ones have their turns before them (06 R122). -/
def Device.beginEvent (d : Device) (ev : TableEvent) (st : Stamp) : Device :=
  let due := d.dueEntries ev
  let d := d.judgeAll ev
  if due.isEmpty then d
  else { d with
    schedule := { d.schedule with work := some ⟨st, d.events, due.map .turn⟩ }
    events := d.events + 1 }

/-- The table goes on with the event it is working on; it takes another event only when that work is done (06 R122). -/
def Device.tableEvent (d : Device) (share : Option Nat) (take : Device → Option Device) : Device :=
  match d.schedule.work with
  | some _ => d.runTable share
  | none => match take d with
    | none => d
    | some d' => d'.runTable share

/-- The whole work on the event under way: a request to the table is never taken between the steps of a fire (06, REQUESTS
MEETING FIRES; log 6). -/
def Device.finishTable (d : Device) : Device := d.runTable none

/-- The table takes its oldest second arrival (06 R123, R124). -/
def Device.takeSecond (d : Device) : Option Device :=
  match d.schedule.seconds with
  | [] => none
  | a :: rest =>
    some (Device.beginEvent { d with schedule := { d.schedule with seconds := rest } } (.second a)
      (d.timebase.stampOf a.time))

/-- The table takes its oldest minute arrival (06 R124). -/
def Device.takeMinute (d : Device) : Option Device :=
  match d.schedule.minutes with
  | [] => none
  | a :: rest =>
    some (Device.beginEvent { d with schedule := { d.schedule with minutes := rest } } (.minute a)
      (d.timebase.stampOf a.time))

/-- The next tick of a block to which `owed` ticks are still due is also a 1/64 s tick (05 R92). -/
def Timebase.is64 (t : Timebase) (owed : Int) : Bool := decide (((t.divider : Int) - owed + 1) % 16 = 0)

/-- The table takes a fine tick (06 R124), before or after the timebase takes it (05 R92), with the stamp of the moment it
takes it (06 R128); while osc_fault is set it takes none (06 R127). -/
def Device.takeFine (d : Device) : Option Device :=
  if d.timebase.oscFault then none
  else
    some (Device.beginEvent { d with schedule := { d.schedule with ticks := d.schedule.ticks - 1 } }
      (.fine (d.timebase.is64 d.schedule.ticks)) d.now)

/-- The first edge of this pin in the list, and the list without it. -/
def firstEdge (p : Pin) : List Edge → Option (Edge × List Edge)
  | [] => none
  | e :: rest => if e.pin = p then some (e, rest) else (firstEdge p rest).map fun (x, more) => (x, e :: more)

/-- The table takes the oldest filtered edge of a pin (06 R126). -/
def Device.takeEdge (p : Pin) (d : Device) : Option Device :=
  match firstEdge p d.schedule.edges with
  | none => none
  | some (e, rest) =>
    some (Device.beginEvent { d with schedule := { d.schedule with edges := rest } } (.edge e) d.now)

/-- A due countdown whose turn has come fires with all its actions (06 R124, R128): it is the next step of the table's work,
ARMED, at 0. Otherwise nothing expires. -/
def Device.expire (d : Device) (e : EntryNo) : Device :=
  match d.schedule.work, d.entry e with
  | some w, .held .armed df r =>
    if w.ops.head? = some (.turn e) ∧ df.isCountdown = true ∧ r = 0 then
      d.runTable (some (1 + ((d.entry e).fireOps e).length))
    else d
  | _, _ => d

end Sys2Proof.Machine
end

