-- ==== Sys2Proof/Machine/TimeOps.lean ====
section
/-! DEFINITION. The timebase's work (05): the carry of the calendar, fine ticks and their delivery, the check of a setting, and
the event input filter that the ticks drive (09 R173). -/

namespace Sys2Proof.Machine

/-- The length of a month (05 R95). -/
def monthLength (year month : Nat) : Nat :=
  if month = 2 then (if year % 4 = 0 then 29 else 28)
  else if month = 4 ∨ month = 6 ∨ month = 9 ∨ month = 11 then 30 else 31

/-- The day after (05 R94). -/
def CalTime.nextDay (t : CalTime) : CalTime :=
  if t.day < monthLength t.year t.month then { t with day := t.day + 1 }
  else if t.month < 12 then { t with day := 1, month := t.month + 1 }
  else if t.year < 99 then { t with day := 1, month := 1, year := t.year + 1 }
  else { t with day := 1, month := 1, year := 0 }

/-- The minute advances and carries upward (05 R94). -/
def Timebase.carryMinute (t : Timebase) : Timebase :=
  if t.time.minute < 59 then { t with time := { t.time with minute := t.time.minute + 1 } }
  else if t.time.hour < 23 then { t with time := { t.time with minute := 0, hour := t.time.hour + 1 } }
  else { t with
    time := CalTime.nextDay { t.time with minute := 0, hour := 0 }
    weekday := if t.weekday < 6 then t.weekday + 1 else 0 }

/-- The last second of a day that a leap second follows (05 R96). -/
def Timebase.beforeLeap (t : Timebase) : Bool :=
  t.leapPending && decide (t.time.hour = 23) && decide (t.time.minute = 59) && decide (t.time.second = 59)

/-- The second advances (05 R93, R94, R96); the Bool says whether it makes a minute arrival. -/
def Timebase.carrySecond (t : Timebase) : Timebase × Bool :=
  if t.beforeLeap then ({ t with time := { t.time with second := 60 }, leapPending := false }, false)
  else if t.time.second < 59 then ({ t with time := { t.time with second := t.time.second + 1 } }, false)
  else (Timebase.carryMinute { t with time := { t.time with second := 0 } }, true)

/-- What an arrival carries: the new calendar time (05 R93, R94) and the weekday held at its delivery, with which a MATCH entry
is matched whatever a TIME SET does before the table takes the arrival (DEDUCED, log 21). -/
def Timebase.arrival (t : Timebase) : Arrival := ⟨t.time, t.weekday⟩

/-- A second arrival is delivered once to every accounting unit and to the table, a minute arrival to the table (05 R93,
R94). -/
def Device.deliver (d : Device) (minute : Bool) : Device :=
  let a := d.timebase.arrival
  { d with
    lanes := Vector.ofFn fun n : LaneNo => { d.lane n with seconds := (d.lane n).seconds ++ [a] }
    schedule := { d.schedule with
      seconds := d.schedule.seconds ++ [a]
      minutes := if minute then d.schedule.minutes ++ [a] else d.schedule.minutes } }

/-- The divider's tick goes to the table and to the filter, which each take it as their own event (05 R92). -/
def Device.deliverTick (d : Device) : Device :=
  { d with
    timebase := { d.timebase with divider := if d.timebase.divider < 15 then d.timebase.divider + 1 else 0 }
    schedule := { d.schedule with ticks := d.schedule.ticks + 1 } }

/-- A fine tick at the timebase (05 R92, R93): none while osc_fault is set; the fraction stands while STOPPED. -/
def Device.fineTick (d : Device) : Device :=
  if d.timebase.oscFault then d
  else
    let d := d.deliverTick
    if d.timebase.run = .stopped then d
    else if d.timebase.fraction < 1023 then { d with timebase := { d.timebase with fraction := d.timebase.fraction + 1 } }
    else
      let carried := Timebase.carrySecond { d.timebase with fraction := 0 }
      Device.deliver { d with timebase := carried.1 } carried.2

/-! ### TIME SET (05 R99, R100) -/

/-- A calendar setting (05 R99). -/
structure Setting where
  time : CalTime
  weekday : Nat
  leap : Bool
  deriving DecidableEq, Repr

/-- The first check of R99: every field in range, the day within its month, second 60 only at 23:59 with leap no. -/
def Setting.inRange (x : Setting) : Bool :=
  decide (x.time.year ≤ 99) && decide (1 ≤ x.time.month ∧ x.time.month ≤ 12) &&
  decide (1 ≤ x.time.day ∧ x.time.day ≤ monthLength x.time.year x.time.month) &&
  decide (x.time.hour ≤ 23) && decide (x.time.minute ≤ 59) && decide (x.time.second ≤ 60) && decide (x.weekday ≤ 6) &&
  (decide (x.time.second ≠ 60) || (decide (x.time.hour = 23) && decide (x.time.minute = 59) && !x.leap))

/-- Step 2 of R100. -/
def Timebase.set (t : Timebase) (x : Setting) : Timebase :=
  { t with time := x.time, fraction := 0, weekday := x.weekday, leapPending := x.leap, timeValid := true,
           oscFaultSeen := false }

/-- Step 3 of R100 at one lane: a lane in OFF is passed over. -/
def Device.closeForSetting (d : Device) (n : LaneNo) (old new : Stamp) : Device :=
  match (d.lane n).mode with
  | .off => d
  | .monitor | .test => d.close n .timeSet old new

/-- An accepted TIME SET (05 R100, R101). -/
def Device.setTime (d : Device) (x : Setting) : Device :=
  let old := d.now
  let d := { d with timebase := d.timebase.set x }
  let new := d.now
  let d := allLanes.foldl (fun d n => d.closeForSetting n old new) d
  d.writePlain .timebase new .timeSet 0

/-! ### The oscillator (05 R107, R108) -/

/-- The detection of an oscillator fault (05 R107); not judged while osc_fault is set. -/
def Device.detectFault (d : Device) : Device :=
  if d.timebase.oscFault then d
  else
    let d := { d with timebase := { d.timebase with
      oscFault := true, oscFaultSeen := true, timeValid := false, measure := none } }
    d.writePlain .timebase d.now .oscFault 0

/-- The recovery measure reaches 100 ms (05 R108): only during a fault, and only once the measure has started. -/
def Device.recover (d : Device) : Device :=
  if d.timebase.oscFault && d.timebase.measure.isSome then
    let d := { d with timebase := { d.timebase with oscFault := false, measure := none } }
    d.writePlain .timebase d.now .oscResumed 0
  else d

/-! ### The event input filter (09 R173) -/

/-- One sample at one pin: the pin after it, and whether the filtered level changed (09 R173). -/
def PinFilter.sample (p : PinFilter) (level : Bool) : PinFilter × Bool :=
  if level = p.level then ({ p with count := 0 }, false)
  else if p.count + 1 < 4 then ({ p with count := p.count + 1 }, false)
  else ({ p with level := level, count := 0 }, true)

/-- The filtered edge of a pin whose level has changed. -/
def edgeOf (pin : Pin) (p : PinFilter) (changed : Bool) : List Edge := if changed then [⟨pin, p.level⟩] else []

/-- The filter takes a fine tick (09 R173; none while osc_fault is set) and hands each edge to the table and to the journal side (09 R174). -/
def Device.sample (d : Device) (ext0 ext1 : Bool) : Device :=
  if d.timebase.oscFault then d
  else
    let s0 := d.inputs.ext0.sample ext0
    let s1 := d.inputs.ext1.sample ext1
    let edges := edgeOf .ext0 s0.1 s0.2 ++ edgeOf .ext1 s1.1 s1.2
    { d with
      inputs := { ext0 := s0.1, ext1 := s1.1, edges := d.inputs.edges ++ edges.map fun e => ⟨e, d.now⟩ }
      schedule := { d.schedule with edges := d.schedule.edges ++ edges } }

def EventInputs.pin (i : EventInputs) : Pin → PinFilter
  | .ext0 => i.ext0
  | .ext1 => i.ext1

/-- The first edge of this pin handed to the journal side, and the list without it. -/
def firstStamped (p : Pin) : List StampedEdge → Option (StampedEdge × List StampedEdge)
  | [] => none
  | e :: rest =>
    if e.edge.pin = p then some (e, rest) else (firstStamped p rest).map fun (x, more) => (x, e :: more)

/-- The journal side takes the oldest edge of a pin (09 R174): EXT_EDGE where its choice takes the edge. -/
def Device.noteEdge (d : Device) (p : Pin) : Device :=
  match firstStamped p d.inputs.edges with
  | none => d
  | some (e, rest) =>
    let d := { d with inputs := { d.inputs with edges := rest } }
    if (d.inputs.pin p).choice.takes e.edge.rising then
      d.writePlain (.ext p) e.stamp .extEdge (if e.edge.rising then 1 else 2)
    else d

end Sys2Proof.Machine
end

