-- ==== Sys2Proof/Machine/Lanes.lean ====
section
/-! DEFINITION. The lane requests: LANE START, STOP, STATUS, PROFILE SET and GET, PAGE SWAP, INTERVAL CLOSE and TAKE, TEST
START and STOP, INSERT (codes 20h to 2Ah), with the test pattern requests (06h, 07h). -/

namespace Sys2Proof.Machine

/-! ### LANE START, LANE STOP, LANE STATUS (01 R17 to R19, R24) -/

/-- A request that names one lane in its one parameter byte (10 R183): BAD_LENGTH, then BAD_VALUE. -/
def laneRequest (params : List Byte) (take : LaneNo → Device → Device × Answer) (d : Device) : Device × Answer :=
  match params with
  | [b] => match laneOf b with
    | some n => take n d
    | none => (d, .refuse .badValue)
  | _ => (d, .refuse .badLength)

def ownLaneStart (params : List Byte) : Device → Device × Answer :=
  asRequest <| laneRequest params fun n d => ((d.startLane n d.now).1, ⟨(d.startLane n d.now).2, []⟩)

def execLaneStart (tag : Byte) (params : List Byte) (s : State) : Host.Outcome State Fault Refusal :=
  s.onDevice fun d => d.request 0x20#8 tag (ownLaneStart params)

def ownLaneStop (params : List Byte) : Device → Device × Answer :=
  asRequest <| laneRequest params fun n d => ((d.stopLane n d.now).1, ⟨(d.stopLane n d.now).2, []⟩)

def execLaneStop (tag : Byte) (params : List Byte) (s : State) : Host.Outcome State Fault Refusal :=
  s.onDevice fun d => d.request 0x21#8 tag (ownLaneStop params)

/-- The capture state of a lane: 0 none, 1 pending, 2 filling (01 R24, 10 R182). -/
def CaptureUnit.laneState (c : CaptureUnit) (n : LaneNo) : Byte :=
  if (c.fillingSlot n).isSome then 2#8 else if (c.entryOf n).isSome then 1#8 else 0#8

/-- The LANE STATUS results (01 R24, 10 R183); the start stamp is all zero in OFF. -/
def Device.laneStatus (d : Device) (n : LaneNo) : List Byte :=
  let l := d.lane n
  [modeByte l.mode l.line,
    byte (l.live.val + bitAt l.swapPending 1 + bitAt l.tx.insertPending 2 + bitAt l.txFault 3 +
      bitAt l.interval.isSome 4)] ++
  le16 l.number ++
  (match l.interval with
    | none => List.replicate 8 0#8
    | some iv => iv.start.image) ++
  le16 l.xCount ++ le16 l.yCount ++ le16 l.unitsSeen ++ [byte l.ring.length, d.capture.laneState n]

def ownLaneStatus (params : List Byte) : Device → Device × Answer :=
  laneRequest params fun n d => (d, .ok (d.laneStatus n))

def execLaneStatus (tag : Byte) (params : List Byte) (s : State) : Host.Outcome State Fault Refusal :=
  s.onDevice fun d => d.request 0x22#8 tag (ownLaneStatus params)

/-! ### Profiles and pages (02 R31 to R33) -/

/-- PROFILE SET at a lane, its record in range: PENDING while a swap is pending, otherwise the idle page takes the whole
record (02 R31). -/
def Device.setProfile (d : Device) (n : LaneNo) (p : Profile) : Device × Answer :=
  if (d.lane n).swapPending then (d, .refuse .pending)
  else (d.modLane n fun l => { l with pages := l.pages.set l.idle.val p }, .ok [byte (d.lane n).idle.val])

def ownProfileSet (params : List Byte) (d : Device) : Device × Answer :=
  if params.length = 18 then
    match laneOf (params.headD 0#8), profileOf params.tail with
    | some n, some p => d.setProfile n p
    | _, _ => (d, .refuse .badValue)
  else (d, .refuse .badLength)

def execProfileSet (tag : Byte) (params : List Byte) (s : State) : Host.Outcome State Fault Refusal :=
  s.onDevice fun d => d.request 0x23#8 tag (ownProfileSet params)

/-- The PROFILE GET results: page, flags (live at bit 0, swap pending at bit 1), profile (02 R32, 10 R183). -/
def Device.profileResults (d : Device) (n : LaneNo) (page : Fin 2) : List Byte :=
  let l := d.lane n
  [byte page.val, byte (bitAt (decide (l.live = page)) 0 + bitAt l.swapPending 1)] ++ (l.pages[page.val]).image

def ownProfileGet (params : List Byte) (d : Device) : Device × Answer :=
  match params with
  | [lane, page] => match laneOf lane, pageOf page with
    | some n, some p => (d, .ok (d.profileResults n p))
    | _, _ => (d, .refuse .badValue)
  | _ => (d, .refuse .badLength)

def execProfileGet (tag : Byte) (params : List Byte) (s : State) : Host.Outcome State Fault Refusal :=
  s.onDevice fun d => d.request 0x24#8 tag (ownProfileGet params)

/-- PAGE SWAP (02 R33): the choice is 1 ARM or 2 CANCEL; any other is refused before any lane takes it. -/
def ownPageSwap (params : List Byte) : Device → Device × Answer :=
  asRequest fun d => match params with
  | [mask, choice] =>
    if choice = 1#8 then Device.maskRequest (fun n d => d.armSwap n d.now) mask d
    else if choice = 2#8 then Device.maskRequest (fun n d => d.cancelSwap n) mask d
    else (d, .refuse .badValue)
  | _ => (d, .refuse .badLength)

def execPageSwap (tag : Byte) (params : List Byte) (s : State) : Host.Outcome State Fault Refusal :=
  s.onDevice fun d => d.request 0x25#8 tag (ownPageSwap params)

/-! ### Requests with a lane mask alone (01 R16) -/

/-- The lanes of the mask take the named operation from the host (01 R15, R16). -/
def maskOnly (a : LaneAction) (params : List Byte) (d : Device) : Device × Answer :=
  match params with
  | [mask] => Device.maskRequest (fun n d => d.laneAction a n .host d.now) mask d
  | _ => (d, .refuse .badLength)

def ownIntervalClose (params : List Byte) : Device → Device × Answer := asRequest (maskOnly .close params)

def execIntervalClose (tag : Byte) (params : List Byte) (s : State) : Host.Outcome State Fault Refusal :=
  s.onDevice fun d => d.request 0x26#8 tag (ownIntervalClose params)

def ownTestStart (params : List Byte) : Device → Device × Answer := asRequest (maskOnly .testStart params)

def execTestStart (tag : Byte) (params : List Byte) (s : State) : Host.Outcome State Fault Refusal :=
  s.onDevice fun d => d.request 0x28#8 tag (ownTestStart params)

def ownTestStop (params : List Byte) : Device → Device × Answer := asRequest (maskOnly .testStop params)

def execTestStop (tag : Byte) (params : List Byte) (s : State) : Host.Outcome State Fault Refusal :=
  s.onDevice fun d => d.request 0x29#8 tag (ownTestStop params)

def ownInsert (params : List Byte) : Device → Device × Answer := asRequest (maskOnly .insert params)

def execInsert (tag : Byte) (params : List Byte) (s : State) : Host.Outcome State Fault Refusal :=
  s.onDevice fun d => d.request 0x2A#8 tag (ownInsert params)

/-! ### INTERVAL TAKE (03 R65) -/

/-- The oldest records leave the ring, as many as asked for or held; the reply gives how many, how many are left, and the
records (03 R65). -/
def Device.takeIntervals (d : Device) (n : LaneNo) (count : Nat) : Device × Answer :=
  let ring := (d.lane n).ring
  (d.modLane n fun l => { l with ring := l.ring.drop count },
    .ok ([byte (ring.take count).length, byte (ring.drop count).length] ++
      (ring.take count).flatMap ClosedInterval.image))

def ownIntervalTake (params : List Byte) (d : Device) : Device × Answer :=
  match params with
  | [lane, count] => match laneOf lane, inRange 1 8 count.toNat with
    | some n, some k => d.takeIntervals n k
    | _, _ => (d, .refuse .badValue)
  | _ => (d, .refuse .badLength)

def execIntervalTake (tag : Byte) (params : List Byte) (s : State) : Host.Outcome State Fault Refusal :=
  s.onDevice fun d => d.request 0x27#8 tag (ownIntervalTake params)

/-! ### The test pattern (07 R135, R136) -/

/-- PATTERN SET is refused with WRONG_STATE while any lane is in TEST (07 R136). -/
def ownPatternSet (params : List Byte) (d : Device) : Device × Answer :=
  match params with
  | [a, b] =>
    if allLanes.any fun n => decide ((d.lane n).mode = .test) then (d, .refuse .wrongState)
    else ({ d with pattern := ⟨a, b⟩ }, .ok [])
  | _ => (d, .refuse .badLength)

def execPatternSet (tag : Byte) (params : List Byte) (s : State) : Host.Outcome State Fault Refusal :=
  s.onDevice fun d => d.request 0x06#8 tag (ownPatternSet params)

def ownPatternGet (params : List Byte) (d : Device) : Device × Answer :=
  match params with
  | [] => (d, .ok [d.pattern.a, d.pattern.b])
  | _ => (d, .refuse .badLength)

def execPatternGet (tag : Byte) (params : List Byte) (s : State) : Host.Outcome State Fault Refusal :=
  s.onDevice fun d => d.request 0x07#8 tag (ownPatternGet params)

end Sys2Proof.Machine
end

