-- ==== Sys2Proof/Machine/Line.lean ====
section
/-! DEFINITION. The line events of a lane: a cell on RXn, a transmitted cell, the level on TXFn, and a second arrival at its
accounting unit. -/

namespace Sys2Proof.Machine

/-- A lane in TEST with INTERNAL loopback does not look at RXn (01 R2, 07 R139). -/
def Lane.looksAtLine (l : Lane) : Bool := !(decide (l.mode = .test) && decide (l.page.loopback = .internal))

/-- CELL_ARRIVAL (01 R2, R3): a cell on RXn; a lane in OFF judges none. -/
def execCellArrival (lane : LaneNo) (cell : Cell) (s : State) : Host.Outcome State Fault Refusal :=
  s.onDevice fun d => if (d.lane lane).looksAtLine then Device.settle d (d.takeCell lane cell d.now) else d

/-- TRANSMIT_CELL (07 R138, R147); with INTERNAL loopback the cell is a cell arrival at the moment it is sent (07 R139). -/
def execTransmitCell (lane : LaneNo) (s : State) : Host.Outcome State Fault Refusal :=
  s.onDevice fun d =>
    if (d.lane lane).mode = .test then
      let sent := Device.settle d (d.transmit lane d.now)
      if (d.lane lane).page.loopback = .internal then
        Device.settle sent (sent.takeCell lane (d.nextCell lane) sent.now)
      else sent
    else d

/-- DRIVER_FAULT (01 R22, R23): TXFn takes a level. Low in TEST is the driver fault; in OFF and MONITOR it is ignored, but a
test that starts while it is low finds it so. -/
def execDriverFault (lane : LaneNo) (level : Bool) (s : State) : Host.Outcome State Fault Refusal :=
  s.onDevice fun d =>
    let d' := d.modLane lane fun l => { l with txf := level }
    if (d.lane lane).mode = .test ∧ level = false then Device.settle d (d'.takeFault lane d.now) else d'

/-- The accounting unit's work at a second arrival (03 R51, R52). -/
def Device.boundary (d : Device) (n : LaneNo) (a : Arrival) : Device :=
  match (d.lane n).mode, (d.lane n).page.intervalMode.length with
  | .off, _ | _, none => d
  | .monitor, some length | .test, some length =>
    if a.time.isBoundary length then
      d.close n .boundary (d.timebase.stampOf a.time) (d.timebase.stampOf a.time)
    else d

/-- SECOND_ARRIVAL (03 R52): the accounting unit takes its oldest second arrival; none delivered, nothing happens. -/
def execSecondArrival (lane : LaneNo) (s : State) : Host.Outcome State Fault Refusal :=
  s.onDevice fun d => match (d.lane lane).seconds with
    | [] => d
    | a :: rest =>
      Device.settle d (Device.boundary (d.modLane lane fun l => { l with seconds := rest }) lane a)

end Sys2Proof.Machine
end

