-- ==== Sys2Proof/Machine/JournalRequests.lean ====
section
/-! DEFINITION. The journal's requests (codes 40h to 43h) and the arrival of a record at it (04). -/

namespace Sys2Proof.Machine

/-! ### JOURNAL TAKE (04 R83, R84) -/

/-- The records a take removes, and those it leaves: at most `count`, in order, within the budget of bytes (04 R84). -/
def takeRecords : Nat → Nat → List Stored → List Stored × List Stored
  | 0, _, rest => ([], rest)
  | _ + 1, _, [] => ([], [])
  | count + 1, budget, r :: rest =>
    if r.size ≤ budget then
      let more := takeRecords count (budget - r.size) rest
      (r :: more.1, more.2)
    else ([], r :: rest)

def Device.takeJournal (d : Device) (count : Nat) : Device × Answer :=
  let taken := takeRecords count Config.takeBudget d.journal.records
  ({ d with journal := { d.journal with records := taken.2 } },
    .ok ([byte taken.1.length, byte taken.2.length] ++ taken.1.flatMap Stored.image))

def ownJournalTake (params : List Byte) : Device → Device × Answer :=
  asEvent fun d => match params with
  | [count] => match inRange 1 15 count.toNat with
    | some k => d.takeJournal k
    | none => (d, .refuse .badValue)
  | _ => (d, .refuse .badLength)

def execJournalTake (tag : Byte) (params : List Byte) (s : State) : Host.Outcome State Fault Refusal :=
  s.onDevice fun d => d.request 0x40#8 tag (ownJournalTake params)

/-! ### JOURNAL STATUS (04 R86) -/

/-- The oldest sequence number; 0 when the journal is empty (04 R86). -/
def Journal.oldest (j : Journal) : Nat := (j.records.head?.map (·.seq)).getD 0

def Journal.statusResults (j : Journal) : List Byte :=
  [byte j.records.length] ++ le32 j.next ++ le32 j.oldest ++
  [j.policy.code, byte j.threshold, flagByte j.holdOff] ++ le16 j.discards

def ownJournalStatus (params : List Byte) (d : Device) : Device × Answer :=
  match params with
  | [] => (d, .ok d.journal.statusResults)
  | _ => (d, .refuse .badLength)

def execJournalStatus (tag : Byte) (params : List Byte) (s : State) : Host.Outcome State Fault Refusal :=
  s.onDevice fun d => d.request 0x41#8 tag (ownJournalStatus params)

/-! ### JOURNAL CONFIG (04 R81, R82) -/

def Journal.configResults (j : Journal) : List Byte :=
  [byte j.records.length, flagByte j.holdOff] ++ le16 j.discards

/-- The threshold first, then the policy (04 R81); the levels moved by each are presented in that order (09 R168). -/
def Device.configJournal (d : Device) (p : Policy) (threshold : Nat) : Device × Answer :=
  let d := (d.setJournal { d.journal with threshold := threshold }).setPolicy p
  (d, .ok d.journal.configResults)

def ownJournalConfig (params : List Byte) (d : Device) : Device × Answer :=
  match params with
  | [policy, threshold] => match policyOf policy, inRange 1 64 threshold.toNat with
    | some p, some t => d.configJournal p t
    | _, _ => (d, .refuse .badValue)
  | _ => (d, .refuse .badLength)

def execJournalConfig (tag : Byte) (params : List Byte) (s : State) : Host.Outcome State Fault Refusal :=
  s.onDevice fun d => d.request 0x42#8 tag (ownJournalConfig params)

/-! ### JOURNAL MARK (04 R87) -/

/-- The sequence number an arriving record takes, 0 where HOLD discards it (04 R79, R87). -/
def Journal.numberTaken (j : Journal) : Nat :=
  if j.stores then (if j.policy = .hold ∧ j.holdOff = true then nextSeq j.next else j.next) else 0

/-- The port's MARK arrives with the request, behind the records of the requests before it: its reply tells the number it took
(04 R87; DEDUCED, log 22). -/
def Device.markJournal (d : Device) (tag : Byte) : Device × Answer :=
  let d := d.arriveFirst (·.byRequest)
  (d.recordArrives ⟨d.now, .port, .mark, tag.toNat, none⟩, .ok (le32 d.journal.numberTaken))

def ownJournalMark (params : List Byte) (d : Device) : Device × Answer :=
  match params with
  | [mark] => d.markJournal mark
  | _ => (d, .refuse .badLength)

def execJournalMark (tag : Byte) (params : List Byte) (s : State) : Host.Outcome State Fault Refusal :=
  s.onDevice fun d => d.request 0x43#8 tag (ownJournalMark params)

/-! ### RECORD_ARRIVAL (04 R76) -/

/-- The record at a place of those on their way, and the list without it; none where no record stands there or an earlier
record that it waits for has not arrived (04 R76; 03 R50, DEDUCED, log 27). -/
def takeSent (place : Nat) (sent : List Sent) : Option (Record × List Sent) :=
  match sent[place]? with
  | none => none
  | some x =>
    if (sent.take place).any fun y => x.waitsFor y then none
    else some (x.record, sent.eraseIdx place)

/-- RECORD_ARRIVAL (04 R76): one record on its way is taken by the journal under the policy held. -/
def execRecordArrival (place : Nat) (s : State) : Host.Outcome State Fault Refusal :=
  s.onDevice fun d => match takeSent place d.inFlight with
    | none => d
    | some (r, rest) => Device.recordArrives { d with inFlight := rest } r

end Sys2Proof.Machine
end

