-- ==== Sys2Proof/Machine/TimeRequests.lean ====
section
/-! DEFINITION. The timebase's requests (codes 10h to 13h) and events: the fine tick and the oscillator (05). -/

namespace Sys2Proof.Machine

/-- The TIME GET results: stamp, weekday, flags with leap_pending at bit 0, STOPPED at bit 1, osc_fault at bit 2 and
osc_fault_seen at bit 3 (05 R98, 10 R183). -/
def Timebase.results (t : Timebase) : List Byte :=
  t.stamp.image ++ [byte t.weekday,
    byte (bitAt t.leapPending 0 + bitAt (decide (t.run = .stopped)) 1 + bitAt t.oscFault 2 + bitAt t.oscFaultSeen 3)]

def ownTimeGet (params : List Byte) (d : Device) : Device × Answer :=
  match params with
  | [] => (d, .ok d.timebase.results)
  | _ => (d, .refuse .badLength)

def execTimeGet (tag : Byte) (params : List Byte) (s : State) : Host.Outcome State Fault Refusal :=
  s.onDevice fun d => d.request 0x10#8 tag (ownTimeGet params)

/-- The setting a TIME SET carries; its leap byte is 0 or 1 (05 R99, 10 R182, R183). -/
def settingOf (year month day hour minute second weekday leap : Byte) : Option Setting := do
  let leap ← flagOf leap
  let x : Setting :=
    ⟨⟨year.toNat, month.toNat, day.toNat, hour.toNat, minute.toNat, second.toNat⟩, weekday.toNat, leap⟩
  if x.inRange then some x else none

/-- TIME SET (05 R99, R100): BAD_VALUE first, then CLOCK_FAULT. -/
def ownTimeSet (params : List Byte) : Device → Device × Answer :=
  asRequest fun d => match params with
  | [year, month, day, hour, minute, second, weekday, leap] =>
    match settingOf year month day hour minute second weekday leap with
    | none => (d, .refuse .badValue)
    | some x => if d.timebase.oscFault then (d, .refuse .clockFault) else (d.setTime x, .ok [])
  | _ => (d, .refuse .badLength)

def execTimeSet (tag : Byte) (params : List Byte) (s : State) : Host.Outcome State Fault Refusal :=
  s.onDevice fun d => d.request 0x11#8 tag (ownTimeSet params)

/-- A change of the run state, with its record; none where the state is held already (05 R104, R105). -/
def Device.setRun (d : Device) (r : RunState) (k : Kind) : Device :=
  if d.timebase.run = r then d
  else
    let d := { d with timebase := { d.timebase with run := r } }
    d.writePlain .timebase d.now k 0

def ownTimeStop (params : List Byte) : Device → Device × Answer :=
  asRequest fun d => match params with
  | [] => (d.setRun .stopped .clockStopped, .ok [])
  | _ => (d, .refuse .badLength)

def execTimeStop (tag : Byte) (params : List Byte) (s : State) : Host.Outcome State Fault Refusal :=
  s.onDevice fun d => d.request 0x12#8 tag (ownTimeStop params)

def ownTimeRun (params : List Byte) : Device → Device × Answer :=
  asRequest fun d => match params with
  | [] => (d.setRun .running .clockRun, .ok [])
  | _ => (d, .refuse .badLength)

def execTimeRun (tag : Byte) (params : List Byte) (s : State) : Host.Outcome State Fault Refusal :=
  s.onDevice fun d => d.request 0x13#8 tag (ownTimeRun params)

/-- FINE_TICK (05 R92, R93). -/
def execFineTick (s : State) : Host.Outcome State Fault Refusal := s.onDevice Device.fineTick

/-- OSC_FAULT (05 R107). -/
def execOscFault (s : State) : Host.Outcome State Fault Refusal :=
  s.onDevice fun d => Device.settle d d.detectFault

/-- OSC_MEASURE_RESTART (05 R108): a measure under way starts again from zero. -/
def execOscMeasureRestart (s : State) : Host.Outcome State Fault Refusal :=
  s.onDevice fun d => { d with timebase := { d.timebase with measure := d.timebase.measure.map fun _ => 0 } }

/-- OSC_RESUMED (05 R108). -/
def execOscResumed (s : State) : Host.Outcome State Fault Refusal :=
  s.onDevice fun d => Device.settle d d.recover

/-- CRYSTAL_CYCLE_SEEN (05 R108): the first cycle seen during a fault starts the measure, a later one advances it. -/
def execCrystalCycleSeen (s : State) : Host.Outcome State Fault Refusal :=
  s.onDevice fun d =>
    if d.timebase.oscFault then
      { d with timebase := { d.timebase with measure := some (match d.timebase.measure with | none => 0 | some k => k + 1) } }
    else d

end Sys2Proof.Machine
end

