-- ==== Sys2Proof/Machine/ScheduleRequests.lean ====
section
/-! DEFINITION. The schedule table's requests (codes 30h to 36h) and the events it takes (06). -/

namespace Sys2Proof.Machine

/-- A request that names one entry in its one parameter byte: BAD_LENGTH, then BAD_VALUE. The table takes it when its work
on an event is done (06, REQUESTS MEETING FIRES), which presents its own level changes; the request itself moves none. -/
def entryRequest (params : List Byte) (take : EntryNo → Device → Device × Answer) (d : Device) : Device × Answer :=
  match params with
  | [b] => match entryOf b with
    | some e => take e d.finishTable
    | none => (d, .refuse .badValue)
  | _ => (d, .refuse .badLength)

/-- The entry's state and remaining count after a request (06, ARMING, DISARMING, PAUSING AND CLEARING; 10 R183). -/
def Entry.results (x : Entry) : List Byte := x.stateCode :: le24 x.remaining

/-- One of the five requests that move an entry between its states. -/
def moveEntry (f : Entry → Entry × Status) (e : EntryNo) (d : Device) : Device × Answer :=
  let moved := f (d.entry e)
  if moved.2 = .ok then (d.setEntry e moved.1, .ok moved.1.results) else (d, .refuse moved.2)

/-! ### ENTRY SET and ENTRY GET (06 R116, R117) -/

/-- The definition lengths of 1 to 4 actions, with the entry byte (10 R183, R187). -/
def entrySetLengths : List Nat := [11, 13, 15, 17]

/-- The entry a definition makes: IDLE, a countdown with its preset remaining (06 R116). -/
def Definition.entry (df : Definition) : Entry := .held .idle df (df.loaded 0)

/-- The second check of ENTRY SET and its effect (06 R116). -/
def Device.defineEntry (d : Device) (e : EntryNo) (df : Definition) : Device × Answer :=
  match d.entry e with
  | .empty | .held .idle _ _ => (d.setEntry e df.entry, .ok [])
  | .held .armed _ _ | .held .paused _ _ => (d, .refuse .entryActive)

def ownEntrySet (params : List Byte) (d : Device) : Device × Answer :=
  if params.length ∈ entrySetLengths then
    match entryOf (params.headD 0#8), definitionOf params.tail with
    | some e, some df => d.finishTable.defineEntry e df
    | _, _ => (d, .refuse .badValue)
  else (d, .refuse .badLength)

def execEntrySet (tag : Byte) (params : List Byte) (s : State) : Host.Outcome State Fault Refusal :=
  s.onDevice fun d => d.request 0x30#8 tag (ownEntrySet params)

/-- The ENTRY GET results (06 R117, 10 R183): the state alone for an EMPTY entry, else state, remaining and definition. -/
def Entry.getResults : Entry → List Byte
  | .empty => [0#8]
  | .held st d r => (st.code :: le24 (Entry.remaining (.held st d r))) ++ d.image

def ownEntryGet (params : List Byte) : Device → Device × Answer :=
  entryRequest params fun e d => (d, .ok (d.entry e).getResults)

def execEntryGet (tag : Byte) (params : List Byte) (s : State) : Host.Outcome State Fault Refusal :=
  s.onDevice fun d => d.request 0x31#8 tag (ownEntryGet params)

/-! ### ENTRY ARM, DISARM, PAUSE, RESUME, CLEAR (06 R118 to R121) -/

def ownEntryArm (params : List Byte) : Device → Device × Answer := entryRequest params (moveEntry Entry.arm)

def execEntryArm (tag : Byte) (params : List Byte) (s : State) : Host.Outcome State Fault Refusal :=
  s.onDevice fun d => d.request 0x32#8 tag (ownEntryArm params)

def ownEntryDisarm (params : List Byte) : Device → Device × Answer := entryRequest params (moveEntry Entry.disarm)

def execEntryDisarm (tag : Byte) (params : List Byte) (s : State) : Host.Outcome State Fault Refusal :=
  s.onDevice fun d => d.request 0x33#8 tag (ownEntryDisarm params)

def ownEntryPause (params : List Byte) : Device → Device × Answer := entryRequest params (moveEntry Entry.pause)

def execEntryPause (tag : Byte) (params : List Byte) (s : State) : Host.Outcome State Fault Refusal :=
  s.onDevice fun d => d.request 0x34#8 tag (ownEntryPause params)

def ownEntryResume (params : List Byte) : Device → Device × Answer := entryRequest params (moveEntry Entry.resume)

def execEntryResume (tag : Byte) (params : List Byte) (s : State) : Host.Outcome State Fault Refusal :=
  s.onDevice fun d => d.request 0x35#8 tag (ownEntryResume params)

def ownEntryClear (params : List Byte) : Device → Device × Answer := entryRequest params (moveEntry Entry.clear)

def execEntryClear (tag : Byte) (params : List Byte) (s : State) : Host.Outcome State Fault Refusal :=
  s.onDevice fun d => d.request 0x36#8 tag (ownEntryClear params)

/-! ### The table's events (06 R122 to R126) -/

/-- SCHEDULE_SECOND_ARRIVAL (06 R122, R123). -/
def execScheduleSecondArrival (share : Option Nat) (s : State) : Host.Outcome State Fault Refusal :=
  s.onDevice fun d => d.tableEvent share Device.takeSecond

/-- MINUTE_ARRIVAL (06 R124, R125). -/
def execMinuteArrival (share : Option Nat) (s : State) : Host.Outcome State Fault Refusal :=
  s.onDevice fun d => d.tableEvent share Device.takeMinute

/-- SCHEDULE_FINE_TICK (06 R122, R124). -/
def execScheduleFineTick (share : Option Nat) (s : State) : Host.Outcome State Fault Refusal :=
  s.onDevice fun d => d.tableEvent share Device.takeFine

/-- SCHEDULE_EDGE (06 R126). -/
def execScheduleEdge (pin : Pin) (share : Option Nat) (s : State) : Host.Outcome State Fault Refusal :=
  s.onDevice fun d => d.tableEvent share (Device.takeEdge pin)

/-- COUNTDOWN_EXPIRY (06 R124, R128). -/
def execCountdownExpiry (entry : EntryNo) (s : State) : Host.Outcome State Fault Refusal :=
  s.onDevice fun d => d.expire entry

end Sys2Proof.Machine
end

