-- ==== Sys2Proof/Machine/CaptureRequests.lean ====
section
/-! DEFINITION. The capture unit's requests (codes 50h to 53h) (08). -/

namespace Sys2Proof.Machine

/-- CAPTURE (08 R155). -/
def ownCapture (params : List Byte) : Device → Device × Answer := asRequest (maskOnly .capture params)

def execCapture (tag : Byte) (params : List Byte) (s : State) : Host.Outcome State Fault Refusal :=
  s.onDevice fun d => d.request 0x50#8 tag (ownCapture params)

/-! ### CAPTURE STATUS (08 R165) -/

/-- The number of the engine bound to a slot (10 R183: one bit). -/
def CaptureUnit.engineOf (c : CaptureUnit) (k : SlotNo) : Nat := if c.engines[1] = some k then 1 else 0

/-- The two bytes of a slot (10 R183). DESIGN CHOICE (log 23): the lane bits and the count of a FREE slot and the engine bit of a
FREE or FULL slot, to which R165 and R183 give no content, are 0. -/
def CaptureUnit.slotImage (c : CaptureUnit) (k : SlotNo) : List Byte :=
  match c.slots[k.val] with
  | .free => [0#8, 0#8]
  | .filling x => [byte (1 + 4 * x.lane.val + 16 * c.engineOf k), byte x.data.length]
  | .full x => [byte (2 + 4 * x.lane.val + bitAt x.truncated 7), byte x.data.length]

/-- An engine byte: its slot, or FFh when free (10 R183). -/
def engineByte (e : Option SlotNo) : Byte := match e with
  | none => 0xFF#8
  | some k => byte k.val

/-- A pending entry: lane, kind, stamp, late_by (10 R183). -/
def Waiting.image (w : Waiting) : List Byte :=
  [byte w.lane.val, byte w.kind.code] ++ w.stamp.image ++ [byte w.lateBy]

def CaptureUnit.statusResults (c : CaptureUnit) : List Byte :=
  allSlots.flatMap c.slotImage ++ [engineByte c.engines[0], engineByte c.engines[1], byte c.waiting.length] ++
  c.waiting.flatMap Waiting.image

def ownCaptureStatus (params : List Byte) (d : Device) : Device × Answer :=
  match params with
  | [] => (d, .ok d.capture.statusResults)
  | _ => (d, .refuse .badLength)

def execCaptureStatus (tag : Byte) (params : List Byte) (s : State) : Host.Outcome State Fault Refusal :=
  s.onDevice fun d => d.request 0x51#8 tag (ownCaptureStatus params)

/-! ### CAPTURE TAKE (08 R164) -/

def Device.takeCapture (d : Device) (k : SlotNo) : Device × Answer :=
  match d.capture.slots[k.val] with
  | .full c => (Device.grantTest { d with capture := d.capture.setSlot k .free }, .ok (c.image k))
  | .filling _ => (d, .refuse .slotBusy)
  | .free => (d, .refuse .empty)

def ownCaptureTake (params : List Byte) : Device → Device × Answer :=
  asRequest fun d => match params with
  | [b] => match slotOf b with
    | some k => d.takeCapture k
    | none => (d, .refuse .badValue)
  | _ => (d, .refuse .badLength)

def execCaptureTake (tag : Byte) (params : List Byte) (s : State) : Host.Outcome State Fault Refusal :=
  s.onDevice fun d => d.request 0x52#8 tag (ownCaptureTake params)

/-! ### CAPTURE ABORT (08 R162) -/

/-- The lane's FILLING capture ends truncated, or its pending entry is dropped and the grant test made, or EMPTY. -/
def Device.abortCapture (d : Device) (n : LaneNo) : Device × Answer :=
  match d.capture.fillingSlot n with
  | some k => (d.truncate n d.now, .ok [1#8, byte k.val])
  | none =>
    if (d.capture.entryOf n).isSome then ((d.dropEntry n d.now).grantTest, .ok [2#8, 0xFF#8])
    else (d, .refuse .empty)

def ownCaptureAbort (params : List Byte) : Device → Device × Answer :=
  asRequest <| laneRequest params fun n d => d.abortCapture n

def execCaptureAbort (tag : Byte) (params : List Byte) (s : State) : Host.Outcome State Fault Refusal :=
  s.onDevice fun d => d.request 0x53#8 tag (ownCaptureAbort params)

end Sys2Proof.Machine
end

