-- ==== Sys2Proof/Machine/AttentionRequests.lean ====
section
/-! DEFINITION. The attention unit's requests and events (03h, 04h, CONDITION_CHANGE), the event inputs (05h, FILTER_SAMPLE,
EXT_EDGE) and DEVICE INFO (01h) (09, 10 R189). -/

namespace Sys2Proof.Machine

/-! ### ATTENTION (09 R171) -/

/-- Condition n at bit n of a 16-bit value (10 R183). -/
def condBits (f : CondNo → Bool) : List Byte :=
  le16 (allConditions.foldl (fun acc c => acc + bitAt (f c) c.val) 0)

/-- Two bits for each condition (10 R183). -/
def modeBits (f : CondNo → AttentionMode) : List Byte :=
  le24 (allConditions.foldl (fun acc c => acc + (f c).code * 4 ^ c.val) 0)

def Attention.cond (a : Attention) (c : CondNo) : Condition := a.conditions[c.val]

/-- Each condition changed on its own. -/
def Attention.each (a : Attention) (f : CondNo → Condition → Condition) : Attention :=
  { a with conditions := Vector.ofFn fun c : CondNo => f c (a.cond c) }

/-- Steps 1 to 3 of R171 and the reply. The current level is the one the changes taken so far have left (DEDUCED, log 24). -/
def Device.attend (d : Device) (clear : Nat) : Device × Answer :=
  let a := d.attention
  let after := a.each fun c x => x.serve (clear.testBit c.val) (d.levelTaken c)
  ({ d with attention := after },
    .ok (condBits d.levelTaken ++ condBits (fun c => (a.cond c).enabled) ++ modeBits (fun c => (a.cond c).mode) ++
      condBits (fun c => (a.cond c).latch) ++ condBits (fun c => (after.cond c).latch) ++
      [byte (bitAt d.inputs.ext0.level 0 + bitAt d.inputs.ext1.level 1)]))

/-- ATTENTION: a clear set naming a number above 9 is refused (09 R171). -/
def ownAttention (params : List Byte) (d : Device) : Device × Answer :=
  match params with
  | [lo, hi] => if word16 lo hi < 1024 then d.attend (word16 lo hi) else (d, .refuse .badValue)
  | _ => (d, .refuse .badLength)

def execAttention (tag : Byte) (params : List Byte) (s : State) : Host.Outcome State Fault Refusal :=
  s.onDevice fun d => d.request 0x03#8 tag (ownAttention params)

/-! ### ATTENTION CONFIG (09 R172) -/

/-- The mode of a condition in the 24-bit image (10 R183). -/
def modeIn (modes : Nat) (c : CondNo) : AttentionMode := attentionModeOf (modes / 4 ^ c.val % 4)

/-- All ten settings are taken (09 R172), with the levels as in `Device.attend` (DEDUCED, log 24). -/
def Device.configAttention (d : Device) (enables modes : Nat) : Device :=
  { d with attention := d.attention.each fun c x =>
      x.configure (enables.testBit c.val) (modeIn modes c) (d.levelTaken c) }

/-- ATTENTION CONFIG: a bit beyond those of condition 9 is refused (09 R172). -/
def ownAttentionConfig (params : List Byte) (d : Device) : Device × Answer :=
  match params with
  | [e0, e1, m0, m1, m2] =>
    if word16 e0 e1 < 1024 ∧ word24 m0 m1 m2 < 1048576 then
      (d.configAttention (word16 e0 e1) (word24 m0 m1 m2), .ok [])
    else (d, .refuse .badValue)
  | _ => (d, .refuse .badLength)

def execAttentionConfig (tag : Byte) (params : List Byte) (s : State) : Host.Outcome State Fault Refusal :=
  s.onDevice fun d => d.request 0x04#8 tag (ownAttentionConfig params)

/-- CONDITION_CHANGE (09 R169): the oldest change presented for the condition is taken; none presented, nothing happens. -/
def execConditionChange (cond : CondNo) (s : State) : Host.Outcome State Fault Refusal :=
  s.onDevice fun d => match takeChange cond d.attention.changes with
    | none => d
    | some (level, rest) =>
      { d with attention := { d.attention.modify cond (fun x => x.change level) with changes := rest } }

/-! ### The event inputs (09 R173, R174) -/

/-- EXT CONFIG replaces both edge choices (09 R174). -/
def ownExtConfig (params : List Byte) (d : Device) : Device × Answer :=
  match params with
  | [c0, c1] => match edgeChoiceOf c0, edgeChoiceOf c1 with
    | some x0, some x1 =>
      ({ d with inputs := { d.inputs with
          ext0 := { d.inputs.ext0 with choice := x0 }, ext1 := { d.inputs.ext1 with choice := x1 } } }, .ok [])
    | _, _ => (d, .refuse .badValue)
  | _ => (d, .refuse .badLength)

def execExtConfig (tag : Byte) (params : List Byte) (s : State) : Host.Outcome State Fault Refusal :=
  s.onDevice fun d => d.request 0x05#8 tag (ownExtConfig params)

/-- FILTER_SAMPLE (09 R173). -/
def execFilterSample (ext0 ext1 : Bool) (s : State) : Host.Outcome State Fault Refusal :=
  s.onDevice fun d => d.sample ext0 ext1

/-- EXT_EDGE (09 R174). -/
def execExtEdge (pin : Pin) (s : State) : Host.Outcome State Fault Refusal :=
  s.onDevice fun d => Device.settle d (d.noteEdge pin)

/-! ### DEVICE INFO (10 R189) -/

def ownDeviceInfo (params : List Byte) (d : Device) : Device × Answer :=
  match params with
  | [] => (d, .ok Config.identity)
  | _ => (d, .refuse .badLength)

def execDeviceInfo (tag : Byte) (params : List Byte) (s : State) : Host.Outcome State Fault Refusal :=
  s.onDevice fun d => d.request 0x01#8 tag (ownDeviceInfo params)

end Sys2Proof.Machine
end

