-- ==== Sys2Proof/Machine/Port.lean ====
section
/-! DEFINITION. The resets and the control link port: frames, port errors, unknown codes and the end of a reply (10, and the
reset rules of every chapter). -/

namespace Sys2Proof.Machine

/-! ### The resets (R25, R42, R68, R89, R90, R110, R133, R135, R150, R167, R175, R176) -/

/-- The straps' link rate (00_scope.md, 10 R176). -/
def linkRate (rate1 rate0 : Bool) : LinkRate :=
  match rate1, rate0 with
  | false, false => .baud115200
  | false, true => .baud230400
  | true, false => .baud460800
  | true, true => .baud921600

/-- What every reset does to every block but the timebase and the journal. Events delivered to a block in reset are not
taken (05 R110), level changes on their way are lost with the enables (09 R175); TXFn is a pin and keeps its level. The divider's
phase is kept (05 R92), so a tick that the table has taken before the timebase stays taken (DESIGN CHOICE, log 7). -/
def Device.resetBlocks (d : Device) : Device :=
  { d with
    lanes := Vector.ofFn fun n : LaneNo => Lane.afterReset (d.lane n).txf
    pattern := Pattern.default
    schedule := Schedule.afterReset (min d.schedule.ticks 0)
    inputs := EventInputs.afterReset
    capture := CaptureUnit.afterReset
    attention := Attention.afterReset
    port := ⟨.waiting, d.port.rate, none⟩ }

/-- The journal after a power-on reset or the reset pin: emptied, then RESTART as record 1 (04 R89). -/
def Journal.restarted (st : Stamp) (cause : Nat) : Journal := Journal.emptied.append (Record.restart st cause)

/-- POWER_ON_RESET (04 R89, 05 R110, 10 R176). -/
def execPowerOnReset (rate1 rate0 : Bool) (s : State) : Host.Outcome State Fault Refusal :=
  s.onDevice fun d =>
    { d.resetBlocks with
      timebase := Timebase.afterPowerOn
      schedule := Schedule.afterReset 0
      journal := Journal.restarted Timebase.afterPowerOn.stamp 1
      inFlight := []
      events := 0
      port := ⟨.waiting, linkRate rate1 rate0, none⟩ }

/-- RESET_PIN (04 R89, 05 R110, 10 R176): the timebase is kept, the straps are read. -/
def execResetPin (rate1 rate0 : Bool) (s : State) : Host.Outcome State Fault Refusal :=
  s.onDevice fun d =>
    { d.resetBlocks with
      journal := Journal.restarted d.now 2
      inFlight := []
      port := ⟨.waiting, linkRate rate1 rate0, none⟩ }

/-- The reset request takes effect (10 R188): every block but the timebase and the journal, then RESTART with detail 3
arrives under the current policy (04 R90). -/
def Device.resetRequest (d : Device) : Device := d.resetBlocks.recordArrives (Record.restart d.now 3)

/-- The reply in progress is the OK reply to RESET, whose code is 02h plus 80h (10 R180, R188). -/
def Reply.isReset (r : Reply) : Bool := decide (r.code = 0x82#8) && decide (r.status = .ok)

/-- The CHECK character of the reply in progress has been sent (10 R181, R188). -/
def Device.replyEnds (d : Device) : Device :=
  match d.port.reply with
  | none => d
  | some r => if r.isReset then d.resetRequest else { d with port := { d.port with reply := none } }

/-- RESET (10 R188): answered OK; it takes effect when its reply has been sent. -/
def ownReset (params : List Byte) (d : Device) : Device × Answer :=
  match params with
  | [] => (d, .ok [])
  | _ => (d, .refuse .badLength)

def execReset (tag : Byte) (params : List Byte) (s : State) : Host.Outcome State Fault Refusal :=
  s.onDevice fun d => d.request 0x02#8 tag (ownReset params)

/-- RESET_TAKES_EFFECT (10 R188): only where the reply in progress is that of RESET. -/
def execResetTakesEffect (s : State) : Host.Outcome State Fault Refusal :=
  s.onDevice fun d => match d.port.reply with
    | none => d
    | some r => if r.isReset then d.resetRequest else d

/-- REPLY_SENT (10 R181). -/
def execReplySent (s : State) : Host.Outcome State Fault Refusal := s.onDevice Device.replyEnds

/-! ### Good frames (10 R180) -/

/-- The owners of the request codes (10 R183). -/
def requestOwners : List (Byte × (List Byte → Device → Device × Answer)) :=
  [(0x01#8, ownDeviceInfo), (0x02#8, ownReset), (0x03#8, ownAttention), (0x04#8, ownAttentionConfig),
   (0x05#8, ownExtConfig), (0x06#8, ownPatternSet), (0x07#8, ownPatternGet),
   (0x10#8, ownTimeGet), (0x11#8, ownTimeSet), (0x12#8, ownTimeStop), (0x13#8, ownTimeRun)] ++
  [(0x20#8, ownLaneStart), (0x21#8, ownLaneStop), (0x22#8, ownLaneStatus), (0x23#8, ownProfileSet),
   (0x24#8, ownProfileGet), (0x25#8, ownPageSwap), (0x26#8, ownIntervalClose), (0x27#8, ownIntervalTake),
   (0x28#8, ownTestStart), (0x29#8, ownTestStop), (0x2A#8, ownInsert)] ++
  [(0x30#8, ownEntrySet), (0x31#8, ownEntryGet), (0x32#8, ownEntryArm), (0x33#8, ownEntryDisarm),
   (0x34#8, ownEntryPause), (0x35#8, ownEntryResume), (0x36#8, ownEntryClear)] ++
  [(0x40#8, ownJournalTake), (0x41#8, ownJournalStatus), (0x42#8, ownJournalConfig), (0x43#8, ownJournalMark),
   (0x50#8, ownCapture), (0x51#8, ownCaptureStatus), (0x52#8, ownCaptureTake), (0x53#8, ownCaptureAbort)]

/-- What answers a code: its owner, or UNKNOWN without results (10 R180). -/
def requestOwner (code : Byte) : List Byte → Device → Device × Answer :=
  (requestOwners.lookup code).getD fun _ d => (d, .refuse .unknown)

/-- UNKNOWN_CODE (10 R180); a code the table has is no such event. -/
def execUnknownCode (tag code : Byte) (params : List Byte) (s : State) : Host.Outcome State Fault Refusal :=
  s.onDevice fun d =>
    if code ∈ Config.requestCodes then d else d.request code tag (requestOwner code params)

/-! ### Frames character by character (10 R177 to R179) -/

/-- A complete frame, from LEN through the last parameter, and its CHECK (10 R178, R180): an overrun, a wrong check, or a
good frame. -/
def Device.frameDone (d : Device) (bytes : List Byte) (check : Byte) : Device :=
  if d.port.reply.isSome then d.discardFrame
  else if crc bytes ≠ check then d.discardFrame
  else match bytes with
    | _ :: tag :: code :: params => d.request code tag (requestOwner code params)
    | _ => d.discardFrame

/-- A character with a good stop bit inside a frame (10 R177, R178). -/
def Device.frameByte (d : Device) (bytes : List Byte) (b : Byte) : Device :=
  match bytes with
  | [] =>
    if b.toNat < Config.lenMin ∨ Config.lenMax < b.toNat then d.discardFrame
    else { d with port := { d.port with rx := .inFrame [b] } }
  | len :: _ =>
    if bytes.length = len.toNat + 1 then d.frameDone bytes b
    else { d with port := { d.port with rx := .inFrame (bytes ++ [b]) } }

/-- CRX_CHARACTER (10 R177, R178). -/
def execCrxCharacter (data : Byte) (goodStop : Bool) (s : State) : Host.Outcome State Fault Refusal :=
  s.onDevice fun d => match d.port.rx with
    | .waiting =>
      if goodStop = true ∧ data = Config.startOfFrame then { d with port := { d.port with rx := .inFrame [] } } else d
    | .inFrame bytes => if goodStop then d.frameByte bytes data else d.discardFrame

/-- FRAME_GAP_TIMEOUT (10 R177): the gap is measured inside a frame only. -/
def execFrameGapTimeout (s : State) : Host.Outcome State Fault Refusal :=
  s.onDevice fun d => match d.port.rx with
    | .waiting => d
    | .inFrame _ => d.discardFrame

/-- BAD_FRAME (10 R178): a frame is discarded; an overrun needs a reply in progress (10 R181). -/
def execBadFrame (cause : FrameFault) (s : State) : Host.Outcome State Fault Refusal :=
  s.onDevice fun d => match cause with
    | .badStopBit | .lenOutOfRange | .wrongCheck => d.discardFrame
    | .overrun => if d.port.reply.isSome then d.discardFrame else d

end Sys2Proof.Machine
end

