-- ==== Sys2Proof/Machine/Dispatch.lean ====
section
/-! DEFINITION. What each command does to everything but the queue: one arm for each row of spec/opcode_table.json. -/

namespace Sys2Proof.Machine

def exec (i : Instr) (s : State) : Host.Outcome State Fault Refusal :=
  match i with
  | .powerOnReset rate1 rate0 => Sys2Proof.Machine.execPowerOnReset rate1 rate0 s
  | .resetPin rate1 rate0 => Sys2Proof.Machine.execResetPin rate1 rate0 s
  | .reset tag params => Sys2Proof.Machine.execReset tag params s
  | .resetTakesEffect => Sys2Proof.Machine.execResetTakesEffect s
  | .deviceInfo tag params => Sys2Proof.Machine.execDeviceInfo tag params s
  | .attention tag params => Sys2Proof.Machine.execAttention tag params s
  | .attentionConfig tag params => Sys2Proof.Machine.execAttentionConfig tag params s
  | .extConfig tag params => Sys2Proof.Machine.execExtConfig tag params s
  | .patternSet tag params => Sys2Proof.Machine.execPatternSet tag params s
  | .patternGet tag params => Sys2Proof.Machine.execPatternGet tag params s
  | .timeGet tag params => Sys2Proof.Machine.execTimeGet tag params s
  | .timeSet tag params => Sys2Proof.Machine.execTimeSet tag params s
  | .timeStop tag params => Sys2Proof.Machine.execTimeStop tag params s
  | .timeRun tag params => Sys2Proof.Machine.execTimeRun tag params s
  | .laneStart tag params => Sys2Proof.Machine.execLaneStart tag params s
  | .laneStop tag params => Sys2Proof.Machine.execLaneStop tag params s
  | .laneStatus tag params => Sys2Proof.Machine.execLaneStatus tag params s
  | .profileSet tag params => Sys2Proof.Machine.execProfileSet tag params s
  | .profileGet tag params => Sys2Proof.Machine.execProfileGet tag params s
  | .pageSwap tag params => Sys2Proof.Machine.execPageSwap tag params s
  | .intervalClose tag params => Sys2Proof.Machine.execIntervalClose tag params s
  | .intervalTake tag params => Sys2Proof.Machine.execIntervalTake tag params s
  | .testStart tag params => Sys2Proof.Machine.execTestStart tag params s
  | .testStop tag params => Sys2Proof.Machine.execTestStop tag params s
  | .insert tag params => Sys2Proof.Machine.execInsert tag params s
  | .entrySet tag params => Sys2Proof.Machine.execEntrySet tag params s
  | .entryGet tag params => Sys2Proof.Machine.execEntryGet tag params s
  | .entryArm tag params => Sys2Proof.Machine.execEntryArm tag params s
  | .entryDisarm tag params => Sys2Proof.Machine.execEntryDisarm tag params s
  | .entryPause tag params => Sys2Proof.Machine.execEntryPause tag params s
  | .entryResume tag params => Sys2Proof.Machine.execEntryResume tag params s
  | .entryClear tag params => Sys2Proof.Machine.execEntryClear tag params s
  | .journalTake tag params => Sys2Proof.Machine.execJournalTake tag params s
  | .journalStatus tag params => Sys2Proof.Machine.execJournalStatus tag params s
  | .journalConfig tag params => Sys2Proof.Machine.execJournalConfig tag params s
  | .journalMark tag params => Sys2Proof.Machine.execJournalMark tag params s
  | .capture tag params => Sys2Proof.Machine.execCapture tag params s
  | .captureStatus tag params => Sys2Proof.Machine.execCaptureStatus tag params s
  | .captureTake tag params => Sys2Proof.Machine.execCaptureTake tag params s
  | .captureAbort tag params => Sys2Proof.Machine.execCaptureAbort tag params s
  | .unknownCode tag code params => Sys2Proof.Machine.execUnknownCode tag code params s
  | .badFrame cause => Sys2Proof.Machine.execBadFrame cause s
  | .frameGapTimeout => Sys2Proof.Machine.execFrameGapTimeout s
  | .replySent => Sys2Proof.Machine.execReplySent s
  | .cellArrival lane cell => Sys2Proof.Machine.execCellArrival lane cell s
  | .transmitCell lane => Sys2Proof.Machine.execTransmitCell lane s
  | .driverFault lane level => Sys2Proof.Machine.execDriverFault lane level s
  | .fineTick => Sys2Proof.Machine.execFineTick s
  | .secondArrival lane => Sys2Proof.Machine.execSecondArrival lane s
  | .scheduleSecondArrival share => Sys2Proof.Machine.execScheduleSecondArrival share s
  | .minuteArrival share => Sys2Proof.Machine.execMinuteArrival share s
  | .scheduleFineTick share => Sys2Proof.Machine.execScheduleFineTick share s
  | .countdownExpiry entry => Sys2Proof.Machine.execCountdownExpiry entry s
  | .filterSample ext0 ext1 => Sys2Proof.Machine.execFilterSample ext0 ext1 s
  | .scheduleEdge pin share => Sys2Proof.Machine.execScheduleEdge pin share s
  | .extEdge pin => Sys2Proof.Machine.execExtEdge pin s
  | .oscFault => Sys2Proof.Machine.execOscFault s
  | .oscMeasureRestart => Sys2Proof.Machine.execOscMeasureRestart s
  | .oscResumed => Sys2Proof.Machine.execOscResumed s
  | .recordArrival place => Sys2Proof.Machine.execRecordArrival place s
  | .conditionChange cond => Sys2Proof.Machine.execConditionChange cond s
  | .crxCharacter data goodStop => Sys2Proof.Machine.execCrxCharacter data goodStop s
  | .crystalCycleSeen => Sys2Proof.Machine.execCrystalCycleSeen s

end Sys2Proof.Machine
end

