-- ==== Sys2Proof/Safety.lean ====
section
/-! DEFINITION. What the statements about the machine are written with: the frame a request command stands for, an answered
device, the form every block keeps, and what two devices may differ in. -/

namespace Sys2Proof

/-- The request code, the tag and the parameters of a request command; none for an event (10 R183). -/
def Instr.request? : Instr → Option (Byte × Byte × List Byte)
  | .deviceInfo t p => some (0x01#8, t, p)
  | .reset t p => some (0x02#8, t, p)
  | .attention t p => some (0x03#8, t, p)
  | .attentionConfig t p => some (0x04#8, t, p)
  | .extConfig t p => some (0x05#8, t, p)
  | .patternSet t p => some (0x06#8, t, p)
  | .patternGet t p => some (0x07#8, t, p)
  | .timeGet t p => some (0x10#8, t, p)
  | .timeSet t p => some (0x11#8, t, p)
  | .timeStop t p => some (0x12#8, t, p)
  | .timeRun t p => some (0x13#8, t, p)
  | .laneStart t p => some (0x20#8, t, p)
  | .laneStop t p => some (0x21#8, t, p)
  | .laneStatus t p => some (0x22#8, t, p)
  | .profileSet t p => some (0x23#8, t, p)
  | .profileGet t p => some (0x24#8, t, p)
  | .pageSwap t p => some (0x25#8, t, p)
  | .intervalClose t p => some (0x26#8, t, p)
  | .intervalTake t p => some (0x27#8, t, p)
  | .testStart t p => some (0x28#8, t, p)
  | .testStop t p => some (0x29#8, t, p)
  | .insert t p => some (0x2A#8, t, p)
  | .entrySet t p => some (0x30#8, t, p)
  | .entryGet t p => some (0x31#8, t, p)
  | .entryArm t p => some (0x32#8, t, p)
  | .entryDisarm t p => some (0x33#8, t, p)
  | .entryPause t p => some (0x34#8, t, p)
  | .entryResume t p => some (0x35#8, t, p)
  | .entryClear t p => some (0x36#8, t, p)
  | .journalTake t p => some (0x40#8, t, p)
  | .journalStatus t p => some (0x41#8, t, p)
  | .journalConfig t p => some (0x42#8, t, p)
  | .journalMark t p => some (0x43#8, t, p)
  | .capture t p => some (0x50#8, t, p)
  | .captureStatus t p => some (0x51#8, t, p)
  | .captureTake t p => some (0x52#8, t, p)
  | .captureAbort t p => some (0x53#8, t, p)
  | .unknownCode t c p => some (c, t, p)
  | _ => none

/-- In the step of the command several records may arrive at the journal one after another: JOURNAL MARK, a character, which may
complete its frame, and every command in which the table may work, whose fires may hold MARK actions (04 R87, 06 R129). -/
def Instr.severalArrive : Instr → Bool
  | .journalMark _ _ | .crxCharacter _ _ => true
  | .scheduleSecondArrival _ | .minuteArrival _ | .scheduleFineTick _ | .scheduleEdge _ _ | .countdownExpiry _ => true
  | .entrySet _ _ | .entryGet _ _ | .entryArm _ _ | .entryDisarm _ _ | .entryPause _ _ | .entryResume _ _ | .entryClear _ _ => true
  | _ => false

/-- The parameter lengths the request table allows for a code (10 R183). -/
def paramLengths (code : Byte) : List Nat :=
  match code.toNat with
  | 0x01 | 0x02 | 0x07 | 0x10 | 0x12 | 0x13 | 0x41 | 0x51 => [0]
  | 0x03 | 0x05 | 0x06 | 0x24 | 0x25 | 0x27 | 0x42 => [2]
  | 0x04 => [5]
  | 0x11 => [8]
  | 0x20 | 0x21 | 0x22 | 0x26 | 0x28 | 0x29 | 0x2A | 0x31 | 0x32 | 0x33 | 0x34 | 0x35 | 0x36 | 0x40 | 0x43 | 0x50 | 0x52
  | 0x53 => [1]
  | 0x23 => [18]
  | 0x30 => [11, 13, 15, 17]
  | _ => []

/-- The characters of a request frame, SOF to CHECK (10 FRAMES). -/
def requestFrame (code tag : Byte) (params : List Byte) : List Byte :=
  let body := BitVec.ofNat 8 (params.length + 2) :: tag :: code :: params
  Config.startOfFrame :: body ++ [Machine.crc body]

end Sys2Proof

namespace Sys2Proof.Machine

open Sys2Proof

/-- The port takes the characters one after another, each with a good stop bit. -/
def runChars : List Byte → State → Host.Outcome State Fault Refusal
  | [], s => .next s
  | b :: rest, s =>
    match exec (.crxCharacter b true) s with
    | .next t => runChars rest t
    | .fault f => .fault f
    | .refused r => .refused r

/-- The machine with this device and the same queue. -/
def State.withDev (s : State) (d : Device) : State := { s with dev := d }

/-- No reply is in progress (10 R181). -/
def Device.quiet (d : Device) : Prop := d.port.reply = none

/-- The device with its receiver in WAITING and this reply in progress; nothing else differs (10 R177, R180). -/
def Device.answered (d : Device) (tag code : Byte) (st : Status) (results : List Byte) : Device :=
  { d with port := { d.port with rx := .waiting, reply := some ⟨tag, code + 0x80#8, st, results⟩ } }

/-- The records written between two devices: what the second has on its way after what the first has. -/
def Device.written (before after : Device) : List Record := (after.inFlight.drop before.inFlight.length).map (·.record)

/-- The record that a lane writes at a moment at which it is `l` (02 R30, 04 R71, R72): its source is the lane, and it carries
the lane's snapshot where the page live at that moment says so. -/
def Lane.writes (l : Lane) (n : LaneNo) (st : Stamp) (k : Kind) (detail : Nat) : Record :=
  ⟨st, .lane n, k, detail,
    if (l.pages[l.live.val]).snapshot then
      some ⟨l.mode, l.line, l.live, l.swapPending, l.number, (l.interval.map (·.x)).getD 0, (l.interval.map (·.y)).getD 0⟩
    else none⟩

/-- One record if the condition holds. -/
def recordIf (b : Bool) (r : Record) : List Record := if b then [r] else []

/-! ### The form each block keeps -/

/-- Each sequence number is followed by the next one, the last by the given one (04 R75, R86). -/
def seqChain : List Nat → Nat → Bool
  | [], _ => true
  | [a], next => decide (nextSeq a = next)
  | a :: b :: rest, next => decide (nextSeq a = b) && seqChain (b :: rest) next

/-- Each interval number is followed by the next one modulo 65536, the last by the given one (03 R58). -/
def numberChain : List Nat → Nat → Bool
  | [], _ => true
  | [a], next => decide ((a + 1) % 65536 = next)
  | a :: b :: rest, next => decide ((a + 1) % 65536 = b) && numberChain (b :: rest) next

/-- The journal's form (04 R69, R75, R77, R79, R81, R86). -/
structure Journal.Wf (j : Journal) : Prop where
  held : j.records.length ≤ 64
  threshold : 1 ≤ j.threshold ∧ j.threshold ≤ 64
  wrapClear : j.policy = .wrap → j.holdOff = false
  discards : (j.discards = 0 ↔ j.holdOff = false) ∧ j.discards ≤ 65535
  numbers : seqChain (j.records.map (·.seq)) j.next = true
  next : 1 ≤ j.next ∧ j.next ≤ 4294967295

/-- The states of a mode (01 R1). -/
def LineState.fits (l : LineState) (m : Mode) : Bool :=
  match m with
  | .off => decide (l = .none)
  | .monitor => decide (l = .hunt) || decide (l = .locked) || decide (l = .noSignal)
  | .test => decide (l = .search) || decide (l = .track) || decide (l = .noSignal)

/-- The open interval's form (03 R43, R46, R48). -/
structure OpenInterval.Wf (iv : OpenInterval) : Prop where
  x : iv.x ≤ 65535 ∧ (iv.xSaturated = true ↔ iv.x = 65535)
  y : iv.y ≤ 65535 ∧ (iv.ySaturated = true ↔ iv.y = 65535)
  units : iv.units ≤ 65535

/-- A lane's form (01 R1, R4, R6, R7, R12, R18, 02 R26, R31, 03 R43, R58, 07 R146). -/
structure Lane.Wf (l : Lane) : Prop where
  fits : l.line.fits l.mode = true
  opened : l.interval.isSome = decide (l.mode ≠ .off)
  interval : ∀ iv, l.interval = some iv → iv.Wf
  off : l.mode = .off → l.swapPending = false ∧ l.txFault = false
  inserting : l.tx.insertPending = true → l.mode = .test
  history : l.history.length ≤ 32 ∧ (l.assembling = false → l.history = [])
  ring : l.ring.length ≤ 8 ∧ numberChain (l.ring.map (·.number)) l.number = true
  number : l.number < 65536
  receiver : l.rx.run ≤ 65535 ∧ (l.rx.idleCounted = true → 0 < l.rx.run) ∧ l.rx.validCells < 64 ∧ l.rx.window.length ≤ 16
  pages : l.pages[0].inRange = true ∧ l.pages[1].inRange = true

/-- A capture in a slot: FILLING it is short of its size, FULL and not truncated it has it (08 R157 to R160, R163). -/
def Slot.sized : Slot → Prop
  | .free => True
  | .filling c => c.truncated = false ∧ c.pre ≤ 32 ∧ c.post ≤ 96 ∧ c.pre ≤ c.data.length ∧ c.data.length < c.pre + c.post
  | .full c => c.pre ≤ 32 ∧ c.post ≤ 96 ∧ c.pre ≤ c.data.length ∧ c.data.length ≤ c.pre + c.post ∧
      (c.truncated = false → c.data.length = c.pre + c.post)

def Slot.isFilling : Slot → Bool
  | .filling _ => true
  | _ => false

/-- The capture unit's form (08 R151). -/
structure CaptureUnit.Wf (c : CaptureUnit) : Prop where
  onePending : (c.waiting.map (·.lane)).Nodup
  bound : ∀ k : SlotNo, (c.slots[k.val]).isFilling = true ↔ (c.engines[0] = some k ∨ c.engines[1] = some k)
  apart : c.engines[0] = c.engines[1] → c.engines[0] = none
  oneFilling : ∀ (n : LaneNo) (k k' : SlotNo),
    (c.slots[k.val]).fillsFor n = true → (c.slots[k'.val]).fillsFor n = true → k = k'
  notBoth : ∀ n : LaneNo, ¬ ((c.entryOf n).isSome = true ∧ (c.fillingSlot n).isSome = true)
  sized : ∀ k : SlotNo, (c.slots[k.val]).sized
  late : ∀ w ∈ c.waiting, w.lateBy ≤ 255

/-- The capture unit beside its lanes: a lane in OFF has no capture in progress (08 R162). -/
structure Device.CapturesWf (d : Device) : Prop where
  lanes : ∀ n, (d.lane n).Wf
  unit : d.capture.Wf
  offIdle : ∀ n, (d.lane n).mode = .off → d.capture.busy n = false

/-- A latch is set only for an enabled condition (09 R169). -/
def Attention.Wf (a : Attention) : Prop := ∀ c : CondNo, (a.conditions[c.val]).latch = true → (a.conditions[c.val]).enabled = true

/-- A time of the calendar (05 R91, R95, R96). -/
structure CalTime.Wf (t : CalTime) : Prop where
  year : t.year ≤ 99
  month : 1 ≤ t.month ∧ t.month ≤ 12
  day : 1 ≤ t.day ∧ t.day ≤ monthLength t.year t.month
  hour : t.hour ≤ 23
  minute : t.minute ≤ 59
  second : t.second ≤ 60 ∧ (t.second = 60 → t.hour = 23 ∧ t.minute = 59)

/-- The timebase's form (05 R91, R92, R108). -/
structure Timebase.Wf (t : Timebase) : Prop where
  time : t.time.Wf
  fraction : t.fraction ≤ 1023
  weekday : t.weekday ≤ 6
  divider : t.divider ≤ 15
  measure : t.measure.isSome = true → t.oscFault = true
  valid : t.timeValid = true → t.oscFaultSeen = false ∧ t.oscFault = false

/-- A filter's agreeing samples, which a fourth turns back to 0 (09 R173). -/
def EventInputs.Wf (i : EventInputs) : Prop := i.ext0.count ≤ 3 ∧ i.ext1.count ≤ 3

/-- An action a definition may hold (06 R115). -/
def Action.ok : Action → Bool
  | .onLanes _ mask => maskOk mask
  | _ => true

/-- The fields of a kind in their ranges (06 R112 to R114). -/
def EntryKind.ok : EntryKind → Bool
  | .atTime s m h day =>
    s.all (fun v => decide (v ≤ 59)) && m.all (fun v => decide (v ≤ 59)) && h.all (fun v => decide (v ≤ 23)) &&
    match day with
    | .any => true
    | .weekdays set => decide (1 ≤ set.toNat ∧ set.toNat ≤ 127)
    | .dayOfMonth d => decide (1 ≤ d ∧ d ≤ 31)
  | .countdown _ preset => decide (1 ≤ preset ∧ preset ≤ 16777215)
  | .external _ edge => decide (edge ≠ .none)

/-- A definition in range (06 R116). -/
def Definition.ok (df : Definition) : Bool :=
  df.kind.ok && decide (1 ≤ df.actions.length ∧ df.actions.length ≤ 4) && df.actions.all Action.ok

/-- An entry's form (06 R111): PAUSED is a countdown's alone, only a countdown has a remaining count. -/
def Entry.Wf : Entry → Prop
  | .empty => True
  | .held st df r => df.ok = true ∧ (st = .paused → df.isCountdown = true) ∧ r ≤ 16777215 ∧
      (df.isCountdown = false → r = 0)

def Schedule.Wf (x : Schedule) : Prop := ∀ e : EntryNo, (x.entries[e.val]).Wf

/-- The receiver inside a frame: LEN is 2 to 250 and the bytes held are not yet more than LEN and what it counts (10 R177,
R178). -/
def Port.Wf (p : Port) : Prop :=
  match p.rx with
  | .waiting => True
  | .inFrame [] => True
  | .inFrame (len :: rest) => 2 ≤ len.toNat ∧ len.toNat ≤ 250 ∧ rest.length ≤ len.toNat

/-! ### Frames -/

/-- The two devices differ at most in lane `n`, the capture unit, the records on their way, the number of the next event and
the level changes on their way. -/
structure Device.OnlyLane (n : LaneNo) (d d' : Device) : Prop where
  lanes : ∀ m, m ≠ n → d'.lane m = d.lane m
  pattern : d'.pattern = d.pattern
  timebase : d'.timebase = d.timebase
  schedule : d'.schedule = d.schedule
  inputs : d'.inputs = d.inputs
  journal : d'.journal = d.journal
  conditions : d'.attention.conditions = d.attention.conditions
  rate : d'.port.rate = d.port.rate
  records : d.inFlight <+: d'.inFlight

/-! ### What a rule says of one event -/

/-- The command makes a reset take effect: a power-on reset, the reset pin, or the end of the RESET reply (04 R89, 10 R188). -/
def resetting (s : State) : Instr → Prop
  | .powerOnReset _ _ | .resetPin _ _ => True
  | .resetTakesEffect => ∃ tag, s.dev.port.reply = some ⟨tag, 0x82#8, .ok, []⟩
  | _ => False

/-- A record on its way may not reach the journal before an earlier one on its way: both are of one event (04 R76), or both of one
lane, one of them written by a count and the other a record of a close (03 R50, log 27). -/
def Sent.Behind (x earlier : Sent) : Prop :=
  let counted : List Kind := [.burst, .slotSaturated]
  x.event = earlier.event ∨
  (∃ n, x.record.source = .lane n ∧ earlier.record.source = .lane n) ∧
    (x.ofClose = true ∧ earlier.record.kind ∈ counted ∨ x.record.kind ∈ counted ∧ earlier.ofClose = true)

/-- The level changes of one condition in a list of changes, in order (09 R168). -/
def movesOf (changes : List LevelChange) (c : CondNo) : List Bool :=
  (changes.filter fun x => decide (x.cond = c)).map (·.level)

/-- These are all the moves of a level from `x` to `y`: each differs from the level before it, and the last is `y`. -/
def movesFromTo : Bool → List Bool → Bool → Prop
  | x, [], y => x = y
  | x, z :: rest, y => z ≠ x ∧ movesFromTo z rest y

/-- The level of a condition as the changes taken so far have left it: that of its block, but for the changes still on their way,
of which the first moves it away from this level (09 R168, R171). -/
def Device.levelSeen (d : Device) (c : CondNo) : Bool :=
  match movesOf d.attention.changes c with
  | [] => d.level c
  | first :: _ => !first

/-- The attention unit follows the levels (09 R168, R169, R171): the changes on their way lead each level from the one seen to the
one its block presents, and an enabled condition in LEVEL mode whose level is seen true has its latch set. -/
structure Device.LevelsFollowed (d : Device) : Prop where
  lead : ∀ c, movesFromTo (d.levelSeen c) (movesOf d.attention.changes c) (d.level c)
  latched : ∀ c : CondNo, let x := d.attention.conditions[c.val]
    x.enabled = true → x.mode = .level → d.levelSeen c = true → x.latch = true

/-- A request to the table that finds it at work on an event does what it does right after the rest of that work, which is then
done (log 6). -/
def TakenAfterTheWork (c : Instr) (s : State) : Prop :=
  let done := Device.runTable { s.dev with port := { s.dev.port with rx := .waiting } } none
  exec c s = exec c (s.withDev done) ∧ done.schedule.work = none

/-- What the journal is after a record has arrived, case by case (04 R77, R78, R79). -/
structure Journal.Takes (j : Journal) (r : Record) (j' : Journal) : Prop where
  roomUnderWrap : j.policy = .wrap → j.records.length < 64 →
    j' = { j with records := j.records ++ [⟨j.next, r⟩], next := nextSeq j.next }
  fullUnderWrap : j.policy = .wrap → 64 ≤ j.records.length →
    j' = { j with records := j.records.tail ++ [⟨j.next, r⟩], next := nextSeq j.next }
  roomUnderHold : j.policy = .hold → j.holdOff = false → j.records.length < 64 →
    j' = { j with records := j.records ++ [⟨j.next, r⟩], next := nextSeq j.next }
  fullUnderHold : j.policy = .hold → j.holdOff = false → 64 ≤ j.records.length →
    j' = { j with holdOff := true, discards := min (j.discards + 1) 65535 }
  resumes : j.policy = .hold → j.holdOff = true → j.records.length + 2 ≤ 64 →
    j' = { j with
      records := j.records ++
        [⟨j.next, ⟨r.stamp, .journal, .journalResumed, j.discards, none⟩⟩, ⟨nextSeq j.next, r⟩]
      next := nextSeq (nextSeq j.next), holdOff := false, discards := 0 }
  holdsOn : j.policy = .hold → j.holdOff = true → 64 < j.records.length + 2 →
    j' = { j with discards := min (j.discards + 1) 65535 }

/-- The records a close of the lane writes, in order (03 R55, R56, R59): RING_OVERRUN and INTERVAL_CLOSED as the lane is in the
interval closed, with the end stamp, then PAGE_SWAPPED under the new live page, with the start stamp. -/
def Lane.closeRecords (l : Lane) (n : LaneNo) (stop start : Stamp) : List Record :=
  recordIf (decide (8 ≤ l.ring.length)) (l.writes n stop .ringOverrun ((l.ring.head?.map (·.number)).getD 0)) ++
  recordIf l.page.journalCloses (l.writes n stop .intervalClosed l.number) ++
  recordIf l.swapPending
    ({ l with live := 1 - l.live, swapPending := false, number := (l.number + 1) % 65536, interval := none }.writes n start
      .pageSwapped (1 - l.live).val)

/-- CAPTURE_DONE of the lane's FILLING capture, if it has one, ended as truncated (08 R160): source CAPTURE, no snapshot. -/
def CaptureUnit.truncatedRecords (c : CaptureUnit) (n : LaneNo) (st : Stamp) : List Record :=
  match c.fillingSlot n with
  | some k => [⟨st, .capture, .captureDone, k.val + 32768, none⟩]
  | none => []

/-- The unit with the capture of a slot ended: the slot FULL with this capture, the engine bound to it free (08 R159, R160). -/
def CaptureUnit.ended (u : CaptureUnit) (k : SlotNo) (c : Capture) : CaptureUnit :=
  ⟨u.waiting, #v[if u.engines[0] = some k then none else u.engines[0], if u.engines[1] = some k then none else u.engines[1]],
    u.slots.set k.val (.full c)⟩

/-- The unit after the lane's FILLING capture, if it has one, has ended truncated: the slot FULL with the truncated flag, the
engine free, and then the grant test (08 R156, R160). -/
def Device.truncatedCapture (d : Device) (n : LaneNo) : CaptureUnit :=
  match d.capture.fillingSlot n with
  | none => d.capture
  | some k => match d.capture.slots[k.val] with
    | .filling c => (Device.grantTest { d with capture := d.capture.ended k { c with truncated := true } }).capture
    | _ => d.capture

/-- The unit after a change of a lane's mode: its FILLING capture ended as truncated, its pending entry removed (01 R19, R20). -/
def Device.endedCapture (d : Device) (n : LaneNo) : CaptureUnit :=
  let u := d.truncatedCapture n
  { u with waiting := u.waiting.filter fun w => decide (w.lane ≠ n) }

/-- The records a change of the mode of a lane that is `l` writes for its captures (01 R19, R20): CAPTURE_DONE of a truncated
capture, CAPTURE_DROPPED of a pending entry. -/
def CaptureUnit.endRecords (c : CaptureUnit) (n : LaneNo) (l : Lane) (st : Stamp) : List Record :=
  c.truncatedRecords n st ++
  match c.entryOf n with
    | some w => [l.writes n st .captureDropped w.kind.code]
    | none => []

/-- The lane has not both a pending entry and a FILLING capture (08 R151). -/
def CaptureUnit.notBothFor (c : CaptureUnit) (n : LaneNo) : Prop :=
  ¬ ((c.entryOf n).isSome = true ∧ (c.fillingSlot n).isSome = true)

/-- The closed interval record of a close with this reason and end stamp is the newest of the ring, which gave up its oldest
where it was full (03 R57, R58). -/
def Lane.closedRing (l : Lane) (n : LaneNo) (iv : OpenInterval) (reason : CloseReason) (stop : Stamp) : List ClosedInterval :=
  (if l.ring.length < 8 then l.ring else l.ring.tail) ++
  [⟨n, l.number, l.live, reason, l.page.slotX, iv.x, l.page.slotY, iv.y, iv.xSaturated, iv.ySaturated, iv.units, iv.lostLock,
    iv.lostSignal, iv.start, stop⟩]

/-- An interval just opened at a stamp: counts 0, flags clear (03 R44). -/
def newInterval (start : Stamp) : OpenInterval := ⟨start, 0, 0, 0, false, false, false, false, false⟩

/-- The page live after a pending swap has been carried out (02 R34). -/
def Lane.swappedLive (l : Lane) : Fin 2 := if l.swapPending then 1 - l.live else l.live

/-- The lane number as a request carries it (10 R182). -/
def laneByte (n : LaneNo) : Byte := BitVec.ofNat 8 n.val

def entryByte (e : EntryNo) : Byte := BitVec.ofNat 8 e.val

def slotByte (k : SlotNo) : Byte := BitVec.ofNat 8 k.val

/-- The number of the alarm condition of a lane (09 R168). -/
def alarmCond (n : LaneNo) : CondNo := ⟨3 + n.val, by omega⟩

/-- A port error as the attention unit takes it: the latch of PORT_ERROR sets if the condition is enabled (09 R169). -/
def Device.withPortError (d : Device) : Device :=
  let c := d.attention.conditions[9]
  { d with
    port := { d.port with rx := .waiting }
    attention := { d.attention with
      conditions := d.attention.conditions.set 9 { c with latch := c.latch || c.enabled } } }

/-- The calendar setting of a TIME SET is in range (05 R99). -/
def settingOk (year month day hour minute second weekday leap : Byte) : Prop :=
  year.toNat ≤ 99 ∧ 1 ≤ month.toNat ∧ month.toNat ≤ 12 ∧ 1 ≤ day.toNat ∧
  day.toNat ≤ (if month.toNat = 2 then (if year.toNat % 4 = 0 then 29 else 28)
    else if month.toNat ∈ [4, 6, 9, 11] then 30 else 31) ∧
  hour.toNat ≤ 23 ∧ minute.toNat ≤ 59 ∧ second.toNat ≤ 60 ∧ weekday.toNat ≤ 6 ∧ leap.toNat ≤ 1 ∧
  (second.toNat = 60 → hour.toNat = 23 ∧ minute.toNat = 59 ∧ leap.toNat = 0)

end Sys2Proof.Machine
end

