-- ==== Sys2Proof/WellFormed.lean ====
section
/-! DEFINITION. Which commands a sender can form: a request's parameters fit a frame (10 FRAMES, LEN at most 250), and an
UNKNOWN_CODE event carries a code the request table does not have (R180). Every other operand is in range by its type. -/

namespace Sys2Proof

/-- The command can be formed by the outside. -/
def Instr.wf : Instr → Bool
  | .powerOnReset _ _ => true
  | .resetPin _ _ => true
  | .reset _ params => decide (params.length ≤ Config.paramsMax)
  | .resetTakesEffect => true
  | .deviceInfo _ params => decide (params.length ≤ Config.paramsMax)
  | .attention _ params => decide (params.length ≤ Config.paramsMax)
  | .attentionConfig _ params => decide (params.length ≤ Config.paramsMax)
  | .extConfig _ params => decide (params.length ≤ Config.paramsMax)
  | .patternSet _ params => decide (params.length ≤ Config.paramsMax)
  | .patternGet _ params => decide (params.length ≤ Config.paramsMax)
  | .timeGet _ params => decide (params.length ≤ Config.paramsMax)
  | .timeSet _ params => decide (params.length ≤ Config.paramsMax)
  | .timeStop _ params => decide (params.length ≤ Config.paramsMax)
  | .timeRun _ params => decide (params.length ≤ Config.paramsMax)
  | .laneStart _ params => decide (params.length ≤ Config.paramsMax)
  | .laneStop _ params => decide (params.length ≤ Config.paramsMax)
  | .laneStatus _ params => decide (params.length ≤ Config.paramsMax)
  | .profileSet _ params => decide (params.length ≤ Config.paramsMax)
  | .profileGet _ params => decide (params.length ≤ Config.paramsMax)
  | .pageSwap _ params => decide (params.length ≤ Config.paramsMax)
  | .intervalClose _ params => decide (params.length ≤ Config.paramsMax)
  | .intervalTake _ params => decide (params.length ≤ Config.paramsMax)
  | .testStart _ params => decide (params.length ≤ Config.paramsMax)
  | .testStop _ params => decide (params.length ≤ Config.paramsMax)
  | .insert _ params => decide (params.length ≤ Config.paramsMax)
  | .entrySet _ params => decide (params.length ≤ Config.paramsMax)
  | .entryGet _ params => decide (params.length ≤ Config.paramsMax)
  | .entryArm _ params => decide (params.length ≤ Config.paramsMax)
  | .entryDisarm _ params => decide (params.length ≤ Config.paramsMax)
  | .entryPause _ params => decide (params.length ≤ Config.paramsMax)
  | .entryResume _ params => decide (params.length ≤ Config.paramsMax)
  | .entryClear _ params => decide (params.length ≤ Config.paramsMax)
  | .journalTake _ params => decide (params.length ≤ Config.paramsMax)
  | .journalStatus _ params => decide (params.length ≤ Config.paramsMax)
  | .journalConfig _ params => decide (params.length ≤ Config.paramsMax)
  | .journalMark _ params => decide (params.length ≤ Config.paramsMax)
  | .capture _ params => decide (params.length ≤ Config.paramsMax)
  | .captureStatus _ params => decide (params.length ≤ Config.paramsMax)
  | .captureTake _ params => decide (params.length ≤ Config.paramsMax)
  | .captureAbort _ params => decide (params.length ≤ Config.paramsMax)
  | .unknownCode _ code params => decide (code ∉ Config.requestCodes) && decide (params.length ≤ Config.paramsMax)
  | .badFrame _ => true
  | .frameGapTimeout => true
  | .replySent => true
  | .cellArrival _ _ => true
  | .transmitCell _ => true
  | .driverFault _ _ => true
  | .fineTick => true
  | .secondArrival _ => true
  | .scheduleSecondArrival _ => true
  | .minuteArrival _ => true
  | .scheduleFineTick _ => true
  | .countdownExpiry _ => true
  | .filterSample _ _ => true
  | .scheduleEdge _ _ => true
  | .extEdge _ => true
  | .oscFault => true
  | .oscMeasureRestart => true
  | .oscResumed => true
  | .recordArrival _ => true
  | .conditionChange _ => true
  | .crxCharacter _ _ => true
  | .crystalCycleSeen => true

end Sys2Proof
end

