-- ==== Sys2Proof/Certificates/Slice0/Obligations.lean ====
section
/-! DEFINITION. The statements about the LQ-4 for the provers, in the order of OBLIGATIONS.json: the machine and its resets,
requests, time, lanes, accounting, cells, the table, event inputs, journal, capture, attention, port, images, invariants. -/

open Sys2Proof Sys2Proof.Machine

/-! ### The machine and its resets -/

/-- Step takes the command at the front of the queue and runs it with the queue's rest. -/
def Obligations.StepTakesTheFrontCommand : Prop :=
  ∀ (c : Instr) (rest : List Instr) (s : State),
    step { s with pending := c :: rest } = exec c { s with pending := rest }

/-- Every command completes, whatever the state, and leaves the queue as it was; on an empty queue the block idles (the model's
choice, log 14). -/
def Obligations.EveryCommandCompletes : Prop :=
  (∀ (c : Instr) (s : State), ∃ d, exec c s = .next (s.withDev d)) ∧
  (∀ s : State, s.pending = [] → step s = .next s)

/-- Every event presents to the attention unit each level that it moves, once for each move, in the order they happen, and nothing
else (R1, R21, R88, R91, R164, R168). Only JOURNAL_LEVEL can move more than once at one event, and JOURNAL_HELD where several
records arrive in one step: at a JOURNAL MARK, as a request or by its characters, and at MARK actions (the model's reading, logs 4,
22, 28). Every reset drops the changes not yet taken (the model's choice, log 7): after a power-on reset or the reset pin no change
is on its way, after a reset request those of RESTART's arrival alone. So the attention unit follows the levels: the changes on
their way lead from the levels it has seen to those of the blocks, and a LEVEL condition whose level it has seen true is latched
(the level seen is the model's reading, log 24). -/
def Obligations.EveryEventPresentsTheLevelsItMoves : Prop :=
  (∀ (c : Instr) (s t : State), exec c s = .next t → (∀ i, c ≠ .conditionChange i) →
    (∀ r1 r0, c ≠ .powerOnReset r1 r0 ∧ c ≠ .resetPin r1 r0) →
    (c = .resetTakesEffect ∨ c = .replySent → ∀ r, s.dev.port.reply = some r → ¬ (r.code = 0x82#8 ∧ r.status = .ok)) →
    ∃ moved, t.dev.attention.changes = s.dev.attention.changes ++ moved ∧
      ∀ i : CondNo, movesFromTo (s.dev.level i) (movesOf moved i) (t.dev.level i) ∧
        (i ≠ 0 → i ≠ 1 ∨ c.severalArrive = false → (movesOf moved i).length ≤ 1)) ∧
  (∀ s t : State, s.dev.LevelsFollowed → step s = .next t → t.dev.LevelsFollowed) ∧
  (∀ (r1 r0 : Bool) (s : State),
    (∃ t, exec (.powerOnReset r1 r0) s = .next t ∧ t.dev.attention.changes = []) ∧
    (∃ t, exec (.resetPin r1 r0) s = .next t ∧ t.dev.attention.changes = [])) ∧
  (∀ s : State, resetting s .resetTakesEffect → ∃ t, exec .resetTakesEffect s = .next t ∧
    ∀ i : CondNo, movesFromTo (if i ∈ [0, 1, 8] then s.dev.level i else false) (movesOf t.dev.attention.changes i)
        (t.dev.level i) ∧ (i ≠ 0 → (movesOf t.dev.attention.changes i).length ≤ 1))

/-- Each of the three resets empties the table and the capture unit and puts the lanes, the test unit, the attention unit, the
event inputs and the port in their reset state, without a record of their own (R42, R68, R133, R167). -/
def Obligations.EveryResetClearsTheBlocks : Prop :=
  ∀ (s : State) (c : Instr), resetting s c → ∃ t, exec c s = .next t ∧
    (∀ n, (t.dev.lane n).mode = .off ∧ (t.dev.lane n).line = .none ∧
      (t.dev.lane n).pages[0] = Profile.default ∧ (t.dev.lane n).pages[1] = Profile.default ∧ (t.dev.lane n).live = 0 ∧
      (t.dev.lane n).swapPending = false ∧ (t.dev.lane n).history = [] ∧ (t.dev.lane n).rx.window = [] ∧
      (t.dev.lane n).rx.candidate = none ∧ (t.dev.lane n).rx.run = 0 ∧ (t.dev.lane n).rx.idleCounted = false ∧
      (t.dev.lane n).rx.mismatches = 0 ∧ (t.dev.lane n).rx.validCells = 0 ∧ (t.dev.lane n).checker.blockCells = 0 ∧ (t.dev.lane n).checker.blockMismatches = 0 ∧
      (t.dev.lane n).txFault = false ∧ (t.dev.lane n).txe = false ∧ (t.dev.lane n).number = 0 ∧
      (t.dev.lane n).interval = none ∧ (t.dev.lane n).ring = [] ∧ (t.dev.lane n).tx.insertPending = false ∧
      (t.dev.lane n).checker.alignment = none ∧ (∀ k : Fin 16, (t.dev.lane n).checker.counts[k.val] = 0)) ∧
    t.dev.pattern = ⟨0xF0#8, 0x66#8⟩ ∧
    (∀ e, t.dev.entry e = .empty) ∧ t.dev.schedule.work = none ∧
    t.dev.capture.waiting = [] ∧ t.dev.capture.engines[0] = none ∧ t.dev.capture.engines[1] = none ∧
    (∀ k : SlotNo, t.dev.capture.slots[k.val] = .free) ∧ t.dev.level 2 = false ∧
    (∀ c : CondNo, t.dev.attention.conditions[c.val] = ⟨false, .rise, false⟩) ∧ t.dev.attention.atnLow = false ∧
    t.dev.inputs.ext0 = ⟨false, 0, .none⟩ ∧ t.dev.inputs.ext1 = ⟨false, 0, .none⟩ ∧
    t.dev.port.rx = .waiting ∧ t.dev.port.reply = none ∧
    (∀ x ∈ t.dev.inFlight, x ∈ s.dev.inFlight) ∧ t.pending = s.pending

/-- After a power-on reset or the reset pin the journal holds one record, RESTART with sequence number 1; the reset request keeps
the journal, and RESTART with detail 3 arrives under the current policy (R89, R90). -/
def Obligations.ResetsWriteRestart : Prop :=
  (∀ (r1 r0 : Bool) (s : State),
    (∃ t, exec (.powerOnReset r1 r0) s = .next t ∧
      t.dev.journal =
        ⟨[⟨1, ⟨⟨⟨0, 1, 1, 0, 0, 0⟩, 0, false, false⟩, .device, .restart, 1, none⟩⟩], 2, .wrap, 48, false, 0⟩ ∧
      t.dev.level 0 = false) ∧
    (∃ t, exec (.resetPin r1 r0) s = .next t ∧
      t.dev.journal = ⟨[⟨1, ⟨s.dev.now, .device, .restart, 2, none⟩⟩], 2, .wrap, 48, false, 0⟩ ∧ t.dev.now = s.dev.now ∧
      t.dev.level 0 = false)) ∧
  (∀ s : State, resetting s .resetTakesEffect →
    ∃ t, exec .resetTakesEffect s = .next t ∧ t.dev.now = s.dev.now ∧
      s.dev.journal.Takes ⟨s.dev.now, .device, .restart, 3, none⟩ t.dev.journal)

/-! ### Requests -/

/-- A request that completes while a reply is in progress is discarded: one port error and nothing else. -/
def Obligations.RequestsDuringAReplyAreOverruns : Prop :=
  ∀ (c : Instr) (code tag : Byte) (params : List Byte) (s : State), c.request? = some (code, tag, params) → c.wf = true →
    s.dev.port.reply.isSome = true → exec c s = .next (s.withDev s.dev.withPortError)

/-- A code the table has not is answered UNKNOWN, a length it does not allow BAD_LENGTH; nothing else changes. -/
def Obligations.UnknownCodesAndWrongLengthsAreRefused : Prop :=
  (∀ (tag code : Byte) (params : List Byte) (s : State), code ∉ Config.requestCodes → s.dev.quiet →
    exec (.unknownCode tag code params) s = .next (s.withDev (s.dev.answered tag code .unknown []))) ∧
  (∀ (c : Instr) (code tag : Byte) (params : List Byte) (s : State), c.request? = some (code, tag, params) →
    code ∈ Config.requestCodes → c.wf = true → params.length ∉ paramLengths code → s.dev.quiet →
    exec c s = .next (s.withDev (s.dev.answered tag code .badLength [])))

/-- DEVICE INFO answers its nine bytes (R189). -/
def Obligations.DeviceInfoAnswersItsIdentity : Prop :=
  ∀ (tag : Byte) (s : State), s.dev.quiet →
    exec (.deviceInfo tag []) s = .next (s.withDev (s.dev.answered tag 0x01#8 .ok [0x6A#8, 0x41#8, 0x01#8, 4#8, 64#8, 8#8, 4#8, 2#8, 8#8]))

/-- PATTERN SET replaces both bytes unless a lane is in TEST, PATTERN GET answers them, and every reset sets them to F0h and 66h
(R135, R136). -/
def Obligations.PatternIsSetReadAndReset : Prop :=
  (∀ (tag a b : Byte) (s : State), s.dev.quiet →
    ((∃ n, (s.dev.lane n).mode = .test) →
      exec (.patternSet tag [a, b]) s = .next (s.withDev (s.dev.answered tag 0x06#8 .wrongState []))) ∧
    ((∀ n, (s.dev.lane n).mode ≠ .test) →
      exec (.patternSet tag [a, b]) s =
        .next (s.withDev (Device.answered { s.dev with pattern := ⟨a, b⟩ } tag 0x06#8 .ok []))) ∧
    exec (.patternGet tag []) s =
      .next (s.withDev (s.dev.answered tag 0x07#8 .ok [s.dev.pattern.a, s.dev.pattern.b]))) ∧
  (∀ (s : State) (c : Instr), resetting s c → ∃ t, exec c s = .next t ∧ t.dev.pattern = ⟨0xF0#8, 0x66#8⟩)

/-- RESET is answered OK and takes effect only with the end of its reply: until then nothing else changes. The model's choice (log
16): REPLY_SENT on that reply carries out the reset as RESET_TAKES_EFFECT does, and without such a reply the two leave the blocks
as they are (R188, R181). A power-on reset sets the timebase and reads the straps; the reset pin keeps the timebase and reads the
straps; the reset request keeps both the timebase and the link rate (R110, R176). -/
def Obligations.ResetsKeepTheirTimeAndRate : Prop :=
  (∀ (tag : Byte) (s : State),
    (s.dev.quiet → exec (.reset tag []) s = .next (s.withDev (s.dev.answered tag 0x02#8 .ok []))) ∧
    (s.dev.quiet → exec .resetTakesEffect s = .next s ∧ exec .replySent s = .next s) ∧
    (resetting s .resetTakesEffect → exec .replySent s = exec .resetTakesEffect s) ∧
    (∀ r, s.dev.port.reply = some r → ¬ (r.code = 0x82#8 ∧ r.status = .ok) →
      exec .resetTakesEffect s = .next s ∧
      exec .replySent s = .next (s.withDev ({ s.dev with port := { s.dev.port with reply := none } })))) ∧
  (∀ s : State,
    (∀ r1 r0, ∃ t, exec (.powerOnReset r1 r0) s = .next t ∧
      t.dev.timebase = ⟨⟨0, 1, 1, 0, 0, 0⟩, 0, 6, false, .running, false, false, false, 0, none⟩ ∧ t.dev.level 8 = true ∧
      t.dev.port.rate = (match r1, r0 with
        | false, false => .baud115200 | false, true => .baud230400 | true, false => .baud460800 | true, true => .baud921600)) ∧
    (∀ r1 r0, ∃ t, exec (.resetPin r1 r0) s = .next t ∧ t.dev.timebase = s.dev.timebase ∧
      t.dev.port.rate = (match r1, r0 with
        | false, false => .baud115200 | false, true => .baud230400 | true, false => .baud460800 | true, true => .baud921600)) ∧
    (resetting s .resetTakesEffect →
      ∃ t, exec .resetTakesEffect s = .next t ∧ t.dev.timebase = s.dev.timebase ∧ t.dev.port.rate = s.dev.port.rate))

/-! ### Time -/

/-- TIME GET answers the timebase as held (R98). -/
def Obligations.TimeGetReportsTheTimebase : Prop :=
  ∀ (tag : Byte) (s : State), s.dev.quiet → let b := s.dev.timebase
    exec (.timeGet tag []) s = .next (s.withDev (s.dev.answered tag 0x10#8 .ok
      ([byte b.time.year, byte b.time.month, byte b.time.day, byte b.time.hour, byte b.time.minute, byte b.time.second] ++
        le16 (b.fraction + (if b.run = .stopped ∨ b.oscFault = true then 16384 else 0) +
          (if b.timeValid then 32768 else 0)) ++
        [byte b.weekday, byte ((if b.leapPending then 1 else 0) + (if b.run = .stopped then 2 else 0) +
          (if b.oscFault then 4 else 0) + (if b.oscFaultSeen then 8 else 0))])))

/-- TIME SET out of range is refused with BAD_VALUE, then during an oscillator fault with CLOCK_FAULT; a refusal changes nothing,
and otherwise it is accepted (R99). -/
def Obligations.TimeSetChecksItsSetting : Prop :=
  ∀ (tag y mo d h mi se w leap : Byte) (s : State), s.dev.quiet →
    (¬ settingOk y mo d h mi se w leap →
      exec (.timeSet tag [y, mo, d, h, mi, se, w, leap]) s =
        .next (s.withDev (s.dev.answered tag 0x11#8 .badValue []))) ∧
    (settingOk y mo d h mi se w leap → s.dev.timebase.oscFault = true →
      exec (.timeSet tag [y, mo, d, h, mi, se, w, leap]) s =
        .next (s.withDev (s.dev.answered tag 0x11#8 .clockFault []))) ∧
    (settingOk y mo d h mi se w leap → s.dev.timebase.oscFault = false →
      ∃ t, exec (.timeSet tag [y, mo, d, h, mi, se, w, leap]) s = .next t ∧
        t.dev.port.reply = some ⟨tag, 0x91#8, .ok, []⟩ ∧
        t.dev.timebase = { s.dev.timebase with
          time := ⟨y.toNat, mo.toNat, d.toNat, h.toNat, mi.toNat, se.toNat⟩, fraction := 0, weekday := w.toNat,
          leapPending := leap = 1#8, timeValid := true, oscFaultSeen := false })

/-- An accepted TIME SET closes the open interval of every running lane with reason TIME_SET, the old stamp as end and the new time
as start, one lane after another in increasing number, passes a lane in OFF over, and writes TIME_SET last. RING_OVERRUN and
INTERVAL_CLOSED carry the old stamp, every other record the new one (R62, R100, R101). That the closes are one step is the model's
reading (log 17); each record carries the mark of a request, the model's own (log 1). -/
def Obligations.TimeSetClosesRunningLanes : Prop :=
  ∀ (tag y mo d h mi se w leap : Byte) (s : State), s.dev.quiet → settingOk y mo d h mi se w leap →
    s.dev.timebase.oscFault = false →
    ∃ t, exec (.timeSet tag [y, mo, d, h, mi, se, w, leap]) s = .next t ∧
      let new : Stamp := ⟨⟨y.toNat, mo.toNat, d.toNat, h.toNat, mi.toNat, se.toNat⟩, 0, true,
        decide (s.dev.timebase.run = .stopped)⟩
      (∀ n, (s.dev.lane n).mode = .off → t.dev.lane n = s.dev.lane n) ∧
      (∀ n iv, (s.dev.lane n).mode ≠ .off → (s.dev.lane n).interval = some iv →
        (t.dev.lane n).ring = (s.dev.lane n).closedRing n iv .timeSet s.dev.now ∧
        (t.dev.lane n).number = ((s.dev.lane n).number + 1) % 65536 ∧
        (t.dev.lane n).interval.map (·.start) = some new ∧
        (t.dev.lane n).live = (s.dev.lane n).swappedLive ∧ (t.dev.lane n).swapPending = false ∧
        (t.dev.lane n).mode = (s.dev.lane n).mode) ∧
      (let running := ([0, 1, 2, 3] : List LaneNo).filter fun n => decide ((s.dev.lane n).mode ≠ .off)
       let closed := running.foldl (fun d n => d.close n .timeSet s.dev.now new) s.dev
       t.dev.lanes = closed.lanes ∧ t.dev.capture = closed.capture ∧
       t.dev.inFlight = s.dev.inFlight ++ (closed.inFlight.drop s.dev.inFlight.length).map (fun x : Sent => { x with byRequest := true }) ++
         [⟨s.dev.events, ⟨new, .timebase, .timeSet, 0, none⟩, true, false⟩]) ∧
      (∀ r ∈ s.dev.written t.dev, r.stamp = if r.kind = .ringOverrun ∨ r.kind = .intervalClosed then s.dev.now else new) ∧
      t.dev.attention.conditions = s.dev.attention.conditions

/-- TIME STOP and TIME RUN change the run state and write CLOCK_STOPPED or CLOCK_RUN; where the state is held already they only
answer OK (R104, R105). The number of the event and the marks that a record on its way carries are the model's own (log 1). -/
def Obligations.TimeStopAndRunChangeTheRunState : Prop :=
  ∀ (tag : Byte) (s : State), s.dev.quiet → let b := s.dev.timebase
    (b.run = .running → exec (.timeStop tag []) s = .next (s.withDev (Device.answered { s.dev with
        timebase := { b with run := .stopped }
        inFlight := s.dev.inFlight ++
          [⟨s.dev.events, ⟨⟨b.time, b.fraction, b.timeValid, true⟩, .timebase, .clockStopped, 0, none⟩, true, false⟩]
        events := s.dev.events + 1 } tag 0x12#8 .ok []))) ∧
    (b.run = .stopped → exec (.timeStop tag []) s = .next (s.withDev (s.dev.answered tag 0x12#8 .ok []))) ∧
    (b.run = .stopped → exec (.timeRun tag []) s = .next (s.withDev (Device.answered { s.dev with
        timebase := { b with run := .running }
        inFlight := s.dev.inFlight ++
          [⟨s.dev.events, ⟨⟨b.time, b.fraction, b.timeValid, b.oscFault⟩, .timebase, .clockRun, 0, none⟩, true, false⟩]
        events := s.dev.events + 1 } tag 0x13#8 .ok []))) ∧
    (b.run = .running → exec (.timeRun tag []) s = .next (s.withDev (s.dev.answered tag 0x13#8 .ok [])))

/-- A fine tick moves the divider and goes to the table; it advances the fraction while RUNNING and carries the second at 1023,
which delivers the second arrival once to every accounting unit and to the table, with a minute arrival where the minute advances;
while osc_fault is set there is no tick (R92, R93). That the table counts the ticks it has not yet taken is the model's own (log
3), and that an arrival carries the weekday of its delivery is its reading (log 21). -/
def Obligations.FineTicksAdvanceTheFraction : Prop :=
  ∀ s : State, let b := s.dev.timebase
    let ticked : Timebase := { b with divider := if b.divider < 15 then b.divider + 1 else 0 }
    (b.oscFault = true → exec .fineTick s = .next s) ∧
    (b.oscFault = false → b.run = .stopped → exec .fineTick s = .next (s.withDev ({ s.dev with
      timebase := ticked, schedule := { s.dev.schedule with ticks := s.dev.schedule.ticks + 1 } }))) ∧
    (b.oscFault = false → b.run = .running → b.fraction < 1023 → exec .fineTick s = .next (s.withDev ({ s.dev with
      timebase := { ticked with fraction := b.fraction + 1 }
      schedule := { s.dev.schedule with ticks := s.dev.schedule.ticks + 1 } }))) ∧
    (b.oscFault = false → b.run = .running → 1023 ≤ b.fraction →
      let carried := Timebase.carrySecond { ticked with fraction := 0 }
      let a : Arrival := ⟨carried.1.time, carried.1.weekday⟩
      ∃ t, exec .fineTick s = .next t ∧
        t.dev = { s.dev with
          timebase := carried.1
          lanes := t.dev.lanes
          schedule := { s.dev.schedule with
            ticks := s.dev.schedule.ticks + 1, seconds := s.dev.schedule.seconds ++ [a]
            minutes := s.dev.schedule.minutes ++ (if carried.2 then [a] else []) } } ∧
        (∀ n, t.dev.lane n = { s.dev.lane n with seconds := (s.dev.lane n).seconds ++ [a] }))

/-- The carry of the second on a calendar time: the leap second, the minute arrival, and the carry upward to hour, day, weekday,
month and year; nothing else of the timebase changes (R94, R95, R96). -/
def Obligations.TheCalendarCarries : Prop :=
  ∀ b : Timebase, b.time.Wf → b.weekday ≤ 6 → let c := b.carrySecond
    let last := if b.time.month = 2 then (if b.time.year % 4 = 0 then 29 else 28)
      else if b.time.month ∈ [4, 6, 9, 11] then 30 else 31
    (b.leapPending = true ∧ b.time.hour = 23 ∧ b.time.minute = 59 ∧ b.time.second = 59 →
      c = ({ b with time := { b.time with second := 60 }, leapPending := false }, false)) ∧
    (b.time.second < 59 → c = ({ b with time := { b.time with second := b.time.second + 1 } }, false)) ∧
    (59 ≤ b.time.second → ¬ (b.leapPending = true ∧ b.time.hour = 23 ∧ b.time.minute = 59 ∧ b.time.second = 59) →
      c.2 = true ∧ c.1 = { b with time := c.1.time, weekday := c.1.weekday } ∧
      (b.time.minute < 59 → c.1.time = { b.time with second := 0, minute := b.time.minute + 1 } ∧ c.1.weekday = b.weekday) ∧
      (b.time.minute = 59 → b.time.hour < 23 →
        c.1.time = { b.time with second := 0, minute := 0, hour := b.time.hour + 1 } ∧ c.1.weekday = b.weekday) ∧
      (b.time.minute = 59 → b.time.hour = 23 →
        c.1.weekday = (if b.weekday = 6 then 0 else b.weekday + 1) ∧
        (b.time.day < last → c.1.time = ⟨b.time.year, b.time.month, b.time.day + 1, 0, 0, 0⟩) ∧
        (b.time.day = last → b.time.month < 12 → c.1.time = ⟨b.time.year, b.time.month + 1, 1, 0, 0, 0⟩) ∧
        (b.time.day = last → b.time.month = 12 → c.1.time = ⟨if b.time.year = 99 then 0 else b.time.year + 1, 1, 1, 0, 0, 0⟩)))

/-- The detection of an oscillator fault, the recovery measure and the recovery (R107, R108). The model's own: the measure is held
as the crystal cycles seen since it last started (log 8); OSC_RESUMED without a fault or a measure, OSC_MEASURE_RESTART without a
measure and CRYSTAL_CYCLE_SEEN without a fault do nothing (log 16); the number of the event and the marks that a record carries on
its way (log 1). -/
def Obligations.OscillatorFaultAndRecovery : Prop :=
  ∀ s : State, let b := s.dev.timebase
    (b.oscFault = true → exec .oscFault s = .next s) ∧
    (b.oscFault = false → ∃ t, exec .oscFault s = .next t ∧
      t.dev.timebase = { b with oscFault := true, oscFaultSeen := true, timeValid := false, measure := none } ∧
      t.dev.inFlight = s.dev.inFlight ++
        [⟨s.dev.events, ⟨⟨b.time, b.fraction, false, true⟩, .timebase, .oscFault, 0, none⟩, false, false⟩] ∧
      t.dev.attention.changes = s.dev.attention.changes ++ (if b.timeValid && !b.oscFaultSeen then [⟨8, true⟩] else []) ∧
      t.dev.attention.conditions = s.dev.attention.conditions ∧
      t.dev.lanes = s.dev.lanes ∧ t.dev.schedule = s.dev.schedule) ∧
    (b.oscFault = true → ∀ k, b.measure = some k → ∃ t, exec .oscResumed s = .next t ∧
      t.dev.timebase = { b with oscFault := false, measure := none } ∧
      t.dev.inFlight = s.dev.inFlight ++ [⟨s.dev.events,
        ⟨⟨b.time, b.fraction, b.timeValid, decide (b.run = .stopped)⟩, .timebase, .oscResumed, 0, none⟩, false, false⟩] ∧
      t.dev.attention.conditions = s.dev.attention.conditions ∧
      t.dev.lanes = s.dev.lanes ∧ t.dev.schedule = s.dev.schedule) ∧
    (b.oscFault = false ∨ b.measure = none → exec .oscResumed s = .next s) ∧
    (b.oscFault = true → b.measure = none → exec .crystalCycleSeen s =
      .next (s.withDev ({ s.dev with timebase := { b with measure := some 0 } }))) ∧
    (b.oscFault = true → ∀ k, b.measure = some k → exec .crystalCycleSeen s =
      .next (s.withDev ({ s.dev with timebase := { b with measure := some (k + 1) } }))) ∧
    (b.oscFault = false → exec .crystalCycleSeen s = .next s) ∧
    (∀ k, b.measure = some k → exec .oscMeasureRestart s =
      .next (s.withDev ({ s.dev with timebase := { b with measure := some 0 } }))) ∧
    (b.measure = none → exec .oscMeasureRestart s = .next s)

/-! ### Lanes -/

/-- LANE START takes a lane in OFF to MONITOR, HUNT, opens an interval with the stamp of the request and writes LANE_STARTED; in
another mode it is refused with WRONG_STATE, a lane number above 3 with BAD_VALUE, and neither changes anything (R17). The number
and the marks that the record carries on its way are the model's own (log 1). -/
def Obligations.LaneStartOpensAnInterval : Prop :=
  ∀ (tag : Byte) (n : LaneNo) (s : State), s.dev.quiet → let l := s.dev.lane n
    (∀ b : Byte, 3 < b.toNat →
      exec (.laneStart tag [b]) s = .next (s.withDev (s.dev.answered tag 0x20#8 .badValue []))) ∧
    (l.mode ≠ .off →
      exec (.laneStart tag [laneByte n]) s = .next (s.withDev (s.dev.answered tag 0x20#8 .wrongState []))) ∧
    (l.mode = .off → ∃ t, exec (.laneStart tag [laneByte n]) s = .next t ∧
      t.dev.lane n = { l with
        mode := .monitor, line := .hunt, history := [], rx := (t.dev.lane n).rx, tx := (t.dev.lane n).tx
        checker := (t.dev.lane n).checker, interval := some (newInterval s.dev.now) } ∧
      (t.dev.lane n).rx.window = [] ∧ (t.dev.lane n).rx.candidate = none ∧ (t.dev.lane n).rx.run = 0 ∧
      (t.dev.lane n).tx.insertPending = false ∧
      (∀ m, m ≠ n → t.dev.lane m = s.dev.lane m) ∧
      t.dev.inFlight = s.dev.inFlight ++ [⟨s.dev.events, ⟨s.dev.now, .lane n, .laneStarted, 1,
        if l.page.snapshot then some ⟨.monitor, .hunt, l.live, l.swapPending, l.number, 0, 0⟩ else none⟩, true, false⟩] ∧
      t.dev.attention.changes = s.dev.attention.changes ++ [⟨alarmCond n, true⟩] ∧
      t.dev.attention.conditions = s.dev.attention.conditions ∧
      t.dev.port = ⟨.waiting, s.dev.port.rate, some ⟨tag, 0xA0#8, .ok, []⟩⟩ ∧
      t.dev.timebase = s.dev.timebase ∧ t.dev.schedule = s.dev.schedule ∧ t.dev.inputs = s.dev.inputs ∧
      t.dev.pattern = s.dev.pattern ∧ t.dev.journal = s.dev.journal ∧ t.dev.capture = s.dev.capture)

/-- LANE STOP is answered OK. In OFF it changes nothing. In MONITOR or TEST it runs the stop sequence: its records in order, the
capture ended with the grant test, the STOPPED close, the pending swap, the latch cleared, mode OFF (R18, R19). A lane number above
3 is BAD_VALUE and changes nothing. -/
def Obligations.LaneStopRunsTheStopSequence : Prop :=
  ∀ (tag : Byte) (n : LaneNo) (s : State), s.dev.quiet → let l := s.dev.lane n
    (∀ b : Byte, 3 < b.toNat →
      exec (.laneStop tag [b]) s = .next (s.withDev (s.dev.answered tag 0x21#8 .badValue []))) ∧
    (l.mode = .off → exec (.laneStop tag [laneByte n]) s = .next (s.withDev (s.dev.answered tag 0x21#8 .ok []))) ∧
    (∀ iv, l.mode ≠ .off → l.interval = some iv → s.dev.capture.Wf →
      ∃ t, exec (.laneStop tag [laneByte n]) s = .next t ∧
        t.dev.lane n = { l with
          mode := .off, line := .none, history := [], rx := (t.dev.lane n).rx, tx := (t.dev.lane n).tx
          checker := (t.dev.lane n).checker, txFault := false, swapPending := false, live := l.swappedLive
          number := (l.number + 1) % 65536, interval := none, ring := l.closedRing n iv .stopped s.dev.now } ∧
        (t.dev.lane n).rx.window = [] ∧ (t.dev.lane n).rx.candidate = none ∧ (t.dev.lane n).rx.run = 0 ∧
        (t.dev.lane n).rx.mismatches = 0 ∧ (t.dev.lane n).tx.insertPending = false ∧
        (∀ m, m ≠ n → t.dev.lane m = s.dev.lane m) ∧
        s.dev.written t.dev =
          recordIf (decide (l.mode = .test)) (l.writes n s.dev.now .testStopped 4) ++
          recordIf (decide (l.mode = .test) && l.tx.insertPending) (l.writes n s.dev.now .insertCancelled 0) ++
          s.dev.capture.endRecords n l s.dev.now ++ l.closeRecords n s.dev.now s.dev.now ++
          [(t.dev.lane n).writes n s.dev.now .laneStopped 1] ∧
        (∀ (k : SlotNo) (c : Capture), s.dev.capture.slots[k.val] = .filling c → c.lane = n →
          t.dev.capture.slots[k.val] = .full { c with truncated := true }) ∧
        t.dev.capture = s.dev.endedCapture n ∧ t.dev.capture.busy n = false ∧
        t.dev.port.reply = some ⟨tag, 0xA1#8, .ok, []⟩)

/-- LANE STATUS answers the lane's state, and BAD_VALUE for a number above 3; it changes nothing (R24). -/
def Obligations.LaneStatusReportsTheLane : Prop :=
  ∀ (tag : Byte) (s : State), s.dev.quiet →
    (∀ b : Byte, 3 < b.toNat →
      exec (.laneStatus tag [b]) s = .next (s.withDev (s.dev.answered tag 0x22#8 .badValue []))) ∧
    (∀ n : LaneNo, let l := s.dev.lane n
      let flags := l.live.val + (if l.swapPending then 2 else 0) + (if l.tx.insertPending then 4 else 0) +
        (if l.txFault then 8 else 0)
      let state := byte (l.mode.code + 16 * l.line.code)
      let captured := if (s.dev.capture.fillingSlot n).isSome then 2#8
        else if (s.dev.capture.entryOf n).isSome then 1#8 else 0#8
      (l.interval = none → exec (.laneStatus tag [laneByte n]) s = .next (s.withDev (s.dev.answered tag 0x22#8 .ok
        ([state, byte flags] ++ le16 l.number ++ [0#8, 0#8, 0#8, 0#8, 0#8, 0#8, 0#8, 0#8] ++ [0#8, 0#8, 0#8, 0#8, 0#8, 0#8] ++
          [byte l.ring.length, captured])))) ∧
      (∀ iv, l.interval = some iv → exec (.laneStatus tag [laneByte n]) s = .next (s.withDev (s.dev.answered tag 0x22#8 .ok
        ([state, byte (flags + 16)] ++ le16 l.number ++ iv.start.image ++ le16 iv.x ++ le16 iv.y ++ le16 iv.units ++
          [byte l.ring.length, captured])))))

/-- PROFILE SET writes the idle page whole, and is refused with BAD_VALUE, then with PENDING; PROFILE GET answers a page, whether
it is live, the swap-pending flag and the profile. Nothing else changes (R31, R32). -/
def Obligations.ProfilesAreWrittenAndRead : Prop :=
  (∀ (tag b : Byte) (image : List Byte) (s : State), s.dev.quiet → image.length = 17 →
    (3 < b.toNat ∨ profileOf image = none →
      exec (.profileSet tag (b :: image)) s = .next (s.withDev (s.dev.answered tag 0x23#8 .badValue []))) ∧
    (∀ (n : LaneNo) (p : Profile), b = laneByte n → profileOf image = some p → let l := s.dev.lane n
      (l.swapPending = true →
        exec (.profileSet tag (b :: image)) s = .next (s.withDev (s.dev.answered tag 0x23#8 .pending []))) ∧
      (l.swapPending = false → ∃ t, exec (.profileSet tag (b :: image)) s = .next t ∧
        t.dev = Device.answered { s.dev with lanes := t.dev.lanes } tag 0x23#8 .ok [byte (1 - l.live.val)] ∧
        (∀ m, m ≠ n → t.dev.lane m = s.dev.lane m) ∧
        t.dev.lane n = { l with pages := (t.dev.lane n).pages } ∧
        (t.dev.lane n).pages[(1 - l.live).val] = p ∧ (t.dev.lane n).pages[l.live.val] = l.pages[l.live.val]))) ∧
  (∀ (tag b p : Byte) (s : State), s.dev.quiet →
    (3 < b.toNat ∨ 1 < p.toNat →
      exec (.profileGet tag [b, p]) s = .next (s.withDev (s.dev.answered tag 0x24#8 .badValue []))) ∧
    (∀ (n : LaneNo) (k : Fin 2), b = laneByte n → p = BitVec.ofNat 8 k.val → let l := s.dev.lane n
      exec (.profileGet tag [b, p]) s = .next (s.withDev (s.dev.answered tag 0x24#8 .ok
        ([p, byte ((if l.live = k then 1 else 0) + (if l.swapPending then 2 else 0))] ++ (l.pages[k.val]).image)))))

/-- PAGE SWAP: in OFF ARM swaps at once and writes PAGE_SWAPPED, on a running lane ARM sets and CANCEL clears the flag and no
record is written; every named lane answers OK (R16, R33). That the named lanes take it in one step, their records in one order, is
the model's reading (log 17). -/
def Obligations.PageSwapArmsOrSwaps : Prop :=
  ∀ (tag m choice : Byte) (s : State), s.dev.quiet →
    (maskOk m = false ∨ (choice ≠ 1#8 ∧ choice ≠ 2#8) →
      exec (.pageSwap tag [m, choice]) s = .next (s.withDev (s.dev.answered tag 0x25#8 .badValue []))) ∧
    (maskOk m = true → choice = 1#8 ∨ choice = 2#8 → ∃ t, exec (.pageSwap tag [m, choice]) s = .next t ∧
      t.dev.port.reply = some ⟨tag, 0xA5#8, .ok,
        [0, 1, 2, 3].map fun n : LaneNo => if m.getLsbD n.val then 0x00#8 else 0xFF#8⟩ ∧
      (∀ n, let l := s.dev.lane n
        t.dev.lane n =
          if m.getLsbD n.val = false then l
          else if choice = 2#8 then (if l.mode = .off then l else { l with swapPending := false })
          else if l.mode = .off then { l with live := 1 - l.live, swapPending := false }
          else { l with swapPending := true }) ∧
      s.dev.written t.dev =
        (if choice = 2#8 then []
          else (([0, 1, 2, 3] : List LaneNo).filter fun n => m.getLsbD n.val && decide ((s.dev.lane n).mode = .off)).map
            fun n => (t.dev.lane n).writes n s.dev.now .pageSwapped (1 - (s.dev.lane n).live).val) ∧
      t.dev.capture = s.dev.capture ∧ t.dev.journal = s.dev.journal ∧ t.dev.timebase = s.dev.timebase ∧
      t.dev.schedule = s.dev.schedule ∧ t.dev.attention.conditions = s.dev.attention.conditions)

/-- The five requests with a lane mask alone: a mask that names no lane or has an unnamed bit is BAD_VALUE; otherwise the reply is
OK with each named lane's own status and FFh for the others, each named lane is left as the request leaves it when it takes it from
the state held, and the others are untouched. The named lanes take it in increasing number, the work of one with its records, and
with a CAPTURE its trigger and grant test, done before the next begins (R16, R155). That the lanes are one step is the model's
reading (log 17); each record carries the mark of a request, the model's own (log 1). -/
def Obligations.MaskRequestsTreatEachLane : Prop :=
  ∀ (tag m code : Byte) (a : LaneAction) (c : Instr) (s : State), s.dev.quiet →
    (a, code, c) ∈ [(.close, 0x26#8, .intervalClose tag [m]), (.testStart, 0x28#8, .testStart tag [m]),
      (.testStop, 0x29#8, .testStop tag [m]), (.insert, 0x2A#8, .insert tag [m]), (.capture, 0x50#8, .capture tag [m])] →
    (maskOk m = false → exec c s = .next (s.withDev (s.dev.answered tag code .badValue []))) ∧
    (maskOk m = true → ∃ t, exec c s = .next t ∧
      t.dev.port = ⟨.waiting, s.dev.port.rate, some ⟨tag, code + 0x80#8, .ok,
        [0, 1, 2, 3].map fun n : LaneNo =>
          if m.getLsbD n.val then (s.dev.laneAction a n .host s.dev.now).2.code else 0xFF#8⟩⟩ ∧
      (∀ n, t.dev.lane n =
        if m.getLsbD n.val then (s.dev.laneAction a n .host s.dev.now).1.lane n else s.dev.lane n) ∧
      (let named := ([0, 1, 2, 3] : List LaneNo).filter fun n => m.getLsbD n.val
       let worked := named.foldl (fun d n => (d.laneAction a n .host s.dev.now).1) s.dev
       t.dev.lanes = worked.lanes ∧ t.dev.capture = worked.capture ∧
       t.dev.inFlight = s.dev.inFlight ++
         (worked.inFlight.drop s.dev.inFlight.length).map fun x => { x with byRequest := true }) ∧
      t.dev.timebase = s.dev.timebase ∧ t.dev.schedule = s.dev.schedule ∧ t.dev.inputs = s.dev.inputs ∧
      t.dev.pattern = s.dev.pattern ∧ t.dev.journal = s.dev.journal ∧ s.dev.inFlight <+: t.dev.inFlight ∧
      t.dev.attention.conditions = s.dev.attention.conditions)

/-- The operations that a request or an action may name, at one lane: the status by mode, no effect where it is refused, and what
an accepted PAGE SWAP with ARM, INSERT, INTERVAL CLOSE and CAPTURE do; SWAP swaps a lane in OFF at once with PAGE_SWAPPED and sets
the flag of a running one (R15, R33, R34, R63, R130, R146, R153, R155). The number of the event and the marks that the record
PAGE_SWAPPED carries on its way are the model's own (log 1). -/
def Obligations.LaneOperationsAnswerByMode : Prop :=
  ∀ (d : Device) (n : LaneNo) (o : Origin) (st : Stamp), let l := d.lane n
    (∀ a, (d.laneAction a n o st).2 =
      match a, l.mode with
      | .swap, _ => .ok
      | _, .off => .laneOff
      | .close, _ => .ok
      | .testStart, .test => .wrongState
      | .testStart, .monitor => if l.txFault then .txFault else .ok
      | .testStop, .monitor => .wrongState
      | .testStop, .test => .ok
      | .insert, .monitor => .wrongState
      | .insert, .test => if l.tx.insertPending then .pending else .ok
      | .capture, _ => if (d.capture.entryOf n).isSome || (d.capture.fillingSlot n).isSome then .captureBusy else .ok) ∧
    (∀ a, (d.laneAction a n o st).2 ≠ .ok → (d.laneAction a n o st).1 = d) ∧
    (l.mode = .off →
      let d' := (d.laneAction .swap n o st).1
      d' = { d with lanes := d'.lanes, inFlight := d'.inFlight } ∧
      d'.lane n = { l with live := 1 - l.live, swapPending := false } ∧ (∀ m, m ≠ n → d'.lane m = d.lane m) ∧
      d'.inFlight = d.inFlight ++ [⟨d.events, ⟨st, .lane n, .pageSwapped, (1 - l.live).val,
        if (l.pages[(1 - l.live).val]).snapshot then
          some ⟨.off, l.line, 1 - l.live, false, l.number, l.xCount, l.yCount⟩ else none⟩, false, false⟩]) ∧
    (l.mode ≠ .off →
      let d' := (d.laneAction .swap n o st).1
      d' = { d with lanes := d'.lanes } ∧ d'.lane n = { l with swapPending := true } ∧ (∀ m, m ≠ n → d'.lane m = d.lane m)) ∧
    (l.mode = .test → l.tx.insertPending = false →
      let d' := (d.laneAction .insert n o st).1
      d' = { d with lanes := d'.lanes } ∧ d'.lane n = { l with tx := { l.tx with insertPending := true } } ∧
      (∀ m, m ≠ n → d'.lane m = d.lane m)) ∧
    (l.mode ≠ .off → (d.laneAction .close n o st).1 =
      d.close n (match o with | .host => .request | .schedule => .schedule) st st) ∧
    (l.mode ≠ .off → d.capture.busy n = false → (d.laneAction .capture n o st).1 =
      Device.grantTest { d with capture := { d.capture with waiting := d.capture.waiting ++
        [⟨n, match o with | .host => .request | .schedule => .schedule, st, 0⟩] } })

/-- TEST START enters TEST, SEARCH after the TEST_START close, its records in order; TEST STOP returns to MONITOR, HUNT after the
TEST_STOP close with lost_lock if the checker was in TRACK; a TXFn already low ends the test at once (R144, R145, R22). What of the
receive side, the transmitter and the checker has no value in the spec starts at 0, NONE and empty, the model's choice (log 10).
That a fault found at a TEST START by an action takes the fire's stamp is the model's reading (log 19). -/
def Obligations.TestsStartAndStopWithTheirRecords : Prop :=
  ∀ (d : Device) (n : LaneNo) (o : Origin) (st : Stamp) (iv : OpenInterval), let l := d.lane n
    l.interval = some iv → d.capture.Wf →
    let closed (reason : CloseReason) : Lane := { l with
      number := (l.number + 1) % 65536, interval := some (newInterval st), ring := l.closedRing n iv reason st
      swapPending := false, live := l.swappedLive }
    (l.mode = .monitor → l.txFault = false → l.txf = true →
      let d' := (d.laneAction .testStart n o st).1
      d'.lane n = { l with
        mode := .test, line := .search, history := [], rx := ⟨0, false, 0, [], none, 0, 0⟩, tx := ⟨false, 0, .none, []⟩
        checker := Checker.fresh, swapPending := false, live := l.swappedLive, number := (l.number + 1) % 65536
        interval := some (newInterval st), ring := l.closedRing n iv .testStart st } ∧
      d.written d' = l.closeRecords n st st ++ d.capture.endRecords n (closed .testStart) st ++
        [(d'.lane n).writes n st .testStarted o.code] ∧
      d'.capture = d.endedCapture n ∧ d'.capture.busy n = false) ∧
    (l.mode = .monitor → l.txFault = false → l.txf = false →
      let d' := (d.laneAction .testStart n o st).1
      let inTest := { closed .testStart with mode := .test, line := .search }
      d'.lane n = { l with
        mode := .monitor, line := .hunt, history := [], rx := ⟨0, false, 0, [], none, 0, 0⟩, tx := ⟨false, 0, .none, []⟩
        checker := Checker.fresh, txFault := true, swapPending := false, live := l.swappedLive
        number := (l.number + 2) % 65536, interval := some (newInterval st)
        ring := inTest.closedRing n (newInterval st) .testStop st } ∧
      d.written d' = l.closeRecords n st st ++ d.capture.endRecords n (closed .testStart) st ++
        [inTest.writes n st .testStarted o.code, inTest.writes n st .txFault 0] ++ inTest.closeRecords n st st ++
        [(d'.lane n).writes n st .testStopped 3] ∧
      d'.capture = d.endedCapture n ∧ d'.capture.busy n = false) ∧
    (l.mode = .test →
      let d' := (d.laneAction .testStop n o st).1
      d'.lane n = { l with
        mode := .monitor, line := .hunt, history := [], rx := ⟨0, false, 0, [], none, 0, 0⟩, tx := ⟨false, 0, .none, []⟩
        checker := Checker.fresh, swapPending := false, live := l.swappedLive, number := (l.number + 1) % 65536
        interval := some { newInterval st with lostLock := decide (l.line = .track) }
        ring := l.closedRing n iv .testStop st } ∧
      d.written d' = l.closeRecords n st st ++
        recordIf l.tx.insertPending ((closed .testStop).writes n st .insertCancelled 0) ++
        d.capture.endRecords n (closed .testStop) st ++ [(d'.lane n).writes n st .testStopped o.code] ∧
      d'.capture = d.endedCapture n ∧ d'.capture.busy n = false)

/-- TXFn low in TEST ends the test: the latch sets, TX_FAULT first, the close with reason TEST_STOP, TEST_STOPPED with reason 3
last, mode MONITOR, starting afresh as log 10 chooses. In OFF and MONITOR the level is ignored, and so is a high level (R22, R23).
-/
def Obligations.DriverFaultsEndATest : Prop :=
  ∀ (n : LaneNo) (level : Bool) (s : State), let l := s.dev.lane n
    (l.mode ≠ .test ∨ level = true → ∃ t, exec (.driverFault n level) s = .next t ∧
      t.dev = { s.dev with lanes := t.dev.lanes } ∧ t.dev.lane n = { l with txf := level } ∧
      (∀ m, m ≠ n → t.dev.lane m = s.dev.lane m)) ∧
    (∀ iv, l.mode = .test → level = false → l.interval = some iv → s.dev.capture.Wf →
      ∃ t, exec (.driverFault n level) s = .next t ∧
        t.dev.lane n = { l with
          mode := .monitor, line := .hunt, history := [], rx := ⟨0, false, 0, [], none, 0, 0⟩, tx := ⟨false, 0, .none, []⟩
          checker := Checker.fresh, swapPending := false, live := l.swappedLive, number := (l.number + 1) % 65536
          txFault := true, txf := false
          interval := some { newInterval s.dev.now with lostLock := decide (l.line = .track) }
          ring := l.closedRing n iv .testStop s.dev.now } ∧
        (∀ m, m ≠ n → t.dev.lane m = s.dev.lane m) ∧
        (let now := s.dev.now
         let closed : Lane := { l with
           number := (l.number + 1) % 65536, interval := some (newInterval now), swapPending := false, live := l.swappedLive }
         s.dev.written t.dev = [l.writes n now .txFault 0] ++ l.closeRecords n now now ++
           recordIf l.tx.insertPending (closed.writes n now .insertCancelled 0) ++ s.dev.capture.endRecords n closed now ++
           [(t.dev.lane n).writes n now .testStopped 3]) ∧
        t.dev.capture = s.dev.endedCapture n ∧ t.dev.capture.busy n = false)

/-! ### Accounting -/

/-- A close forms the record of the open interval, pushes it into the ring, advances the number, opens the next interval unless the
reason is STOPPED, and carries out a pending swap last, with the restart of the receive side or the checker where the receive
fields differ and the close is not one of a change of mode, which ends a FILLING capture of the lane as truncated. RING_OVERRUN and
INTERVAL_CLOSED carry the end stamp, the records of the swap and of the restart the start stamp; each record of the lane carries
its snapshot of that moment where the page live then says so, CAPTURE_DONE none (R30, R35 to R37, R55 to R59, R71, R72). A restart
sets what has no value in the spec to 0, NONE and empty (the model's choice, log 10). -/
def Obligations.CloseFormsTheRecord : Prop :=
  ∀ (d : Device) (n : LaneNo) (reason : CloseReason) (stop start : Stamp) (iv : OpenInterval), let l := d.lane n
    l.interval = some iv → let d' := d.close n reason stop start
    let next := if reason = .stopped then none else some (newInterval start)
    let other := l.pages[(1 - l.live).val]
    let same := decide (l.page.bitRate = other.bitRate) && decide (l.page.syncWord = other.syncWord) &&
      decide (l.page.frameLength = other.frameLength)
    let changing := reason = .stopped ∨ reason = .testStart ∨ reason = .testStop
    let records := l.closeRecords n stop start
    let swapped := d.modLane n fun l => { l with live := 1 - l.live, swapPending := false, history := [] }
    d' = { d with lanes := d'.lanes, capture := d'.capture, inFlight := d'.inFlight } ∧
    (∀ m, m ≠ n → d'.lane m = d.lane m) ∧
    (∀ r ∈ d.written d', r.stamp = if r.kind = .ringOverrun ∨ r.kind = .intervalClosed then stop else start) ∧
    (l.swapPending = false → d'.capture = d.capture ∧ d.written d' = records ∧
      d'.lane n = { l with
        number := (l.number + 1) % 65536, interval := next, ring := l.closedRing n iv reason stop }) ∧
    (l.swapPending = true → changing ∨ same = true → d'.capture = d.capture ∧ d.written d' = records ∧
      d'.lane n = { l with
        number := (l.number + 1) % 65536, interval := next, ring := l.closedRing n iv reason stop
        live := 1 - l.live, swapPending := false }) ∧
    (l.swapPending = true → ¬ changing → same = false → l.mode = .monitor →
      d.written d' = records ++ d.capture.truncatedRecords n start ++
        recordIf (decide (l.line = .locked)) ((d'.lane n).writes n start .laneUnlock 0) ∧
      d'.capture = swapped.truncatedCapture n ∧
      d'.lane n = { l with
        number := (l.number + 1) % 65536, ring := l.closedRing n iv reason stop, live := 1 - l.live, swapPending := false
        interval := some { newInterval start with lostLock := decide (l.line = .locked) }
        history := [], rx := ⟨0, false, 0, [], none, 0, 0⟩, line := .hunt }) ∧
    (l.swapPending = true → ¬ changing → same = false → l.mode = .test →
      d.written d' = records ++ d.capture.truncatedRecords n start ++
        recordIf (decide (l.line = .track)) ((d'.lane n).writes n start .patternUnlock 0) ∧
      d'.capture = swapped.truncatedCapture n ∧
      d'.lane n = { l with
        number := (l.number + 1) % 65536, ring := l.closedRing n iv reason stop, live := 1 - l.live, swapPending := false
        interval := some { newInterval start with lostLock := decide (l.line = .track) }
        history := [], rx := ⟨0, false, 0, [], none, 0, 0⟩, checker := Checker.fresh, line := .search
        tx := { l.tx with position := if l.page.bitRate = other.bitRate then l.tx.position else 0 } })

/-- A second arrival closes the interval of a running AUTO lane at a boundary of its length and of no other; second 60 is no
boundary (R52, R53). The stamp's flags are those of the moment the arrival is taken (the model's reading, log 2), and with nothing
delivered the command does nothing (log 16). -/
def Obligations.BoundariesCloseAutoIntervals : Prop :=
  ∀ (n : LaneNo) (s : State), let l := s.dev.lane n
    (l.seconds = [] → exec (.secondArrival n) s = .next s) ∧
    (∀ a rest, l.seconds = a :: rest →
      let taken := s.dev.modLane n fun l => { l with seconds := rest }
      let stamp : Stamp := ⟨a.time, 0, s.dev.timebase.timeValid,
        decide (s.dev.timebase.run = .stopped) || s.dev.timebase.oscFault⟩
      (l.mode = .off ∨ l.page.intervalMode = .manual ∨ a.time.second = 60 →
        exec (.secondArrival n) s = .next (s.withDev taken)) ∧
      (∀ k : Fin 13, l.mode ≠ .off → l.page.intervalMode = .auto k → a.time.second ≠ 60 →
        let length := [1, 2, 5, 10, 15, 30, 60, 120, 300, 600, 900, 1800, 3600][k.val]!
        let ofDay := a.time.hour * 3600 + a.time.minute * 60 + a.time.second
        (ofDay % length ≠ 0 → exec (.secondArrival n) s = .next (s.withDev taken)) ∧
        (ofDay % length = 0 → ∃ t, exec (.secondArrival n) s = .next t ∧
          t.dev.lanes = (taken.close n .boundary stamp stamp).lanes ∧
          t.dev.capture = (taken.close n .boundary stamp stamp).capture ∧
          t.dev.inFlight = (taken.close n .boundary stamp stamp).inFlight ∧
          t.dev.journal = s.dev.journal ∧ t.dev.timebase = s.dev.timebase ∧ t.dev.schedule = s.dev.schedule ∧
          t.dev.port = s.dev.port)))

/-- INTERVAL TAKE removes the oldest records of the ring, as many as asked for or held, and answers how many, how many are left and
the records; a lane or a count out of range is BAD_VALUE (R65). A closed interval record takes its 27 bytes as the table of R185
gives. -/
def Obligations.IntervalTakeRemovesTheOldest : Prop :=
  (∀ r : ClosedInterval,
    let reason := match r.reason with
      | .boundary => 1 | .request => 2 | .schedule => 3 | .stopped => 4 | .testStart => 5 | .testStop => 6 | .timeSet => 7
    let code (c : SlotClass) : Nat := match c with
      | .none => 0 | .code => 1 | .idle => 2 | .slip => 3 | .pattern => 4 | .codeIdle => 5
    r.image.length = 27 ∧
    r.image = [byte (r.lane.val + 4 * r.page.val + 16 * reason)] ++ le16 r.number ++ [byte (code r.xClass + 16 * code r.yClass)] ++
      le16 r.xCount ++ le16 r.yCount ++ le16 r.units ++
      [byte ((if r.xSaturated then 1 else 0) + (if r.ySaturated then 2 else 0) + (if r.lostLock then 4 else 0) +
        (if r.lostSignal then 8 else 0))] ++ r.start.image ++ r.stop.image) ∧
  ∀ (tag b count : Byte) (s : State), s.dev.quiet →
    (3 < b.toNat ∨ count.toNat < 1 ∨ 8 < count.toNat →
      exec (.intervalTake tag [b, count]) s = .next (s.withDev (s.dev.answered tag 0x27#8 .badValue []))) ∧
    (∀ n : LaneNo, b = laneByte n → 1 ≤ count.toNat → count.toNat ≤ 8 → let l := s.dev.lane n
      let k := min count.toNat l.ring.length
      ∃ t, exec (.intervalTake tag [b, count]) s = .next t ∧
        t.dev = Device.answered { s.dev with lanes := t.dev.lanes } tag 0x27#8 .ok
          ([byte k, byte (l.ring.length - k)] ++ (l.ring.take k).flatMap ClosedInterval.image) ∧
        t.dev.lane n = { l with ring := l.ring.drop k } ∧ (∀ m, m ≠ n → t.dev.lane m = s.dev.lane m))

/-- An error is offered to slot X and then to slot Y, and a slot whose bound class takes it counts it. A saturated slot adds
nothing, reaching 65535 saturates it with SLOT_SATURATED, any other addition writes nothing but the burst: an addition to slot X
that meets the threshold for the first time in the interval writes BURST, before SLOT_SATURATED, and where the page says so a BURST
trigger joins the pending list, or CAPTURE_MISSED is written where a capture of the lane is in progress (R45, R46, R47). -/
def Obligations.ErrorsCountInTheBoundSlots : Prop :=
  (∀ (c : SlotClass) (e : LineError), c.counts e = true ↔
    (c, e) ∈ [(.code, .code), (.idle, .idle), (.slip, .slip), (.pattern, .pattern), (.codeIdle, .code), (.codeIdle, .idle)]) ∧
  (∀ (d : Device) (n : LaneNo) (e : LineError) (st : Stamp), let l := d.lane n
    let afterX := if l.page.slotX.counts e then d.addX n st else d
    d.countError n e st = if l.page.slotY.counts e then afterX.addY n st else afterX) ∧
  (∀ (d : Device) (n : LaneNo) (st : Stamp) (iv : OpenInterval), let l := d.lane n
    l.interval = some iv → let d' := d.addY n st
    (iv.ySaturated = true → d' = d) ∧
    (iv.ySaturated = false →
      d' = { d with lanes := d'.lanes, inFlight := d'.inFlight } ∧ (∀ m, m ≠ n → d'.lane m = d.lane m) ∧
      d'.lane n = { l with interval := some { iv with y := iv.y + 1, ySaturated := decide (iv.y + 1 = 65535) } } ∧
      d.written d' = recordIf (decide (iv.y + 1 = 65535)) ((d'.lane n).writes n st .slotSaturated 1))) ∧
  (∀ (d : Device) (n : LaneNo) (st : Stamp) (iv : OpenInterval), let l := d.lane n
    l.interval = some iv → let d' := d.addX n st
    let passes := l.page.burstThreshold = some (iv.x + 1) ∧ iv.burstReported = false
    (iv.xSaturated = true → d' = d) ∧
    (iv.xSaturated = false →
      d' = { d with lanes := d'.lanes, capture := d'.capture, inFlight := d'.inFlight } ∧
      (∀ m, m ≠ n → d'.lane m = d.lane m) ∧
      d'.lane n = { l with interval := some { iv with
        x := iv.x + 1, burstReported := iv.burstReported || decide (l.page.burstThreshold = some (iv.x + 1))
        xSaturated := decide (iv.x + 1 = 65535) } } ∧
      (¬ (passes ∧ l.page.burstCapture = true ∧ d.capture.busy n = false) → d'.capture = d.capture) ∧
      (passes → l.page.burstCapture = true → d.capture.busy n = false → d'.capture =
        (Device.grantTest { d with capture :=
          { d.capture with waiting := d.capture.waiting ++ [⟨n, .burst, st, 0⟩] } }).capture) ∧
      d.written d' = recordIf (decide passes) ((d'.lane n).writes n st .burst (iv.x + 1)) ++
        recordIf (decide passes && l.page.burstCapture && d.capture.busy n) ((d'.lane n).writes n st .captureMissed 2) ++
        recordIf (decide (iv.x + 1 = 65535)) ((d'.lane n).writes n st .slotSaturated 0)))

/-! ### Cells -/

/-- A lane in OFF judges no cell, a lane in TEST with INTERNAL loopback does not look at RXn; in NOSIGNAL a cell counts no error
and completes no byte: a violation sets the count of valid cells to 0, and the 64th valid cell brings the signal back, in TEST with
no alignment and all sixteen alignment counts 0 (R2, R6, R140, R143). -/
def Obligations.CellsOutsideTheStreamAndInNoSignal : Prop :=
  ∀ (n : LaneNo) (c : Cell) (s : State), let l := s.dev.lane n
    ((l.mode = .off ∧ l.line = .none) ∨ (l.mode = .test ∧ l.page.loopback = .internal) →
      exec (.cellArrival n c) s = .next s) ∧
    (l.line = .noSignal → l.mode = .monitor ∨ (l.mode = .test ∧ l.page.loopback = .external) →
      (c = .violation ∨ l.rx.validCells + 1 < 64 → ∃ t, exec (.cellArrival n c) s = .next t ∧
        t.dev = { s.dev with lanes := t.dev.lanes } ∧ (∀ m, m ≠ n → t.dev.lane m = s.dev.lane m) ∧
        t.dev.lane n = { l with rx := { l.rx with validCells := if c = .violation then 0 else l.rx.validCells + 1 } }) ∧
      (c ≠ .violation → 64 ≤ l.rx.validCells + 1 → ∃ t, exec (.cellArrival n c) s = .next t ∧
        (t.dev.lane n).line = (if l.mode = .test then .search else .hunt) ∧
        (t.dev.lane n).rx = { l.rx with run := 0, idleCounted := false, validCells := 0, window := [], candidate := none } ∧
        (l.mode = .test → (t.dev.lane n).checker.alignment = none ∧ ∀ k : Fin 16, (t.dev.lane n).checker.counts[k.val] = 0) ∧
        (t.dev.lane n).interval = l.interval ∧ (t.dev.lane n).history = l.history ∧
        (∀ m, m ≠ n → t.dev.lane m = s.dev.lane m) ∧
        s.dev.written t.dev = [(t.dev.lane n).writes n s.dev.now .signalBack 0] ∧ t.dev.capture = s.dev.capture))

/-- A cell of a judged stream: the CODE error of a violation first, then the violation run, then the window and the frame or the
checker, all as one event of the lane (R3). The cell that TRANSMIT_CELL brings with INTERNAL loopback is taken in the same order
(R139, R149): `takeCell` is what the lane does with a cell of its stream, O37 says that such a cell is taken by it, and in NOSIGNAL
it counts nothing, sets the count of valid cells to 0 where it is a violation, and brings the signal back where it is the 64th
valid one (R6). -/
def Obligations.CellsAreWorkedInOrder : Prop :=
  let worked (d : Device) (n : LaneNo) (c : Cell) (st : Stamp) : Device :=
    let one := if c = .violation then d.countError n .code st else d
    let two := one.runStep n c st
    match (two.lane n).line with
    | .hunt => two.huntCell n c st
    | .locked => two.lockedCell n c st
    | .search => two.searchCell n c st
    | .track => two.trackCell n c st
    | .noSignal | .none => two
  (∀ (n : LaneNo) (c : Cell) (s : State), let l := s.dev.lane n
    (l.mode = .monitor ∧ (l.line = .hunt ∨ l.line = .locked)) ∨
      (l.mode = .test ∧ l.page.loopback = .external ∧ (l.line = .search ∨ l.line = .track)) →
    let three := worked s.dev n c s.dev.now
    exec (.cellArrival n c) s = .next (s.withDev (Device.settle s.dev three)) ∧
    three.journal = s.dev.journal ∧ three.timebase = s.dev.timebase ∧ three.schedule = s.dev.schedule ∧
    three.inputs = s.dev.inputs ∧ three.pattern = s.dev.pattern ∧ three.port = s.dev.port ∧
    (∀ m, m ≠ n → three.lane m = s.dev.lane m) ∧ s.dev.inFlight <+: three.inFlight) ∧
  ∀ (d : Device) (n : LaneNo) (c : Cell) (st : Stamp), let l := d.lane n
    (l.line = .hunt ∨ l.line = .locked ∨ l.line = .search ∨ l.line = .track → d.takeCell n c st = worked d n c st) ∧
    (l.line = .noSignal → let d' := d.takeCell n c st
      d' = { d with lanes := d'.lanes, inFlight := d'.inFlight } ∧ d.inFlight <+: d'.inFlight ∧
      (∀ m, m ≠ n → d'.lane m = d.lane m) ∧
      (c = .violation ∨ l.rx.validCells + 1 < 64 → d.written d' = [] ∧
        d'.lane n = { l with rx := { l.rx with validCells := if c = .violation then 0 else l.rx.validCells + 1 } }) ∧
      (c ≠ .violation → 64 ≤ l.rx.validCells + 1 → d.written d' = [(d'.lane n).writes n st .signalBack 0] ∧
        (l.mode = .test → (d'.lane n).checker.alignment = none ∧ ∀ k : Fin 16, (d'.lane n).checker.counts[k.val] = 0) ∧
        (l.mode ≠ .test → (d'.lane n).checker = l.checker) ∧
        d'.lane n = { l with
          line := if l.mode = .test then .search else .hunt, checker := (d'.lane n).checker
          rx := { l.rx with run := 0, idleCounted := false, validCells := 0, window := [], candidate := none } }))

/-- The violation run: a valid cell ends it; a violation adds one up to 65535 and, where the sum equals idle_threshold and the run
has counted no IDLE error yet, hands one over; where it equals los_threshold the lane enters NOSIGNAL, its history empty and its
FILLING capture ended as truncated if it was assembling, the checker in TEST without alignment or block, lost_signal set, lost_lock
too if it was assembling, SIGNAL_LOST written last (R4, R5, R143). The model's readings: a run at 65535 stays and reaches no
threshold (log 13), and a run under way at a swap to INTERNAL loopback goes on in the new stream (log 29). -/
def Obligations.ViolationRunsReachTheirThresholds : Prop :=
  ∀ (d : Device) (n : LaneNo) (c : Cell) (st : Stamp), let l := d.lane n
    let d' := d.runStep n c st
    let idle := l.rx.run + 1 = l.page.idleThreshold ∧ l.rx.idleCounted = false
    let longer := d.modLane n fun l => { l with rx :=
      { l.rx with run := l.rx.run + 1, idleCounted := l.rx.idleCounted || decide idle } }
    (c ≠ .violation → d' = { d with lanes := d'.lanes } ∧ (∀ m, m ≠ n → d'.lane m = d.lane m) ∧
      d'.lane n = { l with rx := { l.rx with run := 0, idleCounted := false } }) ∧
    (c = .violation → 65535 ≤ l.rx.run → d' = d) ∧
    (c = .violation → l.rx.run < 65535 → l.rx.run + 1 ≠ l.page.losThreshold →
      d' = if idle then longer.countError n .idle st else longer) ∧
    (∀ iv, c = .violation → l.rx.run < 65535 → l.rx.run + 1 = l.page.losThreshold →
      l.page.idleThreshold < l.page.losThreshold → l.interval = some iv →
      (d'.lane n).line = .noSignal ∧ (d'.lane n).mode = l.mode ∧
      (d'.lane n).rx = { l.rx with run := 0, idleCounted := false, validCells := 0, window := [], candidate := none } ∧
      (d'.lane n).history = (if l.assembling then [] else l.history) ∧
      (d'.lane n).interval = some { iv with lostSignal := true, lostLock := iv.lostLock || l.assembling } ∧
      (l.mode = .test → (d'.lane n).checker.alignment = none ∧ (d'.lane n).checker.blockCells = 0 ∧
        (d'.lane n).checker.blockMismatches = 0) ∧
      (let ended := (d.modLane n fun l => { l with history := [] }).truncatedCapture n
       d'.capture = if l.assembling then ended else d.capture) ∧
      d.written d' = (if l.assembling then d.capture.truncatedRecords n st else []) ++
        [(d'.lane n).writes n st .signalLost 0])

/-- In HUNT a match with no candidate or at another spacing makes the cell the candidate, and a match frame_length x 8 cells after
it enters LOCKED at position 15 with the two sync bytes handed on, one after the other, to the history ring and the captures of the
lane, and LANE_LOCK written last. At the frame check a match counts one unit and clears the mismatches, the first and second
mismatch in a row count a SLIP error and keep the lock, the two sync bytes being handed on, and the third takes the lane to HUNT
with an empty history and window, a FILLING capture of the lane ended as truncated with CAPTURE_DONE, and LANE_UNLOCK written last.
In LOCKED each cell takes the next position of the frame and joins the window; position 15 makes the frame check, and a later
position 8k + 7 hands on the payload byte of the newest eight cells (R8, R9, R10). The model's own: the distance to the candidate
has no bound (log 9), and LANE_LOCK carries the number of the event and the marks on its way (log 1). -/
def Obligations.SecondMatchLocksThirdMismatchUnlocks : Prop :=
  let handOn (d : Device) (n : LaneNo) (w : List Cell) (st : Stamp) : Device :=
    (d.handByte n (byteOfCells (w.take 8)) false st).handByte n (byteOfCells (w.drop 8)) false st
  (∀ (cells : List Cell) (j : Fin 8), (byteOfCells cells).getLsbD j.val = ((cells[j.val]?).map cellBit).getD false) ∧
  (∀ c : Cell, cellBit c = decide (c = .one)) ∧
  (∀ (d : Device) (n : LaneNo) (c : Cell) (st : Stamp), let l := d.lane n
    let window := if l.rx.window.length < 16 then l.rx.window ++ [c] else l.rx.window.tail ++ [c]
    let matched := window.length = 16 ∧
      ∀ k : Fin 16, window[k.val]? = some (if l.page.syncWord.getLsbD k.val then .one else .zero)
    let d' := d.huntCell n c st
    (¬ matched → d' = { d with lanes := d'.lanes } ∧
      d'.lane n = { l with rx := { l.rx with window := window, candidate := l.rx.candidate.map (· + 1) } }) ∧
    (matched → l.rx.candidate.map (· + 1) ≠ some (l.page.frameLength * 8) → d' = { d with lanes := d'.lanes } ∧
      d'.lane n = { l with rx := { l.rx with window := window, candidate := some 0 } }) ∧
    (matched → l.rx.candidate.map (· + 1) = some (l.page.frameLength * 8) →
      let locked := d.modLane n fun l => { l with
        line := .locked, rx := { l.rx with window := window, candidate := none, position := 15, mismatches := 0 } }
      let handed := handOn locked n window st
      (d'.lane n).line = .locked ∧
      (d'.lane n).rx = { l.rx with window := window, candidate := none, position := 15, mismatches := 0 } ∧
      (d'.lane n).interval = l.interval ∧
      (d'.lane n).history = pushHistory (pushHistory l.history (byteOfCells (window.take 8))) (byteOfCells (window.drop 8)) ∧
      d' = { handed with
        inFlight := handed.inFlight ++ [⟨handed.events, (d'.lane n).writes n st .laneLock 0, false, false⟩] })) ∧
  (∀ (d : Device) (n : LaneNo) (c : Cell) (st : Stamp), let l := d.lane n
    let position := if l.rx.position + 1 < l.page.frameLength * 8 then l.rx.position + 1 else 0
    let window := if l.rx.window.length < 16 then l.rx.window ++ [c] else l.rx.window.tail ++ [c]
    let moved := d.modLane n fun l => { l with rx := { l.rx with window := window, position := position } }
    ∃ b : Byte, (∀ j : Fin 8, b.getLsbD j.val = ((window[8 + j.val]?).map cellBit).getD false) ∧
      d.lockedCell n c st =
        if position = 15 then moved.frameCheck n st
        else if 16 ≤ position ∧ position % 8 = 7 then moved.handByte n b true st
        else moved) ∧
  (∀ (d : Device) (n : LaneNo) (st : Stamp), let l := d.lane n
    let d' := d.frameCheck n st
    let missed := (d.modLane n fun l => { l with rx := { l.rx with mismatches := l.rx.mismatches + 1 } }).countError n .slip st
    (windowMatches l.rx.window l.page.syncWord = true →
      d' = handOn (d.modLane n fun l => { l with
        rx := { l.rx with mismatches := 0 }
        interval := l.interval.map fun iv => { iv with units := min (iv.units + 1) 65535 } }) n l.rx.window st) ∧
    (windowMatches l.rx.window l.page.syncWord = false → l.rx.mismatches + 1 < 3 → d' = handOn missed n l.rx.window st ∧
      (d'.lane n).line = l.line ∧ (d'.lane n).rx = { l.rx with mismatches := l.rx.mismatches + 1 } ∧
      (d'.lane n).interval = ((d.countError n .slip st).lane n).interval) ∧
    (windowMatches l.rx.window l.page.syncWord = false → 3 ≤ l.rx.mismatches + 1 →
      (d'.lane n).line = .hunt ∧ (d'.lane n).history = [] ∧ (d'.lane n).rx.window = [] ∧ (d'.lane n).rx.candidate = none ∧
      (d'.lane n).rx.run = l.rx.run ∧
      (d'.lane n).interval = (((d.countError n .slip st).lane n).interval).map (fun iv => { iv with lostLock := true }) ∧
      d'.capture = (missed.modLane n fun l => { l with history := [] }).truncatedCapture n ∧
      d.written d' = d.written missed ++ missed.capture.truncatedRecords n st ++ [(d'.lane n).writes n st .laneUnlock 0]))

/-- A byte handed on joins the history ring of 32 as the newest. A payload byte equal to trigger_byte of a lane in LOCKED is a BYTE
trigger where no capture of the lane is in progress, and goes no further; where one is, CAPTURE_MISSED is written. Any byte but
such a trigger's own then goes to the lane's FILLING capture, which completes at its post count, frees its engine and makes the
grant test, and the lane's pending entry is one byte later, saturating at 255 (R11, R12, R153, R154, R156, R158, R159). -/
def Obligations.BytesAreHandedOn : Prop :=
  (∀ (d : Device) (n : LaneNo) (b : Byte) (payload : Bool) (st : Stamp), let l := d.lane n
    let d' := d.handByte n b payload st
    let history := if l.history.length < 32 then l.history ++ [b] else l.history.tail ++ [b]
    let kept := d.modLane n fun l => { l with history := history }
    let compared := l.line = .locked ∧ payload = true ∧ l.page.triggerByte = some b
    d'.lane n = { l with history := history } ∧ (∀ m, m ≠ n → d'.lane m = d.lane m) ∧
    (compared → d.capture.busy n = false →
      d' = Device.grantTest { kept with capture :=
        { d.capture with waiting := d.capture.waiting ++ [⟨n, .byte, st, 0⟩] } }) ∧
    (¬ (compared ∧ d.capture.busy n = false) →
      let missed := if compared then kept.write ⟨st, .lane n, .captureMissed, 1,
        if l.page.snapshot then some ⟨l.mode, l.line, l.live, l.swapPending, l.number, l.xCount, l.yCount⟩ else none⟩ else kept
      let filled := missed.captureByte n b st
      d' = { filled with capture := { filled.capture with waiting := filled.capture.waiting.map fun w =>
        if w.lane = n then { w with lateBy := min (w.lateBy + 1) 255 } else w } })) ∧
  (∀ (d : Device) (n : LaneNo) (b : Byte) (st : Stamp),
    (d.capture.fillingSlot n = none → d.captureByte n b st = d) ∧
    (∀ (k : SlotNo) (c : Capture), d.capture.Wf → d.capture.slots[k.val] = .filling c → c.lane = n →
      let d' := d.captureByte n b st
      (c.data.length + 1 ≠ c.pre + c.post →
        d' = { d with capture := { d.capture with
          slots := d.capture.slots.set k.val (.filling { c with data := c.data ++ [b] }) } }) ∧
      (c.data.length + 1 = c.pre + c.post →
        d'.capture.slots[k.val] = .full { c with data := c.data ++ [b] } ∧
        d'.capture = (Device.grantTest { d with capture := d.capture.ended k { c with data := c.data ++ [b] } }).capture ∧
        d.written d' = [⟨st, .capture, .captureDone, k.val, none⟩] ∧
        (∀ e : Fin 2, d'.capture.engines[e.val] = some k → ∃ x, d'.capture.slots[k.val] = .filling x) ∧
        d'.lanes = d.lanes)))

/-- In SEARCH a cell sets the sixteen counts, and where none reaches 32 it changes nothing else; an alignment whose count reaches
32 is entered, the lowest position first, with PATTERN_LOCK, the first block still without a cell and no repetition begun, and
nothing but the state, the checker and that record changes; that the rest of the repetition is checked with the invert read at the entry is the model's
choice (log 5). In TRACK each cell is compared with the cell of the lane's pattern at the next position, formed with the invert
read at position 0: one that differs is a PATTERN error handed to accounting and a mismatch of the block of 256 cells. A unit is
counted at position 15 and a byte handed on at positions 7 and 15 of a repetition that began in TRACK. The 16th mismatch of a block
returns the checker to SEARCH with an empty history and window, no alignment, lost_lock, a FILLING capture of the lane ended as truncated with
CAPTURE_DONE, and PATTERN_UNLOCK last (R140 to R142, R160). -/
def Obligations.TheCheckerTracksThePattern : Prop :=
  ∀ (d : Device) (n : LaneNo) (c : Cell) (st : Stamp), let l := d.lane n
    let expected (k : Fin 16) : Bool := (d.pattern.inverted l.page.invert).cell k.val
    let counts (k : Fin 16) : Nat := if c = .violation then 0
      else if cellBit c = expected k then min (l.checker.counts[(k - 1).val] + 1) 32 else 0
    let s' := d.searchCell n c st
    ((∀ k, counts k < 32) →
      s' = d.modLane n fun l => { l with checker := { l.checker with counts := Vector.ofFn counts } }) ∧
    (∀ k, counts k = 32 → (∀ j, j < k → counts j < 32) →
      s' = { d with lanes := s'.lanes, inFlight := s'.inFlight } ∧ d.inFlight <+: s'.inFlight ∧
      (∀ m, m ≠ n → s'.lane m = d.lane m) ∧
      s'.lane n = { l with line := .track, checker := (s'.lane n).checker } ∧ (s'.lane n).checker.alignment = some k ∧ (s'.lane n).checker.blockMismatches = 0 ∧
      (s'.lane n).checker.blockCells = 0 ∧ (s'.lane n).checker.whole = false ∧ (s'.lane n).checker.bits = [] ∧
      (s'.lane n).checker.reading = l.page.invert ∧
      d.written s' = [(s'.lane n).writes n st .patternLock 0]) ∧
    (∀ p : Fin 16, l.checker.alignment = some p → let t' := d.trackCell n c st
      let position := p + 1
      let reading := if position = 0 then l.page.invert else l.checker.reading
      let a := if reading = .a ∨ reading = .both then ~~~d.pattern.a else d.pattern.a
      let b := if reading = .b ∨ reading = .both then ~~~d.pattern.b else d.pattern.b
      let mismatch := cellBit c ≠ if position.val < 8 then a.getLsbD position.val else b.getLsbD (position.val - 8)
      let newBlock := 256 ≤ l.checker.blockCells
      let misses := (if newBlock then 0 else l.checker.blockMismatches) + (if mismatch then 1 else 0)
      let whole := decide (position = 0) || l.checker.whole
      let bits := if whole = false then [] else if position = 0 ∨ position = 8 then [cellBit c]
        else l.checker.bits ++ [cellBit c]
      let moved := d.modLane n fun l => { l with checker := { l.checker with
        alignment := some position, reading := reading, whole := whole, bits := bits
        blockCells := if newBlock then 1 else l.checker.blockCells + 1, blockMismatches := misses } }
      let counted := if mismatch then moved.countError n .pattern st else moved
      (mismatch ∧ 16 ≤ misses →
        t' = { d with lanes := t'.lanes, capture := t'.capture, inFlight := t'.inFlight } ∧
        d.inFlight <+: t'.inFlight ∧ (∀ m, m ≠ n → t'.lane m = d.lane m) ∧
        t'.lane n = { l with
          line := .search, history := [], rx := { l.rx with window := [] }, checker := (t'.lane n).checker
          interval := (counted.lane n).interval.map fun iv => { iv with lostLock := true } } ∧
        (t'.lane n).checker.alignment = none ∧ (∀ k : Fin 16, (t'.lane n).checker.counts[k.val] = 0) ∧
        t'.capture = (counted.modLane n fun l => { l with history := [] }).truncatedCapture n ∧
        d.written t' = d.written counted ++ counted.capture.truncatedRecords n st ++
          [(t'.lane n).writes n st .patternUnlock 0]) ∧
      (¬ (mismatch ∧ 16 ≤ misses) → ∃ byte : Byte, (∀ j : Fin 8, byte.getLsbD j.val = (bits[j.val]?).getD false) ∧
        let unit := if whole = true ∧ position = 15 then counted.modLane n fun l => { l with
          interval := l.interval.map fun iv => { iv with units := min (iv.units + 1) 65535 } } else counted
        t' = if whole = true ∧ (position = 7 ∨ position = 15) then unit.handByte n byte false st else unit))

/-- The transmitter of a lane in TEST sends the cell of its position in the lane's inverted pattern, read at position 0, or a
violation in place of it when insertion is pending and the last three cells sent were valid 1-cells; the insertion then clears and
INSERT_DONE is written. Outside TEST nothing is sent. With INTERNAL loopback the cell arrives at the lane in the same step (the
model's reading, log 18), which takes it as O32 says of `takeCell`. TXEn is asserted in TEST and in no other mode; while it is released TXn carries no cell, and in TEST TXn
carries the cell just sent (R21, R137, R138, R139, R147). -/
def Obligations.TheTransmitterSendsThePattern : Prop :=
  ∀ (n : LaneNo) (s : State), let l := s.dev.lane n
    (l.mode ≠ .test → exec (.transmitCell n) s = .next s ∧ l.txe = false ∧ l.txd = none) ∧
    (l.mode = .test → let reading := if l.tx.position = 0 then l.page.invert else l.tx.reading
      let a := if reading = .a ∨ reading = .both then ~~~s.dev.pattern.a else s.dev.pattern.a
      let b := if reading = .b ∨ reading = .both then ~~~s.dev.pattern.b else s.dev.pattern.b
      let bit := if l.tx.position < 8 then a.getLsbD l.tx.position else b.getLsbD (l.tx.position - 8)
      let inserts := l.tx.insertPending = true ∧ l.tx.recent = [.one, .one, .one]
      let cell : Cell := if inserts then .violation else if bit then .one else .zero
      ∃ t, exec (.transmitCell n) s = .next t ∧
        (∀ m, m ≠ n → t.dev.lane m = s.dev.lane m) ∧
        l.txe = true ∧ (t.dev.lane n).txe = true ∧ (t.dev.lane n).txd = some cell ∧
        (t.dev.lane n).tx = ⟨if inserts then false else l.tx.insertPending,
          if l.tx.position < 15 then l.tx.position + 1 else 0, reading, lastThree (l.tx.recent ++ [cell])⟩ ∧
        (l.page.loopback = .external →
          t.dev.lane n = { l with tx := (t.dev.lane n).tx } ∧ t.dev.capture = s.dev.capture ∧
          s.dev.written t.dev = recordIf (decide inserts) (l.writes n s.dev.now .insertDone 0)) ∧
        (l.page.loopback = .internal →
          ∃ u, (∀ m, u.lane m = if m = n then { l with tx := (t.dev.lane n).tx } else s.dev.lane m) ∧
            u.now = s.dev.now ∧ u.pattern = s.dev.pattern ∧ u.capture = s.dev.capture ∧
            s.dev.written u = recordIf (decide inserts) (l.writes n s.dev.now .insertDone 0) ∧
            t.dev = Device.settle u (u.takeCell n cell u.now)))

/-! ### The schedule table -/

/-- ENTRY ARM, DISARM, PAUSE, RESUME and CLEAR move an entry as their table gives, and answer its state and remaining count; a
refusal changes nothing (R118 to R121). The model's choice: a request that finds the table at work on an event is taken after the
rest of that work (log 6), and the reply of ENTRY CLEAR has a remaining count of 0 (log 30). -/
def Obligations.EntryRequestsMoveEntries : Prop :=
  ∀ (tag : Byte) (e : EntryNo) (s : State), s.dev.quiet →
    let ok (code : Byte) (x : Entry) (results : List Byte) : Host.Outcome State Fault Refusal :=
      .next (s.withDev ((s.dev.setEntry e x).answered tag code .ok results))
    let refused (code : Byte) (st : Status) : Host.Outcome State Fault Refusal :=
      .next (s.withDev (s.dev.answered tag code st []))
    (s.dev.schedule.work = none → s.dev.entry e = .empty →
      exec (.entryArm tag [entryByte e]) s = refused 0x32#8 .noEntry ∧
      exec (.entryDisarm tag [entryByte e]) s = refused 0x33#8 .noEntry ∧
      exec (.entryPause tag [entryByte e]) s = refused 0x34#8 .noEntry ∧
      exec (.entryResume tag [entryByte e]) s = refused 0x35#8 .noEntry ∧
      exec (.entryClear tag [entryByte e]) s = ok 0x36#8 .empty [0#8, 0#8, 0#8, 0#8]) ∧
    (∀ st df r, s.dev.schedule.work = none → s.dev.entry e = .held st df r →
      let shown (r : Nat) : List Byte := le24 (if df.isCountdown then r else 0)
      let loaded := match df.kind with | .countdown _ preset => preset | _ => r
      exec (.entryArm tag [entryByte e]) s = ok 0x32#8 (.held .armed df loaded) (2#8 :: shown loaded) ∧
      exec (.entryDisarm tag [entryByte e]) s = ok 0x33#8 (.held .idle df r) (1#8 :: shown r) ∧
      exec (.entryPause tag [entryByte e]) s =
        (if st = .armed ∧ df.isCountdown = true then ok 0x34#8 (.held .paused df r) (3#8 :: shown r)
          else refused 0x34#8 .wrongState) ∧
      exec (.entryResume tag [entryByte e]) s =
        (if st = .paused then ok 0x35#8 (.held .armed df r) (2#8 :: shown r) else refused 0x35#8 .wrongState) ∧
      exec (.entryClear tag [entryByte e]) s = ok 0x36#8 .empty [0#8, 0#8, 0#8, 0#8]) ∧
    (∀ b : Byte, 7 < b.toNat →
      exec (.entryArm tag [b]) s = refused 0x32#8 .badValue ∧ exec (.entryDisarm tag [b]) s = refused 0x33#8 .badValue ∧
      exec (.entryPause tag [b]) s = refused 0x34#8 .badValue ∧ exec (.entryResume tag [b]) s = refused 0x35#8 .badValue ∧
      exec (.entryClear tag [b]) s = refused 0x36#8 .badValue) ∧
    (∀ c, c ∈ [.entryArm tag [entryByte e], .entryDisarm tag [entryByte e], .entryPause tag [entryByte e],
        .entryResume tag [entryByte e], .entryClear tag [entryByte e]] → s.dev.schedule.work ≠ none →
      TakenAfterTheWork c s)

/-- ENTRY SET replaces the definition of an EMPTY or IDLE entry, which is then IDLE with its preset remaining; ARMED or PAUSED it
is ENTRY_ACTIVE, a number above 7 or a definition out of range is BAD_VALUE, and a refusal changes nothing. ENTRY GET answers the
state alone for an EMPTY entry, else state, remaining count and definition (R116, R117). A request that finds the table at work on
an event is taken after the rest of that work (the model's choice, log 6). -/
def Obligations.EntriesAreDefinedAndRead : Prop :=
  (∀ (tag b : Byte) (image : List Byte) (s : State), s.dev.quiet →
    image.length ∈ [10, 12, 14, 16] →
    (7 < b.toNat ∨ definitionOf image = none →
      exec (.entrySet tag (b :: image)) s = .next (s.withDev (s.dev.answered tag 0x30#8 .badValue []))) ∧
    (∀ (e : EntryNo) df, b = entryByte e → definitionOf image = some df →
      (s.dev.schedule.work ≠ none → TakenAfterTheWork (.entrySet tag (b :: image)) s) ∧
      (s.dev.schedule.work = none → (∃ r df', s.dev.entry e = .held .armed df' r ∨ s.dev.entry e = .held .paused df' r) →
        exec (.entrySet tag (b :: image)) s = .next (s.withDev (s.dev.answered tag 0x30#8 .entryActive []))) ∧
      (s.dev.schedule.work = none → s.dev.entry e = .empty ∨ (∃ r df', s.dev.entry e = .held .idle df' r) →
        exec (.entrySet tag (b :: image)) s = .next (s.withDev ((s.dev.setEntry e (.held .idle df
          (match df.kind with | .countdown _ preset => preset | _ => 0))).answered tag 0x30#8 .ok []))))) ∧
  (∀ (tag : Byte) (s : State), s.dev.quiet →
    (∀ e, s.dev.schedule.work ≠ none → TakenAfterTheWork (.entryGet tag [entryByte e]) s) ∧
    (∀ b : Byte, 7 < b.toNat →
      exec (.entryGet tag [b]) s = .next (s.withDev (s.dev.answered tag 0x31#8 .badValue []))) ∧
    (∀ e, s.dev.schedule.work = none → s.dev.entry e = .empty →
      exec (.entryGet tag [entryByte e]) s = .next (s.withDev (s.dev.answered tag 0x31#8 .ok [0#8]))) ∧
    (∀ e st df r, s.dev.schedule.work = none → s.dev.entry e = .held st df r →
      exec (.entryGet tag [entryByte e]) s = .next (s.withDev (s.dev.answered tag 0x31#8 .ok
        ([match st with | .idle => 1#8 | .armed => 2#8 | .paused => 3#8] ++ le24 (if df.isCountdown then r else 0) ++
          df.image)))))

/-- Step 1 of an event at an entry: only an ARMED entry is judged; a countdown takes a tick of its base and is due at 0, another
kind is due where it meets the event and keeps its count; which second arrivals a MATCH entry meets, and which edges an EXTERNAL
entry meets (R122, R123, R124, R126). That a set of weekdays is matched with the weekday held at the delivery of the arrival is the
model's reading (log 21). -/
def Obligations.EntriesAreJudged : Prop :=
  (∀ (ev : TableEvent) (x : Entry),
    ((∀ df r, x ≠ .held .armed df r) → x.judge ev = (x, false)) ∧
    (∀ df r base preset, x = .held .armed df r → df.kind = .countdown base preset →
      (base.ticksAt ev = true → x.judge ev = (.held .armed df (r - 1), decide (r ≤ 1))) ∧
      (base.ticksAt ev = false → x.judge ev = (x, false))) ∧
    (∀ df r, x = .held .armed df r → df.isCountdown = false → x.judge ev = (x, df.kind.meets ev)) ∧
    (∀ base : Base, base.ticksAt ev = true ↔ match base, ev with
      | .fine1024, .fine _ => True | .fine64, .fine y => y = true | .second, .second _ => True | .minute, .minute _ => True
      | _, _ => False)) ∧
  (∀ (second minute hour : Option Nat) (day : DaySelector) (a : Arrival), (EntryKind.atTime second minute hour day).ok = true →
    ((EntryKind.atTime second minute hour day).meets (.second a) = true ↔
      (second = none ∨ second = some a.time.second) ∧ (minute = none ∨ minute = some a.time.minute) ∧
      (hour = none ∨ hour = some a.time.hour) ∧
      (day = .any ∨ (∃ set, day = .weekdays set ∧ set.getLsbD a.weekday = true) ∨ day = .dayOfMonth a.time.day)) ∧
    (a.time.second = 60 → (EntryKind.atTime second minute hour day).meets (.second a) = true → second = none) ∧
    (∀ (b : Arrival) (x : Bool) (e : Edge), (EntryKind.atTime second minute hour day).meets (.minute b) = false ∧
      (EntryKind.atTime second minute hour day).meets (.fine x) = false ∧
      (EntryKind.atTime second minute hour day).meets (.edge e) = false)) ∧
  (∀ (pin : Pin) (edge : EdgeChoice) (e : Edge), (EntryKind.external pin edge).meets (.edge e) = true ↔
    pin = e.pin ∧ (edge = .both ∨ (edge = .rising ∧ e.rising = true) ∨ (edge = .falling ∧ e.rising = false))) ∧
  (∀ (pin : Pin) (edge : EdgeChoice) (a b : Arrival) (x : Bool), (EntryKind.external pin edge).meets (.second a) = false ∧
    (EntryKind.external pin edge).meets (.minute b) = false ∧ (EntryKind.external pin edge).meets (.fine x) = false)

/-- The table takes its oldest second arrival, minute arrival, a fine tick or a pin's oldest edge: every entry is judged, and the
turns of the due ones are the work it begins, in increasing number, with the event's stamp. With nothing to take it does nothing
(log 16), and it takes no fine tick while osc_fault is set. It goes on with the share given, a command without a share does the
whole work, and while work is left no new event is taken (R122, R126, R127). The share, the stamp's flags, the count of ticks not
yet taken and the number of the event that the work begun and its records carry are the model's (logs 6, 2, 3, 1). -/
def Obligations.TheTableTakesItsEvents : Prop :=
  (∀ s : State, s.dev.schedule.work = none → let x := s.dev.schedule
    let begun (y : Schedule) (ev : TableEvent) (st : Stamp) : Device :=
      let due := allEntries.filter fun e => ((s.dev.entry e).judge ev).2
      { s.dev with
        schedule := { y with
          entries := Vector.ofFn fun e : EntryNo => ((s.dev.entry e).judge ev).1
          work := if due = [] then none else some ⟨st, s.dev.events, due.map .turn⟩ }
        events := if due = [] then s.dev.events else s.dev.events + 1 }
    let held := decide (s.dev.timebase.run = .stopped) || s.dev.timebase.oscFault
    (∀ share, x.seconds = [] → exec (.scheduleSecondArrival share) s = .next s) ∧
    (∀ share, x.minutes = [] → exec (.minuteArrival share) s = .next s) ∧
    (∀ share, s.dev.timebase.oscFault = true → exec (.scheduleFineTick share) s = .next s) ∧
    (∀ pin share, (∀ e ∈ x.edges, e.pin ≠ pin) → exec (.scheduleEdge pin share) s = .next s) ∧
    (∀ a rest, x.seconds = a :: rest → exec (.scheduleSecondArrival (some 0)) s = .next (s.withDev
      (begun { x with seconds := rest } (.second a) ⟨a.time, 0, s.dev.timebase.timeValid, held⟩))) ∧
    (∀ a rest, x.minutes = a :: rest → exec (.minuteArrival (some 0)) s = .next (s.withDev
      (begun { x with minutes := rest } (.minute a) ⟨a.time, 0, s.dev.timebase.timeValid, held⟩))) ∧
    (s.dev.timebase.oscFault = false → exec (.scheduleFineTick (some 0)) s = .next (s.withDev
      (begun { x with ticks := x.ticks - 1 }
        (.fine (decide (((s.dev.timebase.divider : Int) - x.ticks + 1) % 16 = 0))) s.dev.now))) ∧
    (∀ pin pre e post, x.edges = pre ++ e :: post → e.pin = pin → (∀ f ∈ pre, f.pin ≠ pin) →
      exec (.scheduleEdge pin (some 0)) s = .next (s.withDev (begun { x with edges := pre ++ post } (.edge e) s.dev.now)))) ∧
  (∀ (s : State) (share : Option Nat) (f : Option Nat → Instr) (pin : Pin),
    f ∈ [Instr.scheduleSecondArrival, Instr.minuteArrival, Instr.scheduleFineTick, Instr.scheduleEdge pin] →
    (∀ d, s.dev.schedule.work = none → exec (f (some 0)) s = .next (s.withDev d) →
      exec (f share) s = .next (s.withDev (d.runTable share))) ∧
    (s.dev.schedule.work ≠ none → exec (f share) s = .next (s.withDev (s.dev.runTable share))) ∧
    (∃ t, exec (f none) s = .next t ∧ t.dev.schedule.work = none))

/-- One step of the table's work: the turn of an entry that is still due settles it, writes SCHEDULE_FIRED where journal_fire is
yes and puts its actions before the rest, in the order of its list, an action on lanes at each lane of its mask in increasing
number, the place counted from 0; an entry that is not loses its turn; an action at a target is taken by its owner, which presents
the levels it moves, and a refusal writes ACTION_REFUSED with place, target and status; a MARK action's record is taken by the
journal in its step, behind the records that the event has written before it, as O47 says of an arrival (R128 to R131; that these
arrive first is the model's reading, log 28). The work on an event is these steps one after another, as many as the share says or
all of them (log 6), and each record of it carries the number of the event (log 1). An action on lanes is one step for each lane,
so the work may also stop between two lanes of one mask (the model's choice, log 25). -/
def Obligations.AFireSettlesThenActs : Prop :=
  (∀ (d : Device) (share : Option Nat), (d.schedule.work = none → d.runTable share = d) ∧
    ∀ w, d.schedule.work = some w →
      let done := Device.tableOps w.stamp (share.getD (d.stepsLeft w.ops)) { d with events := w.event } w.ops
      d.runTable share = { done.1 with
        events := d.events
        schedule := { done.1.schedule with work := if done.2 = [] then none else some { w with ops := done.2 } } } ∧
      (∀ x ∈ done.1.inFlight, x ∈ d.inFlight ∨ x.event = w.event) ∧ (share = none → done.2 = [])) ∧
  (∀ (e : EntryNo) (place : Nat) (a : Action) (rest : List Action), actionOps e place [] = [] ∧
    actionOps e place (a :: rest) =
      (match a with
        | .onLanes b mask => (([0, 1, 2, 3] : List LaneNo).filter fun n => mask.getLsbD n.val).map fun n => .onLane e place b n
        | .mark tag => [.mark e tag]
        | .arm f => [.arm e place f]
        | .disarm f => [.disarm e place f]) ++ actionOps e (place + 1) rest) ∧
  (∀ (d : Device) (st : Stamp) (k : Nat) (op : TableOp) (rest : List TableOp),
    Device.tableOps st 0 d (op :: rest) = (d, op :: rest) ∧ Device.tableOps st k d [] = (d, []) ∧
    Device.tableOps st (k + 1) d (op :: rest) = Device.tableOps st k (d.tableOp st op rest).1 (d.tableOp st op rest).2) ∧
  ∀ (d : Device) (st : Stamp) (e : EntryNo) (rest : List TableOp),
    (∀ df r, d.entry e = .held .armed df r → (df.isCountdown = true → r = 0) →
      let loaded := match df.kind with | .countdown _ preset => preset | _ => r
      let settled := if df.repeats then Entry.held .armed df loaded else Entry.held .idle df r
      let cause := match df.kind with | .atTime .. => 1 | .countdown .. => 2 | .external .. => 3
      d.tableOp st (.turn e) rest =
        (if df.journalFire then (d.setEntry e settled).writePlain (.schedule e) st .scheduleFired cause
          else d.setEntry e settled, actionOps e 0 df.actions ++ rest)) ∧
    ((∀ df r, d.entry e = .held .armed df r → df.isCountdown = true ∧ r ≠ 0) → d.tableOp st (.turn e) rest = (d, rest)) ∧
    (∀ place a n, let owner := d.laneAction a n .schedule st
      d.tableOp st (.onLane e place a n) rest = (if owner.2 = .ok then Device.present d owner.1 else
        d.writePlain (.schedule e) st .actionRefused (owner.2.code.toNat + 256 * n.val + 4096 * place), rest)) ∧
    (∀ tag, let split := splitSent (fun x => decide (x.event = d.events)) d.inFlight
      let before : Device := split.1.foldl (fun d x => d.recordArrives x.record) { d with inFlight := split.2 }
      d.tableOp st (.mark e tag) rest = (before.recordArrives ⟨st, .schedule e, .mark, tag.toNat, none⟩, rest)) ∧
    (∀ place f, d.entry f = .empty →
      d.tableOp st (.arm e place f) rest =
        (d.writePlain (.schedule e) st .actionRefused (0x0B + 256 * f.val + 4096 * place), rest) ∧
      (d.tableOp st (.disarm e place f) rest).1 =
        d.writePlain (.schedule e) st .actionRefused (0x0B + 256 * f.val + 4096 * place)) ∧
    (∀ place f state df r, d.entry f = .held state df r →
      let loaded := match df.kind with | .countdown _ preset => preset | _ => r
      d.tableOp st (.arm e place f) rest = (d.setEntry f (.held .armed df loaded), rest) ∧
      d.tableOp st (.disarm e place f) rest =
        (d.setEntry f (.held .idle df r), rest.filter fun o => decide (o ≠ .turn f)))

/-- COUNTDOWN_EXPIRY of the entry whose turn it is fires it with all its actions: the table does that turn and as many steps more
as its actions have. Its fire's record comes first, the records on their way keep their order where no action is a MARK, and,
unless one of its actions arms or disarms it, it stands settled (R124, R128). The model's own: for any other entry nothing expires
(log 16), and SCHEDULE_FIRED carries the number of the event and the marks on its way (log 1). -/
def Obligations.CountdownsExpireAtTheirTurn : Prop :=
  ∀ (e : EntryNo) (s : State),
    (∀ w rest df base preset, s.dev.schedule.work = some w → w.ops = .turn e :: rest → s.dev.entry e = .held .armed df 0 →
      df.kind = .countdown base preset → ∃ t, exec (.countdownExpiry e) s = .next t ∧
        t.dev = s.dev.runTable (some (1 + (actionOps e 0 df.actions).length)) ∧
        ((∀ a ∈ df.actions, ∀ tag, a ≠ .mark tag) → t.dev.journal = s.dev.journal ∧
          (s.dev.inFlight ++
            (if df.journalFire then [⟨w.event, ⟨w.stamp, .schedule e, .scheduleFired, 2, none⟩, false, false⟩] else []))
              <+: t.dev.inFlight) ∧
        ((∀ a ∈ df.actions, a ≠ .arm e ∧ a ≠ .disarm e) →
          t.dev.entry e = if df.repeats then .held .armed df preset else .held .idle df 0) ∧
        t.dev.timebase = s.dev.timebase ∧ t.dev.port = s.dev.port) ∧
    ((∀ w, s.dev.schedule.work = some w → w.ops.head? ≠ some (.turn e)) ∨
      (∀ df, s.dev.entry e = .held .armed df 0 → df.isCountdown = false) →
      exec (.countdownExpiry e) s = .next s)

/-! ### Event inputs -/

/-- A sample equal to the filtered level sets the pin's count to 0, one that differs adds one, and at 4 the level takes it, the
count is 0 and the edge goes to the table and to the journal side; while osc_fault is set no sample is taken. The journal side
writes EXT_EDGE for the pin's oldest edge where its choice takes it, with the edge's own stamp; EXT CONFIG replaces both choices,
and a choice out of range is BAD_VALUE (R173, R174). The number and the marks that the record carries on its way are the model's
own (log 1). -/
def Obligations.EdgesAreFilteredAndJournalled : Prop :=
  (∀ (x0 x1 : Bool) (s : State), let i := s.dev.inputs
    let after (p : PinFilter) (x : Bool) : PinFilter :=
      if x = p.level then { p with count := 0 }
      else if p.count + 1 < 4 then { p with count := p.count + 1 } else { p with level := x, count := 0 }
    let edge (pin : Pin) (p : PinFilter) (x : Bool) : List Edge :=
      if x ≠ p.level ∧ 4 ≤ p.count + 1 then [⟨pin, x⟩] else []
    let edges := edge .ext0 i.ext0 x0 ++ edge .ext1 i.ext1 x1
    (s.dev.timebase.oscFault = true → exec (.filterSample x0 x1) s = .next s) ∧
    (s.dev.timebase.oscFault = false → exec (.filterSample x0 x1) s = .next (s.withDev { s.dev with
      inputs := ⟨after i.ext0 x0, after i.ext1 x1, i.edges ++ edges.map fun e => ⟨e, s.dev.now⟩⟩
      schedule := { s.dev.schedule with edges := s.dev.schedule.edges ++ edges } }))) ∧
  (∀ s : State,
    (∀ pin pre e post, s.dev.inputs.edges = pre ++ e :: post → e.edge.pin = pin → (∀ f ∈ pre, f.edge.pin ≠ pin) →
      let choice := (s.dev.inputs.pin pin).choice
      let taken : Device := { s.dev with inputs := { s.dev.inputs with edges := pre ++ post } }
      let takes := choice = .both ∨ (choice = .rising ∧ e.edge.rising = true) ∨ (choice = .falling ∧ e.edge.rising = false)
      (takes → exec (.extEdge pin) s = .next (s.withDev { taken with
        inFlight := s.dev.inFlight ++
          [⟨s.dev.events, ⟨e.stamp, .ext pin, .extEdge, if e.edge.rising then 1 else 2, none⟩, false, false⟩]
        events := s.dev.events + 1 })) ∧
      (¬ takes → exec (.extEdge pin) s = .next (s.withDev taken))) ∧
    (∀ tag c0 c1, s.dev.quiet →
      (3 < c0.toNat ∨ 3 < c1.toNat →
        exec (.extConfig tag [c0, c1]) s = .next (s.withDev (s.dev.answered tag 0x05#8 .badValue []))) ∧
      (∀ x0 x1 : EdgeChoice, c0 = x0.code → c1 = x1.code →
        exec (.extConfig tag [c0, c1]) s = .next (s.withDev (Device.answered { s.dev with inputs := { s.dev.inputs with
          ext0 := { s.dev.inputs.ext0 with choice := x0 }
          ext1 := { s.dev.inputs.ext1 with choice := x1 } } } tag 0x05#8 .ok [])))))

/-! ### The journal -/

/-- JOURNAL TAKE removes records from the oldest end, as many as asked for, held, or fit in 245 bytes, and stops at the first that
does not fit; it presents JOURNAL_LEVEL where that moves, and a count outside 1 to 15 is BAD_VALUE (R83, R84). Numbers go low byte
first, and a stamp and a journal record have the bytes and codes that R182 and R184 give. -/
def Obligations.JournalTakeRemovesTheOldest : Prop :=
  (∀ n : Nat, byte n = BitVec.ofNat 8 n ∧ le16 n = [byte n, byte (n / 256)] ∧ le24 n = [byte n, byte (n / 256), byte (n / 65536)] ∧
    le32 n = [byte n, byte (n / 256), byte (n / 65536), byte (n / 16777216)]) ∧
  (∀ st : Stamp, st.image =
    [byte st.time.year, byte st.time.month, byte st.time.day, byte st.time.hour, byte st.time.minute, byte st.time.second] ++
      le16 (st.fraction + (if st.held then 16384 else 0) + (if st.timeValid then 32768 else 0))) ∧
  (∀ r : Stored,
    let source := match r.record.source with
      | .lane n => n.val | .timebase => 0x10 | .schedule e => 0x20 + e.val | .ext .ext0 => 0x30 | .ext .ext1 => 0x31
      | .capture => 0x40 | .journal => 0x50 | .device => 0x60 | .port => 0x70
    r.image = le32 r.seq ++ r.record.stamp.image ++
      [byte (source + (if r.record.snapshot.isSome then 128 else 0)), r.record.kind.code] ++ le16 r.record.detail ++
      match r.record.snapshot with
      | none => []
      | some p => [byte (p.mode.code + 16 * p.line.code), byte (p.live.val + (if p.swapPending then 2 else 0))] ++
        le16 p.number ++ le16 p.x ++ le16 p.y) ∧
  (([.off, .monitor, .test] : List Mode).map (·.code) = [0, 1, 2] ∧
    ([.none, .hunt, .locked, .noSignal, .search, .track] : List LineState).map (·.code) = [0, 1, 2, 3, 4, 5] ∧
    ([.byte, .burst, .request, .schedule] : List TriggerKind).map (·.code) = [1, 2, 3, 4] ∧
    ([.restart, .timeSet, .clockStopped, .clockRun, .oscFault, .oscResumed, .journalResumed] : List Kind).map (·.code) =
      [0x01#8, 0x02#8, 0x03#8, 0x04#8, 0x05#8, 0x06#8, 0x07#8] ∧
    ([.laneStarted, .laneStopped, .laneLock, .laneUnlock, .signalLost, .signalBack, .intervalClosed, .ringOverrun, .slotSaturated,
        .burst, .pageSwapped] : List Kind).map (·.code) =
      [0x10#8, 0x11#8, 0x12#8, 0x13#8, 0x14#8, 0x15#8, 0x16#8, 0x17#8, 0x18#8, 0x19#8, 0x1A#8] ∧
    ([.testStarted, .testStopped, .patternLock, .patternUnlock, .insertDone, .insertCancelled, .txFault] : List Kind).map (·.code) =
      [0x20#8, 0x21#8, 0x22#8, 0x23#8, 0x24#8, 0x25#8, 0x26#8] ∧
    ([.captureDone, .captureDropped, .captureMissed, .scheduleFired, .actionRefused, .mark, .extEdge] : List Kind).map (·.code) =
      [0x30#8, 0x31#8, 0x32#8, 0x40#8, 0x41#8, 0x42#8, 0x50#8]) ∧
  ∀ (tag count : Byte) (s : State), s.dev.quiet → let j := s.dev.journal
    (count.toNat < 1 ∨ 15 < count.toNat →
      exec (.journalTake tag [count]) s = .next (s.withDev (s.dev.answered tag 0x40#8 .badValue []))) ∧
    (1 ≤ count.toNat → count.toNat ≤ 15 → ∃ (taken left : List Stored) (t : State),
      exec (.journalTake tag [count]) s = .next t ∧ j.records = taken ++ left ∧
      taken.length ≤ count.toNat ∧ (taken.map fun r => if r.record.snapshot.isSome then 24 else 16).sum ≤ 245 ∧
      (taken.length < count.toNat → ∀ r rest, left = r :: rest →
        245 < (taken.map fun r => if r.record.snapshot.isSome then 24 else 16).sum +
          (if r.record.snapshot.isSome then 24 else 16)) ∧
      (j.records ≠ [] → taken ≠ []) ∧
      t.dev = Device.answered { s.dev with
        journal := { j with records := left }
        attention := { s.dev.attention with changes := s.dev.attention.changes ++
          (if j.threshold ≤ j.records.length ∧ left.length < j.threshold then [⟨0, false⟩] else []) } }
        tag 0x40#8 .ok ([byte taken.length, byte left.length] ++ taken.flatMap Stored.image))

/-- JOURNAL CONFIG sets the threshold, then the policy; HOLD to WRAP in hold-off clears it, appends JOURNAL_RESUMED with the
discard count and sets that to 0; a value out of range is BAD_VALUE. JOURNAL STATUS answers the journal's state (R81, R82, R86). -/
def Obligations.JournalConfigSetsThresholdAndPolicy : Prop :=
  (∀ (tag p threshold : Byte) (s : State), s.dev.quiet → let j := s.dev.journal
    (1 < p.toNat ∨ threshold.toNat < 1 ∨ 64 < threshold.toNat →
      exec (.journalConfig tag [p, threshold]) s = .next (s.withDev (s.dev.answered tag 0x42#8 .badValue []))) ∧
    (∀ policy : Policy, p = (match policy with | .wrap => 0#8 | .hold => 1#8) → 1 ≤ threshold.toNat → threshold.toNat ≤ 64 →
      let k : Journal :=
        if j.policy = .hold ∧ policy = .wrap ∧ j.holdOff = true then
          { j with
            threshold := threshold.toNat, policy := .wrap, holdOff := false, discards := 0, next := nextSeq j.next
            records := (if j.records.length < 64 then j.records else j.records.tail) ++
              [⟨j.next, ⟨s.dev.now, .journal, .journalResumed, j.discards, none⟩⟩] }
        else { j with threshold := threshold.toNat, policy := policy }
      ∃ t, exec (.journalConfig tag [p, threshold]) s = .next t ∧ t.dev.journal = k ∧
        t.dev.attention.conditions = s.dev.attention.conditions ∧ s.dev.attention.changes <+: t.dev.attention.changes ∧
        t.dev = Device.answered { s.dev with journal := k, attention := t.dev.attention } tag 0x42#8 .ok
          ([byte k.records.length, if k.holdOff then 1#8 else 0#8] ++ le16 k.discards))) ∧
  (∀ (tag : Byte) (s : State), s.dev.quiet → let j := s.dev.journal
    exec (.journalStatus tag []) s = .next (s.withDev (s.dev.answered tag 0x41#8 .ok
      ([byte j.records.length] ++ le32 j.next ++
        le32 (match j.records with | [] => 0 | r :: _ => r.seq) ++
        [match j.policy with | .wrap => 0#8 | .hold => 1#8, byte j.threshold, if j.holdOff then 1#8 else 0#8] ++
        le16 j.discards))))

/-- A record on its way arrives and is stored or discarded under the policy held, unless an earlier record that it stays behind has
not arrived yet (R76 to R79): one of its own event, or, of one lane, a count's before a close's or a close's before a count's (R50;
the model's reading, log 27). Each level the arrival moves is presented; where a full WRAP journal gives up its oldest record
first, JOURNAL_LEVEL may fall and rise (R88, R168). JOURNAL MARK's record arrives in the same way with the request, and its reply
tells the number it took, 0 where it was discarded (R87). Before it every record on its way that a request's own event wrote
arrives, and every record that such a one stays behind, in the order they were written; the others stay on their way, the table's
among them (the model's reading, log 22). The number of its event and the marks that a record carries on its way are the model's own
(log 1). -/
def Obligations.RecordsArriveUnderThePolicyHeld : Prop :=
  let moved (before after : Device) : List LevelChange :=
    let fewer := decide (before.journal.threshold ≤ before.journal.records.length - 1)
    if before.journal.policy = .wrap ∧ 64 ≤ before.journal.records.length then
      (if before.level 0 = fewer then [] else [⟨0, fewer⟩]) ++ (if fewer = after.level 0 then [] else [⟨0, after.level 0⟩])
    else
      (if before.level 0 = after.level 0 then [] else [⟨0, after.level 0⟩]) ++
        (if before.level 1 = after.level 1 then [] else [⟨1, after.level 1⟩])
  (∀ (d : Device) (r : Record), let d' := d.recordArrives r
    d.journal.Takes r d'.journal ∧
    d' = { d with
      journal := d'.journal
      attention := ⟨d.attention.conditions, d.attention.changes ++ moved d d'⟩ }) ∧
  (∀ (place : Nat) (s : State),
    (∀ x, s.dev.inFlight[place]? = some x → (∀ y ∈ s.dev.inFlight.take place, ¬ x.Behind y) →
      exec (.recordArrival place) s =
        .next (s.withDev (Device.recordArrives { s.dev with inFlight := s.dev.inFlight.eraseIdx place } x.record)))) ∧
  (∀ (c : Instr) (s t : State), exec c s = .next t → ∀ x ∈ t.dev.inFlight, x ∉ s.dev.inFlight →
    (x.ofClose = true ↔ ∃ n, x.record.source = .lane n ∧ (s.dev.lane n).mode ≠ .off ∧
      x.record.kind ∈ ([.ringOverrun, .intervalClosed, .pageSwapped] : List Kind)) ∧
    (∀ code tag params, c.request? = some (code, tag, params) →
      x.byRequest = decide (¬ (0x30 ≤ code.toNat ∧ code.toNat ≤ 0x36))) ∧
    (c.request? = none → (∀ b good, c ≠ .crxCharacter b good) → x.byRequest = false)) ∧
  (∀ first : Sent → Bool, splitSent first [] = ([], []) ∧ ∀ (x : Sent) (rest : List Sent), let later := splitSent first rest
    (first x = true ∨ (∃ y ∈ later.1, y.Behind x) → splitSent first (x :: rest) = (x :: later.1, later.2)) ∧
    (¬ (first x = true ∨ ∃ y ∈ later.1, y.Behind x) → splitSent first (x :: rest) = (later.1, x :: later.2))) ∧
  (∀ (tag mark : Byte) (s : State), s.dev.quiet →
    let split := splitSent (·.byRequest) s.dev.inFlight
    let d : Device := split.1.foldl (fun d x => d.recordArrives x.record) { s.dev with inFlight := split.2 }
    let j := d.journal
    let number := if j.policy = .wrap ∨ (j.holdOff = false ∧ j.records.length < 64) then j.next
      else if j.holdOff = true ∧ j.records.length + 2 ≤ 64 then nextSeq j.next else 0
    exec (.journalMark tag [mark]) s = .next (s.withDev (Device.answered
      (d.recordArrives ⟨s.dev.now, .port, .mark, mark.toNat, none⟩) tag 0x43#8 .ok (le32 number))))

/-! ### The capture unit -/

/-- CAPTURE TAKE gives up a FULL slot and makes the grant test, SLOT_BUSY for FILLING, EMPTY for FREE; CAPTURE ABORT truncates the
lane's FILLING capture or drops its pending entry and makes the grant test, else EMPTY; a number out of range is BAD_VALUE. CAPTURE
STATUS answers the unit's state (R160 to R165); that the lane bits and the count of a FREE slot and the engine bit of a FREE or
FULL slot are 0 is the model's choice (log 23). -/
def Obligations.CapturesAreTakenAbortedAndReported : Prop :=
  ∀ (tag b : Byte) (s : State), s.dev.quiet →
    (3 < b.toNat →
      exec (.captureTake tag [b]) s = .next (s.withDev (s.dev.answered tag 0x52#8 .badValue [])) ∧
      exec (.captureAbort tag [b]) s = .next (s.withDev (s.dev.answered tag 0x53#8 .badValue []))) ∧
    (∀ k : SlotNo, b = slotByte k →
      (∀ c, s.dev.capture.slots[k.val] = .full c → ∃ t, exec (.captureTake tag [b]) s = .next t ∧
        t.dev.port.reply = some ⟨tag, 0xD2#8, .ok,
          [slotByte k, laneByte c.lane, byte c.kind.code] ++ c.stamp.image ++
          [byte c.lateBy, byte (c.page.val + (if c.truncated then 128 else 0)), byte c.pre, byte c.data.length] ++ c.data⟩ ∧
        t.dev.capture = (Device.grantTest { s.dev with
          capture := { s.dev.capture with slots := s.dev.capture.slots.set k.val .free } }).capture ∧
        t.dev.inFlight = s.dev.inFlight ∧ t.dev.lanes = s.dev.lanes ∧ t.dev.journal = s.dev.journal ∧
        t.dev.schedule = s.dev.schedule ∧ t.dev.timebase = s.dev.timebase) ∧
      (∀ c, s.dev.capture.slots[k.val] = .filling c →
        exec (.captureTake tag [b]) s = .next (s.withDev (s.dev.answered tag 0x52#8 .slotBusy []))) ∧
      (s.dev.capture.slots[k.val] = .free →
        exec (.captureTake tag [b]) s = .next (s.withDev (s.dev.answered tag 0x52#8 .empty [])))) ∧
    (∀ n : LaneNo, b = laneByte n →
      (s.dev.capture.busy n = false →
        exec (.captureAbort tag [b]) s = .next (s.withDev (s.dev.answered tag 0x53#8 .empty []))) ∧
      (∀ (k : SlotNo) c, s.dev.capture.Wf → s.dev.capture.slots[k.val] = .filling c → c.lane = n →
        ∃ t, exec (.captureAbort tag [b]) s = .next t ∧ t.dev.port.reply = some ⟨tag, 0xD3#8, .ok, [1#8, slotByte k]⟩ ∧
          t.dev.capture.slots[k.val] = .full { c with truncated := true } ∧
          t.dev.capture = s.dev.truncatedCapture n ∧
          s.dev.written t.dev = [⟨s.dev.now, .capture, .captureDone, k.val + 32768, none⟩] ∧
          t.dev.lanes = s.dev.lanes ∧ t.dev.journal = s.dev.journal) ∧
      (∀ w, s.dev.capture.fillingSlot n = none → s.dev.capture.entryOf n = some w →
        ∃ t, exec (.captureAbort tag [b]) s = .next t ∧ t.dev.port.reply = some ⟨tag, 0xD3#8, .ok, [2#8, 0xFF#8]⟩ ∧
          t.dev.capture = (Device.grantTest { s.dev with capture := { s.dev.capture with
            waiting := s.dev.capture.waiting.filter fun v => decide (v.lane ≠ n) } }).capture ∧
          s.dev.written t.dev = [(s.dev.lane n).writes n s.dev.now .captureDropped w.kind.code] ∧
          t.dev.lanes = s.dev.lanes ∧ t.dev.journal = s.dev.journal)) ∧
    (let u := s.dev.capture
      let slotBytes (k : SlotNo) : List Byte := match u.slots[k.val] with
        | .free => [0#8, 0#8]
        | .filling c => [byte (1 + 4 * c.lane.val + (if u.engines[1] = some k then 16 else 0)), byte c.data.length]
        | .full c => [byte (2 + 4 * c.lane.val + (if c.truncated then 128 else 0)), byte c.data.length]
      let engineByte (e : Option SlotNo) : Byte := match e with | none => 0xFF#8 | some k => slotByte k
      exec (.captureStatus tag []) s = .next (s.withDev (s.dev.answered tag 0x51#8 .ok
        (slotBytes 0 ++ slotBytes 1 ++ slotBytes 2 ++ slotBytes 3 ++
          [engineByte u.engines[0], engineByte u.engines[1], byte u.waiting.length] ++
          u.waiting.flatMap fun w => [laneByte w.lane, byte w.kind.code] ++ w.stamp.image ++ [byte w.lateBy]))))

/-- The grant test serves the oldest entry with the lower-numbered free engine and the lowest-numbered FREE slot, and is repeated;
without an entry, an engine or a slot it grants nothing. The capture takes its page and sizes from the lane's live page and the
most recent bytes of its history ring (R156, R157). -/
def Obligations.GrantsServeTheOldestEntry : Prop :=
  ∀ d : Device,
    (d.capture.waiting = [] ∨ (d.capture.engines[0] ≠ none ∧ d.capture.engines[1] ≠ none) ∨
      (∀ k : SlotNo, d.capture.slots[k.val] ≠ .free) → d.grantTest = d) ∧
    (∀ (w : Waiting) (rest : List Waiting) (e : Fin 2) (k : SlotNo), d.capture.waiting = w :: rest →
      d.capture.engines[e.val] = none → (∀ f : Fin 2, f < e → d.capture.engines[f.val] ≠ none) →
      d.capture.slots[k.val] = .free → (∀ i : SlotNo, i < k → d.capture.slots[i.val] ≠ .free) →
      let l := d.lane w.lane
      let pre := min l.page.capturePre l.history.length
      d.grantTest = Device.grantTest { d with capture :=
        ⟨rest, d.capture.engines.set e.val (some k), d.capture.slots.set k.val (.filling
          ⟨w.lane, w.kind, w.stamp, w.lateBy, l.live, l.page.capturePost, pre, l.history.drop (l.history.length - pre),
            false⟩)⟩ })

/-! ### The attention unit -/

/-- The ten levels are those of the table of R168. ATTENTION reports levels, enables, modes, latches and the filtered levels, each
condition at its own bits, clears the named latches and sets those of LEVEL conditions again; ATTENTION CONFIG takes the ten
settings; a number above 9 is BAD_VALUE. A change of a level latches an enabled condition by its mode, and ATN is low while a latch
is set (R169 to R172). The level the two requests read is the one that the changes taken so far have left (the model's reading, log
24), so that an empty clear set changes nothing where the unit follows the levels. -/
def Obligations.AttentionLatchesAndReports : Prop :=
  (∀ d : Device,
    d.level 0 = decide (d.journal.threshold ≤ d.journal.records.length) ∧ d.level 1 = d.journal.holdOff ∧
    (d.level 2 = true ↔ ∃ (k : SlotNo) (c : Capture), d.capture.slots[k.val] = .full c) ∧
    (∀ n : LaneNo, d.level (alarmCond n) = true ↔
      ((d.lane n).mode = .monitor ∧ (d.lane n).line ≠ .locked) ∨ ((d.lane n).mode = .test ∧ (d.lane n).line ≠ .track)) ∧
    (d.level 7 = true ↔ ∃ n, (d.lane n).txFault = true) ∧
    (d.level 8 = true ↔ d.timebase.timeValid = false ∨ d.timebase.oscFaultSeen = true) ∧ d.level 9 = false) ∧
  (∀ f : CondNo → Bool, ∃ w < 1024, condBits f = le16 w ∧ ∀ c : CondNo, w.testBit c.val = f c) ∧
  (∀ f : CondNo → AttentionMode, ∃ w < 1048576, modeBits f = le24 w ∧
    ∀ c : CondNo, w / 4 ^ c.val % 4 = match f c with | .rise => 0 | .fall => 1 | .both => 2 | .level => 3) ∧
  (∀ (tag lo hi : Byte) (s : State), s.dev.quiet → let clear := lo.toNat + 256 * hi.toNat
    (1024 ≤ clear → exec (.attention tag [lo, hi]) s = .next (s.withDev (s.dev.answered tag 0x03#8 .badValue []))) ∧
    (clear < 1024 → ∃ t, exec (.attention tag [lo, hi]) s = .next t ∧
      (∀ c : CondNo, let x := s.dev.attention.conditions[c.val]
        t.dev.attention.conditions[c.val] = { x with
          latch := (x.latch && !clear.testBit c.val) || (x.enabled && decide (x.mode = .level) && s.dev.levelSeen c) }) ∧
      (clear = 0 → s.dev.LevelsFollowed → t.dev.attention = s.dev.attention) ∧
      t.dev = Device.answered { s.dev with
        attention := { s.dev.attention with conditions := t.dev.attention.conditions } } tag 0x03#8 .ok
        (condBits s.dev.levelSeen ++ condBits (fun c => (s.dev.attention.conditions[c.val]).enabled) ++
          modeBits (fun c => (s.dev.attention.conditions[c.val]).mode) ++
          condBits (fun c => (s.dev.attention.conditions[c.val]).latch) ++
          condBits (fun c => (t.dev.attention.conditions[c.val]).latch) ++
          [byte ((if s.dev.inputs.ext0.level then 1 else 0) + (if s.dev.inputs.ext1.level then 2 else 0))]))) ∧
  (∀ (tag e0 e1 m0 m1 m2 : Byte) (s : State), s.dev.quiet →
    let enables := e0.toNat + 256 * e1.toNat
    let modes := m0.toNat + 256 * m1.toNat + 65536 * m2.toNat
    (1024 ≤ enables ∨ 1048576 ≤ modes →
      exec (.attentionConfig tag [e0, e1, m0, m1, m2]) s = .next (s.withDev (s.dev.answered tag 0x04#8 .badValue []))) ∧
    (enables < 1024 → modes < 1048576 → ∃ t, exec (.attentionConfig tag [e0, e1, m0, m1, m2]) s = .next t ∧
      t.dev = Device.answered { s.dev with
        attention := { s.dev.attention with conditions := t.dev.attention.conditions } } tag 0x04#8 .ok [] ∧
      (∀ c : CondNo, let mode : AttentionMode := match modes / 4 ^ c.val % 4 with
          | 0 => .rise | 1 => .fall | 2 => .both | _ => .level
        t.dev.attention.conditions[c.val] = ⟨enables.testBit c.val, mode, enables.testBit c.val &&
          ((s.dev.attention.conditions[c.val]).latch || (decide (modes / 4 ^ c.val % 4 = 3) && s.dev.levelSeen c))⟩))) ∧
  (∀ (c : CondNo) (s : State), let a := s.dev.attention
    (∀ pre x post, a.changes = pre ++ x :: post → x.cond = c → (∀ y ∈ pre, y.cond ≠ c) →
      let k := a.conditions[c.val]
      let takes := match k.mode with | .rise => x.level | .fall => !x.level | .both => true | .level => x.level
      exec (.conditionChange c) s = .next (s.withDev { s.dev with attention :=
        ⟨a.conditions.set c.val { k with latch := k.latch || (k.enabled && takes) }, pre ++ post⟩ })) ∧
    (a.atnLow = true ↔ ∃ i : CondNo, (a.conditions[i.val]).latch = true))

/-! ### The port -/

/-- The receiver: what begins a frame, what a character in a frame does, and the cases in which the frame is discarded with one
port error and nothing else (R177, R178). That a gap in WAITING does nothing and that BAD_FRAME is one port error in every state of
the receiver is the model's choice (log 16). -/
def Obligations.DiscardedFramesRaiseOnePortError : Prop :=
  ∀ s : State, let p := s.dev.port
    let error : Host.Outcome State Fault Refusal := .next (s.withDev s.dev.withPortError)
    let held (bytes : List Byte) : Host.Outcome State Fault Refusal :=
      .next (s.withDev { s.dev with port := { p with rx := .inFrame bytes } })
    (p.rx = .waiting → exec (.crxCharacter 0xC3#8 true) s = held [] ∧ exec .frameGapTimeout s = .next s ∧
      ∀ b good, ¬ (b = 0xC3#8 ∧ good = true) → exec (.crxCharacter b good) s = .next s) ∧
    (∀ bytes, p.rx = .inFrame bytes → exec .frameGapTimeout s = error ∧ ∀ b, exec (.crxCharacter b false) s = error) ∧
    (p.rx = .inFrame [] → ∀ b : Byte,
      (b.toNat < 2 ∨ 250 < b.toNat → exec (.crxCharacter b true) s = error) ∧
      (2 ≤ b.toNat → b.toNat ≤ 250 → exec (.crxCharacter b true) s = held [b])) ∧
    (∀ len rest, p.rx = .inFrame (len :: rest) → ∀ b : Byte,
      (rest.length < len.toNat → exec (.crxCharacter b true) s = held (len :: rest ++ [b])) ∧
      (rest.length = len.toNat → crc (len :: rest) ≠ b ∨ p.reply.isSome = true →
        exec (.crxCharacter b true) s = error)) ∧
    (∀ cause, cause ≠ .overrun ∨ p.reply.isSome = true → exec (.badFrame cause) s = error)

/-- The characters of a request frame, taken one after another from WAITING, do what the request command does: the frame is
checked, an overrun is discarded, and a good frame reaches the owner of its code. The check byte is the register of R179 after the
bytes from LEN on, and a reply frame is SOF, LEN, tag, code, status, results and CHECK (R177 to R183). -/
def Obligations.RequestFramesReachTheirOwners : Prop :=
  (let shift (r : Byte) : Byte := if r.getLsbD 7 then (r <<< 1) ^^^ 0x07#8 else r <<< 1
   crc [] = 0#8 ∧
   ∀ (bytes : List Byte) (b : Byte), crc (bytes ++ [b]) =
     shift (shift (shift (shift (shift (shift (shift (shift (crc bytes ^^^ b))))))))) ∧
  (∀ r : Reply, let body := [byte (3 + r.results.length), r.tag, r.code, r.status.code] ++ r.results
    r.frame = [0xC3#8] ++ body ++ [crc body]) ∧
  (([.ok, .unknown, .badLength, .badValue, .wrongState, .laneOff, .pending, .txFault, .captureBusy, .empty, .entryActive, .noEntry,
      .clockFault, .slotBusy] : List Status).map (·.code) =
    [0x00#8, 0x01#8, 0x02#8, 0x03#8, 0x04#8, 0x05#8, 0x06#8, 0x07#8, 0x08#8, 0x09#8, 0x0A#8, 0x0B#8, 0x0C#8, 0x0D#8]) ∧
  ∀ (c : Instr) (code tag : Byte) (params : List Byte) (s : State), c.request? = some (code, tag, params) → c.wf = true →
    s.dev.port.rx = .waiting → runChars (requestFrame code tag params) s = exec c s

/-! ### Images -/

/-- The 17 bytes of a profile, field by field, and the ranges of its fields; a profile in range is read back from its image; an
image that is read is that of a profile in range, with byte 12 zero where trigger_byte is absent, and there byte 12 is ignored
(R26, R186). -/
def Obligations.ProfileImagesAgree : Prop :=
  (∀ p : Profile,
    let slot (c : SlotClass) : Nat := match c with
      | .none => 0 | .code => 1 | .idle => 2 | .slip => 3 | .pattern => 4 | .codeIdle => 5
    p.image = [byte p.bitRate.val] ++ le16 p.syncWord.toNat ++ le16 p.frameLength ++ [byte p.idleThreshold] ++
      le16 p.losThreshold ++ [byte (slot p.slotX + 16 * slot p.slotY),
        match p.intervalMode with | .manual => 0#8 | .auto k => byte (k.val + 1)] ++
      le16 (match p.burstThreshold with | some t => t | none => 0) ++
      [match p.triggerByte with | some b => b | none => 0#8, byte p.capturePre, byte p.capturePost,
        byte ((match p.invert with | .none => 0 | .a => 1 | .b => 2 | .both => 3) +
          match p.loopback with | .external => 0 | .internal => 4),
        byte ((if p.burstCapture then 1 else 0) + (if p.journalCloses then 2 else 0) + (if p.snapshot then 4 else 0) +
          (if p.triggerByte = none then 0 else 8))]) ∧
  (∀ p : Profile, p.inRange = true ↔
    (4 ≤ p.frameLength ∧ p.frameLength ≤ 256) ∧ (8 ≤ p.idleThreshold ∧ p.idleThreshold ≤ 255) ∧
    (256 ≤ p.losThreshold ∧ p.losThreshold ≤ 65535) ∧ p.capturePre ≤ 32 ∧ (1 ≤ p.capturePost ∧ p.capturePost ≤ 96) ∧
    ∀ t, p.burstThreshold = some t → 1 ≤ t ∧ t ≤ 65535) ∧
  (∀ p : Profile, p.inRange = true → p.image.length = 17 ∧ profileOf p.image = some p) ∧
  (∀ (b : List Byte) (p : Profile), profileOf b = some p →
    p.inRange = true ∧ (p.image = if p.triggerByte = none then b.set 12 0#8 else b) ∧
    (p.triggerByte = none → ∀ x : Byte, profileOf (b.set 12 x) = some p))

/-- The bytes of a definition, field by field, the ranges of its fields, and the bytes of its actions; a definition in range is
read back from its image of 10, 12, 14 or 16 bytes, and an image that is read is that of a definition in range (R112 to R114,
R116, R187). -/
def Obligations.DefinitionImagesAgree : Prop :=
  (∀ df : Definition,
    let field (f : Option Nat) : Byte := match f with | none => 0xFF#8 | some n => byte n
    let action (a : Action) : List Byte := match a with
      | .onLanes .close m => [1#8, m] | .onLanes .swap m => [2#8, m] | .onLanes .testStart m => [3#8, m]
      | .onLanes .testStop m => [4#8, m] | .onLanes .insert m => [5#8, m] | .onLanes .capture m => [6#8, m]
      | .mark tag => [7#8, tag] | .arm e => [8#8, entryByte e] | .disarm e => [9#8, entryByte e]
    let flags := byte ((if df.repeats then 1 else 0) + (if df.journalFire then 2 else 0))
    df.image = (match df.kind with
      | .atTime second minute hour day => [1#8, flags, field second, field minute, field hour] ++
        (match day with | .any => [0#8, 0#8] | .weekdays set => [1#8, set] | .dayOfMonth n => [2#8, byte n]) ++ [0#8]
      | .countdown base preset => [2#8, flags,
          match base with | .fine1024 => 0#8 | .fine64 => 1#8 | .second => 2#8 | .minute => 3#8] ++ le24 preset ++ [0#8, 0#8]
      | .external pin edge => [3#8, flags, match pin with | .ext0 => 0#8 | .ext1 => 1#8,
          match edge with | .none => 0#8 | .rising => 1#8 | .falling => 2#8 | .both => 3#8, 0#8, 0#8, 0#8, 0#8]) ++
      df.actions.flatMap action) ∧
  (∀ df : Definition, df.ok = true ↔
    (match df.kind with
      | .atTime second minute hour day => (∀ n, second = some n → n ≤ 59) ∧ (∀ n, minute = some n → n ≤ 59) ∧
        (∀ n, hour = some n → n ≤ 23) ∧ (∀ set, day = .weekdays set → 1 ≤ set.toNat ∧ set.toNat ≤ 127) ∧
        ∀ n, day = .dayOfMonth n → 1 ≤ n ∧ n ≤ 31
      | .countdown _ preset => 1 ≤ preset ∧ preset ≤ 16777215
      | .external _ edge => edge ≠ .none) ∧
    1 ≤ df.actions.length ∧ df.actions.length ≤ 4 ∧ ∀ a m, Action.onLanes a m ∈ df.actions → 1 ≤ m.toNat ∧ m.toNat ≤ 15) ∧
  (∀ df : Definition, df.ok = true → df.image.length ∈ [10, 12, 14, 16] ∧ definitionOf df.image = some df) ∧
  (∀ (b : List Byte) (df : Definition), b.length ∈ [10, 12, 14, 16] → definitionOf b = some df →
    df.ok = true ∧ df.image = b)

/-! ### Frames and invariants -/

/-- A request that names one lane and a line event of one lane leave every other lane, the pattern, the timebase, the table, the
event inputs, the journal, the conditions and the link rate as they were, and take nothing off the records on their way. -/
def Obligations.OneLaneCommandsTouchOneLane : Prop :=
  ∀ (n : LaneNo) (tag count : Byte) (image : List Byte) (cell : Cell) (level : Bool) (c : Instr) (s : State),
    (c ∈ [.laneStart tag [laneByte n], .laneStop tag [laneByte n], .laneStatus tag [laneByte n],
        .profileSet tag (laneByte n :: image), .intervalTake tag [laneByte n, count], .captureAbort tag [laneByte n]] ∧
        s.dev.quiet) ∨
      c ∈ [.cellArrival n cell, .transmitCell n, .driverFault n level, .secondArrival n] →
    ∃ t, exec c s = .next t ∧ Device.OnlyLane n s.dev t.dev ∧ t.pending = s.pending

/-- The model's choice (log 16): a command whose event has nothing to take leaves the machine as it was, and so does the arrival of
a record that stays behind another (R76; R50 by the model's reading, log 27). -/
def Obligations.EventsWithNothingToTakeDoNothing : Prop :=
  ∀ s : State,
    (∀ place, s.dev.inFlight[place]? = none ∨
      (∃ x y, s.dev.inFlight[place]? = some x ∧ y ∈ s.dev.inFlight.take place ∧ x.Behind y) →
      exec (.recordArrival place) s = .next s) ∧
    (∀ c : CondNo, (∀ x ∈ s.dev.attention.changes, x.cond ≠ c) → exec (.conditionChange c) s = .next s) ∧
    (∀ pin, (∀ e ∈ s.dev.inputs.edges, e.edge.pin ≠ pin) → exec (.extEdge pin) s = .next s) ∧
    (s.dev.quiet → exec (.badFrame .overrun) s = .next s) ∧
    (∀ (tag code : Byte) (params : List Byte), code ∈ Config.requestCodes →
      exec (.unknownCode tag code params) s = .next s)

/-- Every block has its form right after reset, the attention unit follows the levels, and the queue is empty. The values that the
spec does not give are the model's (logs 10, 11, 12). -/
def Obligations.ResetHasItsForm : Prop :=
  let d := State.reset.dev
  d.CapturesWf ∧ d.journal.Wf ∧ d.attention.Wf ∧ d.timebase.Wf ∧ d.inputs.Wf ∧ d.schedule.Wf ∧ d.port.Wf ∧
  d.LevelsFollowed ∧ State.reset.pending = []

/-- Every step keeps the journal's form: at most 64 records with consecutive sequence numbers, hold-off and discard count clear
under WRAP, the count non-zero exactly in hold-off (R69, R75, R77, R79, R86). -/
def Obligations.JournalKeepsItsForm : Prop :=
  ∀ s t : State, s.dev.journal.Wf → step s = .next t → t.dev.journal.Wf

/-- Every step keeps the lanes' and the capture unit's form: states that fit their modes, an open interval exactly outside OFF, at
most 8 records numbered in a row, history only while assembling, one FILLING slot for each bound engine, at most one capture in
progress for a lane and none in OFF (R1, R12, R43, R58, R151, R162). -/
def Obligations.LanesAndCapturesKeepTheirForm : Prop :=
  ∀ s t : State, s.dev.CapturesWf → step s = .next t → t.dev.CapturesWf

/-- Every step keeps the form of the timebase, the table, the attention unit, the event inputs and the port, each on its own: a
calendar time, PAUSED only for a countdown, a latch only for an enabled condition (R91, R95, R111, R169, R173, R177). -/
def Obligations.TheOtherBlocksKeepTheirForm : Prop :=
  ∀ s t : State, step s = .next t →
    (s.dev.timebase.Wf → t.dev.timebase.Wf) ∧ (s.dev.schedule.Wf → t.dev.schedule.Wf) ∧
    (s.dev.attention.Wf → t.dev.attention.Wf) ∧ (s.dev.inputs.Wf → t.dev.inputs.Wf) ∧ (s.dev.port.Wf → t.dev.port.Wf)
end

