-- ==== Sys2Proof/Laws/State.lean ====
section
/-! SUPPORT. What each update of the device leaves alone and what it sets: one lemma per field and update, all by
computation, so that no proof unfolds a record update. -/

namespace Sys2Proof.Machine

/-! ### modLane -/

@[simp] theorem pattern_modLane (d : Device) (n : LaneNo) (f : Lane → Lane) : (d.modLane n f).pattern = d.pattern := rfl
@[simp] theorem timebase_modLane (d : Device) (n : LaneNo) (f : Lane → Lane) : (d.modLane n f).timebase = d.timebase := rfl
@[simp] theorem schedule_modLane (d : Device) (n : LaneNo) (f : Lane → Lane) : (d.modLane n f).schedule = d.schedule := rfl
@[simp] theorem inputs_modLane (d : Device) (n : LaneNo) (f : Lane → Lane) : (d.modLane n f).inputs = d.inputs := rfl
@[simp] theorem journal_modLane (d : Device) (n : LaneNo) (f : Lane → Lane) : (d.modLane n f).journal = d.journal := rfl
@[simp] theorem inFlight_modLane (d : Device) (n : LaneNo) (f : Lane → Lane) : (d.modLane n f).inFlight = d.inFlight := rfl
@[simp] theorem events_modLane (d : Device) (n : LaneNo) (f : Lane → Lane) : (d.modLane n f).events = d.events := rfl
@[simp] theorem capture_modLane (d : Device) (n : LaneNo) (f : Lane → Lane) : (d.modLane n f).capture = d.capture := rfl
@[simp] theorem attention_modLane (d : Device) (n : LaneNo) (f : Lane → Lane) : (d.modLane n f).attention = d.attention := rfl
@[simp] theorem port_modLane (d : Device) (n : LaneNo) (f : Lane → Lane) : (d.modLane n f).port = d.port := rfl
@[simp] theorem entry_modLane (d : Device) (n : LaneNo) (f : Lane → Lane) (e : EntryNo) : (d.modLane n f).entry e = d.entry e := rfl
@[simp] theorem now_modLane (d : Device) (n : LaneNo) (f : Lane → Lane) : (d.modLane n f).now = d.now := rfl

/-! ### modInterval -/

@[simp] theorem pattern_modInterval (d : Device) (n : LaneNo) (f : OpenInterval → OpenInterval) : (d.modInterval n f).pattern = d.pattern := rfl
@[simp] theorem timebase_modInterval (d : Device) (n : LaneNo) (f : OpenInterval → OpenInterval) : (d.modInterval n f).timebase = d.timebase := rfl
@[simp] theorem schedule_modInterval (d : Device) (n : LaneNo) (f : OpenInterval → OpenInterval) : (d.modInterval n f).schedule = d.schedule := rfl
@[simp] theorem inputs_modInterval (d : Device) (n : LaneNo) (f : OpenInterval → OpenInterval) : (d.modInterval n f).inputs = d.inputs := rfl
@[simp] theorem journal_modInterval (d : Device) (n : LaneNo) (f : OpenInterval → OpenInterval) : (d.modInterval n f).journal = d.journal := rfl
@[simp] theorem inFlight_modInterval (d : Device) (n : LaneNo) (f : OpenInterval → OpenInterval) : (d.modInterval n f).inFlight = d.inFlight := rfl
@[simp] theorem events_modInterval (d : Device) (n : LaneNo) (f : OpenInterval → OpenInterval) : (d.modInterval n f).events = d.events := rfl
@[simp] theorem capture_modInterval (d : Device) (n : LaneNo) (f : OpenInterval → OpenInterval) : (d.modInterval n f).capture = d.capture := rfl
@[simp] theorem attention_modInterval (d : Device) (n : LaneNo) (f : OpenInterval → OpenInterval) : (d.modInterval n f).attention = d.attention := rfl
@[simp] theorem port_modInterval (d : Device) (n : LaneNo) (f : OpenInterval → OpenInterval) : (d.modInterval n f).port = d.port := rfl
@[simp] theorem entry_modInterval (d : Device) (n : LaneNo) (f : OpenInterval → OpenInterval) (e : EntryNo) : (d.modInterval n f).entry e = d.entry e := rfl
@[simp] theorem now_modInterval (d : Device) (n : LaneNo) (f : OpenInterval → OpenInterval) : (d.modInterval n f).now = d.now := rfl

/-! ### write -/

@[simp] theorem lanes_write (d : Device) (r : Record) : (d.write r).lanes = d.lanes := rfl
@[simp] theorem pattern_write (d : Device) (r : Record) : (d.write r).pattern = d.pattern := rfl
@[simp] theorem timebase_write (d : Device) (r : Record) : (d.write r).timebase = d.timebase := rfl
@[simp] theorem schedule_write (d : Device) (r : Record) : (d.write r).schedule = d.schedule := rfl
@[simp] theorem inputs_write (d : Device) (r : Record) : (d.write r).inputs = d.inputs := rfl
@[simp] theorem journal_write (d : Device) (r : Record) : (d.write r).journal = d.journal := rfl
@[simp] theorem events_write (d : Device) (r : Record) : (d.write r).events = d.events := rfl
@[simp] theorem capture_write (d : Device) (r : Record) : (d.write r).capture = d.capture := rfl
@[simp] theorem attention_write (d : Device) (r : Record) : (d.write r).attention = d.attention := rfl
@[simp] theorem port_write (d : Device) (r : Record) : (d.write r).port = d.port := rfl
@[simp] theorem lane_write (d : Device) (r : Record) (m : LaneNo) : (d.write r).lane m = d.lane m := rfl
@[simp] theorem entry_write (d : Device) (r : Record) (e : EntryNo) : (d.write r).entry e = d.entry e := rfl
@[simp] theorem now_write (d : Device) (r : Record) : (d.write r).now = d.now := rfl

/-! ### writePlain -/

@[simp] theorem lanes_writePlain (d : Device) (src : Source) (st : Stamp) (k : Kind) (x : Nat) : (d.writePlain src st k x).lanes = d.lanes := rfl
@[simp] theorem pattern_writePlain (d : Device) (src : Source) (st : Stamp) (k : Kind) (x : Nat) : (d.writePlain src st k x).pattern = d.pattern := rfl
@[simp] theorem timebase_writePlain (d : Device) (src : Source) (st : Stamp) (k : Kind) (x : Nat) : (d.writePlain src st k x).timebase = d.timebase := rfl
@[simp] theorem schedule_writePlain (d : Device) (src : Source) (st : Stamp) (k : Kind) (x : Nat) : (d.writePlain src st k x).schedule = d.schedule := rfl
@[simp] theorem inputs_writePlain (d : Device) (src : Source) (st : Stamp) (k : Kind) (x : Nat) : (d.writePlain src st k x).inputs = d.inputs := rfl
@[simp] theorem journal_writePlain (d : Device) (src : Source) (st : Stamp) (k : Kind) (x : Nat) : (d.writePlain src st k x).journal = d.journal := rfl
@[simp] theorem events_writePlain (d : Device) (src : Source) (st : Stamp) (k : Kind) (x : Nat) : (d.writePlain src st k x).events = d.events := rfl
@[simp] theorem capture_writePlain (d : Device) (src : Source) (st : Stamp) (k : Kind) (x : Nat) : (d.writePlain src st k x).capture = d.capture := rfl
@[simp] theorem attention_writePlain (d : Device) (src : Source) (st : Stamp) (k : Kind) (x : Nat) : (d.writePlain src st k x).attention = d.attention := rfl
@[simp] theorem port_writePlain (d : Device) (src : Source) (st : Stamp) (k : Kind) (x : Nat) : (d.writePlain src st k x).port = d.port := rfl
@[simp] theorem lane_writePlain (d : Device) (src : Source) (st : Stamp) (k : Kind) (x : Nat) (m : LaneNo) : (d.writePlain src st k x).lane m = d.lane m := rfl
@[simp] theorem entry_writePlain (d : Device) (src : Source) (st : Stamp) (k : Kind) (x : Nat) (e : EntryNo) : (d.writePlain src st k x).entry e = d.entry e := rfl
@[simp] theorem now_writePlain (d : Device) (src : Source) (st : Stamp) (k : Kind) (x : Nat) : (d.writePlain src st k x).now = d.now := rfl

/-! ### writeLane -/

@[simp] theorem lanes_writeLane (d : Device) (n : LaneNo) (st : Stamp) (k : Kind) (x : Nat) : (d.writeLane n st k x).lanes = d.lanes := rfl
@[simp] theorem pattern_writeLane (d : Device) (n : LaneNo) (st : Stamp) (k : Kind) (x : Nat) : (d.writeLane n st k x).pattern = d.pattern := rfl
@[simp] theorem timebase_writeLane (d : Device) (n : LaneNo) (st : Stamp) (k : Kind) (x : Nat) : (d.writeLane n st k x).timebase = d.timebase := rfl
@[simp] theorem schedule_writeLane (d : Device) (n : LaneNo) (st : Stamp) (k : Kind) (x : Nat) : (d.writeLane n st k x).schedule = d.schedule := rfl
@[simp] theorem inputs_writeLane (d : Device) (n : LaneNo) (st : Stamp) (k : Kind) (x : Nat) : (d.writeLane n st k x).inputs = d.inputs := rfl
@[simp] theorem journal_writeLane (d : Device) (n : LaneNo) (st : Stamp) (k : Kind) (x : Nat) : (d.writeLane n st k x).journal = d.journal := rfl
@[simp] theorem events_writeLane (d : Device) (n : LaneNo) (st : Stamp) (k : Kind) (x : Nat) : (d.writeLane n st k x).events = d.events := rfl
@[simp] theorem capture_writeLane (d : Device) (n : LaneNo) (st : Stamp) (k : Kind) (x : Nat) : (d.writeLane n st k x).capture = d.capture := rfl
@[simp] theorem attention_writeLane (d : Device) (n : LaneNo) (st : Stamp) (k : Kind) (x : Nat) : (d.writeLane n st k x).attention = d.attention := rfl
@[simp] theorem port_writeLane (d : Device) (n : LaneNo) (st : Stamp) (k : Kind) (x : Nat) : (d.writeLane n st k x).port = d.port := rfl
@[simp] theorem lane_writeLane (d : Device) (n : LaneNo) (st : Stamp) (k : Kind) (x : Nat) (m : LaneNo) : (d.writeLane n st k x).lane m = d.lane m := rfl
@[simp] theorem entry_writeLane (d : Device) (n : LaneNo) (st : Stamp) (k : Kind) (x : Nat) (e : EntryNo) : (d.writeLane n st k x).entry e = d.entry e := rfl
@[simp] theorem now_writeLane (d : Device) (n : LaneNo) (st : Stamp) (k : Kind) (x : Nat) : (d.writeLane n st k x).now = d.now := rfl

/-! ### writeClose -/

@[simp] theorem lanes_writeClose (d : Device) (n : LaneNo) (st : Stamp) (k : Kind) (x : Nat) : (d.writeClose n st k x).lanes = d.lanes := rfl
@[simp] theorem pattern_writeClose (d : Device) (n : LaneNo) (st : Stamp) (k : Kind) (x : Nat) : (d.writeClose n st k x).pattern = d.pattern := rfl
@[simp] theorem timebase_writeClose (d : Device) (n : LaneNo) (st : Stamp) (k : Kind) (x : Nat) : (d.writeClose n st k x).timebase = d.timebase := rfl
@[simp] theorem schedule_writeClose (d : Device) (n : LaneNo) (st : Stamp) (k : Kind) (x : Nat) : (d.writeClose n st k x).schedule = d.schedule := rfl
@[simp] theorem inputs_writeClose (d : Device) (n : LaneNo) (st : Stamp) (k : Kind) (x : Nat) : (d.writeClose n st k x).inputs = d.inputs := rfl
@[simp] theorem journal_writeClose (d : Device) (n : LaneNo) (st : Stamp) (k : Kind) (x : Nat) : (d.writeClose n st k x).journal = d.journal := rfl
@[simp] theorem events_writeClose (d : Device) (n : LaneNo) (st : Stamp) (k : Kind) (x : Nat) : (d.writeClose n st k x).events = d.events := rfl
@[simp] theorem capture_writeClose (d : Device) (n : LaneNo) (st : Stamp) (k : Kind) (x : Nat) : (d.writeClose n st k x).capture = d.capture := rfl
@[simp] theorem attention_writeClose (d : Device) (n : LaneNo) (st : Stamp) (k : Kind) (x : Nat) : (d.writeClose n st k x).attention = d.attention := rfl
@[simp] theorem port_writeClose (d : Device) (n : LaneNo) (st : Stamp) (k : Kind) (x : Nat) : (d.writeClose n st k x).port = d.port := rfl
@[simp] theorem lane_writeClose (d : Device) (n : LaneNo) (st : Stamp) (k : Kind) (x : Nat) (m : LaneNo) : (d.writeClose n st k x).lane m = d.lane m := rfl
@[simp] theorem entry_writeClose (d : Device) (n : LaneNo) (st : Stamp) (k : Kind) (x : Nat) (e : EntryNo) : (d.writeClose n st k x).entry e = d.entry e := rfl
@[simp] theorem now_writeClose (d : Device) (n : LaneNo) (st : Stamp) (k : Kind) (x : Nat) : (d.writeClose n st k x).now = d.now := rfl

/-! ### frameEnds -/

@[simp] theorem lanes_frameEnds (d : Device) : (d.frameEnds).lanes = d.lanes := rfl
@[simp] theorem pattern_frameEnds (d : Device) : (d.frameEnds).pattern = d.pattern := rfl
@[simp] theorem timebase_frameEnds (d : Device) : (d.frameEnds).timebase = d.timebase := rfl
@[simp] theorem schedule_frameEnds (d : Device) : (d.frameEnds).schedule = d.schedule := rfl
@[simp] theorem inputs_frameEnds (d : Device) : (d.frameEnds).inputs = d.inputs := rfl
@[simp] theorem journal_frameEnds (d : Device) : (d.frameEnds).journal = d.journal := rfl
@[simp] theorem inFlight_frameEnds (d : Device) : (d.frameEnds).inFlight = d.inFlight := rfl
@[simp] theorem events_frameEnds (d : Device) : (d.frameEnds).events = d.events := rfl
@[simp] theorem capture_frameEnds (d : Device) : (d.frameEnds).capture = d.capture := rfl
@[simp] theorem attention_frameEnds (d : Device) : (d.frameEnds).attention = d.attention := rfl
@[simp] theorem lane_frameEnds (d : Device) (m : LaneNo) : (d.frameEnds).lane m = d.lane m := rfl
@[simp] theorem entry_frameEnds (d : Device) (e : EntryNo) : (d.frameEnds).entry e = d.entry e := rfl
@[simp] theorem now_frameEnds (d : Device) : (d.frameEnds).now = d.now := rfl

/-! ### replyWith -/

@[simp] theorem lanes_replyWith (d : Device) (tag code : Byte) (a : Answer) : (d.replyWith tag code a).lanes = d.lanes := rfl
@[simp] theorem pattern_replyWith (d : Device) (tag code : Byte) (a : Answer) : (d.replyWith tag code a).pattern = d.pattern := rfl
@[simp] theorem timebase_replyWith (d : Device) (tag code : Byte) (a : Answer) : (d.replyWith tag code a).timebase = d.timebase := rfl
@[simp] theorem schedule_replyWith (d : Device) (tag code : Byte) (a : Answer) : (d.replyWith tag code a).schedule = d.schedule := rfl
@[simp] theorem inputs_replyWith (d : Device) (tag code : Byte) (a : Answer) : (d.replyWith tag code a).inputs = d.inputs := rfl
@[simp] theorem journal_replyWith (d : Device) (tag code : Byte) (a : Answer) : (d.replyWith tag code a).journal = d.journal := rfl
@[simp] theorem inFlight_replyWith (d : Device) (tag code : Byte) (a : Answer) : (d.replyWith tag code a).inFlight = d.inFlight := rfl
@[simp] theorem events_replyWith (d : Device) (tag code : Byte) (a : Answer) : (d.replyWith tag code a).events = d.events := rfl
@[simp] theorem capture_replyWith (d : Device) (tag code : Byte) (a : Answer) : (d.replyWith tag code a).capture = d.capture := rfl
@[simp] theorem attention_replyWith (d : Device) (tag code : Byte) (a : Answer) : (d.replyWith tag code a).attention = d.attention := rfl
@[simp] theorem lane_replyWith (d : Device) (tag code : Byte) (a : Answer) (m : LaneNo) : (d.replyWith tag code a).lane m = d.lane m := rfl
@[simp] theorem entry_replyWith (d : Device) (tag code : Byte) (a : Answer) (e : EntryNo) : (d.replyWith tag code a).entry e = d.entry e := rfl
@[simp] theorem now_replyWith (d : Device) (tag code : Byte) (a : Answer) : (d.replyWith tag code a).now = d.now := rfl

/-! ### answered -/

@[simp] theorem lanes_answered (d : Device) (tag code : Byte) (st : Status) (r : List Byte) : (d.answered tag code st r).lanes = d.lanes := rfl
@[simp] theorem pattern_answered (d : Device) (tag code : Byte) (st : Status) (r : List Byte) : (d.answered tag code st r).pattern = d.pattern := rfl
@[simp] theorem timebase_answered (d : Device) (tag code : Byte) (st : Status) (r : List Byte) : (d.answered tag code st r).timebase = d.timebase := rfl
@[simp] theorem schedule_answered (d : Device) (tag code : Byte) (st : Status) (r : List Byte) : (d.answered tag code st r).schedule = d.schedule := rfl
@[simp] theorem inputs_answered (d : Device) (tag code : Byte) (st : Status) (r : List Byte) : (d.answered tag code st r).inputs = d.inputs := rfl
@[simp] theorem journal_answered (d : Device) (tag code : Byte) (st : Status) (r : List Byte) : (d.answered tag code st r).journal = d.journal := rfl
@[simp] theorem inFlight_answered (d : Device) (tag code : Byte) (st : Status) (r : List Byte) : (d.answered tag code st r).inFlight = d.inFlight := rfl
@[simp] theorem events_answered (d : Device) (tag code : Byte) (st : Status) (r : List Byte) : (d.answered tag code st r).events = d.events := rfl
@[simp] theorem capture_answered (d : Device) (tag code : Byte) (st : Status) (r : List Byte) : (d.answered tag code st r).capture = d.capture := rfl
@[simp] theorem attention_answered (d : Device) (tag code : Byte) (st : Status) (r : List Byte) : (d.answered tag code st r).attention = d.attention := rfl
@[simp] theorem lane_answered (d : Device) (tag code : Byte) (st : Status) (r : List Byte) (m : LaneNo) : (d.answered tag code st r).lane m = d.lane m := rfl
@[simp] theorem entry_answered (d : Device) (tag code : Byte) (st : Status) (r : List Byte) (e : EntryNo) : (d.answered tag code st r).entry e = d.entry e := rfl
@[simp] theorem now_answered (d : Device) (tag code : Byte) (st : Status) (r : List Byte) : (d.answered tag code st r).now = d.now := rfl

/-! ### portError -/

@[simp] theorem lanes_portError (d : Device) : (d.portError).lanes = d.lanes := rfl
@[simp] theorem pattern_portError (d : Device) : (d.portError).pattern = d.pattern := rfl
@[simp] theorem timebase_portError (d : Device) : (d.portError).timebase = d.timebase := rfl
@[simp] theorem schedule_portError (d : Device) : (d.portError).schedule = d.schedule := rfl
@[simp] theorem inputs_portError (d : Device) : (d.portError).inputs = d.inputs := rfl
@[simp] theorem journal_portError (d : Device) : (d.portError).journal = d.journal := rfl
@[simp] theorem inFlight_portError (d : Device) : (d.portError).inFlight = d.inFlight := rfl
@[simp] theorem events_portError (d : Device) : (d.portError).events = d.events := rfl
@[simp] theorem capture_portError (d : Device) : (d.portError).capture = d.capture := rfl
@[simp] theorem port_portError (d : Device) : (d.portError).port = d.port := rfl
@[simp] theorem lane_portError (d : Device) (m : LaneNo) : (d.portError).lane m = d.lane m := rfl
@[simp] theorem entry_portError (d : Device) (e : EntryNo) : (d.portError).entry e = d.entry e := rfl
@[simp] theorem now_portError (d : Device) : (d.portError).now = d.now := rfl

/-! ### setEntry -/

@[simp] theorem lanes_setEntry (d : Device) (e : EntryNo) (x : Entry) : (d.setEntry e x).lanes = d.lanes := rfl
@[simp] theorem pattern_setEntry (d : Device) (e : EntryNo) (x : Entry) : (d.setEntry e x).pattern = d.pattern := rfl
@[simp] theorem timebase_setEntry (d : Device) (e : EntryNo) (x : Entry) : (d.setEntry e x).timebase = d.timebase := rfl
@[simp] theorem inputs_setEntry (d : Device) (e : EntryNo) (x : Entry) : (d.setEntry e x).inputs = d.inputs := rfl
@[simp] theorem journal_setEntry (d : Device) (e : EntryNo) (x : Entry) : (d.setEntry e x).journal = d.journal := rfl
@[simp] theorem inFlight_setEntry (d : Device) (e : EntryNo) (x : Entry) : (d.setEntry e x).inFlight = d.inFlight := rfl
@[simp] theorem events_setEntry (d : Device) (e : EntryNo) (x : Entry) : (d.setEntry e x).events = d.events := rfl
@[simp] theorem capture_setEntry (d : Device) (e : EntryNo) (x : Entry) : (d.setEntry e x).capture = d.capture := rfl
@[simp] theorem attention_setEntry (d : Device) (e : EntryNo) (x : Entry) : (d.setEntry e x).attention = d.attention := rfl
@[simp] theorem port_setEntry (d : Device) (e : EntryNo) (x : Entry) : (d.setEntry e x).port = d.port := rfl
@[simp] theorem lane_setEntry (d : Device) (e : EntryNo) (x : Entry) (m : LaneNo) : (d.setEntry e x).lane m = d.lane m := rfl
@[simp] theorem now_setEntry (d : Device) (e : EntryNo) (x : Entry) : (d.setEntry e x).now = d.now := rfl

/-! ### present -/

@[simp] theorem lanes_present (before d : Device) : (Device.present before d).lanes = d.lanes := rfl
@[simp] theorem pattern_present (before d : Device) : (Device.present before d).pattern = d.pattern := rfl
@[simp] theorem timebase_present (before d : Device) : (Device.present before d).timebase = d.timebase := rfl
@[simp] theorem schedule_present (before d : Device) : (Device.present before d).schedule = d.schedule := rfl
@[simp] theorem inputs_present (before d : Device) : (Device.present before d).inputs = d.inputs := rfl
@[simp] theorem journal_present (before d : Device) : (Device.present before d).journal = d.journal := rfl
@[simp] theorem inFlight_present (before d : Device) : (Device.present before d).inFlight = d.inFlight := rfl
@[simp] theorem events_present (before d : Device) : (Device.present before d).events = d.events := rfl
@[simp] theorem capture_present (before d : Device) : (Device.present before d).capture = d.capture := rfl
@[simp] theorem port_present (before d : Device) : (Device.present before d).port = d.port := rfl
@[simp] theorem lane_present (before d : Device) (m : LaneNo) : (Device.present before d).lane m = d.lane m := rfl
@[simp] theorem entry_present (before d : Device) (e : EntryNo) : (Device.present before d).entry e = d.entry e := rfl
@[simp] theorem now_present (before d : Device) : (Device.present before d).now = d.now := rfl

/-! ### setJournal and recordArrives -/

@[simp] theorem lanes_setJournal (d : Device) (j : Journal) : (d.setJournal j).lanes = d.lanes := rfl
@[simp] theorem pattern_setJournal (d : Device) (j : Journal) : (d.setJournal j).pattern = d.pattern := rfl
@[simp] theorem timebase_setJournal (d : Device) (j : Journal) : (d.setJournal j).timebase = d.timebase := rfl
@[simp] theorem schedule_setJournal (d : Device) (j : Journal) : (d.setJournal j).schedule = d.schedule := rfl
@[simp] theorem inputs_setJournal (d : Device) (j : Journal) : (d.setJournal j).inputs = d.inputs := rfl
@[simp] theorem inFlight_setJournal (d : Device) (j : Journal) : (d.setJournal j).inFlight = d.inFlight := rfl
@[simp] theorem events_setJournal (d : Device) (j : Journal) : (d.setJournal j).events = d.events := rfl
@[simp] theorem capture_setJournal (d : Device) (j : Journal) : (d.setJournal j).capture = d.capture := rfl
@[simp] theorem port_setJournal (d : Device) (j : Journal) : (d.setJournal j).port = d.port := rfl
@[simp] theorem journal_setJournal (d : Device) (j : Journal) : (d.setJournal j).journal = j := rfl
@[simp] theorem lane_setJournal (d : Device) (j : Journal) (m : LaneNo) : (d.setJournal j).lane m = d.lane m := rfl
@[simp] theorem entry_setJournal (d : Device) (j : Journal) (e : EntryNo) : (d.setJournal j).entry e = d.entry e := rfl
@[simp] theorem now_setJournal (d : Device) (j : Journal) : (d.setJournal j).now = d.now := rfl
@[simp] theorem conditions_setJournal (d : Device) (j : Journal) : (d.setJournal j).attention.conditions = d.attention.conditions := rfl
@[simp] theorem lanes_recordArrives (d : Device) (r : Record) : (d.recordArrives r).lanes = d.lanes := by
  unfold Device.recordArrives; split <;> rfl
@[simp] theorem pattern_recordArrives (d : Device) (r : Record) : (d.recordArrives r).pattern = d.pattern := by
  unfold Device.recordArrives; split <;> rfl
@[simp] theorem timebase_recordArrives (d : Device) (r : Record) : (d.recordArrives r).timebase = d.timebase := by
  unfold Device.recordArrives; split <;> rfl
@[simp] theorem schedule_recordArrives (d : Device) (r : Record) : (d.recordArrives r).schedule = d.schedule := by
  unfold Device.recordArrives; split <;> rfl
@[simp] theorem inputs_recordArrives (d : Device) (r : Record) : (d.recordArrives r).inputs = d.inputs := by
  unfold Device.recordArrives; split <;> rfl
@[simp] theorem inFlight_recordArrives (d : Device) (r : Record) : (d.recordArrives r).inFlight = d.inFlight := by
  unfold Device.recordArrives; split <;> rfl
@[simp] theorem events_recordArrives (d : Device) (r : Record) : (d.recordArrives r).events = d.events := by
  unfold Device.recordArrives; split <;> rfl
@[simp] theorem capture_recordArrives (d : Device) (r : Record) : (d.recordArrives r).capture = d.capture := by
  unfold Device.recordArrives; split <;> rfl
@[simp] theorem port_recordArrives (d : Device) (r : Record) : (d.recordArrives r).port = d.port := by
  unfold Device.recordArrives; split <;> rfl
@[simp] theorem lane_recordArrives (d : Device) (r : Record) (m : LaneNo) : (d.recordArrives r).lane m = d.lane m := by
  unfold Device.recordArrives; split <;> rfl
@[simp] theorem entry_recordArrives (d : Device) (r : Record) (e : EntryNo) : (d.recordArrives r).entry e = d.entry e := by
  unfold Device.recordArrives; split <;> rfl
@[simp] theorem now_recordArrives (d : Device) (r : Record) : (d.recordArrives r).now = d.now := by
  unfold Device.recordArrives; split <;> rfl
@[simp] theorem conditions_recordArrives (d : Device) (r : Record) : (d.recordArrives r).attention.conditions = d.attention.conditions := by
  unfold Device.recordArrives; split <;> rfl

/-! ### settle -/


@[simp] theorem lanes_settle (before d : Device) : (Device.settle before d).lanes = d.lanes := by
  unfold Device.settle; split <;> rfl
@[simp] theorem pattern_settle (before d : Device) : (Device.settle before d).pattern = d.pattern := by
  unfold Device.settle; split <;> rfl
@[simp] theorem timebase_settle (before d : Device) : (Device.settle before d).timebase = d.timebase := by
  unfold Device.settle; split <;> rfl
@[simp] theorem schedule_settle (before d : Device) : (Device.settle before d).schedule = d.schedule := by
  unfold Device.settle; split <;> rfl
@[simp] theorem inputs_settle (before d : Device) : (Device.settle before d).inputs = d.inputs := by
  unfold Device.settle; split <;> rfl
@[simp] theorem journal_settle (before d : Device) : (Device.settle before d).journal = d.journal := by
  unfold Device.settle; split <;> rfl
@[simp] theorem inFlight_settle (before d : Device) : (Device.settle before d).inFlight = d.inFlight := by
  unfold Device.settle; split <;> rfl
@[simp] theorem capture_settle (before d : Device) : (Device.settle before d).capture = d.capture := by
  unfold Device.settle; split <;> rfl
@[simp] theorem port_settle (before d : Device) : (Device.settle before d).port = d.port := by
  unfold Device.settle; split <;> rfl
@[simp] theorem lane_settle (before d : Device) (m : LaneNo) : (Device.settle before d).lane m = d.lane m := by
  unfold Device.lane; simp
@[simp] theorem entry_settle (before d : Device) (e : EntryNo) : (Device.settle before d).entry e = d.entry e := by
  unfold Device.entry; simp

/-! ### claim -/

@[simp] theorem lanes_claim (before d : Device) : (Device.claim before d).lanes = d.lanes := rfl
@[simp] theorem pattern_claim (before d : Device) : (Device.claim before d).pattern = d.pattern := rfl
@[simp] theorem timebase_claim (before d : Device) : (Device.claim before d).timebase = d.timebase := rfl
@[simp] theorem schedule_claim (before d : Device) : (Device.claim before d).schedule = d.schedule := rfl
@[simp] theorem inputs_claim (before d : Device) : (Device.claim before d).inputs = d.inputs := rfl
@[simp] theorem journal_claim (before d : Device) : (Device.claim before d).journal = d.journal := rfl
@[simp] theorem events_claim (before d : Device) : (Device.claim before d).events = d.events := rfl
@[simp] theorem capture_claim (before d : Device) : (Device.claim before d).capture = d.capture := rfl
@[simp] theorem attention_claim (before d : Device) : (Device.claim before d).attention = d.attention := rfl
@[simp] theorem port_claim (before d : Device) : (Device.claim before d).port = d.port := rfl
@[simp] theorem lane_claim (before d : Device) (m : LaneNo) : (Device.claim before d).lane m = d.lane m := rfl
@[simp] theorem entry_claim (before d : Device) (e : EntryNo) : (Device.claim before d).entry e = d.entry e := rfl
@[simp] theorem now_claim (before d : Device) : (Device.claim before d).now = d.now := rfl
@[simp] theorem level_claim (before d : Device) (c : CondNo) : (Device.claim before d).level c = d.level c := rfl

/-! ### What an update sets -/

theorem lane_modLane_same (d : Device) (n : LaneNo) (f : Lane → Lane) : (d.modLane n f).lane n = f (d.lane n) := by
  simp [Device.modLane, Device.lane]

theorem lane_modLane_ne (d : Device) {n m : LaneNo} (f : Lane → Lane) (h : m ≠ n) : (d.modLane n f).lane m = d.lane m := by
  have : n.val ≠ m.val := fun e => h (Fin.ext e.symm)
  simp [Device.modLane, Device.lane, Vector.getElem_set_ne, this]

theorem lane_modLane (d : Device) (n m : LaneNo) (f : Lane → Lane) :
    (d.modLane n f).lane m = if m = n then f (d.lane n) else d.lane m := by
  split
  · next h => subst h; exact lane_modLane_same d m f
  · next h => exact lane_modLane_ne d f h

@[simp] theorem inFlight_write (d : Device) (r : Record) :
    (d.write r).inFlight = d.inFlight ++ [⟨d.events, r, false, false⟩] := rfl

@[simp] theorem inFlight_writePlain (d : Device) (src : Source) (st : Stamp) (k : Kind) (x : Nat) :
    (d.writePlain src st k x).inFlight = d.inFlight ++ [⟨d.events, ⟨st, src, k, x, none⟩, false, false⟩] := rfl

@[simp] theorem inFlight_writeLane (d : Device) (n : LaneNo) (st : Stamp) (k : Kind) (x : Nat) :
    (d.writeLane n st k x).inFlight = d.inFlight ++ [⟨d.events,
      ⟨st, .lane n, k, x, if (d.lane n).page.snapshot then some (d.lane n).snapshot else none⟩, false, false⟩] := rfl

@[simp] theorem inFlight_writeClose (d : Device) (n : LaneNo) (st : Stamp) (k : Kind) (x : Nat) :
    (d.writeClose n st k x).inFlight = d.inFlight ++ [⟨d.events,
      ⟨st, .lane n, k, x, if (d.lane n).page.snapshot then some (d.lane n).snapshot else none⟩, false, true⟩] := rfl

/-- The records an event writes are the request's; those on their way before it stay as they were. -/
theorem inFlight_claim_append (before d : Device) (added : List Sent) (h : d.inFlight = before.inFlight ++ added) :
    (Device.claim before d).inFlight = before.inFlight ++ added.map fun x => { x with byRequest := true } := by
  simp [Device.claim, h]

/-- A request that writes no record claims none. -/
theorem claim_noWrite (before d : Device) (h : d.inFlight = before.inFlight) : Device.claim before d = d := by
  rcases d with ⟨_, _, _, _, _, _, _, _, _, _, _⟩
  simp only at h
  simp [Device.claim, h]

theorem records_claim (before d : Device) : (Device.claim before d).inFlight.map (·.record) = d.inFlight.map (·.record) := by
  simp only [Device.claim, List.map_append, List.map_map, Function.comp_def]
  rw [← List.map_append, List.take_append_drop]

theorem entry_setEntry_same (d : Device) (e : EntryNo) (x : Entry) : (d.setEntry e x).entry e = x := by
  simp [Device.setEntry, Device.entry]

theorem entry_setEntry_ne (d : Device) {e f : EntryNo} (x : Entry) (h : f ≠ e) : (d.setEntry e x).entry f = d.entry f := by
  have : e.val ≠ f.val := fun he => h (Fin.ext he.symm)
  simp [Device.setEntry, Device.entry, Vector.getElem_set_ne, this]

/-! ### Levels and the changes of an event -/

theorem changesBetween_self (d : Device) : changesBetween d d = [] := by
  simp [changesBetween]

theorem present_self (d : Device) : Device.present d d = d := by
  simp [Device.present, changesBetween_self]

/-- An event that changes nothing leaves the device as it was. -/
theorem settle_self (d : Device) : Device.settle d d = d := by
  simp [Device.settle, present_self]

@[simp] theorem conditions_settle (before d : Device) :
    (Device.settle before d).attention.conditions = d.attention.conditions := by
  unfold Device.settle; split <;> rfl

@[simp] theorem changes_settle (before d : Device) :
    (Device.settle before d).attention.changes = d.attention.changes ++ changesBetween before d := by
  unfold Device.settle; split <;> rfl

theorem events_settle (before d : Device) :
    (Device.settle before d).events = if d.inFlight.length = before.inFlight.length then d.events else d.events + 1 := by
  unfold Device.settle; split <;> rfl

/-! ### Requests and commands -/

/-- A command completes with the device its meaning gives and with the queue as it was. -/
@[simp] theorem onDevice_eq (s : State) (f : Device → Device) : s.onDevice f = .next { s with dev := f s.dev } := rfl

theorem request_busy (d : Device) (code tag : Byte) (owner : Device → Device × Answer) (h : d.port.reply.isSome = true) :
    d.request code tag owner = d.discardFrame := by simp [Device.request, h]

theorem request_quiet (d : Device) (code tag : Byte) (owner : Device → Device × Answer) (h : d.quiet) :
    d.request code tag owner = (owner d.frameEnds).1.replyWith tag code (owner d.frameEnds).2 := by
  have h : d.port.reply = none := h
  simp [Device.request, h]

/-- A request whose owner changes nothing only answers. -/
theorem request_answered (d : Device) (code tag : Byte) (owner : Device → Device × Answer) (st : Status) (r : List Byte)
    (h : d.quiet) (ho : owner d.frameEnds = (d.frameEnds, ⟨st, r⟩)) :
    d.request code tag owner = d.answered tag code st r := by
  rw [request_quiet d code tag owner h, ho]; rfl

end Sys2Proof.Machine
end

