-- ==== Sys2Proof/Laws/Ops.lean ====
section
/-! SUPPORT. What the shared operations can do, once each: a request from the machine's side, an arrival at the journal, the end
of an event with the levels it moves, the table's work, and the two commands that carry out a reset request. -/

namespace Sys2Proof.Machine

open Sys2Proof

/-- A request that finds no reply in progress: its owner takes it, and the reply begins. -/
theorem onDevice_request_quiet {code tag : Byte} {own : Device → Device × Answer} (s : State) (h : s.dev.quiet) :
    s.onDevice (fun d => d.request code tag own) =
      .next (s.withDev ((own s.dev.frameEnds).1.replyWith tag code (own s.dev.frameEnds).2)) := by
  have h' : s.dev.port.reply.isSome = false := by rw [show s.dev.port.reply = none from h]; rfl
  simp [State.onDevice, Device.request, h', State.withDev]

/-- A request that finds a reply in progress is one port error. -/
theorem onDevice_request_busy {code tag : Byte} {own : Device → Device × Answer} (s : State)
    (h : s.dev.port.reply.isSome = true) :
    s.onDevice (fun d => d.request code tag own) = .next (s.withDev s.dev.withPortError) := by
  simp only [State.onDevice, Device.request, h, if_true]; rfl

/-- A refusal whose owner leaves the device as it was. -/
theorem onDevice_request_refused {code tag : Byte} {own : Device → Device × Answer} (s : State) (h : s.dev.quiet)
    (st : Status) (ho : own s.dev.frameEnds = (s.dev.frameEnds, .refuse st)) :
    s.onDevice (fun d => d.request code tag own) = .next (s.withDev (s.dev.answered tag code st [])) := by
  rw [onDevice_request_quiet s h, ho]; rfl

/-- An event that refuses is no event. -/
theorem asEvent_refused (own : Device → Device × Answer) (st : Status) (d : Device) (h : own d = (d, .refuse st)) :
    asEvent own d = (d, .refuse st) := by
  simp [asEvent, h, settle_self]

/-- A request that refuses claims nothing. -/
theorem asRequest_refused (own : Device → Device × Answer) (st : Status) (d : Device) (h : own d = (d, .refuse st)) :
    asRequest own d = (d, .refuse st) := by
  simp [asRequest, asEvent_refused own st d h, claim_noWrite d d rfl]

/-- Everything a request's event is, with its records claimed. -/
theorem asRequest_eq (own : Device → Device × Answer) (d : Device) :
    asRequest own d = (Device.claim d (Device.settle d (own d).1), (own d).2) := rfl

/-- An event that moves no level presents none. -/
theorem present_levels {a b : Device} (h : ∀ c, a.level c = b.level c) : Device.present a b = b := by
  have e : changesBetween a b = [] := by simp [changesBetween, h]
  simp [Device.present, e]

/-- An event that writes nothing and moves no level. -/
theorem settle_noWrite {a b : Device} (h : ∀ c, a.level c = b.level c) (hl : b.inFlight.length = a.inFlight.length) :
    Device.settle a b = b := by
  simp [Device.settle, hl, present_levels h]

/-- An event that writes and moves no level. -/
theorem settle_write {a b : Device} (h : ∀ c, a.level c = b.level c) (hl : b.inFlight.length ≠ a.inFlight.length) :
    Device.settle a b = { b with events := b.events + 1 } := by
  simp only [Device.settle, hl, if_false]
  exact present_levels fun c => by rw [h]; rfl

/-- Everything an arrival can do to the journal (04 R77, R78, R79). -/
theorem Journal.arrive_takes (j : Journal) (r : Record) : j.Takes r (j.arrive r) := by
  rcases j with ⟨recs, nx, pol, th, ho, dc⟩
  constructor
  · intro h1 h2; simp only at h1 h2; subst h1
    simp [Journal.arrive, Journal.appendWrap, Journal.append, Config.journalCapacity, h2]
  · intro h1 h2; simp only at h1 h2; subst h1
    simp [Journal.arrive, Journal.appendWrap, Journal.giveUp, Journal.append, Config.journalCapacity, Nat.not_lt.2 h2]
  · intro h1 h2 h3; simp only at h1 h2 h3; subst h1 h2
    simp [Journal.arrive, Journal.stores, Journal.append, Config.journalCapacity, h3]
  · intro h1 h2 h3; simp only at h1 h2 h3; subst h1 h2
    simp [Journal.arrive, Journal.stores, Config.journalCapacity, Nat.not_lt.2 h3, Config.countMax]
  · intro h1 h2 h3; simp only at h1 h2 h3; subst h1 h2
    simp [Journal.arrive, Journal.stores, Journal.append, Config.journalCapacity, h3, Record.resumed]
  · intro h1 h2 h3; simp only at h1 h2 h3; subst h1 h2
    simp [Journal.arrive, Journal.stores, Config.journalCapacity, Nat.not_le.2 h3, Config.countMax]

/-- The journal after an arrival, whatever levels it presents on its way. -/
@[simp] theorem journal_recordArrives (d : Device) (r : Record) : (d.recordArrives r).journal = d.journal.arrive r := by
  unfold Device.recordArrives
  split
  · next h =>
    simp only [Journal.makesRoom, Bool.and_eq_true, decide_eq_true_eq] at h
    simp [Journal.arrive, h.1, Journal.appendWrap, Nat.not_lt.2 h.2]
  · rfl

theorem recordArrives_takes (d : Device) (r : Record) : d.journal.Takes r (d.recordArrives r).journal := by
  rw [journal_recordArrives]; exact Journal.arrive_takes _ _

/-! ### Records on their way -/

/-- The two ways to say which earlier record holds one back. -/
theorem waitsFor_iff (x y : Sent) : x.waitsFor y = true ↔ x.Behind y := by
  have kinds : ∀ k : Kind, k.ofCount = true ↔ k ∈ ([.burst, .slotSaturated] : List Kind) := by
    intro k; cases k <;> decide
  unfold Sent.waitsFor Sent.Behind
  rw [Bool.or_eq_true, decide_eq_true_eq, eq_comm]
  refine or_congr Iff.rfl ?_
  split
  · next n h =>
    rw [Bool.and_eq_true, decide_eq_true_eq, Bool.or_eq_true, Bool.and_eq_true, Bool.and_eq_true, h]
    simp only [kinds]
    exact and_congr ⟨fun e => ⟨n, rfl, e⟩, fun ⟨m, hm, e⟩ => e.trans hm.symm⟩ Iff.rfl
  · next h =>
    exact ⟨fun e => absurd e (by simp), fun ⟨⟨n, hn, _⟩, _⟩ => absurd hn (h n)⟩

/-- What arrives first and what does not are the records on their way, each list in their order. -/
theorem splitSent_perm (first : Sent → Bool) (sent : List Sent) :
    List.Perm ((splitSent first sent).1 ++ (splitSent first sent).2) sent := by
  induction sent with
  | nil => exact List.Perm.refl _
  | cons x rest ih =>
    unfold splitSent
    dsimp only
    split
    · exact ih.cons x
    · exact List.perm_middle.trans (ih.cons x)

theorem splitSent_sublist (first : Sent → Bool) (sent : List Sent) :
    (splitSent first sent).1.Sublist sent ∧ (splitSent first sent).2.Sublist sent := by
  induction sent with
  | nil => exact ⟨List.Sublist.refl _, List.Sublist.refl _⟩
  | cons x rest ih =>
    unfold splitSent
    dsimp only
    split
    · exact ⟨ih.1.cons_cons x, ih.2.cons x⟩
    · exact ⟨ih.1.cons x, ih.2.cons_cons x⟩

/-- Records that arrive touch the journal and the level changes alone. -/
theorem arrivals_frame (sent : List Sent) (d : Device) :
    sent.foldl (fun d x => d.recordArrives x.record) d = { d with
      journal := (sent.foldl (fun d x => d.recordArrives x.record) d).journal
      attention := ⟨d.attention.conditions, (sent.foldl (fun d x => d.recordArrives x.record) d).attention.changes⟩ } := by
  induction sent generalizing d with
  | nil => rfl
  | cons x rest ih =>
    have one : d.recordArrives x.record = { d with
        journal := (d.recordArrives x.record).journal
        attention := ⟨d.attention.conditions, (d.recordArrives x.record).attention.changes⟩ } := by
      unfold Device.recordArrives; split <;> rfl
    rw [List.foldl_cons, ih, one]

/-- What arrives first leaves the rest of the device alone. -/
theorem arriveFirst_frame (d : Device) (first : Sent → Bool) : d.arriveFirst first = { d with
    journal := (d.arriveFirst first).journal
    inFlight := (splitSent first d.inFlight).2
    attention := ⟨d.attention.conditions, (d.arriveFirst first).attention.changes⟩ } := by
  unfold Device.arriveFirst; exact arrivals_frame _ _

/-- Where nothing that must arrive is on its way, nothing does. -/
theorem splitSent_nothing (first : Sent → Bool) (sent : List Sent) (h : ∀ x ∈ sent, first x = false) :
    splitSent first sent = ([], sent) := by
  induction sent with
  | nil => rfl
  | cons x rest ih =>
    unfold splitSent
    simp [ih fun y hy => h y (List.mem_cons_of_mem x hy), h x List.mem_cons_self]

@[simp] theorem entry_arriveFirst (d : Device) (first : Sent → Bool) (e : EntryNo) : (d.arriveFirst first).entry e = d.entry e := by
  rw [arriveFirst_frame]; rfl

@[simp] theorem entry_markAction (d : Device) (e f : EntryNo) (tag : Byte) (st : Stamp) :
    (d.markAction e tag st).entry f = d.entry f := by
  simp [Device.markAction]

/-- A MARK action touches the journal, the records on their way and the level changes alone. -/
theorem markAction_frame (d : Device) (e : EntryNo) (tag : Byte) (st : Stamp) : d.markAction e tag st = { d with
    journal := (d.markAction e tag st).journal
    inFlight := (splitSent (fun x => decide (x.event = d.events)) d.inFlight).2
    attention := ⟨d.attention.conditions, (d.markAction e tag st).attention.changes⟩ } := by
  let split := splitSent (fun x => decide (x.event = d.events)) d.inFlight
  have arrivals : d.markAction e tag st =
      (split.1 ++ ([⟨d.events, ⟨st, .schedule e, .mark, tag.toNat, none⟩, false, false⟩] : List Sent)).foldl
        (fun d x => d.recordArrives x.record) { d with inFlight := split.2 } := by
    rw [List.foldl_append]; rfl
  rw [arrivals]
  exact arrivals_frame _ _

/-! ### The levels an event moves -/

/-- The level the attention unit goes by is the one seen. -/
theorem levelTaken_eq_levelSeen (d : Device) (c : CondNo) : d.levelTaken c = d.levelSeen c := by
  have h : ∀ l : List LevelChange, (takeChange c l).map (·.1) = (movesOf l c).head? := by
    intro l
    induction l with
    | nil => rfl
    | cons x l ih =>
      unfold takeChange movesOf
      by_cases hx : x.cond = c
      · simp [hx]
      · simp only [hx, if_false, List.filter_cons, decide_false, Bool.false_eq_true]
        rw [show (List.map (·.level) (l.filter fun x => decide (x.cond = c))).head? = (movesOf l c).head? from rfl, ← ih]
        cases takeChange c l <;> rfl
  have h := h d.attention.changes
  unfold Device.levelTaken Device.levelSeen
  cases hm : movesOf d.attention.changes c <;> cases ht : takeChange c d.attention.changes <;> simp_all

/-- The two ends of an event give each condition one move or none. -/
theorem movesOf_changesBetween (a b : Device) (c : CondNo) :
    movesOf (changesBetween a b) c = if a.level c = b.level c then [] else [b.level c] := by
  have filtered : ∀ l : List CondNo, l.Nodup → (((l.filter fun x => a.level x != b.level x).map fun x =>
      (⟨x, b.level x⟩ : LevelChange)).filter fun x => decide (x.cond = c)).map (·.level) =
      if c ∈ l ∧ a.level c ≠ b.level c then [b.level c] else [] := by
    intro l hl
    induction l with
    | nil => simp
    | cons x l ih =>
      have hx := (List.nodup_cons.1 hl).1
      have ih := ih (List.nodup_cons.1 hl).2
      by_cases hm : a.level x = b.level x
      · simp only [List.filter_cons, hm, bne_self_eq_false, Bool.false_eq_true, if_false, ih]
        by_cases hc : c = x
        · subst hc; simp [hx, hm]
        · simp [hc]
      · simp only [List.filter_cons, bne_iff_ne, ne_eq, hm, not_false_eq_true, if_true, List.map_cons]
        by_cases hc : x = c
        · subst hc; simp [ih, hx, hm]
        · simp [ih, hc, Ne.symm hc]
  have h := filtered allConditions (by decide)
  have hc : c ∈ allConditions := (by decide : ∀ c : CondNo, c ∈ allConditions) c
  simp only [movesOf, changesBetween, h, hc, true_and]
  split <;> simp_all

@[simp] theorem movesOf_append (x y : List LevelChange) (c : CondNo) : movesOf (x ++ y) c = movesOf x c ++ movesOf y c := by
  simp [movesOf]

/-- Moves one after another. -/
theorem movesFromTo_append {x y z : Bool} {a b : List Bool} (h : movesFromTo x a y) (k : movesFromTo y b z) :
    movesFromTo x (a ++ b) z := by
  induction a generalizing x with
  | nil => cases h; exact k
  | cons w a ih => exact ⟨h.1, ih h.2⟩

/-- What `present` adds is the move of each level between its two ends. -/
theorem movesFromTo_changesBetween (a b : Device) (c : CondNo) :
    movesFromTo (a.level c) (movesOf (changesBetween a b) c) (b.level c) := by
  rw [movesOf_changesBetween]
  split
  · assumption
  · next h => exact ⟨Ne.symm h, rfl⟩

/-! ### The table's work -/

theorem tableOps_nil (st : Stamp) (k : Nat) (d : Device) : Device.tableOps st k d [] = (d, []) := by cases k <;> rfl

/-- A step of the table's work leaves every entry the actions it had. -/
theorem fireOps_tableOp (d : Device) (st : Stamp) (op : TableOp) (rest : List TableOp) (e f : EntryNo) :
    ((d.tableOp st op rest).1.entry e).fireOps f = (d.entry e).fireOps f := by
  have set (d : Device) (g : EntryNo) (x : Entry) (h : x.fireOps f = (d.entry g).fireOps f) :
      ((d.setEntry g x).entry e).fireOps f = (d.entry e).fireOps f := by
    unfold Device.setEntry Device.entry
    by_cases he : g.val = e.val
    · obtain rfl : g = e := Fin.ext he
      simp only [Vector.getElem_set_self]; exact h
    · simp [Vector.getElem_set_ne, he]
  have refusal (d : Device) (g : EntryNo) (p t : Nat) (s : Status) : (d.noteRefusal g p t st s).entry e = d.entry e := by
    unfold Device.noteRefusal; split <;> rfl
  have fire (d : Device) (g : EntryNo) : (d.noteFire g st).entry e = d.entry e := by
    unfold Device.noteFire; split
    · rfl
    · split <;> rfl
  cases op with
  | turn g =>
    simp only [Device.tableOp]
    split
    · rw [fire]; apply set
      cases h : d.entry g with
      | empty => rfl
      | held s df r => simp only [Entry.settled]; split <;> rfl
    · rfl
  | onLane g p a n =>
    simp only [Device.tableOp, entry_present, refusal]
    have h := (Device.LaneStep.laneAction n d a .schedule st).schedule
    simp [Device.entry, h]
  | mark g tag => simp only [Device.tableOp, entry_markAction]
  | arm g p t =>
    simp only [Device.tableOp, refusal]; apply set
    cases d.entry t <;> rfl
  | disarm g p t =>
    simp only [Device.tableOp, refusal]; apply set
    cases d.entry t <;> rfl

theorem stepsLeft_cons (d : Device) (op : TableOp) (rest : List TableOp) :
    d.stepsLeft (op :: rest) = d.stepsLeft [op] + d.stepsLeft rest := by
  simp [Device.stepsLeft]

theorem stepsLeft_append (d : Device) (a b : List TableOp) : d.stepsLeft (a ++ b) = d.stepsLeft a + d.stepsLeft b := by
  simp [Device.stepsLeft]

theorem stepsLeft_congr {d d' : Device} (h : ∀ e, ((d'.entry e).fireOps e) = (d.entry e).fireOps e) (ops : List TableOp) :
    d'.stepsLeft ops = d.stepsLeft ops := by
  simp [Device.stepsLeft, h]

theorem stepsLeft_filter (d : Device) (p : TableOp → Bool) (ops : List TableOp) :
    d.stepsLeft (ops.filter p) ≤ d.stepsLeft ops := by
  induction ops with
  | nil => simp
  | cons op rest ih =>
    have h := stepsLeft_cons d op rest
    simp only [List.filter_cons]
    split
    · have k := stepsLeft_cons d op (rest.filter p); omega
    · omega

/-- An action's steps are no turns, so each is one step. -/
theorem stepsLeft_actionOps (d : Device) (e : EntryNo) (place : Nat) (as : List Action) :
    d.stepsLeft (actionOps e place as) = (actionOps e place as).length := by
  induction as generalizing place with
  | nil => rfl
  | cons a as ih =>
    have one : d.stepsLeft (a.ops e place) = (a.ops e place).length := by
      cases a <;> simp [Action.ops, Device.stepsLeft, Function.comp_def]
    simp only [actionOps, stepsLeft_append, ih, one, List.length_append]

/-- One step uses up one at least. -/
theorem stepsLeft_tableOp (d : Device) (st : Stamp) (op : TableOp) (rest : List TableOp) :
    (d.tableOp st op rest).1.stepsLeft (d.tableOp st op rest).2 + 1 ≤ d.stepsLeft (op :: rest) := by
  rw [stepsLeft_congr fun e => fireOps_tableOp d st op rest e e, stepsLeft_cons]
  cases op with
  | turn e =>
    have one : d.stepsLeft [.turn e] = 1 + ((d.entry e).fireOps e).length := by simp [Device.stepsLeft]
    have fired : d.stepsLeft ((d.entry e).fireOps e) = ((d.entry e).fireOps e).length := by
      cases d.entry e with
      | empty => rfl
      | held s df r => exact stepsLeft_actionOps d e 0 df.actions
    simp only [Device.tableOp]
    split
    · simp only [stepsLeft_append]; omega
    · simp only; omega
  | onLane e p a n => simp [Device.tableOp, Device.stepsLeft]
  | mark e tag => simp [Device.tableOp, Device.stepsLeft]
  | arm e p t => simp [Device.tableOp, Device.stepsLeft]
  | disarm e p t =>
    have h := stepsLeft_filter d (fun o => decide (o ≠ .turn t)) rest
    have one : d.stepsLeft [.disarm e p t] = 1 := rfl
    simp only [Device.tableOp, one]; omega

/-- The steps counted are enough for the whole work. -/
theorem tableOps_completes (st : Stamp) (k : Nat) (d : Device) (ops : List TableOp) (h : d.stepsLeft ops ≤ k) :
    (Device.tableOps st k d ops).2 = [] := by
  induction k generalizing d ops with
  | zero =>
    cases ops with
    | nil => rfl
    | cons op rest => have := stepsLeft_tableOp d st op rest; omega
  | succ k ih =>
    cases ops with
    | nil => rfl
    | cons op rest => exact ih _ _ (by have := stepsLeft_tableOp d st op rest; omega)

/-- Without a share the table does all its work (06 R122). -/
theorem work_runTable_none (d : Device) : (d.runTable none).schedule.work = none := by
  unfold Device.runTable
  split
  · assumption
  · next w hw =>
    have h := tableOps_completes w.stamp (d.stepsLeft w.ops) { d with events := w.event } w.ops
      (le_of_eq (stepsLeft_congr (fun _ => rfl) w.ops))
    simp [h]

/-- The end of the RESET reply carries out the reset request, by either command. -/
theorem exec_resetTakesEffect_of_resetting {s : State} (h : resetting s .resetTakesEffect) :
    exec .resetTakesEffect s = .next (s.withDev s.dev.resetRequest) := by
  obtain ⟨tag, h⟩ := h
  simp [exec, execResetTakesEffect, State.onDevice, State.withDev, h, Reply.isReset]

theorem exec_replySent_of_resetting {s : State} (h : resetting s .resetTakesEffect) :
    exec .replySent s = .next (s.withDev s.dev.resetRequest) := by
  obtain ⟨tag, h⟩ := h
  simp [exec, execReplySent, Device.replyEnds, State.onDevice, State.withDev, h, Reply.isReset]

end Sys2Proof.Machine
end

