-- ==== Sys2Proof/Laws/PerInstr.lean ====
section
/-! SUPPORT. The family RequestForm, one lemma for each constructor: a well-formed request fits a request frame (10 FRAMES):
its LEN is 2 to 250, its frame is 5 characters longer than its parameters, and begins with SOF, LEN, TAG and CODE. -/

namespace Sys2Proof.Laws.RequestForm

/-- What a request frame is, for a command that stands for one; an event stands for none. -/
def Statement (i : Instr) : Prop :=
  ∀ code tag params, i.request? = some (code, tag, params) → i.wf = true →
    params.length + 2 ≤ 250 ∧ (requestFrame code tag params).length = params.length + 5 ∧
      (requestFrame code tag params).take 4 = [0xC3#8, BitVec.ofNat 8 (params.length + 2), tag, code]

theorem of_length (code tag : Byte) (params : List Byte) (h : params.length ≤ Config.paramsMax) :
    params.length + 2 ≤ 250 ∧ (requestFrame code tag params).length = params.length + 5 ∧
      (requestFrame code tag params).take 4 = [0xC3#8, BitVec.ofNat 8 (params.length + 2), tag, code] := by
  refine ⟨by simp [Config.paramsMax] at h; omega, by simp [requestFrame], by simp [requestFrame, Config.startOfFrame]⟩

theorem of_request {i : Instr} (c t : Byte) (ps : List Byte) (hi : i.request? = some (c, t, ps))
    (hl : i.wf = true → ps.length ≤ Config.paramsMax) : Statement i := by
  intro code tag params h w
  rw [hi] at h
  cases h
  exact of_length _ _ _ (hl w)

theorem of_event {i : Instr} (hi : i.request? = none) : Statement i := by
  intro code tag params h
  rw [hi] at h
  cases h

theorem powerOnReset (rate1 rate0 : Bool) : Statement (.powerOnReset rate1 rate0) :=
  of_event rfl

theorem resetPin (rate1 rate0 : Bool) : Statement (.resetPin rate1 rate0) :=
  of_event rfl

theorem reset (t : Byte) (ps : List Byte) : Statement (.reset t ps) :=
  of_request 0x02#8 t ps rfl of_decide_eq_true

theorem resetTakesEffect : Statement (.resetTakesEffect) :=
  of_event rfl

theorem deviceInfo (t : Byte) (ps : List Byte) : Statement (.deviceInfo t ps) :=
  of_request 0x01#8 t ps rfl of_decide_eq_true

theorem attention (t : Byte) (ps : List Byte) : Statement (.attention t ps) :=
  of_request 0x03#8 t ps rfl of_decide_eq_true

theorem attentionConfig (t : Byte) (ps : List Byte) : Statement (.attentionConfig t ps) :=
  of_request 0x04#8 t ps rfl of_decide_eq_true

theorem extConfig (t : Byte) (ps : List Byte) : Statement (.extConfig t ps) :=
  of_request 0x05#8 t ps rfl of_decide_eq_true

theorem patternSet (t : Byte) (ps : List Byte) : Statement (.patternSet t ps) :=
  of_request 0x06#8 t ps rfl of_decide_eq_true

theorem patternGet (t : Byte) (ps : List Byte) : Statement (.patternGet t ps) :=
  of_request 0x07#8 t ps rfl of_decide_eq_true

theorem timeGet (t : Byte) (ps : List Byte) : Statement (.timeGet t ps) :=
  of_request 0x10#8 t ps rfl of_decide_eq_true

theorem timeSet (t : Byte) (ps : List Byte) : Statement (.timeSet t ps) :=
  of_request 0x11#8 t ps rfl of_decide_eq_true

theorem timeStop (t : Byte) (ps : List Byte) : Statement (.timeStop t ps) :=
  of_request 0x12#8 t ps rfl of_decide_eq_true

theorem timeRun (t : Byte) (ps : List Byte) : Statement (.timeRun t ps) :=
  of_request 0x13#8 t ps rfl of_decide_eq_true

theorem laneStart (t : Byte) (ps : List Byte) : Statement (.laneStart t ps) :=
  of_request 0x20#8 t ps rfl of_decide_eq_true

theorem laneStop (t : Byte) (ps : List Byte) : Statement (.laneStop t ps) :=
  of_request 0x21#8 t ps rfl of_decide_eq_true

theorem laneStatus (t : Byte) (ps : List Byte) : Statement (.laneStatus t ps) :=
  of_request 0x22#8 t ps rfl of_decide_eq_true

theorem profileSet (t : Byte) (ps : List Byte) : Statement (.profileSet t ps) :=
  of_request 0x23#8 t ps rfl of_decide_eq_true

theorem profileGet (t : Byte) (ps : List Byte) : Statement (.profileGet t ps) :=
  of_request 0x24#8 t ps rfl of_decide_eq_true

theorem pageSwap (t : Byte) (ps : List Byte) : Statement (.pageSwap t ps) :=
  of_request 0x25#8 t ps rfl of_decide_eq_true

theorem intervalClose (t : Byte) (ps : List Byte) : Statement (.intervalClose t ps) :=
  of_request 0x26#8 t ps rfl of_decide_eq_true

theorem intervalTake (t : Byte) (ps : List Byte) : Statement (.intervalTake t ps) :=
  of_request 0x27#8 t ps rfl of_decide_eq_true

theorem testStart (t : Byte) (ps : List Byte) : Statement (.testStart t ps) :=
  of_request 0x28#8 t ps rfl of_decide_eq_true

theorem testStop (t : Byte) (ps : List Byte) : Statement (.testStop t ps) :=
  of_request 0x29#8 t ps rfl of_decide_eq_true

theorem insert (t : Byte) (ps : List Byte) : Statement (.insert t ps) :=
  of_request 0x2A#8 t ps rfl of_decide_eq_true

theorem entrySet (t : Byte) (ps : List Byte) : Statement (.entrySet t ps) :=
  of_request 0x30#8 t ps rfl of_decide_eq_true

theorem entryGet (t : Byte) (ps : List Byte) : Statement (.entryGet t ps) :=
  of_request 0x31#8 t ps rfl of_decide_eq_true

theorem entryArm (t : Byte) (ps : List Byte) : Statement (.entryArm t ps) :=
  of_request 0x32#8 t ps rfl of_decide_eq_true

theorem entryDisarm (t : Byte) (ps : List Byte) : Statement (.entryDisarm t ps) :=
  of_request 0x33#8 t ps rfl of_decide_eq_true

theorem entryPause (t : Byte) (ps : List Byte) : Statement (.entryPause t ps) :=
  of_request 0x34#8 t ps rfl of_decide_eq_true

theorem entryResume (t : Byte) (ps : List Byte) : Statement (.entryResume t ps) :=
  of_request 0x35#8 t ps rfl of_decide_eq_true

theorem entryClear (t : Byte) (ps : List Byte) : Statement (.entryClear t ps) :=
  of_request 0x36#8 t ps rfl of_decide_eq_true

theorem journalTake (t : Byte) (ps : List Byte) : Statement (.journalTake t ps) :=
  of_request 0x40#8 t ps rfl of_decide_eq_true

theorem journalStatus (t : Byte) (ps : List Byte) : Statement (.journalStatus t ps) :=
  of_request 0x41#8 t ps rfl of_decide_eq_true

theorem journalConfig (t : Byte) (ps : List Byte) : Statement (.journalConfig t ps) :=
  of_request 0x42#8 t ps rfl of_decide_eq_true

theorem journalMark (t : Byte) (ps : List Byte) : Statement (.journalMark t ps) :=
  of_request 0x43#8 t ps rfl of_decide_eq_true

theorem capture (t : Byte) (ps : List Byte) : Statement (.capture t ps) :=
  of_request 0x50#8 t ps rfl of_decide_eq_true

theorem captureStatus (t : Byte) (ps : List Byte) : Statement (.captureStatus t ps) :=
  of_request 0x51#8 t ps rfl of_decide_eq_true

theorem captureTake (t : Byte) (ps : List Byte) : Statement (.captureTake t ps) :=
  of_request 0x52#8 t ps rfl of_decide_eq_true

theorem captureAbort (t : Byte) (ps : List Byte) : Statement (.captureAbort t ps) :=
  of_request 0x53#8 t ps rfl of_decide_eq_true

theorem unknownCode (t c : Byte) (ps : List Byte) : Statement (.unknownCode t c ps) :=
  of_request c t ps rfl fun w => of_decide_eq_true (Bool.and_eq_true_iff.mp w).2

theorem badFrame (cause : FrameFault) : Statement (.badFrame cause) :=
  of_event rfl

theorem frameGapTimeout : Statement (.frameGapTimeout) :=
  of_event rfl

theorem replySent : Statement (.replySent) :=
  of_event rfl

theorem cellArrival (lane : LaneNo) (cell : Cell) : Statement (.cellArrival lane cell) :=
  of_event rfl

theorem transmitCell (lane : LaneNo) : Statement (.transmitCell lane) :=
  of_event rfl

theorem driverFault (lane : LaneNo) (level : Bool) : Statement (.driverFault lane level) :=
  of_event rfl

theorem fineTick : Statement (.fineTick) :=
  of_event rfl

theorem secondArrival (lane : LaneNo) : Statement (.secondArrival lane) :=
  of_event rfl

theorem scheduleSecondArrival (share : Option Nat) : Statement (.scheduleSecondArrival share) :=
  of_event rfl

theorem minuteArrival (share : Option Nat) : Statement (.minuteArrival share) :=
  of_event rfl

theorem scheduleFineTick (share : Option Nat) : Statement (.scheduleFineTick share) :=
  of_event rfl

theorem countdownExpiry (entry : EntryNo) : Statement (.countdownExpiry entry) :=
  of_event rfl

theorem filterSample (ext0 ext1 : Bool) : Statement (.filterSample ext0 ext1) :=
  of_event rfl

theorem scheduleEdge (pin : Pin) (share : Option Nat) : Statement (.scheduleEdge pin share) :=
  of_event rfl

theorem extEdge (pin : Pin) : Statement (.extEdge pin) :=
  of_event rfl

theorem oscFault : Statement (.oscFault) :=
  of_event rfl

theorem oscMeasureRestart : Statement (.oscMeasureRestart) :=
  of_event rfl

theorem oscResumed : Statement (.oscResumed) :=
  of_event rfl

theorem recordArrival (place : Nat) : Statement (.recordArrival place) :=
  of_event rfl

theorem conditionChange (cond : CondNo) : Statement (.conditionChange cond) :=
  of_event rfl

theorem crxCharacter (data : Byte) (goodStop : Bool) : Statement (.crxCharacter data goodStop) :=
  of_event rfl

theorem crystalCycleSeen : Statement (.crystalCycleSeen) :=
  of_event rfl

end Sys2Proof.Laws.RequestForm
end

