-- ==== Sys2Proof/Tests/Slice0.lean ====
section
/-! SUPPORT. Tests: the checks of WellFormed, the worked examples of the spec, one step each of a few commands, and for every
statement with hypotheses a state and operands that meet them. -/

set_option maxRecDepth 20000

namespace Sys2Proof.Tests

open Sys2Proof Sys2Proof.Machine

/-! ### Small states -/

/-- Right after reset, with this lane as lane 0. -/
def withLane0 (l : Lane) : State := State.reset.withDev (State.reset.dev.modLane 0 fun _ => l)

def stamp0 : Stamp := ⟨⟨0, 1, 1, 0, 0, 0⟩, 0, false, false⟩

def interval0 : OpenInterval := ⟨stamp0, 0, 0, 0, false, false, false, false, false⟩

/-- A lane that runs in a mode and a state, its interval just opened. -/
def running (m : Mode) (l : LineState) : Lane :=
  { Lane.afterReset true with mode := m, line := l, interval := some interval0 }

/-- The default profile with INTERNAL loopback on both pages. -/
def looped (l : Lane) : Lane :=
  { l with pages := #v[{ Profile.default with loopback := .internal }, { Profile.default with loopback := .internal }] }

def hunting : State := withLane0 (running .monitor .hunt)

def testing : State := withLane0 (running .test .track)

/-- After RESET has been answered and before its reply has been sent. -/
def resetAsked : State :=
  State.reset.withDev ({ State.reset.dev with port := ⟨.waiting, .baud115200, some ⟨5#8, 0x82#8, .ok, []⟩⟩ })

/-- One definition: a countdown of 2 seconds that writes a MARK. -/
def countdown : Definition := ⟨.countdown .second 2, false, true, [.mark 9#8]⟩

def withEntry0 (x : Entry) : State := State.reset.withDev (State.reset.dev.setEntry 0 x)

def aCapture (n : LaneNo) (data : List Byte) : Capture := ⟨n, .request, stamp0, 0, 0, 2, 1, data, false⟩

/-- Slot 0 FILLING for lane 0 on engine 0, slot 1 FULL, lane 1 waiting. -/
def unit1 : CaptureUnit :=
  ⟨[⟨1, .request, stamp0, 0⟩], #v[some 0, none], #v[.filling (aCapture 0 [1#8, 2#8]), .full (aCapture 0 [1#8, 2#8, 3#8]), .free, .free]⟩

def capturing : State := State.reset.withDev ({ hunting.dev with capture := unit1 })

/-- The table at work on an event: the turn of entry 0, a countdown at 0. -/
def atWork : State :=
  let d := State.reset.dev.setEntry 0 (.held .armed countdown 0)
  State.reset.withDev ({ d with schedule := { d.schedule with work := some ⟨stamp0, 0, [.turn 0]⟩ } })

/-- A full journal under WRAP with threshold 64, and one record on its way. -/
def fullWrap : State :=
  State.reset.withDev ({ State.reset.dev with
    journal := ⟨(List.range 64).map fun i => ⟨i + 1, Record.restart stamp0 1⟩, 65, .wrap, 64, false, 0⟩
    inFlight := [⟨0, Record.restart stamp0 3, false, false⟩] })

/-- A record of lane 0 on its way; INTERVAL_CLOSED is one of a close. -/
def laneSent (event : Nat) (k : Kind) (byRequest : Bool) : Sent :=
  ⟨event, ⟨stamp0, .lane 0, k, 0, none⟩, byRequest, decide (k = .intervalClosed)⟩

/-- A BURST of one event, the INTERVAL_CLOSED of a request after it, and a LANE_LOCK, all of lane 0 on their way. -/
def sending : State := State.reset.withDev ({ State.reset.dev with
  inFlight := [laneSent 0 .burst false, laneSent 1 .laneLock false, laneSent 2 .intervalClosed true] })

/-- The table at work on the fire of entry 0, which writes SCHEDULE_FIRED and holds a MARK, with a record of another event on its
way and room for neither under HOLD. -/
def marking (policy : Policy) : State :=
  let d := State.reset.dev.setEntry 0 (.held .armed countdown 0)
  let records := (List.range 64).map fun i => (⟨i + 1, Record.restart stamp0 1⟩ : Stored)
  State.reset.withDev ({ d with
    schedule := { d.schedule with work := some ⟨stamp0, 5, [.turn 0]⟩ }, inFlight := [laneSent 1 .laneLock false]
    journal := if policy = .wrap then d.journal else ⟨records, 65, .hold, 48, false, 0⟩ })

/-- Lane 1's alarm enabled in LEVEL mode, its level true and its rise not yet taken. -/
def rising : State :=
  let d := (withLane0 (Lane.afterReset true)).dev.modLane 1 fun _ => running .monitor .hunt
  State.reset.withDev ({ d with attention := ⟨d.attention.conditions.set 4 ⟨true, .level, false⟩, [⟨4, true⟩]⟩ })

/-- Lane 0 in a run of 15 violations under idle_threshold 16, slot Y bound to IDLE errors; the run has counted one already, or
not. -/
def inRun (counted : Bool) : State :=
  let page : Profile := { Profile.default with slotY := .idle }
  withLane0 { running .monitor .hunt with
    pages := #v[page, page], rx := { Receiver.fresh with run := 15, idleCounted := counted } }

/-- A second arrival at 10:15 and this second delivered to lane 0, in this mode, and to the table, with a minute arrival and an edge
of each pin; EXT0 takes rising edges, and entry 0 is a countdown at its last second. -/
def delivered (m : Mode) (second : Nat) : State :=
  let a : Arrival := ⟨⟨24, 6, 3, 10, 15, second⟩, 0⟩
  let d := (withLane0 { running m .hunt with seconds := [a] }).dev.setEntry 0 (.held .armed countdown 1)
  State.reset.withDev { d with
    schedule := { d.schedule with seconds := [a], minutes := [a], edges := [⟨.ext1, false⟩, ⟨.ext0, true⟩] }
    inputs := { d.inputs with
      ext0 := ⟨true, 0, .rising⟩, edges := [⟨⟨.ext1, false⟩, stamp0⟩, ⟨⟨.ext0, true⟩, stamp0⟩] } }

def device (o : Host.Outcome State Fault Refusal) : Option Device :=
  match o with
  | .next t => some t.dev
  | _ => none

def reply (o : Host.Outcome State Fault Refusal) : Option Reply :=
  match o with
  | .next t => t.dev.port.reply
  | _ => none

/-- A BURST of lane 0 on its way and the lane in OFF: what an ARM of its swap then writes is no record of a close. -/
def swappedInOff : Option Device :=
  let s := State.reset.withDev ({ State.reset.dev with inFlight := [laneSent 7 .burst false] })
  device (exec (.pageSwap 1#8 [1#8, 1#8]) s)

/-! ### The checks of WellFormed -/

theorem test_wf_refuses_a_request_longer_than_a_frame : Instr.wf (.timeGet 0#8 (List.replicate 249 0#8)) = false := by decide
theorem test_wf_takes_the_longest_request : Instr.wf (.timeGet 0#8 (List.replicate 248 0#8)) = true := by decide
theorem test_wf_refuses_a_known_code_as_unknown : Instr.wf (.unknownCode 0#8 0x10#8 []) = false := by decide
theorem test_wf_refuses_an_unknown_code_too_long : Instr.wf (.unknownCode 0#8 0x77#8 (List.replicate 249 0#8)) = false := by
  decide
theorem test_wf_takes_an_unknown_code : Instr.wf (.unknownCode 0#8 0x77#8 []) = true := by decide

/-! ### The worked examples of the spec -/

/-- R179 and its example: the check byte of 03 17 40 04. -/
theorem test_check_byte : crc [0x03#8, 0x17#8, 0x40#8, 0x04#8] = 0xC9#8 := by decide
/-- R186: the default profile's bytes. -/
theorem test_default_profile_bytes : Profile.default.image =
    [0x04#8, 0x4D#8, 0xB5#8, 0x40#8, 0x00#8, 0x10#8, 0x00#8, 0x04#8, 0x31#8, 0x07#8, 0#8, 0#8, 0#8, 0x08#8, 0x18#8, 0#8, 0#8] := by
  decide
theorem test_default_profile_in_range : Profile.default.inRange = true := by decide
/-- R184: the stamp of 24-06-03 10:15:00 with time_valid set. -/
theorem test_stamp_bytes : Stamp.image ⟨⟨24, 6, 3, 10, 15, 0⟩, 0, true, false⟩ =
    [0x18#8, 0x06#8, 0x03#8, 0x0A#8, 0x0F#8, 0x00#8, 0x00#8, 0x80#8] := by decide
theorem test_owners_are_the_request_table : requestOwners.map (·.1) = Config.requestCodes := by decide
/-- R89: right after reset the journal holds RESTART alone. -/
theorem test_reset_journal : State.reset.dev.journal =
    ⟨[⟨1, ⟨stamp0, .device, .restart, 1, none⟩⟩], 2, .wrap, 48, false, 0⟩ := by decide
theorem test_no_word_is_a_command : decodeTableWord 16 0 = none := rfl
theorem test_step_idles : step State.reset = .next State.reset := rfl

/-! ### One step each -/

theorem test_lane_start : reply (exec (.laneStart 3#8 [0#8]) State.reset) = some ⟨3#8, 0xA0#8, .ok, []⟩ := by decide
theorem test_lane_start_twice : reply (exec (.laneStart 3#8 [0#8]) hunting) = some ⟨3#8, 0xA0#8, .wrongState, []⟩ := by decide
theorem test_lane_start_lane_4 : reply (exec (.laneStart 3#8 [4#8]) State.reset) = some ⟨3#8, 0xA0#8, .badValue, []⟩ := by
  decide
theorem test_lane_start_length : reply (exec (.laneStart 3#8 []) State.reset) = some ⟨3#8, 0xA0#8, .badLength, []⟩ := by decide
theorem test_insert_mask : reply (exec (.insert 1#8 [3#8]) testing) =
    some ⟨1#8, 0xAA#8, .ok, [0x00#8, 0x05#8, 0xFF#8, 0xFF#8]⟩ := by decide
theorem test_entry_get_empty : reply (exec (.entryGet 1#8 [0#8]) State.reset) = some ⟨1#8, 0xB1#8, .ok, [0#8]⟩ := by decide
theorem test_entry_arm : reply (exec (.entryArm 1#8 [0#8]) (withEntry0 (.held .idle countdown 0))) =
    some ⟨1#8, 0xB2#8, .ok, [2#8, 2#8, 0#8, 0#8]⟩ := by decide
theorem test_journal_take : reply (exec (.journalTake 1#8 [15#8]) State.reset) =
    some ⟨1#8, 0xC0#8, .ok, [1#8, 0#8, 1#8, 0#8, 0#8, 0#8, 0#8, 1#8, 1#8, 0#8, 0#8, 0#8, 0#8, 0#8, 0x60#8, 1#8, 1#8, 0#8]⟩ := by
  decide
theorem test_journal_mark : reply (exec (.journalMark 1#8 [7#8]) State.reset) =
    some ⟨1#8, 0xC3#8, .ok, [2#8, 0#8, 0#8, 0#8]⟩ := by decide
theorem test_capture_take : (reply (exec (.captureTake 1#8 [1#8]) capturing)).map (·.status) = some .ok := by decide
theorem test_capture_busy : reply (exec (.capture 1#8 [1#8]) capturing) =
    some ⟨1#8, 0xD0#8, .ok, [0x08#8, 0xFF#8, 0xFF#8, 0xFF#8]⟩ := by decide
theorem test_time_set_23_02_29 : reply (exec (.timeSet 1#8 [23#8, 2#8, 29#8, 0#8, 0#8, 0#8, 0#8, 0#8]) State.reset) =
    some ⟨1#8, 0x91#8, .badValue, []⟩ := by decide
theorem test_time_set_24_02_29 : reply (exec (.timeSet 1#8 [24#8, 2#8, 29#8, 0#8, 0#8, 0#8, 0#8, 0#8]) State.reset) =
    some ⟨1#8, 0x91#8, .ok, []⟩ := by decide
theorem test_leap_second : Timebase.carrySecond
    { Timebase.afterPowerOn with time := ⟨24, 12, 31, 23, 59, 59⟩, leapPending := true } =
    ({ Timebase.afterPowerOn with time := ⟨24, 12, 31, 23, 59, 60⟩, leapPending := false }, false) := by decide
theorem test_year_carry : Timebase.carrySecond { Timebase.afterPowerOn with time := ⟨99, 12, 31, 23, 59, 59⟩ } =
    ({ Timebase.afterPowerOn with time := ⟨0, 1, 1, 0, 0, 0⟩, weekday := 0 }, true) := by decide

/-- R77, R88, R168: a discard and the storing after it move JOURNAL_LEVEL down and up. -/
theorem test_full_wrap_presents_both_moves : ((device (exec (.recordArrival 0) fullWrap)).map fun d =>
    (d.attention.changes, d.journal.records.length, d.journal.next)) = some ([⟨0, false⟩, ⟨0, true⟩], 64, 66) := by decide
/-- R4: a run hands over one IDLE error, and the next needs a valid cell before it. -/
theorem test_one_idle_error_for_a_run : ([false, true].map fun counted =>
    (device (exec (.cellArrival 0 .violation) (inRun counted))).map fun d => ((d.lane 0).rx.run, (d.lane 0).yCount)) =
      [some (16, 1), some (16, 0)] := by decide
/-- Such a run that a swap has taken into INTERNAL loopback in TEST: an insertion that is the first cell of the new stream brings it
to idle_threshold (log 29). -/
theorem test_run_goes_on_into_internal_loopback :
    let page : Profile := { Profile.default with slotY := .idle, loopback := .internal }
    ((device (exec (.transmitCell 0) (withLane0 { running .test .search with
      pages := #v[page, page], rx := { Receiver.fresh with run := 15 }
      tx := ⟨true, 3, .none, [.one, .one, .one]⟩ }))).map fun d => ((d.lane 0).rx.run, (d.lane 0).yCount)) =
      some (16, 1) := by decide
theorem test_valid_cell_ends_the_run : ((device (exec (.cellArrival 0 .one) (inRun true))).map fun d =>
    ((d.lane 0).rx.run, (d.lane 0).rx.idleCounted)) = some (0, false) := by decide

/-- R52: the arrival of 10:15:00 closes an AUTO interval of 60 s, that of 10:15:01 and of second 60 close none; each is taken. -/
theorem test_boundary_arrivals : ([0, 1, 60].map fun second =>
    (device (exec (.secondArrival 0) (delivered .monitor second))).map fun d =>
      ((d.lane 0).ring.map (·.reason), (d.lane 0).seconds)) =
      [some ([.boundary], []), some ([], []), some ([], [])] := by decide
/-- R122, R124: the table takes the second and makes the countdown due; the minute and the edge make nothing due. -/
theorem test_table_takes_what_was_delivered :
    ([.scheduleSecondArrival (some 0), .minuteArrival (some 0), .scheduleEdge .ext0 (some 0)].map fun c =>
      (device (exec c (delivered .monitor 0))).map fun d =>
        (d.schedule.work.map (·.ops), d.schedule.seconds.length, d.schedule.minutes.length, d.schedule.edges)) =
      [some (some [.turn 0], 0, 1, [⟨.ext1, false⟩, ⟨.ext0, true⟩]), some (none, 1, 0, [⟨.ext1, false⟩, ⟨.ext0, true⟩]),
        some (none, 1, 1, [⟨.ext1, false⟩])] := by decide
/-- R174: the journal side writes EXT_EDGE for the edge its choice takes, and for the other none. -/
theorem test_ext_edges_are_taken : ([Pin.ext0, .ext1].map fun pin =>
    (device (exec (.extEdge pin) (delivered .monitor 0))).map fun d =>
      (d.inFlight.map fun x => (x.record.kind, x.record.detail), d.inputs.edges.map (·.edge.pin))) =
      [some ([(.extEdge, 1)], [.ext1]), some ([], [.ext0])] := by decide

/-- R50: the close's record stays behind the BURST before it; R76: the LANE_LOCK does not. -/
theorem test_closes_stay_behind_a_burst :
    exec (.recordArrival 2) sending = .next sending ∧
    ((device (exec (.recordArrival 1) sending)).map fun d => d.inFlight.length) = some 2 := by
  refine ⟨rfl, by decide⟩
/-- R76, R50: PAGE_SWAPPED of an ARM in OFF is no record of a close and passes a BURST of its lane. -/
theorem test_swap_in_off_passes_a_burst : (swappedInOff.map fun d => d.inFlight.map fun x => (x.record.kind, x.ofClose)) =
      some [(.burst, false), (.pageSwapped, false)] ∧
    ((swappedInOff.bind fun d => device (exec (.recordArrival 1) (State.reset.withDev d))).map fun d =>
      (d.journal.records.map (·.record.kind), d.inFlight.length)) = some ([.restart, .pageSwapped], 1) := by decide
/-- R128: the journal takes a MARK action in its step, behind the fire's SCHEDULE_FIRED; under HOLD a full journal discards both. -/
theorem test_mark_action_is_taken_in_the_fire : ((device (exec (.countdownExpiry 0) (marking .wrap))).map fun d =>
      (d.journal.records.map (·.record.kind), d.inFlight)) = some ([.restart, .scheduleFired, .mark], [laneSent 1 .laneLock false]) ∧
    ((device (exec (.countdownExpiry 0) (marking .hold))).map fun d =>
      (d.journal.records.length, d.journal.discards, d.attention.changes, d.inFlight.length)) =
      some (64, 2, [⟨1, true⟩], 1) := by decide
/-- R87: a MARK comes behind the request's record and the BURST before it, and passes the LANE_LOCK. -/
theorem test_mark_comes_behind_a_requests_records : ((device (exec (.journalMark 1#8 [7#8]) sending)).map fun d =>
    (d.journal.records.map (·.record.kind), d.inFlight)) =
      some ([.restart, .burst, .intervalClosed, .mark], [laneSent 1 .laneLock false]) := by decide
/-- R87: what a request writes is known as its own. -/
theorem test_requests_records : ((device (exec (.laneStart 3#8 [0#8]) State.reset)).map fun d =>
    d.inFlight.map (·.byRequest)) = some [true] := by decide
/-- R171: an ATTENTION taken before a rise reports the level before it and, with an empty clear set, changes nothing; the latch
sets after it. -/
theorem test_attention_before_a_rise :
    ((device (exec (.attention 1#8 [0#8, 0#8]) rising)).map (·.attention)) = some rising.dev.attention ∧
    (reply (exec (.attention 1#8 [0#8, 0#8]) rising)).map (fun x => (x.status, x.results.take 2)) = some (.ok, [0#8, 1#8]) ∧
    ((device (exec (.conditionChange 4) rising)).map (·.attention.atnLow)) = some true := by decide

/-- R59, R72: the record of a swap shows the new live page, the advanced number and counts of 0. -/
theorem test_swap_record :
    let l := { running .monitor .locked with swapPending := true, pages := #v[Profile.default, { Profile.default with snapshot := true }] }
    l.closeRecords 0 stamp0 stamp0 = [⟨stamp0, .lane 0, .pageSwapped, 1, some ⟨.monitor, .locked, 1, false, 1, 0, 0⟩⟩] := by decide
/-- R180: the reply to a LANE START, as its characters. -/
theorem test_reply_frame : (reply (exec (.laneStart 3#8 [0#8]) State.reset)).map Reply.frame =
    some [0xC3#8, 0x03#8, 0x03#8, 0xA0#8, 0x00#8, crc [0x03#8, 0x03#8, 0xA0#8, 0x00#8]] := by decide

/-! ### What meets the statements' hypotheses -/

theorem reset_unit_wf : CaptureUnit.afterReset.Wf := by
  constructor
  · decide
  · decide
  · decide
  · decide
  · decide
  · intro k; fin_cases k <;> trivial
  · intro w h; cases h

theorem unit1_wf : unit1.Wf := by
  constructor
  · decide
  · decide
  · decide
  · decide
  · decide
  · intro k; fin_cases k
    · show _ ∧ _ ∧ _ ∧ _ ∧ _; decide
    · show _ ∧ _ ∧ _ ∧ _ ∧ _; decide
    · trivial
    · trivial
  · intro w h; simp [unit1] at h; subst h; decide

/-- EveryCommandCompletes. -/
theorem test_meets_idle : State.reset.pending = [] := rfl
/-- EveryEventPresentsTheLevelsItMoves, AttentionLatchesAndReports: the levels are followed right after reset and with a rise of a
LEVEL condition on its way. -/
theorem test_meets_followed : State.reset.dev.LevelsFollowed ∧ rising.dev.LevelsFollowed ∧ step rising = .next rising ∧
    rising.dev.quiet :=
  ⟨⟨by intro c; fin_cases c <;> rfl, by decide⟩,
    ⟨by intro c; fin_cases c <;> first | rfl | exact ⟨by decide, rfl⟩, by decide⟩, rfl, rfl⟩
/-- EveryEventPresentsTheLevelsItMoves: a JOURNAL_HELD that moves twice at a JOURNAL MARK and at the last character of its frame, and
a command in which one record arrives at most. -/
theorem test_held_moves_twice_at_a_mark :
    let records := (List.range 62).map fun i => (⟨i + 1, Record.restart stamp0 1⟩ : Stored)
    let s := State.reset.withDev ({ State.reset.dev with
      journal := ⟨records, 63, .hold, 48, true, 3⟩, inFlight := [laneSent 1 .laneLock true]
      port := ⟨.inFrame [3#8, 1#8, 0x43#8, 7#8], .baud115200, none⟩ })
    ((device (exec (.journalMark 1#8 [7#8]) s)).map fun d => movesOf d.attention.changes 1) = some [false, true] ∧
    ((device (exec (.crxCharacter (crc [3#8, 1#8, 0x43#8, 7#8]) true) s)).map fun d => movesOf d.attention.changes 1) =
      some [false, true] ∧
    Instr.severalArrive (.crxCharacter 0#8 true) = true ∧ Instr.severalArrive (.recordArrival 0) = false := by decide
/-- EveryEventPresentsTheLevelsItMoves: a command that is no reset and moves a level twice, and the moves of each other level. -/
theorem test_meets_presented : (device (exec (.recordArrival 0) fullWrap)).isSome = true ∧ fullWrap.dev.port.reply = none ∧
    movesFromTo true [false, true] true ∧ movesFromTo false [] false ∧ ¬ movesFromTo true [true] true :=
  ⟨by decide, rfl, by simp [movesFromTo], rfl, by simp [movesFromTo]⟩
/-- ResetsKeepTheirTimeAndRate, EveryResetClearsTheBlocks, EveryEventPresentsTheLevelsItMoves, ResetsWriteRestart, PatternIsSetReadAndReset: the three commands. -/
theorem test_meets_resetting : resetting State.reset (.powerOnReset false false) ∧ resetting State.reset (.resetPin true true) ∧
    resetting resetAsked .resetTakesEffect :=
  ⟨trivial, trivial, ⟨5#8, rfl⟩⟩
/-- RequestsDuringAReplyAreOverruns. -/
theorem test_meets_overrun : Instr.request? (.timeGet 1#8 []) = some (0x10#8, 1#8, []) ∧ Instr.wf (.timeGet 1#8 []) = true ∧
    resetAsked.dev.port.reply.isSome = true := by decide
/-- UnknownCodesAndWrongLengthsAreRefused: both clauses. -/
theorem test_meets_unknown_and_length : (0x00#8 ∉ Config.requestCodes ∧ 0xFF#8 ∉ Config.requestCodes) ∧ State.reset.dev.quiet ∧
    Instr.request? (.timeGet 1#8 [0#8]) = some (0x10#8, 1#8, [0#8]) ∧ 0x10#8 ∈ Config.requestCodes ∧
    Instr.wf (.timeGet 1#8 [0#8]) = true ∧ [0#8].length ∉ paramLengths 0x10#8 ∧ 18 ∉ paramLengths 0x30#8 :=
  ⟨by decide, rfl, by decide, by decide, by decide, by decide, by decide⟩
/-- Every statement about a request that finds the port quiet: in each small state. -/
theorem test_meets_quiet : State.reset.dev.quiet ∧ hunting.dev.quiet ∧ testing.dev.quiet ∧ capturing.dev.quiet := ⟨rfl, rfl, rfl, rfl⟩
/-- PatternIsSetReadAndReset: a lane in TEST, and none. -/
theorem test_meets_pattern : (testing.dev.lane 0).mode = .test ∧ ∀ n, (hunting.dev.lane n).mode ≠ .test := by decide
/-- ResetsKeepTheirTimeAndRate, EveryEventPresentsTheLevelsItMoves: a reply that is not that of RESET. -/
theorem test_meets_other_reply : ¬ ((⟨5#8, 0x82#8, .badLength, []⟩ : Reply).code = 0x82#8 ∧
    (⟨5#8, 0x82#8, .badLength, []⟩ : Reply).status = .ok) := by decide
/-- TimeSetChecksItsSetting, TimeSetClosesRunningLanes: settings at the ends of their ranges. -/
theorem test_meets_setting : settingOk 0#8 1#8 1#8 0#8 0#8 0#8 0#8 0#8 ∧ settingOk 99#8 12#8 31#8 23#8 59#8 60#8 6#8 0#8 ∧
    settingOk 24#8 2#8 29#8 0#8 0#8 59#8 0#8 1#8 ∧ ¬ settingOk 100#8 1#8 1#8 0#8 0#8 0#8 0#8 0#8 ∧
    ¬ settingOk 0#8 1#8 1#8 23#8 59#8 60#8 0#8 1#8 ∧ ¬ settingOk 0#8 4#8 31#8 0#8 0#8 0#8 0#8 0#8 ∧
    State.reset.dev.timebase.oscFault = false := by
  refine ⟨?_, ?_, ?_, ?_, ?_, ?_, rfl⟩ <;> unfold settingOk <;> decide
theorem test_meets_osc_fault : ({ Timebase.afterPowerOn with oscFault := true, measure := some 0 } : Timebase).Wf := by
  constructor <;> first | (constructor <;> decide) | decide
theorem test_meets_running_lane : (hunting.dev.lane 0).mode ≠ .off ∧ (hunting.dev.lane 0).interval = some interval0 ∧
    (hunting.dev.lane 1).mode = .off := by decide
/-- FineTicksAdvanceTheFraction: the fraction at both sides of the carry. -/
theorem test_meets_fraction : State.reset.dev.timebase.oscFault = false ∧ State.reset.dev.timebase.run = .running ∧
    (1022 < 1023 ∧ 1023 ≤ 1023) := by decide
/-- TheCalendarCarries: before a leap second, and at the last day of a month and of a year. -/
theorem test_meets_calendar : (⟨24, 12, 31, 23, 59, 59⟩ : CalTime).Wf ∧ (⟨24, 2, 29, 23, 59, 60⟩ : CalTime).Wf ∧
    (⟨99, 12, 31, 23, 59, 59⟩ : CalTime).Wf ∧ (⟨23, 2, 28, 23, 59, 58⟩ : CalTime).Wf := by
  refine ⟨?_, ?_, ?_, ?_⟩ <;> constructor <;> decide
/-- LaneStopRunsTheStopSequence, TestsStartAndStopWithTheirRecords, DriverFaultsEndATest. -/
theorem test_meets_stop : (capturing.dev.lane 0).mode ≠ .off ∧ (capturing.dev.lane 0).interval = some interval0 ∧
    capturing.dev.capture.Wf ∧ testing.dev.capture.Wf ∧ hunting.dev.capture.Wf ∧
    capturing.dev.capture.slots[(0 : SlotNo).val] = .filling (aCapture 0 [1#8, 2#8]) :=
  ⟨by decide, by decide, unit1_wf, reset_unit_wf, reset_unit_wf, by decide⟩
theorem test_meets_tests : ((hunting.dev.lane 0).mode = .monitor ∧ (hunting.dev.lane 0).txFault = false ∧
    (hunting.dev.lane 0).txf = true) ∧ (testing.dev.lane 0).mode = .test ∧ (testing.dev.lane 0).interval = some interval0 ∧
    (running .test .track).tx.insertPending = false ∧ ({ running .monitor .hunt with txf := false } : Lane).txf = false := by decide
/-- LaneStatusReportsTheLane, LaneStartOpensAnInterval, LaneStopRunsTheStopSequence: lane number 4, a lane without and one with
an interval. -/
theorem test_meets_status : 3 < (4#8).toNat ∧ (State.reset.dev.lane 3).interval = none ∧
    (hunting.dev.lane 0).interval = some interval0 := by decide
/-- ProfilesAreWrittenAndRead: an image in range and one out of range, at the ends of frame_length. -/
theorem test_meets_profile : Profile.default.image.length = 17 ∧ profileOf Profile.default.image = some Profile.default ∧
    profileOf (Profile.default.image.set 3 3#8) = none ∧ (profileOf (Profile.default.image.set 3 4#8)).isSome = true ∧
    (profileOf ((Profile.default.image.set 3 0#8).set 4 1#8)).isSome = true ∧
    profileOf ((Profile.default.image.set 3 1#8).set 4 1#8) = none ∧ 1 < (2#8).toNat := by decide
/-- PageSwapArmsOrSwaps, MaskRequestsTreatEachLane: masks at the ends of their range. -/
theorem test_meets_mask : maskOk 0#8 = false ∧ maskOk 1#8 = true ∧ maskOk 15#8 = true ∧ maskOk 16#8 = false := by decide
/-- LaneOperationsAnswerByMode. -/
theorem test_meets_capture_free : (hunting.dev.lane 0).mode ≠ .off ∧ hunting.dev.capture.busy 0 = false ∧
    capturing.dev.capture.busy 0 = true ∧ capturing.dev.capture.busy 1 = true := by decide
/-- CloseFormsTheRecord: a swap pending, with receive fields alike and apart. -/
theorem test_meets_close : ({ running .monitor .locked with swapPending := true } : Lane).interval = some interval0 ∧
    (running .monitor .locked).swapPending = false ∧ Profile.default.sameLine Profile.default = true ∧
    Profile.default.sameLine { Profile.default with bitRate := 5 } = false ∧
    Profile.default.sameLine { Profile.default with frameLength := 65 } = false := by decide
/-- BoundariesCloseAutoIntervals: a boundary, a second that is none, and second 60. -/
theorem test_meets_boundary : Profile.default.intervalMode = .auto 6 ∧ (0 * 3600 + 1 * 60 + 0) % 60 = 0 ∧
    (0 * 3600 + 1 * 60 + 1) % 60 ≠ 0 ∧ (⟨24, 12, 31, 23, 59, 60⟩ : CalTime).second = 60 := by decide
/-- BoundariesCloseAutoIntervals, TheTableTakesItsEvents, EdgesAreFilteredAndJournalled: arrivals and edges on their way, in MONITOR
and in OFF, the edge of EXT0 behind one of EXT1, its choice taking it and EXT1's none. -/
theorem test_meets_delivered :
    (((delivered .monitor 0).dev.lane 0).seconds.length = 1 ∧ ((delivered .monitor 0).dev.lane 0).page.intervalMode = .auto 6 ∧
      ((delivered .monitor 0).dev.lane 0).mode = .monitor ∧ ((delivered .off 0).dev.lane 0).mode = .off) ∧
    (delivered .monitor 0).dev.schedule.work = none ∧
    (delivered .monitor 60).dev.schedule.seconds = [⟨⟨24, 6, 3, 10, 15, 60⟩, 0⟩] ∧
    (delivered .monitor 0).dev.schedule.minutes = [⟨⟨24, 6, 3, 10, 15, 0⟩, 0⟩] ∧
    (delivered .monitor 0).dev.schedule.edges = [⟨.ext1, false⟩] ++ ⟨.ext0, true⟩ :: [] ∧
    (delivered .monitor 0).dev.inputs.edges = [⟨⟨.ext1, false⟩, stamp0⟩] ++ ⟨⟨.ext0, true⟩, stamp0⟩ :: [] ∧
    ((delivered .monitor 0).dev.inputs.pin .ext0).choice = .rising ∧
    ((delivered .monitor 0).dev.inputs.pin .ext1).choice = .none := by decide
/-- IntervalTakeRemovesTheOldest: counts at the ends of their range. -/
theorem test_meets_interval_take : (1 ≤ (1#8).toNat ∧ (8#8).toNat ≤ 8) ∧ (0#8).toNat < 1 ∧ 8 < (9#8).toNat ∧
    laneByte 3 = 3#8 := by decide
/-- ErrorsCountInTheBoundSlots: counts at the edge of saturation. -/
theorem test_meets_errors : Profile.default.slotX.counts .slip = false ∧ Profile.default.slotY.counts .slip = true ∧
    Profile.default.slotX.counts .idle = false ∧ Profile.default.slotY.counts .idle = false ∧
    ({ interval0 with y := 65534 } : OpenInterval).y + 1 = 65535 ∧ interval0.ySaturated = false ∧
    ({ Profile.default with burstThreshold := some 1, burstCapture := true } : Profile).burstThreshold = some (interval0.x + 1) ∧
    interval0.burstReported = false ∧ hunting.dev.capture.busy 0 = false ∧ capturing.dev.capture.busy 0 = true := by decide
/-- CellsOutsideTheStreamAndInNoSignal, CellsAreWorkedInOrder. -/
theorem test_meets_cells : ((State.reset.dev.lane 0).mode = .off ∧ (State.reset.dev.lane 0).line = .none) ∧
    ((looped (running .test .track)).mode = .test ∧ (looped (running .test .track)).page.loopback = .internal) ∧
    (running .monitor .noSignal).line = .noSignal ∧ (running .monitor .noSignal).rx.validCells + 1 < 64 ∧
    ((testing.dev.lane 0).page.loopback = .external ∧ (testing.dev.lane 0).line = .track) ∧
    ((running .test .noSignal).mode = .test ∧ (running .test .noSignal).page.loopback = .external ∧ 64 ≤ 63 + 1) := by decide
/-- ViolationRunsReachTheirThresholds: the runs just before each threshold. -/
theorem test_meets_violation : 15 + 1 = Profile.default.idleThreshold ∧ 1023 + 1 = Profile.default.losThreshold ∧
    Profile.default.idleThreshold < Profile.default.losThreshold ∧ (65535 ≤ 65535 ∧ 65534 < 65535) ∧
    (((inRun true).dev.lane 0).rx.idleCounted = true ∧ (hunting.dev.lane 0).rx.idleCounted = false) := by decide
/-- LaneStopRunsTheStopSequence, CloseFormsTheRecord, ViolationRunsReachTheirThresholds, CapturesAreTakenAbortedAndReported and the
others that end a capture: the end of lane 0's frees engine 0, and lane 1's entry is granted. -/
theorem test_meets_truncated : (capturing.dev.truncatedCapture 0).engines = #v[some 2, none] ∧
    (capturing.dev.truncatedCapture 0).waiting = [] ∧ capturing.dev.truncatedCapture 3 = unit1 ∧
    (capturing.dev.capture.truncatedRecords 0 stamp0).length = 1 ∧ (running .monitor .locked).assembling = true ∧
    (running .monitor .hunt).assembling = false := by decide
/-- SecondMatchLocksThirdMismatchUnlocks: a window that matches, and the spacing that confirms. -/
theorem test_meets_sync : windowMatches [.one, .zero, .one, .one, .zero, .zero, .one, .zero, .one, .zero, .one, .zero, .one, .one,
      .zero, .one] 0xB54D#16 = true ∧ windowMatches [] 0xB54D#16 = false ∧
    (some 511).map (· + 1) = some (Profile.default.frameLength * 8) ∧ 1 + 1 < 3 ∧ 3 ≤ 2 + 1 := by decide
/-- BytesAreHandedOn: a byte that is compared, and one that completes a capture. -/
theorem test_meets_bytes : ({ Profile.default with triggerByte := some 7#8 } : Profile).triggerByte = some 7#8 ∧
    (aCapture 0 [1#8, 2#8]).data.length + 1 = (aCapture 0 [1#8, 2#8]).pre + (aCapture 0 [1#8, 2#8]).post ∧
    (aCapture 0 [1#8]).data.length + 1 ≠ (aCapture 0 [1#8]).pre + (aCapture 0 [1#8]).post ∧
    capturing.dev.capture.fillingSlot 1 = none := by decide
/-- TheCheckerTracksThePattern: a mismatch that is the block's 16th at a byte's last cell, a block that begins, and the first
position of a repetition. -/
theorem test_meets_checker : let c : Checker := { Checker.fresh with alignment := some 14, blockCells := 20, blockMismatches := 15 }
    c.alignment = some 14 ∧ (14 : Fin 16) + 1 = 15 ∧ (15 : Fin 16) + 1 = 0 ∧ 16 ≤ c.blockMismatches + 1 ∧
    ¬ 256 ≤ c.blockCells ∧ 256 ≤ ({ c with blockCells := 256 } : Checker).blockCells ∧
    (testing.dev.pattern.cell 15, cellBit .one) = (false, true) ∧ foundAlignment (Vector.replicate 16 32) = some 0 ∧
    foundAlignment (Vector.replicate 16 31) = none := by decide
/-- EntryRequestsMoveEntries, EntriesAreDefinedAndRead, AFireSettlesThenActs. -/
theorem test_meets_entries : State.reset.dev.schedule.work = none ∧ State.reset.dev.entry 7 = .empty ∧
    (withEntry0 (.held .paused countdown 1)).dev.entry 0 = .held .paused countdown 1 ∧ 7 < (8#8).toNat ∧
    countdown.image.length ∈ [10, 12, 14, 16] ∧ definitionOf countdown.image = some countdown ∧
    definitionOf (countdown.image.set 0 4#8) = none ∧ entryByte 7 = 7#8 ∧ atWork.dev.quiet ∧ atWork.dev.schedule.work ≠ none :=
  ⟨by decide, by decide, by decide, by decide, by decide, by decide, by decide, by decide, rfl, by decide⟩
/-- EntriesAreJudged: a countdown at its last tick, MATCH fields in range, second 60. -/
theorem test_meets_judged : (Entry.held .armed countdown 1).judge (.second ⟨⟨0, 1, 1, 0, 0, 1⟩, 6⟩) = (.held .armed countdown 0, true) ∧
    (EntryKind.atTime (some 59) none (some 23) (.dayOfMonth 31)).ok = true ∧
    (EntryKind.atTime none none none .any).meets (.second ⟨⟨24, 12, 31, 23, 59, 60⟩, 0⟩) = true := by decide
/-- TheTableTakesItsEvents, AFireSettlesThenActs, CountdownsExpireAtTheirTurn. -/
theorem test_meets_table : State.reset.dev.schedule.Wf ∧ State.reset.dev.schedule.seconds = [] ∧
    (withEntry0 (.held .armed countdown 0)).dev.entry 0 = .held .armed countdown 0 ∧ countdown.kind = .countdown .second 2 ∧
    (∀ a ∈ countdown.actions, a ≠ .arm 0 ∧ a ≠ .disarm 0) ∧
    (∀ a ∈ ({ countdown with actions := [.arm 1] } : Definition).actions, ∀ tag, a ≠ .mark tag) ∧
    atWork.dev.schedule.work = some ⟨stamp0, 0, [.turn 0]⟩ :=
  ⟨by intro e; fin_cases e <;> trivial, by decide, by decide, by decide, by decide,
    by intro a ha tag; simp only [List.mem_singleton] at ha; subst ha; simp, by decide⟩
/-- EdgesAreFilteredAndJournalled: the choices at the ends of their range. -/
theorem test_meets_edges : 3 < (4#8).toNat ∧ 3#8 = EdgeChoice.both.code ∧ 0#8 = EdgeChoice.none.code ∧
    State.reset.dev.timebase.oscFault = false := by decide
/-- JournalTakeRemovesTheOldest, JournalConfigSetsThresholdAndPolicy: values at the ends of their ranges. -/
theorem test_meets_journal : (0#8).toNat < 1 ∧ (1 ≤ (1#8).toNat ∧ (15#8).toNat ≤ 15) ∧ 15 < (16#8).toNat ∧ 1 < (2#8).toNat ∧
    (1 ≤ (1#8).toNat ∧ (64#8).toNat ≤ 64) ∧ 64 < (65#8).toNat := by decide
/-- RecordsArriveUnderThePolicyHeld: a record that stays behind none, one that stays behind another, and one that comes before a
MARK by the other alone. -/
theorem test_meets_arrival : (sending.dev.inFlight[1]? = some (laneSent 1 .laneLock false) ∧
      ∀ y ∈ sending.dev.inFlight.take 1, ¬ (laneSent 1 .laneLock false).Behind y) ∧
    (laneSent 2 .intervalClosed true).Behind (laneSent 0 .burst false) ∧
    (laneSent 0 .burst false).byRequest = false ∧ laneSent 2 .intervalClosed true ∈ (splitSent (·.byRequest) sending.dev.inFlight.tail).1 ∧
    fullWrap.dev.journal.policy = .wrap ∧ 64 ≤ fullWrap.dev.journal.records.length ∧ fullWrap.dev.quiet ∧ sending.dev.quiet :=
  ⟨⟨rfl, by intro y hy; obtain rfl : y = laneSent 0 .burst false := by simpa [sending, State.withDev] using hy
            simp [Sent.Behind, laneSent]⟩,
    Or.inr ⟨⟨0, rfl, rfl⟩, Or.inl ⟨by decide, by decide⟩⟩, rfl, by decide, rfl, by decide, rfl, rfl⟩
/-- CapturesAreTakenAbortedAndReported: a slot of each state, a lane that fills, one that waits, one with neither. -/
theorem test_meets_captures : capturing.dev.capture.slots[(1 : SlotNo).val] = .full (aCapture 0 [1#8, 2#8, 3#8]) ∧
    capturing.dev.capture.slots[(2 : SlotNo).val] = .free ∧ slotByte 3 = 3#8 ∧
    (capturing.dev.capture.fillingSlot 1 = none ∧ capturing.dev.capture.entryOf 1 = some ⟨1, .request, stamp0, 0⟩) ∧
    capturing.dev.capture.busy 2 = false := by decide
/-- GrantsServeTheOldestEntry: the entry of `unit1` is granted engine 1 and slot 2. -/
theorem test_meets_grant : unit1.engines[(1 : Fin 2).val] = none ∧ (∀ f : Fin 2, f < 1 → unit1.engines[f.val] ≠ none) ∧
    unit1.slots[(2 : SlotNo).val] = .free ∧ ∀ i : SlotNo, i < 2 → unit1.slots[i.val] ≠ .free := by decide
/-- AttentionLatchesAndReports: sets at the ends of their ranges. -/
theorem test_meets_attention : 1024 ≤ (0#8).toNat + 256 * (4#8).toNat ∧ (255#8).toNat + 256 * (3#8).toNat < 1024 ∧
    1048576 ≤ (0#8).toNat + 256 * (0#8).toNat + 65536 * (16#8).toNat ∧
    (255#8).toNat + 256 * (255#8).toNat + 65536 * (15#8).toNat < 1048576 := by decide
/-- DiscardedFramesRaiseOnePortError: LEN at the ends of its range, a frame that lacks its CHECK. -/
theorem test_meets_port : (1#8).toNat < 2 ∧ 250 < (251#8).toNat ∧ (2 ≤ (2#8).toNat ∧ (250#8).toNat ≤ 250) ∧
    [0x17#8, 0x10#8].length = (2#8).toNat ∧ crc [2#8, 0x17#8, 0x10#8] ≠ 0#8 ∧ FrameFault.wrongCheck ≠ .overrun := by decide
/-- RequestFramesReachTheirOwners. -/
theorem test_meets_frame : State.reset.dev.port.rx = .waiting ∧ Instr.request? (.timeGet 0x17#8 []) = some (0x10#8, 0x17#8, []) := by
  decide
/-- DefinitionImagesAgree. -/
theorem test_meets_definition : countdown.ok = true := by decide
/-- EventsWithNothingToTakeDoNothing. -/
theorem test_meets_nothing : State.reset.dev.inFlight[0]? = none ∧ (∀ x ∈ State.reset.dev.attention.changes, x.cond ≠ 9) ∧
    (∀ e ∈ State.reset.dev.inputs.edges, e.edge.pin ≠ .ext0) := by decide
/-- JournalKeepsItsForm, TheOtherBlocksKeepTheirForm: a journal in hold-off and a step from it. -/
theorem test_meets_journal_form : (⟨[⟨4294967295, Record.restart stamp0 1⟩, ⟨1, Record.restart stamp0 2⟩], 2, .hold, 64, true, 65535⟩ :
    Journal).Wf ∧ step hunting = .next hunting :=
  ⟨⟨by decide, by decide, by decide, by decide, by decide, by decide⟩, rfl⟩
theorem running_wf : (running .monitor .hunt).Wf :=
  ⟨by decide, by decide,
    by intro iv h; obtain rfl : interval0 = iv := by simpa [running] using h
       exact ⟨by decide, by decide, by decide⟩,
    by decide, by decide, by decide, by decide, by decide, by decide, by decide⟩
theorem off_wf : (Lane.afterReset true).Wf :=
  ⟨by decide, by decide, (by intro iv h; cases h), by decide, by decide, by decide, by decide, by decide, by decide, by decide⟩
/-- LanesAndCapturesKeepTheirForm: lane 0 hunting, the others OFF. -/
theorem test_meets_lanes_and_captures_form : hunting.dev.CapturesWf ∧ step hunting = .next hunting :=
  ⟨⟨by intro n; fin_cases n <;> first | exact running_wf | exact off_wf, reset_unit_wf, by decide⟩, rfl⟩

end Sys2Proof.Tests
end

