-- ==== Sys2Proof/Proofs/Records.lean ====
section
namespace Sys2Proof.Machine

open Sys2Proof

/-! ### Records written -/

theorem written_of_append {a b : Device} {added : List Sent} (h : b.inFlight = a.inFlight ++ added) :
    a.written b = added.map (·.record) := by
  simp [Device.written, h]

theorem written_of_inFlight_eq {a b : Device} (h : b.inFlight = a.inFlight) : a.written b = [] := by
  simp [Device.written, h]

@[simp] theorem written_self (d : Device) : d.written d = [] := written_of_inFlight_eq rfl

theorem written_congr {a b a' b' : Device} (ha : a.inFlight = a'.inFlight) (hb : b.inFlight = b'.inFlight) :
    a.written b = a'.written b' := by
  simp [Device.written, ha, hb]

/-- What two pieces of work write, one after the other. -/
theorem written_trans {a b c : Device} (hab : a.inFlight <+: b.inFlight) (hbc : b.inFlight <+: c.inFlight) :
    a.written c = a.written b ++ b.written c := by
  obtain ⟨x, hx⟩ := hab
  obtain ⟨y, hy⟩ := hbc
  have hac : c.inFlight = a.inFlight ++ (x ++ y) := by rw [← hy, ← hx, List.append_assoc]
  rw [written_of_append hac, written_of_append hx.symm, written_of_append hy.symm, List.map_append]

theorem laneRecord_eq_writes (d : Device) (n : LaneNo) (st : Stamp) (k : Kind) (x : Nat) :
    d.laneRecord n st k x = (d.lane n).writes n st k x := rfl

@[simp] theorem written_modLane (a d : Device) (n : LaneNo) (f : Lane → Lane) : a.written (d.modLane n f) = a.written d := rfl

@[simp] theorem modLane_written (d b : Device) (n : LaneNo) (f : Lane → Lane) : (d.modLane n f).written b = d.written b := rfl

@[simp] theorem written_writeLane (d : Device) (n : LaneNo) (st : Stamp) (k : Kind) (x : Nat) :
    d.written (d.writeLane n st k x) = [(d.lane n).writes n st k x] := by
  rw [written_of_append (added := [⟨d.events, (d.lane n).writes n st k x, false, false⟩]) rfl]; rfl

@[simp] theorem written_writeClose (d : Device) (n : LaneNo) (st : Stamp) (k : Kind) (x : Nat) :
    d.written (d.writeClose n st k x) = [(d.lane n).writes n st k x] := by
  rw [written_of_append (added := [⟨d.events, (d.lane n).writes n st k x, false, true⟩]) rfl]; rfl

theorem written_of_claim (a b : Device) : a.written (Device.claim a b) = a.written b := by
  simp only [Device.written, List.map_drop, records_claim]

namespace Device.LaneStep

theorem written_trans {n : LaneNo} {a b c : Device} (h : LaneStep n a b) (k : LaneStep n b c) :
    a.written c = a.written b ++ b.written c := Machine.written_trans h.records k.records

/-- Work of one lane changes its lane, the capture unit and the records on their way alone. -/
theorem frame {n : LaneNo} {d d' : Device} (h : LaneStep n d d') :
    d' = { d with lanes := d'.lanes, capture := d'.capture, inFlight := d'.inFlight } := by
  rcases d with ⟨_, _, _, _, _, _, _, _, _, _, _⟩
  rcases d' with ⟨_, _, _, _, _, _, _, _, _, _, _⟩
  obtain ⟨-, h1, h2, h3, h4, h5, h6, h7, h8, -⟩ := h
  simp only at h1 h2 h3 h4 h5 h6 h7 h8
  subst h1 h2 h3 h4 h5 h6 h7 h8
  rfl

/-- Work that may be ascribed to any lane touches no lane. -/
theorem lane_eq {d d' : Device} (h : ∀ n, LaneStep n d d') (m : LaneNo) : d'.lane m = d.lane m :=
  (h (m + 1)).lanes m (by revert m; decide)

end Device.LaneStep

theorem lanes_ext {a b : Device} (h : ∀ n, a.lane n = b.lane n) : a.lanes = b.lanes :=
  Vector.ext fun i hi => h ⟨i, hi⟩

/-! ### The capture unit's work touches no lane -/

@[simp] theorem lane_grantTest (d : Device) (m : LaneNo) : d.grantTest.lane m = d.lane m :=
  Device.LaneStep.lane_eq (fun n => .grantTest n d) m

@[simp] theorem lane_truncate (d : Device) (n : LaneNo) (st : Stamp) (m : LaneNo) : (d.truncate n st).lane m = d.lane m :=
  Device.LaneStep.lane_eq (fun i => .truncate i n d st) m

@[simp] theorem lane_dropEntry (d : Device) (n : LaneNo) (st : Stamp) (m : LaneNo) : (d.dropEntry n st).lane m = d.lane m :=
  Device.LaneStep.lane_eq (fun i => .dropEntry i n d st) m

@[simp] theorem lane_endCaptures (d : Device) (n : LaneNo) (st : Stamp) (m : LaneNo) :
    (d.endCaptures n st).lane m = d.lane m :=
  Device.LaneStep.lane_eq (fun i => .endCaptures i n d st) m

@[simp] theorem lane_trigger (d : Device) (n : LaneNo) (k : TriggerKind) (st : Stamp) (m : LaneNo) :
    (d.trigger n k st).1.lane m = d.lane m :=
  Device.LaneStep.lane_eq (fun i => .trigger i n d k st) m

@[simp] theorem lane_triggerOrMiss (d : Device) (n : LaneNo) (k : TriggerKind) (st : Stamp) (m : LaneNo) :
    (d.triggerOrMiss n k st).1.lane m = d.lane m :=
  Device.LaneStep.lane_eq (fun i => .triggerOrMiss i n d k st) m

@[simp] theorem lane_captureByte (d : Device) (n : LaneNo) (b : Byte) (st : Stamp) (m : LaneNo) :
    (d.captureByte n b st).lane m = d.lane m :=
  Device.LaneStep.lane_eq (fun i => .captureByte i n d b st) m

@[simp] theorem lane_withCapture (d : Device) (c : CaptureUnit) (m : LaneNo) : ({ d with capture := c } : Device).lane m = d.lane m := rfl

/-! ### Slots, pending entries and captures in progress -/

theorem mem_allSlots (k : SlotNo) : k ∈ allSlots := by revert k; decide

theorem slot_set (v : Vector Slot 4) (k j : SlotNo) (x : Slot) :
    (v.set k.val x)[j.val] = if j = k then x else v[j.val] := by
  by_cases h : j = k
  · subst h; simp
  · have hv : k.val ≠ j.val := fun e => h (Fin.ext e.symm)
    simp [Vector.getElem_set_ne, hv, h]

namespace CaptureUnit

theorem fillingSlot_isSome (c : CaptureUnit) (n : LaneNo) :
    (c.fillingSlot n).isSome = true ↔ ∃ k : SlotNo, (c.slots[k.val]).fillsFor n = true := by
  simp [fillingSlot, List.find?_isSome, mem_allSlots]

theorem entryOf_isSome (c : CaptureUnit) (n : LaneNo) : (c.entryOf n).isSome = true ↔ ∃ w ∈ c.waiting, w.lane = n := by
  simp [entryOf, List.find?_isSome]

/-- A capture in progress (08 R151). -/
theorem busy_iff (c : CaptureUnit) (n : LaneNo) :
    c.busy n = true ↔ (∃ w ∈ c.waiting, w.lane = n) ∨ ∃ k : SlotNo, (c.slots[k.val]).fillsFor n = true := by
  rw [busy, Bool.or_eq_true, entryOf_isSome, fillingSlot_isSome]

theorem busy_congr {c c' : CaptureUnit} {n : LaneNo}
    (h : ((∃ w ∈ c'.waiting, w.lane = n) ∨ ∃ k : SlotNo, (c'.slots[k.val]).fillsFor n = true) ↔
      ((∃ w ∈ c.waiting, w.lane = n) ∨ ∃ k : SlotNo, (c.slots[k.val]).fillsFor n = true)) : c'.busy n = c.busy n :=
  Bool.eq_iff_iff.2 (by rw [busy_iff, busy_iff]; exact h)

theorem fillingSlot_fills {c : CaptureUnit} {n : LaneNo} {k : SlotNo} (h : c.fillingSlot n = some k) :
    (c.slots[k.val]).fillsFor n = true := by
  have := List.find?_some h
  simpa using this

theorem fillsFor_iff (x : Slot) (n : LaneNo) : x.fillsFor n = true ↔ ∃ c, x = .filling c ∧ c.lane = n := by
  cases x <;> simp [Slot.fillsFor]

theorem fillingSlot_filling {c : CaptureUnit} {n : LaneNo} {k : SlotNo} (h : c.fillingSlot n = some k) :
    ∃ x, c.slots[k.val] = .filling x ∧ x.lane = n := (fillsFor_iff _ n).1 (fillingSlot_fills h)

theorem fillingSlot_eq_none {c : CaptureUnit} {n : LaneNo} :
    c.fillingSlot n = none ↔ ∀ k : SlotNo, (c.slots[k.val]).fillsFor n = false := by
  simp [fillingSlot, List.find?_eq_none, mem_allSlots]

theorem entryOf_eq_none {c : CaptureUnit} {n : LaneNo} : c.entryOf n = none ↔ ∀ w ∈ c.waiting, w.lane ≠ n := by
  simp [entryOf, List.find?_eq_none]

/-- The slot that fills for a lane is its one filling slot. -/
theorem fillingSlot_eq {c : CaptureUnit} (h : c.Wf) {n : LaneNo} {k : SlotNo} (hk : (c.slots[k.val]).fillsFor n = true) :
    c.fillingSlot n = some k := by
  have hs : (c.fillingSlot n).isSome = true := (c.fillingSlot_isSome n).2 ⟨k, hk⟩
  obtain ⟨j, hj⟩ := Option.isSome_iff_exists.1 hs
  rw [hj, h.oneFilling n j k (fillingSlot_fills hj) hk]

end CaptureUnit

/-! ### The grant -/

/-- What one grant does: the oldest entry takes a free engine and a free slot, with its lane's sizes (08 R156, R157). -/
theorem grantOne_cases {d d' : Device} (h : d.grantOne = some d') : ∃ (w : Waiting) (rest : List Waiting) (e : Fin 2) (k : SlotNo)
    (c : Capture), d.capture.waiting = w :: rest ∧ d.capture.engines[e.val] = none ∧ d.capture.slots[k.val] = .free ∧
      c.lane = w.lane ∧ c.truncated = false ∧ c.data.length = c.pre ∧ c.pre ≤ (d.lane w.lane).page.capturePre ∧
      c.post = (d.lane w.lane).page.capturePost ∧
      d' = { d with capture := ⟨rest, d.capture.engines.set e.val (some k), d.capture.slots.set k.val (.filling c)⟩ } := by
  unfold Device.grantOne at h
  split at h
  · next w rest e k hw he hk =>
    cases h
    refine ⟨w, rest, e, k, _, hw, ?_, ?_, rfl, rfl, rfl, ?_, rfl, rfl⟩
    · unfold CaptureUnit.freeEngine at he
      split at he
      · next h0 => cases he; simpa using h0
      · split at he
        · next h1 => cases he; simpa using h1
        · cases he
    · have free := List.find?_some hk
      cases hs : d.capture.slots[k.val] <;> simp_all [Slot.isFree]
    · simp only [List.length_drop]; omega
  · cases h

/-- A grant changes the capture unit alone. -/
theorem grantTest_frame (d : Device) : d.grantTest = { d with capture := d.grantTest.capture } := by
  have times : ∀ (k : Nat) (d : Device), Device.grantTimes k d = { d with capture := (Device.grantTimes k d).capture } := by
    intro k
    induction k with
    | zero => intro d; rfl
    | succ k ih =>
      intro d
      unfold Device.grantTimes
      split
      · rfl
      · next d' h =>
        obtain ⟨_, _, _, _, _, -, -, -, -, -, -, -, -, rfl⟩ := grantOne_cases h
        rw [ih]
  exact times 2 d

@[simp] theorem inFlight_grantTest (d : Device) : d.grantTest.inFlight = d.inFlight := by rw [grantTest_frame]
@[simp] theorem lanes_grantTest (d : Device) : d.grantTest.lanes = d.lanes := by rw [grantTest_frame]
@[simp] theorem events_grantTest (d : Device) : d.grantTest.events = d.events := by rw [grantTest_frame]

/-- A property of the capture unit that each grant keeps, the grant test keeps. -/
theorem grantTest_induction {P : Device → Prop} (hP : ∀ d d', d.grantOne = some d' → P d → P d') (d : Device) (h : P d) :
    P d.grantTest := by
  have times : ∀ (k : Nat) (d : Device), P d → P (Device.grantTimes k d) := by
    intro k
    induction k with
    | zero => intro d h; exact h
    | succ k ih =>
      intro d h
      unfold Device.grantTimes
      split
      · exact h
      · next d' hd => exact ih d' (hP d d' hd h)
  exact times 2 d h

/-! ### The pages a grant reads -/

/-- The profiles of every lane are in range (02 R26, R31). -/
def Device.PagesWf (d : Device) : Prop := ∀ n, (d.lane n).pages[0].inRange = true ∧ (d.lane n).pages[1].inRange = true

theorem Profile.sizes_of_inRange {p : Profile} (h : p.inRange = true) :
    p.capturePre ≤ 32 ∧ 1 ≤ p.capturePost ∧ p.capturePost ≤ 96 := by
  simp only [Profile.inRange, Bool.and_eq_true, decide_eq_true_eq] at h
  omega

theorem Lane.page_inRange {l : Lane} (h : l.pages[0].inRange = true ∧ l.pages[1].inRange = true) : l.page.inRange = true := by
  unfold Lane.page
  have cases : ∀ i : Fin 2, (l.pages[i.val]).inRange = true := by
    intro i; fin_cases i
    · exact h.1
    · exact h.2
  exact cases l.live

end Sys2Proof.Machine
end

