-- ==== Sys2Proof/Proofs/CaptureUnit.lean ====
section
namespace Sys2Proof.Machine

open Sys2Proof

/-! ### The capture unit keeps its form -/

namespace CaptureUnit

/-- No lane with a pending entry has a FILLING slot. -/
theorem Wf.pending_notFilling {u : CaptureUnit} (h : u.Wf) {w : Waiting} (hw : w ∈ u.waiting) (k : SlotNo) :
    (u.slots[k.val]).fillsFor w.lane = false := by
  by_contra hk
  exact h.notBoth w.lane ⟨(u.entryOf_isSome _).2 ⟨w, hw, rfl⟩, (u.fillingSlot_isSome _).2 ⟨k, by simpa using hk⟩⟩

/-- The pending list alone changes. -/
theorem Wf.withWaiting {u : CaptureUnit} (h : u.Wf) (ws : List Waiting) (nodup : (ws.map (·.lane)).Nodup)
    (late : ∀ w ∈ ws, w.lateBy ≤ 255) (notFilling : ∀ w ∈ ws, ∀ k : SlotNo, (u.slots[k.val]).fillsFor w.lane = false) :
    ({ u with waiting := ws } : CaptureUnit).Wf where
  onePending := nodup
  bound := h.bound
  apart := h.apart
  oneFilling := h.oneFilling
  notBoth := by
    rintro n ⟨he, hf⟩
    obtain ⟨w, hw, rfl⟩ := (entryOf_isSome _ _).1 he
    obtain ⟨k, hk⟩ := (fillingSlot_isSome _ _).1 hf
    exact absurd hk (by simp [notFilling w hw k])
  sized := h.sized
  late := late

/-- An engine other than the one that is set stays bound as it was. -/
theorem engines_set_eq_some (v : Vector (Option SlotNo) 2) (e : Fin 2) (k j : SlotNo) (he : v[e.val] = none) :
    ((v.set e.val (some k))[0] = some j ∨ (v.set e.val (some k))[1] = some j) ↔ (j = k ∨ v[0] = some j ∨ v[1] = some j) := by
  have sym : (k = j) ↔ (j = k) := eq_comm
  fin_cases e
  · have h0 : v[0] = none := he
    simp [h0, sym]
  · have h1 : v[1] = none := he
    simp [h1, sym, or_comm]

theorem Wf.grant {u : CaptureUnit} (h : u.Wf) {w : Waiting} {rest : List Waiting} {e : Fin 2} {k : SlotNo} {c : Capture}
    (hw : u.waiting = w :: rest) (he : u.engines[e.val] = none) (hk : u.slots[k.val] = .free) (hc : c.lane = w.lane)
    (hs : (Slot.filling c).sized) :
    (⟨rest, u.engines.set e.val (some k), u.slots.set k.val (.filling c)⟩ : CaptureUnit).Wf := by
  have hmem : w ∈ u.waiting := by simp [hw]
  have hnodup : (w.lane :: rest.map (·.lane)).Nodup := by simpa [hw] using h.onePending
  have unbound : ¬ (u.engines[0] = some k ∨ u.engines[1] = some k) := by
    rw [← h.bound k, hk]; simp [Slot.isFilling]
  have fills : ∀ (n : LaneNo) (j : SlotNo), ((u.slots.set k.val (.filling c))[j.val]).fillsFor n = true ↔
      (j = k ∧ n = w.lane) ∨ (j ≠ k ∧ (u.slots[j.val]).fillsFor n = true) := by
    intro n j
    rw [slot_set]
    by_cases hj : j = k
    · simp only [hj, if_true, Slot.fillsFor, hc, decide_eq_true_eq, true_and, ne_eq, not_true_eq_false, false_and, or_false]
      exact eq_comm
    · simp [hj]
  constructor
  · exact (List.nodup_cons.1 hnodup).2
  · intro j
    rw [engines_set_eq_some _ _ _ _ he, slot_set]
    by_cases hj : j = k
    · simp [hj, Slot.isFilling]
    · simp only [hj, if_false, false_or]; exact h.bound j
  · intro heq
    rw [not_or] at unbound
    obtain rfl | rfl : e = 0 ∨ e = 1 := by omega
    · have heq : some k = u.engines[1] := by simpa using heq
      exact absurd heq.symm unbound.2
    · have heq : u.engines[0] = some k := by simpa using heq
      exact absurd heq unbound.1
  · intro n j j' hj hj'
    rcases (fills n j).1 hj with ⟨rfl, rfl⟩ | ⟨hjk, hfill⟩
    · rcases (fills _ j').1 hj' with ⟨rfl, -⟩ | ⟨-, hfill'⟩
      · rfl
      · rw [h.pending_notFilling hmem j'] at hfill'; cases hfill'
    · rcases (fills _ j').1 hj' with ⟨rfl, rfl⟩ | ⟨-, hfill'⟩
      · rw [h.pending_notFilling hmem j] at hfill; cases hfill
      · exact h.oneFilling n j j' hfill hfill'
  · rintro n ⟨hn, hf⟩
    obtain ⟨v, hv, rfl⟩ := (entryOf_isSome _ _).1 hn
    obtain ⟨j, hj⟩ := (fillingSlot_isSome _ _).1 hf
    rcases (fills _ j).1 hj with ⟨-, hvw⟩ | ⟨-, hj⟩
    · exact (List.nodup_cons.1 hnodup).1 (hvw ▸ List.mem_map_of_mem hv)
    · rw [h.pending_notFilling (w := v) (by rw [hw]; exact List.mem_cons_of_mem _ hv) j] at hj; cases hj
  · intro j
    rw [slot_set]
    split
    · exact hs
    · exact h.sized j
  · intro v hv
    exact h.late v (by rw [hw]; exact List.mem_cons_of_mem _ hv)

/-- The engine bound to a slot is freed and no other. -/
theorem ended_engines_eq_some (u : CaptureUnit) (k j : SlotNo) (c : Capture) :
    ((u.ended k c).engines[0] = some j ∨ (u.ended k c).engines[1] = some j) ↔
      (j ≠ k ∧ (u.engines[0] = some j ∨ u.engines[1] = some j)) := by
  have one : ∀ x : Option SlotNo, (if x = some k then none else x) = some j ↔ j ≠ k ∧ x = some j := by
    intro x
    split
    · next h => subst h; simp [eq_comm]
    · next h => exact ⟨fun hx => ⟨fun hj => h (hj ▸ hx), hx⟩, And.right⟩
  simp only [ended, Vector.getElem_mk, List.getElem_toArray, List.getElem_cons_zero, List.getElem_cons_succ, one]
  tauto

theorem Wf.ended {u : CaptureUnit} (h : u.Wf) {k : SlotNo} {c' : Capture}
    (hs : (Slot.full c').sized) : (u.ended k c').Wf := by
  have fills : ∀ (n : LaneNo) (j : SlotNo), (((u.ended k c').slots)[j.val]).fillsFor n = true →
      (u.slots[j.val]).fillsFor n = true := by
    intro n j
    simp only [CaptureUnit.ended]
    rw [slot_set]
    split
    · simp [Slot.fillsFor]
    · exact id
  constructor
  · exact h.onePending
  · intro j
    rw [ended_engines_eq_some, ← h.bound j]
    simp only [CaptureUnit.ended]
    rw [slot_set]
    by_cases hj : j = k
    · simp [hj, Slot.isFilling]
    · simp [hj]
  · intro heq
    simp only [CaptureUnit.ended, Vector.getElem_mk, List.getElem_toArray, List.getElem_cons_zero, List.getElem_cons_succ] at heq ⊢
    split at heq
    · next h0 => simp [h0]
    · next h0 =>
      split at heq
      · simp [heq]
      · simp [h.apart heq]
  · intro n j j' hj hj'
    exact h.oneFilling n j j' (fills n j hj) (fills n j' hj')
  · rintro n ⟨hn, hf⟩
    obtain ⟨j, hj⟩ := (fillingSlot_isSome _ _).1 hf
    exact h.notBoth n ⟨hn, (fillingSlot_isSome _ _).2 ⟨j, fills n j hj⟩⟩
  · intro j
    simp only [CaptureUnit.ended]
    rw [slot_set]
    split
    · exact hs
    · exact h.sized j
  · exact h.late

/-- A slot's content changes, but neither whether it is FILLING nor for which lane. -/
theorem Wf.setSlot {u : CaptureUnit} (h : u.Wf) (k : SlotNo) {x : Slot} (hx : x.isFilling = (u.slots[k.val]).isFilling)
    (hf : ∀ n, x.fillsFor n = (u.slots[k.val]).fillsFor n) (hs : x.sized) : (u.setSlot k x).Wf := by
  have get : ∀ j : SlotNo, (u.setSlot k x).slots[j.val] = if j = k then x else u.slots[j.val] := fun j => slot_set _ _ _ _
  have same : ∀ (n : LaneNo) (j : SlotNo), ((u.setSlot k x).slots[j.val]).fillsFor n = (u.slots[j.val]).fillsFor n := by
    intro n j
    rw [get]
    split
    · next hj => subst hj; exact hf n
    · rfl
  constructor
  · exact h.onePending
  · intro j
    rw [show (u.setSlot k x).engines = u.engines from rfl, ← h.bound j, get]
    split
    · next hj => subst hj; rw [hx]
    · rfl
  · exact h.apart
  · intro n j j' hj hj'
    rw [same] at hj hj'
    exact h.oneFilling n j j' hj hj'
  · rintro n ⟨hn, hf⟩
    obtain ⟨j, hj⟩ := (fillingSlot_isSome _ _).1 hf
    rw [same] at hj
    exact h.notBoth n ⟨hn, (fillingSlot_isSome _ _).2 ⟨j, hj⟩⟩
  · intro j
    rw [get]
    split
    · exact hs
    · exact h.sized j
  · exact h.late

end CaptureUnit

end Sys2Proof.Machine
end

