-- ==== Sys2Proof/Proofs/CaptureStep.lean ====
section
namespace Sys2Proof.Machine

open Sys2Proof

/-- Work of lane `n` that keeps what the capture unit and its users rely on: no profile changes, the unit keeps its form, the
other lanes keep a capture in progress or have none as before, and a FULL slot stays as it is. -/
structure Device.CaptureStep (n : LaneNo) (d d' : Device) : Prop where
  pages : ∀ m, (d'.lane m).pages = (d.lane m).pages
  wf : d.PagesWf → d.capture.Wf → d'.capture.Wf
  busy : ∀ m, m ≠ n → d'.capture.busy m = d.capture.busy m
  full : ∀ (k : SlotNo) (c : Capture), d.capture.slots[k.val] = .full c → d'.capture.slots[k.val] = .full c

/-! ### One grant -/

theorem busy_grantOne {d d' : Device} (h : d.grantOne = some d') (n : LaneNo) : d'.capture.busy n = d.capture.busy n := by
  obtain ⟨w, rest, e, k, c, hw, -, hk, hc, -, -, -, -, rfl⟩ := grantOne_cases h
  have fills : ∀ j : SlotNo, ((d.capture.slots.set k.val (.filling c))[j.val]).fillsFor n = true ↔
      (j = k ∧ w.lane = n) ∨ (d.capture.slots[j.val]).fillsFor n = true := by
    intro j
    rw [slot_set]
    by_cases hj : j = k
    · subst hj; simp [Slot.fillsFor, hc, hk]
    · simp [hj]
  refine CaptureUnit.busy_congr ?_
  simp only [fills, hw, List.mem_cons, exists_or, or_and_right, exists_eq_left]
  exact or_assoc.symm.trans (or_congr or_comm Iff.rfl)

theorem full_grantOne {d d' : Device} (h : d.grantOne = some d') (k : SlotNo) (c : Capture)
    (hf : d.capture.slots[k.val] = .full c) : d'.capture.slots[k.val] = .full c := by
  obtain ⟨w, rest, e, j, x, -, -, hj, -, -, -, -, -, rfl⟩ := grantOne_cases h
  rw [slot_set]
  split
  · next hkj => subst hkj; rw [hj] at hf; cases hf
  · exact hf

theorem wf_grantOne {d d' : Device} (h : d.grantOne = some d') (hp : d.PagesWf) (hu : d.capture.Wf) : d'.capture.Wf := by
  obtain ⟨w, rest, e, k, c, hw, he, hk, hc, ht, hl, hpre, hpost, rfl⟩ := grantOne_cases h
  obtain ⟨pre, post, post'⟩ := Profile.sizes_of_inRange (Lane.page_inRange (hp w.lane))
  exact hu.grant hw he hk hc ⟨ht, by omega, by omega, by omega, by omega⟩

@[simp] theorem busy_grantTest (d : Device) (n : LaneNo) : d.grantTest.capture.busy n = d.capture.busy n :=
  grantTest_induction (P := fun x => x.capture.busy n = d.capture.busy n) (fun _ _ h k => (busy_grantOne h n).trans k) d rfl

theorem full_grantTest (d : Device) (k : SlotNo) (c : Capture) (h : d.capture.slots[k.val] = .full c) :
    d.grantTest.capture.slots[k.val] = .full c :=
  grantTest_induction (P := fun x => x.capture.slots[k.val] = .full c) (fun _ _ h => full_grantOne h k c) d h

theorem wf_grantTest (d : Device) (hp : d.PagesWf) (h : d.capture.Wf) : d.grantTest.capture.Wf := by
  refine (grantTest_induction (P := fun x => x.PagesWf ∧ x.capture.Wf) (fun x x' hx hw => ⟨?_, wf_grantOne hx hw.1 hw.2⟩) d
    ⟨hp, h⟩).2
  obtain ⟨_, _, _, _, _, -, -, -, -, -, -, -, -, rfl⟩ := grantOne_cases hx
  exact hw.1

/-! ### The end of a capture -/

theorem endCapture_eq (d : Device) (k : SlotNo) (c : Capture) (t : Bool) (st : Stamp) : d.endCapture k c t st =
    Device.grantTest (Device.writePlain { d with capture := d.capture.ended k { c with truncated := t } } .capture st .captureDone
      (captureDoneDetail k t)) := rfl

/-- The slot that fills for the lane ends truncated; a lane without one has nothing to end (08 R160). -/
theorem truncate_cases (d : Device) (n : LaneNo) (st : Stamp) :
    (d.capture.fillingSlot n = none ∧ d.truncate n st = d) ∨
    ∃ k c, d.capture.fillingSlot n = some k ∧ d.capture.slots[k.val] = .filling c ∧ c.lane = n ∧
      d.truncate n st = d.endCapture k c true st := by
  unfold Device.truncate
  split
  · next h => exact .inl ⟨h, rfl⟩
  · next k h =>
    obtain ⟨c, hc, hn⟩ := CaptureUnit.fillingSlot_filling h
    exact .inr ⟨k, c, h, hc, hn, by rw [hc]⟩

/-- A byte for a lane goes to its FILLING slot, if it has one (08 R158, R159). -/
theorem captureByte_cases (d : Device) (n : LaneNo) (b : Byte) (st : Stamp) :
    (d.capture.fillingSlot n = none ∧ d.captureByte n b st = d) ∨
    ∃ k c, d.capture.fillingSlot n = some k ∧ d.capture.slots[k.val] = .filling c ∧ c.lane = n ∧ d.captureByte n b st =
      if c.data.length + 1 - c.pre = c.post then d.endCapture k { c with data := c.data ++ [b] } false st
      else { d with capture := d.capture.setSlot k (.filling { c with data := c.data ++ [b] }) } := by
  unfold Device.captureByte
  split
  · next h => exact .inl ⟨h, rfl⟩
  · next k h =>
    obtain ⟨c, hc, hn⟩ := CaptureUnit.fillingSlot_filling h
    exact .inr ⟨k, c, h, hc, hn, by rw [hc]; simp⟩

theorem busy_ended (u : CaptureUnit) {k : SlotNo} {c c' : Capture} {m : LaneNo} (hk : u.slots[k.val] = .filling c)
    (hm : m ≠ c.lane) : (u.ended k c').busy m = u.busy m := by
  refine CaptureUnit.busy_congr (or_congr Iff.rfl (exists_congr fun j => ?_))
  simp only [CaptureUnit.ended]
  rw [slot_set]
  split
  · next hj => subst hj; simp [hk, Slot.fillsFor, hm.symm]
  · rfl

namespace Device.CaptureStep

theorem refl (n : LaneNo) (d : Device) : CaptureStep n d d := ⟨fun _ => rfl, fun _ h => h, fun _ _ => rfl, fun _ _ h => h⟩

theorem trans {n : LaneNo} {a b c : Device} (h : CaptureStep n a b) (k : CaptureStep n b c) : CaptureStep n a c where
  pages := fun m => (k.pages m).trans (h.pages m)
  wf := fun hp hu => k.wf (fun m => by rw [h.pages m]; exact hp m) (h.wf hp hu)
  busy := fun m hm => (k.busy m hm).trans (h.busy m hm)
  full := fun i c hc => k.full i c (h.full i c hc)

theorem ite {n : LaneNo} {d a b : Device} {p : Prop} [Decidable p] (ha : CaptureStep n d a) (hb : CaptureStep n d b) :
    CaptureStep n d (if p then a else b) := by
  split <;> assumption

theorem modLane (n : LaneNo) (d : Device) (f : Lane → Lane) (hf : ∀ l, (f l).pages = l.pages := by intros; rfl) :
    CaptureStep n d (d.modLane n f) where
  pages := fun m => by
    rw [lane_modLane]
    split
    · next h => subst h; exact hf _
    · rfl
  wf := fun _ h => h
  busy := fun _ _ => rfl
  full := fun _ _ h => h

theorem modInterval (n : LaneNo) (d : Device) (f : OpenInterval → OpenInterval) : CaptureStep n d (d.modInterval n f) :=
  modLane n d _

theorem send (n : LaneNo) (d : Device) (r : Record) (c : Bool) : CaptureStep n d (d.send r c) :=
  ⟨fun _ => rfl, fun _ h => h, fun _ _ => rfl, fun _ _ h => h⟩

theorem writeClose (n m : LaneNo) (d : Device) (st : Stamp) (k : Kind) (x : Nat) : CaptureStep n d (d.writeClose m st k x) :=
  send n d _ _

theorem writeLane (n m : LaneNo) (d : Device) (st : Stamp) (k : Kind) (x : Nat) : CaptureStep n d (d.writeLane m st k x) :=
  send n d _ _

theorem grantTest (n : LaneNo) (d : Device) : CaptureStep n d d.grantTest :=
  ⟨fun m => by simp, wf_grantTest d, fun m _ => busy_grantTest d m, full_grantTest d⟩

/-- The end of a capture that fills for the lane. -/
theorem endCapture (d : Device) {k : SlotNo} {c c' : Capture} (t : Bool) (st : Stamp)
    (hk : d.capture.slots[k.val] = .filling c) (hs : (Slot.filling c).sized → (Slot.full { c' with truncated := t }).sized) :
    CaptureStep c.lane d (d.endCapture k c' t st) := by
  rw [endCapture_eq]
  refine trans ?_ (grantTest _ _)
  refine ⟨fun _ => rfl, fun _ h => ?_, fun m hm => ?_, fun j x hj => ?_⟩
  · exact h.ended (hs (hk ▸ h.sized k))
  · exact busy_ended d.capture hk hm
  · change (d.capture.slots.set k.val _)[j.val] = _
    rw [slot_set]
    split
    · next h => subst h; rw [hk] at hj; cases hj
    · exact hj

theorem truncate (n : LaneNo) (d : Device) (st : Stamp) : CaptureStep n d (d.truncate n st) := by
  obtain ⟨-, h⟩ | ⟨k, c, -, hk, rfl, h⟩ := truncate_cases d n st <;> rw [h]
  · exact refl n d
  · refine endCapture d true st hk fun hs => ?_
    obtain ⟨-, h1, h2, h3, h4⟩ := hs
    exact ⟨h1, h2, h3, by simp only; omega, fun h => by cases h⟩

theorem dropEntry (n : LaneNo) (d : Device) (st : Stamp) : CaptureStep n d (d.dropEntry n st) := by
  unfold Device.dropEntry
  split
  · exact refl n d
  · refine trans ?_ (writeLane n n _ _ _ _)
    refine ⟨fun _ => rfl, fun _ h => ?_, fun m hm => ?_, fun _ _ h => h⟩
    · have sub : (d.capture.waiting.filter fun v => decide (v.lane ≠ n)).Sublist d.capture.waiting := List.filter_sublist
      exact h.withWaiting _ ((sub.map _).nodup h.onePending) (fun w hw => h.late w (sub.mem hw))
        (fun w hw => h.pending_notFilling (sub.mem hw))
    · refine CaptureUnit.busy_congr (or_congr ?_ Iff.rfl)
      simp only [List.mem_filter, decide_eq_true_eq]
      exact ⟨fun ⟨w, hw, hm⟩ => ⟨w, hw.1, hm⟩, fun ⟨w, hw, hwm⟩ => ⟨w, ⟨hw, fun e => hm (hwm.symm.trans e)⟩, hwm⟩⟩

theorem endCaptures (n : LaneNo) (d : Device) (st : Stamp) : CaptureStep n d (d.endCaptures n st) :=
  (truncate n d st).trans (dropEntry n _ st)

theorem trigger (n : LaneNo) (d : Device) (kind : TriggerKind) (st : Stamp) : CaptureStep n d (d.trigger n kind st).1 := by
  unfold Device.trigger
  split
  · exact refl n d
  · next hb =>
    rw [CaptureUnit.busy_iff, not_or] at hb
    obtain ⟨hw, hk⟩ := hb
    refine trans ?_ (grantTest n _)
    refine ⟨fun _ => rfl, fun _ h => ?_, fun m hm => ?_, fun _ _ h => h⟩
    · refine h.withWaiting _ ?_ ?_ ?_
      · rw [List.map_append, List.nodup_append]
        exact ⟨h.onePending, by simp, by simpa using fun w hw' e => hw ⟨w, hw', e⟩⟩
      · intro w hw'
        rcases List.mem_append.1 hw' with hw' | hw'
        · exact h.late w hw'
        · simp at hw'; simp [hw']
      · intro w hw' k
        rcases List.mem_append.1 hw' with hw' | hw'
        · exact h.pending_notFilling hw' k
        · simp at hw'; simpa [hw'] using fun e => hk ⟨k, e⟩
    · refine CaptureUnit.busy_congr (or_congr ?_ Iff.rfl)
      simp only [List.mem_append, List.mem_singleton, or_and_right, exists_or, exists_eq_left, hm.symm, or_false]

theorem triggerOrMiss (n : LaneNo) (d : Device) (kind : TriggerKind) (st : Stamp) :
    CaptureStep n d (d.triggerOrMiss n kind st).1 := by
  unfold Device.triggerOrMiss
  split
  · exact writeLane n n d _ _ _
  · exact trigger n d kind st

theorem captureByte (n : LaneNo) (d : Device) (b : Byte) (st : Stamp) : CaptureStep n d (d.captureByte n b st) := by
  obtain ⟨-, h⟩ | ⟨k, c, -, hk, rfl, h⟩ := captureByte_cases d n b st <;> rw [h]
  · exact refl _ d
  · split
    · next hl =>
      refine endCapture d false st hk fun hs => ?_
      obtain ⟨-, h1, h2, h3, h4⟩ := hs
      refine ⟨h1, h2, ?_, ?_, fun _ => ?_⟩ <;> simp only [List.length_append, List.length_singleton] <;> omega
    · next hl =>
      have fills : ∀ m, (Slot.filling { c with data := c.data ++ [b] }).fillsFor m = (d.capture.slots[k.val]).fillsFor m := by
        intro m; rw [hk]; rfl
      refine ⟨fun _ => rfl, fun _ h => ?_, fun m _ => ?_, fun j x hj => ?_⟩
      · refine h.setSlot k (by rw [hk]; rfl) fills ?_
        obtain ⟨h0, h1, h2, h3, h4⟩ := (hk ▸ h.sized k : (Slot.filling c).sized)
        refine ⟨h0, h1, h2, ?_, ?_⟩ <;> simp only [List.length_append, List.length_singleton] <;> omega
      · refine CaptureUnit.busy_congr (or_congr Iff.rfl (exists_congr fun j => ?_))
        simp only [CaptureUnit.setSlot]
        rw [slot_set]
        split
        · next hj => subst hj; rw [fills]
        · rfl
      · simp only [CaptureUnit.setSlot]
        rw [slot_set]
        split
        · next h => subst h; rw [hk] at hj; cases hj
        · exact hj

theorem later (n : LaneNo) (d : Device) : CaptureStep n d { d with capture := d.capture.later n } := by
  have lane : ∀ w : Waiting, (if w.lane = n then { w with lateBy := min (w.lateBy + 1) Config.lateMax } else w).lane = w.lane := by
    intro w; split <;> rfl
  refine ⟨fun _ => rfl, fun _ h => h.withWaiting _ ?_ ?_ ?_, fun m _ => ?_, fun _ _ h => h⟩
  · rw [List.map_map]
    simpa [Function.comp_def, lane] using h.onePending
  · intro w hw
    obtain ⟨v, hv, rfl⟩ := List.mem_map.1 hw
    have := h.late v hv
    split
    · simp only [Config.lateMax]; omega
    · exact this
  · intro w hw
    obtain ⟨v, hv, rfl⟩ := List.mem_map.1 hw
    rw [lane]; exact h.pending_notFilling hv
  · refine CaptureUnit.busy_congr (or_congr ?_ Iff.rfl)
    simp [CaptureUnit.later, lane]

end Device.CaptureStep
end Sys2Proof.Machine
end

