-- ==== Sys2Proof/Proofs/CaptureFrame.lean ====
section
namespace Sys2Proof.Machine

open Sys2Proof

/-! ### The work of a lane keeps the capture unit's form -/

namespace Device.CaptureStep

theorem burstTest (n : LaneNo) (d : Device) (x : Nat) (st : Stamp) : CaptureStep n d (d.burstTest n x st) := by
  unfold Device.burstTest
  dsimp only
  split
  · exact ((modInterval n d _).trans (writeLane n n _ _ _ _)).trans (ite (triggerOrMiss n _ _ st) (refl n _))
  · exact refl n d

theorem addX (n : LaneNo) (d : Device) (st : Stamp) : CaptureStep n d (d.addX n st) := by
  unfold Device.addX
  split
  · exact refl n d
  · split
    · exact refl n d
    · dsimp only
      exact ((modInterval n d _).trans (burstTest n _ _ st)).trans
        (ite ((modInterval n _ _).trans (writeLane n n _ _ _ _)) (refl n _))

theorem addY (n : LaneNo) (d : Device) (st : Stamp) : CaptureStep n d (d.addY n st) := by
  unfold Device.addY
  split
  · exact refl n d
  · split
    · exact refl n d
    · dsimp only
      exact (modInterval n d _).trans (ite ((modInterval n _ _).trans (writeLane n n _ _ _ _)) (refl n _))

theorem countError (n : LaneNo) (d : Device) (e : LineError) (st : Stamp) : CaptureStep n d (d.countError n e st) := by
  unfold Device.countError
  dsimp only
  exact (ite (addX n d st) (refl n d)).trans (ite (addY n _ st) (refl n _))

theorem countUnit (n : LaneNo) (d : Device) : CaptureStep n d (d.countUnit n) := modInterval n d _

theorem reportUnlock (n : LaneNo) (d : Device) : CaptureStep n d (d.reportUnlock n) := modInterval n d _

theorem reportNoSignal (n : LaneNo) (d : Device) : CaptureStep n d (d.reportNoSignal n) := modInterval n d _

theorem pushClosed (n : LaneNo) (d : Device) (r : ClosedInterval) (st : Stamp) : CaptureStep n d (d.pushClosed n r st) := by
  unfold Device.pushClosed
  dsimp only
  split
  · exact modLane n d _
  · exact ((modLane n d _).trans (writeClose n n _ _ _ _)).trans (modLane n _ _)

theorem swapInOff (n : LaneNo) (d : Device) (st : Stamp) : CaptureStep n d (d.swapInOff n st) :=
  (modLane n d _).trans (writeLane n n _ _ _ _)

theorem emptyAndTruncate (n : LaneNo) (d : Device) (f : Lane → Lane) (st : Stamp)
    (hf : ∀ l, (f l).pages = l.pages := by intros; rfl) : CaptureStep n d ((d.modLane n f).truncate n st) :=
  (modLane n d f hf).trans (truncate n _ st)

theorem restartReceiver (n : LaneNo) (d : Device) (st : Stamp) : CaptureStep n d (d.restartReceiver n st) := by
  unfold Device.restartReceiver
  dsimp only
  exact (((ite (reportUnlock n d) (refl n d)).trans (emptyAndTruncate n _ _ st)).trans (modLane n _ _)).trans
    (ite (writeLane n n _ _ _ _) (refl n _))

theorem restartChecker (n : LaneNo) (d : Device) (b : Bool) (st : Stamp) : CaptureStep n d (d.restartChecker n b st) := by
  unfold Device.restartChecker
  dsimp only
  exact ((((ite (reportUnlock n d) (refl n d)).trans (emptyAndTruncate n _ _ st)).trans (modLane n _ _)).trans
    (ite (modLane n _ _) (refl n _))).trans (ite (writeLane n n _ _ _ _) (refl n _))

theorem swapAtClose (n : LaneNo) (d : Device) (r : CloseReason) (st : Stamp) : CaptureStep n d (d.swapAtClose n r st) := by
  unfold Device.swapAtClose
  dsimp only
  refine ((modLane n d _).trans (writeClose n n _ _ _ _)).trans (ite (refl n _) ?_)
  split
  · exact refl n _
  · exact restartReceiver n _ st
  · exact restartChecker n _ _ st

theorem close (n : LaneNo) (d : Device) (r : CloseReason) (stop start : Stamp) : CaptureStep n d (d.close n r stop start) := by
  unfold Device.close
  dsimp only
  split
  · exact refl n d
  · exact (((pushClosed n d _ stop).trans (ite (writeClose n n _ _ _ _) (refl n _))).trans (modLane n _ _)).trans
      (ite (swapAtClose n _ r start) (refl n _))

theorem handByte (n : LaneNo) (d : Device) (b : Byte) (p : Bool) (st : Stamp) : CaptureStep n d (d.handByte n b p st) := by
  unfold Device.handByte
  dsimp only
  refine (modLane n d fun l => { l with history := pushHistory l.history b }).trans ?_
  split
  · split
    · exact triggerOrMiss n _ _ st
    · exact ((triggerOrMiss n _ _ st).trans (captureByte n _ _ st)).trans (later n _)
  · split
    · exact refl n _
    · exact (captureByte n _ _ st).trans (later n _)

theorem handSyncBytes (n : LaneNo) (d : Device) (w : List Cell) (st : Stamp) : CaptureStep n d (d.handSyncBytes n w st) :=
  (handByte n d _ _ st).trans (handByte n _ _ _ st)

theorem loseSignal (n : LaneNo) (d : Device) (st : Stamp) : CaptureStep n d (d.loseSignal n st) := by
  unfold Device.loseSignal
  dsimp only
  exact ((((reportNoSignal n d).trans (ite (reportUnlock n _) (refl n _))).trans
    (ite (emptyAndTruncate n _ _ st) (refl n _))).trans (modLane n _ _)).trans (writeLane n n _ _ _ _)

theorem noSignalCell (n : LaneNo) (d : Device) (c : Cell) (st : Stamp) : CaptureStep n d (d.noSignalCell n c st) := by
  unfold Device.noSignalCell
  dsimp only
  exact ite (modLane n d _) (ite (modLane n d _) ((modLane n d _).trans (writeLane n n _ _ _ _)))

theorem runStep (n : LaneNo) (d : Device) (c : Cell) (st : Stamp) : CaptureStep n d (d.runStep n c st) := by
  unfold Device.runStep
  dsimp only
  exact ite (ite (((modLane n d _).trans (ite (countError n _ _ st) (refl n _))).trans
    (ite (loseSignal n _ st) (refl n _))) (refl n d)) (modLane n d _)

theorem huntCell (n : LaneNo) (d : Device) (c : Cell) (st : Stamp) : CaptureStep n d (d.huntCell n c st) := by
  unfold Device.huntCell
  dsimp only
  exact ite (ite (((modLane n d _).trans (handSyncBytes n _ _ st)).trans (writeLane n n _ _ _ _)) (modLane n d _))
    (modLane n d _)

theorem loseLock (n : LaneNo) (d : Device) (st : Stamp) : CaptureStep n d (d.loseLock n st) :=
  (((reportUnlock n d).trans (emptyAndTruncate n _ _ st)).trans (modLane n _ _)).trans (writeLane n n _ _ _ _)

theorem frameCheck (n : LaneNo) (d : Device) (st : Stamp) : CaptureStep n d (d.frameCheck n st) := by
  unfold Device.frameCheck
  dsimp only
  split
  · exact ((countUnit n d).trans (modLane n _ _)).trans (handSyncBytes n _ _ st)
  · exact ((modLane n d _).trans (countError n _ _ st)).trans (ite (handSyncBytes n _ _ st) (loseLock n _ st))

theorem lockedCell (n : LaneNo) (d : Device) (c : Cell) (st : Stamp) : CaptureStep n d (d.lockedCell n c st) := by
  unfold Device.lockedCell
  dsimp only
  exact (modLane n d _).trans (ite (frameCheck n _ st) (ite (handByte n _ _ _ st) (refl n _)))

theorem searchCell (n : LaneNo) (d : Device) (c : Cell) (st : Stamp) : CaptureStep n d (d.searchCell n c st) := by
  unfold Device.searchCell
  dsimp only
  split
  · exact modLane n d _
  · exact (modLane n d _).trans (writeLane n n _ _ _ _)

theorem loseTrack (n : LaneNo) (d : Device) (st : Stamp) : CaptureStep n d (d.loseTrack n st) :=
  (((reportUnlock n d).trans (emptyAndTruncate n _ _ st)).trans (modLane n _ _)).trans (writeLane n n _ _ _ _)

theorem trackCell (n : LaneNo) (d : Device) (c : Cell) (st : Stamp) : CaptureStep n d (d.trackCell n c st) := by
  unfold Device.trackCell
  dsimp only
  refine ((modLane n d fun l => { l with checker := ((d.lane n).checker.track d.pattern (d.lane n).page.invert c).1 }).trans
    (ite (countError n _ _ st) (refl n _))).trans (ite (loseTrack n _ st) ?_)
  exact (ite (countUnit n _) (refl n _)).trans (ite (handByte n _ _ _ st) (refl n _))

theorem lineCell (n : LaneNo) (d : Device) (c : Cell) (st : Stamp) : CaptureStep n d (d.lineCell n c st) := by
  unfold Device.lineCell
  split
  · exact refl n d
  · exact refl n d
  · exact huntCell n d c st
  · exact lockedCell n d c st
  · exact searchCell n d c st
  · exact trackCell n d c st

/-- The whole work for a cell stays inside its lane (01 R3). -/
theorem takeCell (n : LaneNo) (d : Device) (c : Cell) (st : Stamp) : CaptureStep n d (d.takeCell n c st) := by
  have work : CaptureStep n d (((if c = .violation then d.countError n .code st else d).runStep n c st).lineCell n c st) :=
    ((ite (countError n d _ st) (refl n d)).trans (runStep n _ c st)).trans (lineCell n _ c st)
  unfold Device.takeCell
  split
  · exact refl n d
  · exact noSignalCell n d c st
  · exact work
  · exact work
  · exact work
  · exact work

theorem transmit (n : LaneNo) (d : Device) (st : Stamp) : CaptureStep n d (d.transmit n st) := by
  unfold Device.transmit
  dsimp only
  exact (modLane n d _).trans (ite (writeLane n n _ _ _ _) (refl n _))

theorem startLane (n : LaneNo) (d : Device) (st : Stamp) : CaptureStep n d (d.startLane n st).1 := by
  unfold Device.startLane
  split
  · exact (modLane n d _).trans (writeLane n n _ _ _ _)
  · exact refl n d
  · exact refl n d

theorem cancelInsert (n : LaneNo) (d : Device) (st : Stamp) : CaptureStep n d (d.cancelInsert n st) := by
  unfold Device.cancelInsert
  exact ite ((modLane n d _).trans (writeLane n n _ _ _ _)) (refl n d)

theorem stopSequence (n : LaneNo) (d : Device) (st : Stamp) : CaptureStep n d (d.stopSequence n st) := by
  unfold Device.stopSequence
  dsimp only
  exact ((((ite ((writeLane n n d _ _ _).trans (cancelInsert n _ st)) (refl n d)).trans (endCaptures n _ st)).trans
    (close n _ _ st st)).trans (modLane n _ _)).trans ((modLane n _ _).trans (writeLane n n _ _ _ _))

theorem stopLane (n : LaneNo) (d : Device) (st : Stamp) : CaptureStep n d (d.stopLane n st).1 := by
  unfold Device.stopLane
  split
  · exact refl n d
  · exact stopSequence n d st
  · exact stopSequence n d st

theorem endTest (n : LaneNo) (d : Device) (why : TestEnd) (st : Stamp) : CaptureStep n d (d.endTest n why st) := by
  unfold Device.endTest
  dsimp only
  exact (((((close n d _ st st).trans (cancelInsert n _ st)).trans (endCaptures n _ st)).trans (modLane n _ _)).trans
    (ite (reportUnlock n _) (refl n _))).trans (writeLane n n _ _ _ _)

theorem takeFault (n : LaneNo) (d : Device) (st : Stamp) : CaptureStep n d (d.takeFault n st) :=
  ((modLane n d _).trans (writeLane n n _ _ _ _)).trans (endTest n _ _ st)

theorem beginTest (n : LaneNo) (d : Device) (o : Origin) (st : Stamp) : CaptureStep n d (d.beginTest n o st) := by
  unfold Device.beginTest
  dsimp only
  exact ((((close n d _ st st).trans (endCaptures n _ st)).trans (modLane n _ _)).trans (writeLane n n _ _ _ _)).trans
    (ite (refl n _) (takeFault n _ st))

theorem testStart (n : LaneNo) (d : Device) (o : Origin) (st : Stamp) : CaptureStep n d (d.testStart n o st).1 := by
  unfold Device.testStart
  split
  · exact refl n d
  · exact refl n d
  · split
    · exact refl n d
    · exact beginTest n d o st

theorem testStop (n : LaneNo) (d : Device) (o : Origin) (st : Stamp) : CaptureStep n d (d.testStop n o st).1 := by
  unfold Device.testStop
  split
  · exact refl n d
  · exact refl n d
  · exact endTest n d _ st

theorem insert (n : LaneNo) (d : Device) : CaptureStep n d (d.insert n).1 := by
  unfold Device.insert
  split
  · exact refl n d
  · exact refl n d
  · split
    · exact refl n d
    · dsimp only; exact modLane n d _

theorem closeByRequest (n : LaneNo) (d : Device) (o : Origin) (st : Stamp) : CaptureStep n d (d.closeByRequest n o st).1 := by
  unfold Device.closeByRequest
  split
  · exact refl n d
  · exact close n d _ st st
  · exact close n d _ st st

theorem captureByRequest (n : LaneNo) (d : Device) (o : Origin) (st : Stamp) :
    CaptureStep n d (d.captureByRequest n o st).1 := by
  unfold Device.captureByRequest
  split
  · exact refl n d
  · exact trigger n d _ st
  · exact trigger n d _ st

theorem armSwap (n : LaneNo) (d : Device) (st : Stamp) : CaptureStep n d (d.armSwap n st).1 := by
  unfold Device.armSwap
  split
  · exact swapInOff n d st
  · dsimp only; exact modLane n d _
  · dsimp only; exact modLane n d _

theorem cancelSwap (n : LaneNo) (d : Device) : CaptureStep n d (d.cancelSwap n).1 := by
  unfold Device.cancelSwap
  split
  · exact refl n d
  · dsimp only; exact modLane n d _
  · dsimp only; exact modLane n d _

/-- An operation on a lane, asked for by the host or by an entry, stays inside that lane (01 R15, R16). -/
theorem laneAction (n : LaneNo) (d : Device) (a : LaneAction) (o : Origin) (st : Stamp) :
    CaptureStep n d (d.laneAction a n o st).1 := by
  cases a
  · exact closeByRequest n d o st
  · exact armSwap n d st
  · exact testStart n d o st
  · exact testStop n d o st
  · exact insert n d
  · exact captureByRequest n d o st

/-- The accounting unit's work at a second arrival stays inside its lane (03 R52). -/
theorem boundary (n : LaneNo) (d : Device) (a : Arrival) : CaptureStep n d (d.boundary n a) := by
  unfold Device.boundary
  split
  · exact refl n d
  · exact refl n d
  · exact ite (close n d _ _ _) (refl n d)
  · exact ite (close n d _ _ _) (refl n d)

end Device.CaptureStep
end Sys2Proof.Machine
end

