-- ==== Sys2Proof/Proofs/Accounting.lean ====
section
namespace Sys2Proof.Machine

open Sys2Proof

/-! ### What counting makes of a lane (03 R45 to R49) -/

/-- Slot X of an open interval after one more error (03 R45 to R47). -/
def OpenInterval.addX (iv : OpenInterval) (threshold : Option Nat) : OpenInterval :=
  if iv.xSaturated then iv
  else { iv with
    x := iv.x + 1
    burstReported := iv.burstReported || decide (threshold = some (iv.x + 1))
    xSaturated := decide (iv.x + 1 = 65535) }

/-- Slot Y of an open interval after one more error (03 R45, R46). -/
def OpenInterval.addY (iv : OpenInterval) : OpenInterval :=
  if iv.ySaturated then iv else { iv with y := iv.y + 1, ySaturated := decide (iv.y + 1 = 65535) }

/-- An open interval after an error that its slots may be bound to (01 R13, 03 R45). -/
def OpenInterval.counting (iv : OpenInterval) (p : Profile) (e : LineError) : OpenInterval :=
  let iv := if p.slotX.counts e then iv.addX p.burstThreshold else iv
  if p.slotY.counts e then iv.addY else iv

/-- The lane after an error handed over to its accounting unit. -/
def Lane.counting (l : Lane) (e : LineError) : Lane :=
  { l with interval := l.interval.map fun iv => iv.counting l.page e }

theorem lane_modInterval_same (d : Device) (n : LaneNo) (f : OpenInterval → OpenInterval) :
    (d.modInterval n f).lane n = { d.lane n with interval := (d.lane n).interval.map f } := lane_modLane_same _ _ _

theorem Lane.with_interval {l : Lane} {x : Option OpenInterval} (h : l.interval = x) : ({ l with interval := x } : Lane) = l := by
  subst h; rfl

theorem lane_burstTest (d : Device) (n : LaneNo) (x : Nat) (st : Stamp) : (d.burstTest n x st).lane n = { d.lane n with
    interval := (d.lane n).interval.map fun iv =>
      { iv with burstReported := iv.burstReported || decide ((d.lane n).page.burstThreshold = some x) } } := by
  unfold Device.burstTest
  dsimp only
  split
  · next h =>
    obtain ⟨ht, -⟩ := h
    have set : ((d.modInterval n fun iv => { iv with burstReported := true }).writeLane n st .burst x).lane n =
        { d.lane n with interval := (d.lane n).interval.map fun iv => { iv with burstReported := true } } := by
      simp [lane_modInterval_same]
    split <;> simp only [lane_triggerOrMiss, set, ht, decide_true, Bool.or_true]
  · next h =>
    refine (Lane.with_interval ?_).symm
    cases hi : (d.lane n).interval with
    | none => rfl
    | some iv =>
      simp only [hi, Option.map_some, Option.getD_some, not_and, Bool.not_eq_false] at h
      have same : (iv.burstReported || decide ((d.lane n).page.burstThreshold = some x)) = iv.burstReported := by
        cases hb : iv.burstReported <;> simp_all
      rw [Option.map_some, same]

theorem lane_addX (d : Device) (n : LaneNo) (st : Stamp) : (d.addX n st).lane n = { d.lane n with
    interval := (d.lane n).interval.map fun iv => iv.addX (d.lane n).page.burstThreshold } := by
  unfold Device.addX OpenInterval.addX
  cases hi : (d.lane n).interval with
  | none => exact (Lane.with_interval hi).symm
  | some iv =>
    dsimp only
    split
    · next h => simp only [Option.map_some, h, if_true]; exact (Lane.with_interval hi).symm
    · next h =>
      have counted : ((d.modInterval n fun jv => { jv with x := iv.x + 1 }).burstTest n (iv.x + 1) st).lane n = { d.lane n with
          interval := some { iv with
            x := iv.x + 1
            burstReported := iv.burstReported || decide ((d.lane n).page.burstThreshold = some (iv.x + 1)) } } := by
        rw [lane_burstTest, lane_modInterval_same, hi]; rfl
      have fresh : iv.xSaturated = false := by simpa using h
      split
      · next hx =>
        have hx : iv.x + 1 = 65535 := hx
        rw [lane_writeLane, lane_modInterval_same, counted]; simpa [fresh] using hx
      · next hx =>
        have hx : ¬ iv.x + 1 = 65535 := hx
        rw [counted]; simpa [fresh] using hx

theorem lane_addY (d : Device) (n : LaneNo) (st : Stamp) : (d.addY n st).lane n = { d.lane n with
    interval := (d.lane n).interval.map OpenInterval.addY } := by
  unfold Device.addY OpenInterval.addY
  cases hi : (d.lane n).interval with
  | none => exact (Lane.with_interval hi).symm
  | some iv =>
    dsimp only
    split
    · next h => simp only [Option.map_some, h, if_true]; exact (Lane.with_interval hi).symm
    · next h =>
      have fresh : iv.ySaturated = false := by simpa using h
      have counted : (d.modInterval n fun jv => { jv with y := iv.y + 1 }).lane n =
          { d.lane n with interval := some { iv with y := iv.y + 1 } } := by
        rw [lane_modInterval_same, hi]; rfl
      split
      · next hy =>
        have hy : iv.y + 1 = 65535 := hy
        rw [lane_writeLane, lane_modInterval_same, counted]; simpa [fresh] using hy
      · next hy =>
        have hy : ¬ iv.y + 1 = 65535 := hy
        rw [counted]; simpa [fresh] using hy

/-- An error handed over changes the open interval of its lane and nothing else in it (03 R45). -/
theorem lane_countError (d : Device) (n : LaneNo) (e : LineError) (st : Stamp) :
    (d.countError n e st).lane n = (d.lane n).counting e := by
  unfold Device.countError Lane.counting OpenInterval.counting
  have hx : (if (d.lane n).page.slotX.counts e = true then d.addX n st else d).lane n = { d.lane n with
      interval := (d.lane n).interval.map fun iv =>
        if (d.lane n).page.slotX.counts e then iv.addX (d.lane n).page.burstThreshold else iv } := by
    split
    · exact lane_addX d n st
    · simp
  dsimp only
  generalize (if (d.lane n).page.slotX.counts e = true then d.addX n st else d) = d1 at hx ⊢
  have hp : (d1.lane n).page = (d.lane n).page := by rw [hx]; rfl
  rw [hp]
  split
  · rw [lane_addY, hx]; simp [Function.comp_def]
  · rw [hx]

@[simp] theorem counting_page (l : Lane) (e : LineError) : (l.counting e).page = l.page := rfl

/-! ### The form of the open interval -/

theorem OpenInterval.Wf.addX {iv : OpenInterval} (h : iv.Wf) (t : Option Nat) : (iv.addX t).Wf := by
  unfold OpenInterval.addX
  split
  · exact h
  · next hs =>
    obtain ⟨⟨hx, hi⟩, hy, hu⟩ := h
    have : iv.x ≠ 65535 := fun e => hs (hi.2 e)
    exact ⟨⟨by simp only; omega, by simp⟩, hy, hu⟩

theorem OpenInterval.Wf.addY {iv : OpenInterval} (h : iv.Wf) : iv.addY.Wf := by
  unfold OpenInterval.addY
  split
  · exact h
  · next hs =>
    obtain ⟨hx, ⟨hy, hi⟩, hu⟩ := h
    have : iv.y ≠ 65535 := fun e => hs (hi.2 e)
    exact ⟨hx, ⟨by simp only; omega, by simp⟩, hu⟩

theorem OpenInterval.Wf.counting {iv : OpenInterval} (h : iv.Wf) (p : Profile) (e : LineError) : (iv.counting p e).Wf := by
  unfold OpenInterval.counting
  dsimp only
  split <;> split
  · exact OpenInterval.Wf.addY (OpenInterval.Wf.addX h _)
  · exact OpenInterval.Wf.addY h
  · exact OpenInterval.Wf.addX h _
  · exact h

theorem newInterval_wf (st : Stamp) : (newInterval st).Wf := ⟨by simp [newInterval], by simp [newInterval], by simp [newInterval]⟩

/-- A change of the open interval that keeps its form keeps the lane's. -/
theorem Lane.Wf.mapInterval {l : Lane} (h : l.Wf) {f : OpenInterval → OpenInterval} (hf : ∀ iv, iv.Wf → (f iv).Wf) :
    ({ l with interval := l.interval.map f } : Lane).Wf :=
  { h with
    opened := by simpa using h.opened
    interval := fun iv hi => by
      obtain ⟨jv, hj, rfl⟩ := Option.map_eq_some_iff.1 hi
      exact hf jv (h.interval jv hj) }

theorem Lane.Wf.counting {l : Lane} (h : l.Wf) (e : LineError) : (l.counting e).Wf := h.mapInterval fun _ hi => hi.counting _ _

theorem wf_lostLock {iv : OpenInterval} (h : iv.Wf) : ({ iv with lostLock := true } : OpenInterval).Wf := ⟨h.x, h.y, h.units⟩

theorem wf_lostSignal {iv : OpenInterval} (h : iv.Wf) : ({ iv with lostSignal := true } : OpenInterval).Wf := ⟨h.x, h.y, h.units⟩

theorem wf_unit {iv : OpenInterval} (h : iv.Wf) :
    ({ iv with units := min (iv.units + 1) Config.countMax } : OpenInterval).Wf :=
  ⟨h.x, h.y, by simp only [Config.countMax]; omega⟩

/-! ### What a close makes of a lane (03 R55 to R59, 02 R34 to R37) -/

/-- The lane with its open interval closed and the next one open, its pending swap not yet carried out (03 R55). -/
def Lane.intervalClosed (l : Lane) (n : LaneNo) (iv : OpenInterval) (reason : CloseReason) (stop start : Stamp) : Lane :=
  { l with
    number := (l.number + 1) % 65536
    interval := if reason = .stopped then none else some (newInterval start)
    ring := l.closedRing n iv reason stop }

/-- The device with the lane's open interval closed, its pending swap not yet carried out (03 R55). -/
def Device.intervalClosed (d : Device) (n : LaneNo) (iv : OpenInterval) (reason : CloseReason) (stop start : Stamp) : Device :=
  let l := d.lane n
  let d := d.pushClosed n (l.closedRecord n iv reason stop) stop
  let d := if l.page.journalCloses then d.writeClose n stop .intervalClosed l.number else d
  d.modLane n fun l => { l with
    number := (l.number + 1) % 65536
    interval := if reason = .stopped then none else some (OpenInterval.fresh start) }

theorem lane_pushClosed (d : Device) (n : LaneNo) (r : ClosedInterval) (st : Stamp) : (d.pushClosed n r st).lane n = { d.lane n with
    ring := (if (d.lane n).ring.length < 8 then (d.lane n).ring else (d.lane n).ring.tail) ++ [r] } := by
  unfold Device.pushClosed
  dsimp only
  split
  · next h => simp [Config.ringCapacity] at h; simp [lane_modLane_same, h]
  · next h => simp [Config.ringCapacity] at h; simp [lane_modLane_same, Nat.not_lt.2 h]

theorem written_pushClosed (d : Device) (n : LaneNo) (r : ClosedInterval) (st : Stamp) : d.written (d.pushClosed n r st) =
    recordIf (decide (8 ≤ (d.lane n).ring.length))
      ((d.lane n).writes n st .ringOverrun (((d.lane n).ring.head?.map (·.number)).getD 0)) := by
  unfold Device.pushClosed
  dsimp only
  split
  · next h =>
    simp only [Config.ringCapacity] at h
    simp [recordIf, Nat.not_le.2 h]
  · next h =>
    simp only [Config.ringCapacity, Nat.not_lt] at h
    simp only [recordIf, h, decide_true, if_true]
    rw [written_modLane, ← modLane_written d _ n fun l => { l with ring := l.ring.tail }, written_writeClose, lane_modLane_same]
    rfl

theorem close_none {d : Device} {n : LaneNo} (h : (d.lane n).interval = none) (reason : CloseReason) (stop start : Stamp) :
    d.close n reason stop start = d := by
  unfold Device.close; simp only [h]

theorem lane_intervalClosed (d : Device) (n : LaneNo) (iv : OpenInterval) (reason : CloseReason) (stop start : Stamp) :
    (d.intervalClosed n iv reason stop start).lane n = (d.lane n).intervalClosed n iv reason stop start := by
  have push (d' : Device) (h : d'.lane n = (d.pushClosed n ((d.lane n).closedRecord n iv reason stop) stop).lane n) :
      (d'.modLane n fun l => { l with
        number := (l.number + 1) % 65536
        interval := if reason = .stopped then none else some (OpenInterval.fresh start) }).lane n =
        (d.lane n).intervalClosed n iv reason stop start := by
    rw [lane_modLane_same, h, lane_pushClosed]; rfl
  unfold Device.intervalClosed
  dsimp only
  split
  · exact push _ (lane_writeClose _ _ _ _ _ _)
  · exact push _ rfl

theorem written_intervalClosed (d : Device) (n : LaneNo) (iv : OpenInterval) (reason : CloseReason) (stop start : Stamp) :
    d.written (d.intervalClosed n iv reason stop start) =
      recordIf (decide (8 ≤ (d.lane n).ring.length))
        ((d.lane n).writes n stop .ringOverrun (((d.lane n).ring.head?.map (·.number)).getD 0)) ++
      recordIf (d.lane n).page.journalCloses ((d.lane n).writes n stop .intervalClosed (d.lane n).number) := by
  unfold Device.intervalClosed
  dsimp only
  rw [written_modLane]
  split
  · next h =>
    rw [(Device.LaneStep.pushClosed n d _ stop).written_trans (.writeClose n n _ _ _ _), written_pushClosed, written_writeClose,
      lane_pushClosed]
    simp [recordIf, h, Lane.writes]
  · next h => simp [written_pushClosed, recordIf, h]

/-- A close closes the interval, and then carries out a pending swap. -/
theorem close_some {d : Device} {n : LaneNo} {iv : OpenInterval} (h : (d.lane n).interval = some iv) (reason : CloseReason)
    (stop start : Stamp) : d.close n reason stop start =
      if (d.lane n).swapPending then (d.intervalClosed n iv reason stop start).swapAtClose n reason start
      else d.intervalClosed n iv reason stop start := by
  have hs : ((d.intervalClosed n iv reason stop start).lane n).swapPending = (d.lane n).swapPending := by
    rw [lane_intervalClosed]; rfl
  rw [← hs]
  unfold Device.close
  simp only [h]
  rfl

end Sys2Proof.Machine
end

