-- ==== Sys2Proof/Proofs/Closes.lean ====
section
namespace Sys2Proof.Machine

open Sys2Proof

/-! ### The pending swap of a close (02 R34 to R37) -/

/-- The lane with its pages exchanged and the flag clear (02 R34). -/
def Lane.exchanged (l : Lane) : Lane := { l with live := l.idle, swapPending := false }

/-- lost_lock is set in the open interval, if one is open (03 R49). -/
def Lane.lostLock (l : Lane) : Lane := { l with interval := l.interval.map fun iv => { iv with lostLock := true } }

/-- The receive side starts afresh with an empty history; a lane that was assembling has lost its lock (02 R36, R37). -/
def Lane.restarted (l : Lane) (line : LineState) (lost : Bool) : Lane :=
  { (if lost then l.lostLock else l) with history := [], rx := Receiver.fresh, line := line }

/-- A lane in MONITOR after a restart (02 R36). -/
def Lane.receiverRestarted (l : Lane) : Lane := l.restarted .hunt (decide (l.line = .locked))

/-- A lane in TEST after a restart (02 R37). -/
def Lane.checkerRestarted (l : Lane) (newRate : Bool) : Lane :=
  { l.restarted .search (decide (l.line = .track)) with
    checker := Checker.fresh
    tx := if newRate then { l.tx with position := 0 } else l.tx }

/-- The lane after the swap that its close carries out (02 R34 to R37). -/
def Lane.swappedAtClose (l : Lane) (reason : CloseReason) : Lane :=
  if reason.ofModeChange || l.page.sameLine l.exchanged.page then l.exchanged
  else match l.mode with
    | .off => l.exchanged
    | .monitor => l.exchanged.receiverRestarted
    | .test => l.exchanged.checkerRestarted (decide (l.page.bitRate ≠ l.exchanged.page.bitRate))

/-- The lane after a close; without an open interval there is none (03 R55). -/
def Lane.afterClose (l : Lane) (n : LaneNo) (reason : CloseReason) (stop start : Stamp) : Lane :=
  match l.interval with
  | none => l
  | some iv =>
    if l.swapPending then (l.intervalClosed n iv reason stop start).swappedAtClose reason
    else l.intervalClosed n iv reason stop start

theorem lane_exchangePages (d : Device) (n : LaneNo) : (d.exchangePages n).lane n = (d.lane n).exchanged := lane_modLane_same _ _ _

theorem lane_reportUnlock (d : Device) (n : LaneNo) : (d.reportUnlock n).lane n = (d.lane n).lostLock := lane_modInterval_same _ _ _

theorem lane_reportUnlock_if (d : Device) (n : LaneNo) (b : Bool) :
    (if b then d.reportUnlock n else d).lane n = if b then (d.lane n).lostLock else d.lane n := by
  cases b
  · rfl
  · exact lane_reportUnlock d n

theorem lane_restartReceiver (d : Device) (n : LaneNo) (st : Stamp) :
    (d.restartReceiver n st).lane n = (d.lane n).receiverRestarted := by
  unfold Device.restartReceiver Lane.receiverRestarted Lane.restarted
  generalize decide ((d.lane n).line = .locked) = lost
  cases lost <;>
    simp only [lane_writeLane, lane_modLane_same, lane_truncate, lane_reportUnlock, if_true, Bool.false_eq_true, if_false]

theorem lane_restartChecker (d : Device) (n : LaneNo) (b : Bool) (st : Stamp) :
    (d.restartChecker n b st).lane n = (d.lane n).checkerRestarted b := by
  unfold Device.restartChecker Lane.checkerRestarted Lane.restarted
  generalize decide ((d.lane n).line = .track) = lost
  cases lost <;> cases b <;>
    simp only [lane_writeLane, lane_modLane_same, lane_truncate, lane_reportUnlock, if_true, Bool.false_eq_true, if_false] <;> rfl

theorem lane_swapAtClose (d : Device) (n : LaneNo) (reason : CloseReason) (st : Stamp) :
    (d.swapAtClose n reason st).lane n = (d.lane n).swappedAtClose reason := by
  unfold Device.swapAtClose Lane.swappedAtClose
  simp only [lane_writeClose, lane_exchangePages]
  split
  · exact lane_exchangePages d n
  · rw [show (d.lane n).exchanged.mode = (d.lane n).mode from rfl]
    cases (d.lane n).mode
    · exact lane_exchangePages d n
    · simp only [lane_restartReceiver, lane_writeClose, lane_exchangePages]
    · simp only [lane_restartChecker, lane_writeClose, lane_exchangePages]

/-- What a close makes of its lane (03 R55 to R59). -/
theorem lane_close (d : Device) (n : LaneNo) (reason : CloseReason) (stop start : Stamp) :
    (d.close n reason stop start).lane n = (d.lane n).afterClose n reason stop start := by
  unfold Lane.afterClose
  cases hi : (d.lane n).interval with
  | none => rw [close_none hi]
  | some iv =>
    rw [close_some hi]
    dsimp only
    split
    · rw [lane_swapAtClose, lane_intervalClosed]
    · exact lane_intervalClosed d n iv reason stop start

/-- A close at a change of mode swaps without a restart (02 R35, R39). -/
theorem swapAtClose_modeChange (d : Device) (n : LaneNo) {reason : CloseReason} (h : reason.ofModeChange = true) (st : Stamp) :
    d.swapAtClose n reason st = (d.exchangePages n).writeClose n st .pageSwapped ((d.exchangePages n).lane n).live.val := by
  simp [Device.swapAtClose, h]

@[simp] theorem capture_intervalClosed (d : Device) (n : LaneNo) (iv : OpenInterval) (reason : CloseReason) (stop start : Stamp) :
    (d.intervalClosed n iv reason stop start).capture = d.capture := by
  unfold Device.intervalClosed Device.pushClosed
  dsimp only
  split <;> split <;> rfl

/-- A close at a change of mode leaves the capture unit alone. -/
theorem capture_close_modeChange (d : Device) (n : LaneNo) {reason : CloseReason} (h : reason.ofModeChange = true)
    (stop start : Stamp) : (d.close n reason stop start).capture = d.capture := by
  cases hi : (d.lane n).interval with
  | none => rw [close_none hi]
  | some iv =>
    rw [close_some hi]
    split
    · rw [swapAtClose_modeChange _ _ h]; exact capture_intervalClosed d n iv reason stop start
    · exact capture_intervalClosed d n iv reason stop start

theorem laneStep_intervalClosed (d : Device) (n : LaneNo) (iv : OpenInterval) (reason : CloseReason) (stop start : Stamp) :
    Device.LaneStep n d (d.intervalClosed n iv reason stop start) := by
  unfold Device.intervalClosed
  dsimp only
  exact ((Device.LaneStep.pushClosed n d _ stop).trans (.ite (.writeClose n n _ _ _ _) (.refl n _))).trans (.modLane n _ _)

/-- What a close at a change of mode writes (03 R55, R56, R59). -/
theorem written_close_modeChange (d : Device) (n : LaneNo) {reason : CloseReason} (h : reason.ofModeChange = true)
    (stop start : Stamp) {iv : OpenInterval} (hi : (d.lane n).interval = some iv) :
    d.written (d.close n reason stop start) = (d.lane n).closeRecords n stop start := by
  have step := laneStep_intervalClosed d n iv reason stop start
  have swap (x : Lane) (hx : x = (d.lane n).intervalClosed n iv reason stop start) :
      x.exchanged.writes n start .pageSwapped x.exchanged.live.val =
      ({ d.lane n with live := 1 - (d.lane n).live, swapPending := false, number := ((d.lane n).number + 1) % 65536
                       interval := none } : Lane).writes n start .pageSwapped (1 - (d.lane n).live).val := by
    subst hx
    unfold Lane.writes Lane.exchanged Lane.intervalClosed Lane.idle
    dsimp only
    split
    · split <;> rfl
    · rfl
  rw [close_some hi, Lane.closeRecords]
  split
  · next hs =>
    rw [swapAtClose_modeChange _ _ h]
    have exchange : Device.LaneStep n d ((d.intervalClosed n iv reason stop start).exchangePages n) :=
      step.trans (.modLane n _ _)
    rw [exchange.written_trans (.writeClose n n _ _ _ _), written_writeClose, lane_exchangePages, lane_intervalClosed, swap _ rfl]
    have closed : d.written ((d.intervalClosed n iv reason stop start).exchangePages n) = _ :=
      written_intervalClosed d n iv reason stop start
    rw [closed, hs]
    rfl
  · next hs =>
    rw [written_intervalClosed]
    simp [recordIf, hs]

/-! ### The end of a lane's captures (01 R19, R20) -/

/-- Two devices whose lanes give a grant the same sizes and bytes. -/
def Device.SameSizes (d d' : Device) (m : LaneNo) : Prop :=
  (d.lane m).live = (d'.lane m).live ∧ (d.lane m).pages = (d'.lane m).pages ∧ (d.lane m).history = (d'.lane m).history

theorem grantOne_congr {d d' : Device} (hc : d.capture = d'.capture)
    (hl : ∀ w ∈ d.capture.waiting, d.SameSizes d' w.lane) :
    (d.grantOne.map (·.capture)) = (d'.grantOne.map (·.capture)) := by
  unfold Device.grantOne
  rw [← hc]
  split
  · next w rest e k hw _ _ =>
    obtain ⟨h1, h2, h3⟩ := hl w (by simp [hw])
    simp [Lane.page, h1, h2, h3]
  · rfl

/-- The grant test reads the capture unit and the lanes that wait in it. -/
theorem capture_grantTest_congr {d d' : Device} (hc : d.capture = d'.capture)
    (hl : ∀ w ∈ d.capture.waiting, d.SameSizes d' w.lane) : d.grantTest.capture = d'.grantTest.capture := by
  have times : ∀ (k : Nat) (d d' : Device), d.capture = d'.capture → (∀ w ∈ d.capture.waiting, d.SameSizes d' w.lane) →
      (Device.grantTimes k d).capture = (Device.grantTimes k d').capture := by
    intro k
    induction k with
    | zero => intro d d' hc _; exact hc
    | succ k ih =>
      intro d d' hc hl
      have one := grantOne_congr hc hl
      unfold Device.grantTimes
      cases hd : d.grantOne with
      | none => cases hd' : d'.grantOne with
        | none => exact hc
        | some e' => rw [hd, hd'] at one; cases one
      | some e => cases hd' : d'.grantOne with
        | none => rw [hd, hd'] at one; cases one
        | some e' =>
          rw [hd, hd'] at one
          obtain ⟨w, rest, _, _, _, hw, -, -, -, -, -, -, -, rfl⟩ := grantOne_cases hd
          obtain ⟨_, _, _, _, _, -, -, -, -, -, -, -, -, rfl⟩ := grantOne_cases hd'
          refine ih _ _ (Option.some.inj one) fun v hv => ?_
          exact hl v (by rw [hw]; exact List.mem_cons_of_mem _ hv)
  exact times 2 d d' hc hl

theorem truncatedCapture_congr {d d' : Device} (hc : d.capture = d'.capture) (n : LaneNo)
    (hl : ∀ k, d.capture.fillingSlot n = some k → ∀ w ∈ d.capture.waiting, d.SameSizes d' w.lane) :
    d.truncatedCapture n = d'.truncatedCapture n := by
  unfold Device.truncatedCapture
  rw [← hc]
  split
  · rfl
  · next k hk =>
    split
    · exact capture_grantTest_congr rfl (hl k hk)
    · rfl

/-- The unit after a lane's FILLING capture has been ended. -/
theorem capture_truncate (d : Device) (n : LaneNo) (st : Stamp) : (d.truncate n st).capture = d.truncatedCapture n := by
  unfold Device.truncatedCapture
  obtain ⟨hs, h⟩ | ⟨k, c, hs, hk, -, h⟩ := truncate_cases d n st <;> rw [h, hs]
  simp only [hk, endCapture_eq]
  exact capture_grantTest_congr rfl fun _ _ => ⟨rfl, rfl, rfl⟩

theorem written_truncate (d : Device) (n : LaneNo) (st : Stamp) :
    d.written (d.truncate n st) = d.capture.truncatedRecords n st := by
  unfold CaptureUnit.truncatedRecords
  obtain ⟨hs, h⟩ | ⟨k, c, hs, -, -, h⟩ := truncate_cases d n st <;> rw [h, hs]
  · exact written_self d
  · rw [endCapture_eq]
    exact written_of_append (added := [⟨d.events, ⟨st, .capture, .captureDone, k.val + 32768, none⟩, false, false⟩])
      (by rw [inFlight_grantTest]; rfl)

theorem capture_dropEntry (d : Device) (n : LaneNo) (st : Stamp) :
    (d.dropEntry n st).capture = { d.capture with waiting := d.capture.waiting.filter fun w => decide (w.lane ≠ n) } := by
  unfold Device.dropEntry
  split
  · next h =>
    have all : (d.capture.waiting.filter fun w => decide (w.lane ≠ n)) = d.capture.waiting :=
      List.filter_eq_self.2 fun w hw => by simpa using CaptureUnit.entryOf_eq_none.1 h w hw
    rw [all]
  · rfl

theorem capture_endCaptures (d : Device) (n : LaneNo) (st : Stamp) : (d.endCaptures n st).capture = d.endedCapture n := by
  rw [Device.endCaptures, capture_dropEntry, capture_truncate]; rfl

/-- A lane whose capture fills has no pending entry, and gets none. -/
theorem busy_endedCapture (d : Device) (n : LaneNo) (h : d.capture.Wf) : (d.endedCapture n).busy n = false := by
  have notFilling : ∀ k : SlotNo, ((d.truncatedCapture n).slots[k.val]).fillsFor n = false := by
    intro k
    unfold Device.truncatedCapture
    split
    · next hs => exact CaptureUnit.fillingSlot_eq_none.1 hs k
    · next j hs =>
      obtain ⟨c, hc, hn⟩ := CaptureUnit.fillingSlot_filling hs
      have idle : (d.capture.ended j { c with truncated := true }).busy n = false := by
        rw [Bool.eq_false_iff, ne_eq, CaptureUnit.busy_iff, not_or]
        refine ⟨fun ⟨w, hw, hwn⟩ => ?_, fun ⟨i, hi⟩ => ?_⟩
        · have := h.pending_notFilling hw j
          rw [hwn, CaptureUnit.fillingSlot_fills hs] at this; cases this
        · simp only [CaptureUnit.ended] at hi
          rw [slot_set] at hi
          split at hi
          · cases hi
          · next hij => exact hij (h.oneFilling n i j hi (CaptureUnit.fillingSlot_fills hs))
      rw [hc]
      by_contra hk
      have busy := (CaptureUnit.busy_iff _ n).2 (.inr ⟨k, by simpa using hk⟩)
      rw [busy_grantTest] at busy
      rw [idle] at busy; cases busy
  rw [Bool.eq_false_iff, ne_eq, CaptureUnit.busy_iff, not_or]
  refine ⟨?_, fun ⟨k, hk⟩ => ?_⟩
  · rintro ⟨w, hw, rfl⟩
    have := (List.mem_filter.1 hw).2
    simp at this
  · have hk : ((d.truncatedCapture n).slots[k.val]).fillsFor n = true := hk
    rw [notFilling k] at hk; cases hk

/-- The pending entry of a lane stands while its other captures end. -/
theorem entryOf_truncate (d : Device) (n : LaneNo) (st : Stamp) (h : d.capture.notBothFor n) :
    (d.truncate n st).capture.entryOf n = d.capture.entryOf n := by
  obtain ⟨-, ht⟩ | ⟨k, c, hs, -, -, ht⟩ := truncate_cases d n st
  · rw [ht]
  · have none : d.capture.entryOf n = none := by
      by_contra he
      exact h ⟨Option.isSome_iff_ne_none.2 he, by rw [hs]; rfl⟩
    rw [none, CaptureUnit.entryOf_eq_none, ht, endCapture_eq]
    refine grantTest_induction (P := fun x => ∀ w ∈ x.capture.waiting, w.lane ≠ n) (fun x x' hx hw => ?_) _
      (CaptureUnit.entryOf_eq_none.1 none)
    obtain ⟨w, rest, _, _, _, hwr, -, -, -, -, -, -, -, rfl⟩ := grantOne_cases hx
    exact fun v hv => hw v (by rw [hwr]; exact List.mem_cons_of_mem _ hv)

theorem written_endCaptures (d : Device) (n : LaneNo) (st : Stamp) (h : d.capture.notBothFor n) :
    d.written (d.endCaptures n st) = d.capture.endRecords n (d.lane n) st := by
  have drop : (d.truncate n st).written ((d.truncate n st).dropEntry n st) =
      match d.capture.entryOf n with
      | some w => [(d.lane n).writes n st .captureDropped w.kind.code]
      | none => [] := by
    unfold Device.dropEntry
    rw [entryOf_truncate d n st h]
    cases d.capture.entryOf n with
    | none => exact written_self _
    | some w =>
      exact (written_congr rfl rfl).trans ((written_writeLane (d.truncate n st) n st .captureDropped w.kind.code).trans
        (by rw [lane_truncate]))
  unfold Device.endCaptures CaptureUnit.endRecords
  exact ((Device.LaneStep.truncate n n d st).written_trans (.dropEntry n n _ st)).trans
    (congrArg₂ (· ++ ·) (written_truncate d n st) drop)

theorem CaptureUnit.Wf.notBothFor {u : CaptureUnit} (h : u.Wf) (n : LaneNo) : u.notBothFor n := h.notBoth n

/-- The unit after a lane's captures have ended depends on the lanes that wait in it alone. -/
theorem endedCapture_congr {d d' : Device} (hc : d.capture = d'.capture) (n : LaneNo)
    (hl : ∀ k, d.capture.fillingSlot n = some k → ∀ w ∈ d.capture.waiting, d.SameSizes d' w.lane) :
    d.endedCapture n = d'.endedCapture n := by
  unfold Device.endedCapture
  rw [truncatedCapture_congr hc n hl]

/-- Where a capture of the lane fills, no entry that waits is the lane's, so only other lanes count. -/
theorem endedCapture_congr_of_others {d d' : Device} (hc : d.capture = d'.capture) {n : LaneNo} (h : d.capture.notBothFor n)
    (hl : ∀ m, m ≠ n → d.lane m = d'.lane m) : d.endedCapture n = d'.endedCapture n := by
  refine endedCapture_congr hc n fun k hk w hw => ?_
  have hm : w.lane ≠ n := fun e => h ⟨(d.capture.entryOf_isSome n).2 ⟨w, hw, e⟩, by rw [hk]; rfl⟩
  rw [Device.SameSizes, hl _ hm]
  exact ⟨rfl, rfl, rfl⟩

end Sys2Proof.Machine
end

