-- ==== Sys2Proof/Proofs/Modes.lean ====
section
namespace Sys2Proof.Machine

open Sys2Proof

/-! ### What a change of mode makes of a lane (01 R17 to R20, 07 R144, R145) -/

/-- The lane after the close of a change of mode, which swaps without a restart (02 R35, R39). -/
def Lane.modeClosed (l : Lane) (n : LaneNo) (reason : CloseReason) (st : Stamp) : Lane :=
  match l.interval with
  | none => l
  | some iv => { l.intervalClosed n iv reason st st with live := l.swappedLive, swapPending := false }

theorem afterClose_modeChange (l : Lane) (n : LaneNo) {reason : CloseReason} (h : reason.ofModeChange = true) (st : Stamp) :
    l.afterClose n reason st st = l.modeClosed n reason st := by
  unfold Lane.afterClose Lane.modeClosed Lane.swappedLive
  cases hi : l.interval with
  | none => rfl
  | some iv =>
    dsimp only
    cases hs : l.swapPending with
    | false =>
      simp only [Bool.false_eq_true, if_false]
      rw [← hs]; rfl
    | true => simp [Lane.swappedAtClose, h]; rfl

theorem lane_close_modeChange (d : Device) (n : LaneNo) {reason : CloseReason} (h : reason.ofModeChange = true) (st : Stamp) :
    (d.close n reason st st).lane n = (d.lane n).modeClosed n reason st := by
  rw [lane_close, afterClose_modeChange _ n h]

/-- The lane without a pending insertion (07 R145). -/
def Lane.insertCancelled (l : Lane) : Lane := { l with tx := { l.tx with insertPending := false } }

theorem lane_cancelInsert (d : Device) (n : LaneNo) (st : Stamp) :
    (d.cancelInsert n st).lane n = (d.lane n).insertCancelled := by
  unfold Device.cancelInsert Lane.insertCancelled
  split
  · rw [lane_writeLane, lane_modLane_same]
  · next h => rw [← Bool.eq_false_iff.2 h]

theorem written_cancelInsert (d : Device) (n : LaneNo) (st : Stamp) :
    d.written (d.cancelInsert n st) = recordIf (d.lane n).tx.insertPending ((d.lane n).writes n st .insertCancelled 0) := by
  unfold Device.cancelInsert recordIf
  split
  · rw [← modLane_written d _ n fun l => { l with tx := { l.tx with insertPending := false } }, written_writeLane,
      lane_modLane_same]
    rfl
  · exact written_self d

@[simp] theorem capture_cancelInsert (d : Device) (n : LaneNo) (st : Stamp) : (d.cancelInsert n st).capture = d.capture := by
  unfold Device.cancelInsert
  split <;> rfl

/-- The lane after the stop sequence (01 R19). -/
def Lane.stopped (l : Lane) (n : LaneNo) (st : Stamp) : Lane :=
  { l.modeClosed n .stopped st with txFault := false }.enter .off

/-- The lane after the end of its test (07 R145). -/
def Lane.testEnded (l : Lane) (n : LaneNo) (st : Stamp) : Lane :=
  if l.line = .track then ((l.modeClosed n .testStop st).enter .monitor).lostLock
  else (l.modeClosed n .testStop st).enter .monitor

/-- The lane after a driver fault in TEST (01 R22). -/
def Lane.faultTaken (l : Lane) (n : LaneNo) (st : Stamp) : Lane := { l with txFault := true }.testEnded n st

/-- The lane after the start of a test, which a TXFn already low ends at once (07 R144, 01 R22). -/
def Lane.testBegun (l : Lane) (n : LaneNo) (st : Stamp) : Lane :=
  if l.txf then (l.modeClosed n .testStart st).enter .test else ((l.modeClosed n .testStart st).enter .test).faultTaken n st

/-- A mode starts its transmitter afresh, whatever it was. -/
theorem enter_modeClosed_tx (l : Lane) (t : Transmitter) (b : Bool) (n : LaneNo) (reason : CloseReason) (m : Mode) (st : Stamp) :
    { ({ l with tx := t } : Lane).modeClosed n reason st with txFault := b }.enter m =
      { l.modeClosed n reason st with txFault := b }.enter m := by
  obtain ⟨_, _, _, _, _, _, _, _, _, _, _, _, iv, _, _⟩ := l
  cases iv <;> rfl

theorem lane_stopSequence (d : Device) (n : LaneNo) (st : Stamp) :
    (d.stopSequence n st).lane n = (d.lane n).stopped n st := by
  unfold Device.stopSequence
  simp only [lane_writeLane, lane_modLane_same, lane_close_modeChange _ n (reason := .stopped) rfl, lane_endCaptures]
  split
  · rw [lane_cancelInsert, lane_writeLane]; exact enter_modeClosed_tx _ _ _ _ _ _ _
  · rfl

theorem line_modeClosed (l : Lane) (n : LaneNo) (reason : CloseReason) (st : Stamp) :
    (l.modeClosed n reason st).line = l.line := by
  unfold Lane.modeClosed; cases l.interval <;> rfl

theorem txf_modeClosed (l : Lane) (n : LaneNo) (reason : CloseReason) (st : Stamp) :
    (l.modeClosed n reason st).txf = l.txf := by
  unfold Lane.modeClosed; cases l.interval <;> rfl

theorem lane_endTest (d : Device) (n : LaneNo) (why : TestEnd) (st : Stamp) :
    (d.endTest n why st).lane n = (d.lane n).testEnded n st := by
  have before : (((d.close n .testStop st st).cancelInsert n st).endCaptures n st).lane n =
      ((d.lane n).modeClosed n .testStop st).insertCancelled := by
    rw [lane_endCaptures, lane_cancelInsert, lane_close_modeChange _ n rfl]
  have line : ((d.lane n).modeClosed n .testStop st).insertCancelled.line = (d.lane n).line := line_modeClosed _ _ _ _
  unfold Device.endTest Lane.testEnded
  dsimp only
  rw [lane_writeLane, before, line]
  by_cases h : (d.lane n).line = .track
  · simp only [h, decide_true, if_true, lane_reportUnlock, lane_modLane_same, before]; rfl
  · simp only [h, decide_false, if_false, Bool.false_eq_true, lane_modLane_same, before]; rfl

theorem lane_takeFault (d : Device) (n : LaneNo) (st : Stamp) : (d.takeFault n st).lane n = (d.lane n).faultTaken n st := by
  unfold Device.takeFault
  rw [lane_endTest, lane_writeLane, lane_modLane_same]; rfl

theorem lane_beginTest (d : Device) (n : LaneNo) (o : Origin) (st : Stamp) :
    (d.beginTest n o st).lane n = (d.lane n).testBegun n st := by
  have begun : ((((d.close n .testStart st st).endCaptures n st).modLane n fun l => l.enter .test).writeLane n st .testStarted
      o.code).lane n = ((d.lane n).modeClosed n .testStart st).enter .test := by
    rw [lane_writeLane, lane_modLane_same, lane_endCaptures, lane_close_modeChange _ n rfl]
  have txf : (((d.lane n).modeClosed n .testStart st).enter .test).txf = (d.lane n).txf := txf_modeClosed _ _ _ _
  unfold Device.beginTest Lane.testBegun
  dsimp only
  rw [begun, txf]
  split
  · exact begun
  · rw [lane_takeFault, begun]

/-- The lane with a swap pending (02 R33). -/
def Lane.swapArmed (l : Lane) : Lane := { l with swapPending := true }

/-- The lane with an insertion pending (07 R146). -/
def Lane.inserting (l : Lane) : Lane := { l with tx := { l.tx with insertPending := true } }

/-- The lane after an operation on it, as a request or an action names it (01 R15). -/
def Lane.afterAction (l : Lane) (a : LaneAction) (n : LaneNo) (o : Origin) (st : Stamp) : Lane :=
  match a, l.mode with
  | .close, .off => l
  | .close, _ => l.afterClose n o.closeReason st st
  | .swap, .off => l.exchanged
  | .swap, _ => l.swapArmed
  | .testStart, .monitor => if l.txFault then l else l.testBegun n st
  | .testStart, _ => l
  | .testStop, .test => l.testEnded n st
  | .testStop, _ => l
  | .insert, .test => l.inserting
  | .insert, _ => l
  | .capture, _ => l

theorem lane_laneAction (d : Device) (a : LaneAction) (n : LaneNo) (o : Origin) (st : Stamp) :
    (d.laneAction a n o st).1.lane n = (d.lane n).afterAction a n o st := by
  unfold Lane.afterAction
  cases a with
  | close =>
    simp only [Device.laneAction, Device.closeByRequest]
    cases (d.lane n).mode
    · rfl
    · exact lane_close _ _ _ _ _
    · exact lane_close _ _ _ _ _
  | swap =>
    simp only [Device.laneAction, Device.armSwap]
    cases (d.lane n).mode
    · exact lane_exchangePages d n
    · exact lane_modLane_same _ _ _
    · exact lane_modLane_same _ _ _
  | testStart =>
    simp only [Device.laneAction, Device.testStart]
    cases (d.lane n).mode
    · rfl
    · dsimp only
      split
      · rfl
      · exact lane_beginTest d n o st
    · rfl
  | testStop =>
    simp only [Device.laneAction, Device.testStop]
    cases (d.lane n).mode
    · rfl
    · rfl
    · exact lane_endTest d n _ st
  | insert =>
    simp only [Device.laneAction, Device.insert]
    cases (d.lane n).mode
    · rfl
    · rfl
    · dsimp only
      split
      · next h => unfold Lane.inserting; rw [← h]
      · exact lane_modLane_same _ _ _
  | capture =>
    simp only [Device.laneAction, Device.captureByRequest]
    cases (d.lane n).mode
    · rfl
    · exact lane_trigger _ _ _ _ _
    · exact lane_trigger _ _ _ _ _

/-! ### Records and captures of a change of mode -/

/-- The end of a test: its records in order (07 R145, 01 R19). -/
theorem written_endTest (d : Device) (n : LaneNo) (why : TestEnd) (st : Stamp) {iv : OpenInterval}
    (hi : (d.lane n).interval = some iv) (hc : d.capture.notBothFor n) : d.written (d.endTest n why st) =
      (d.lane n).closeRecords n st st ++
      recordIf (d.lane n).tx.insertPending (((d.lane n).modeClosed n .testStop st).writes n st .insertCancelled 0) ++
      d.capture.endRecords n ((d.lane n).modeClosed n .testStop st) st ++
      [((d.lane n).testEnded n st).writes n st .testStopped why.code] := by
  let closed := d.close n .testStop st st
  let cancelled := closed.cancelInsert n st
  let ended := cancelled.endCaptures n st
  let entered := if decide ((ended.lane n).line = .track) then (ended.modLane n fun l => l.enter .monitor).reportUnlock n
    else ended.modLane n fun l => l.enter .monitor
  have hclosed : closed.lane n = (d.lane n).modeClosed n .testStop st := lane_close_modeChange d n rfl st
  have s1 : Device.LaneStep n d closed := .close n d _ st st
  have s2 : Device.LaneStep n d cancelled := s1.trans (.cancelInsert n _ st)
  have s3 : Device.LaneStep n d ended := s2.trans (.endCaptures n n _ st)
  have s4 : Device.LaneStep n d entered := (s3.trans (.modLane n _ _)).trans (.ite (.reportUnlock n _) (.refl n _))
  have w1 : d.written closed = (d.lane n).closeRecords n st st := written_close_modeChange d n rfl st st hi
  have insert : ((d.lane n).modeClosed n .testStop st).tx = (d.lane n).tx := by rw [Lane.modeClosed, hi]; rfl
  have w2 : closed.written cancelled =
      recordIf (d.lane n).tx.insertPending (((d.lane n).modeClosed n .testStop st).writes n st .insertCancelled 0) := by
    rw [← insert, ← hclosed]; exact written_cancelInsert closed n st
  have unit : cancelled.capture = d.capture :=
    (capture_cancelInsert _ _ _).trans (capture_close_modeChange d n rfl st st)
  have w3 : cancelled.written ended = d.capture.endRecords n ((d.lane n).modeClosed n .testStop st) st := by
    rw [← hclosed, ← unit]
    refine (written_endCaptures cancelled n st (by rw [unit]; exact hc)).trans ?_
    rw [show cancelled.lane n = _ from lane_cancelInsert closed n st]; rfl
  have w4 : ended.written entered = [] := by
    have : entered.inFlight = ended.inFlight := by dsimp only [entered]; split <;> rfl
    exact written_of_inFlight_eq this
  have whole : d.endTest n why st = entered.writeLane n st .testStopped why.code := rfl
  have last : entered.lane n = (d.lane n).testEnded n st := by
    rw [← lane_endTest d n why st, whole, lane_writeLane]
  have s5 : Device.LaneStep n ended entered := (Device.LaneStep.modLane n _ _).trans (.ite (.reportUnlock n _) (.refl n _))
  rw [whole, s4.written_trans (.writeLane n n entered st .testStopped why.code), s3.written_trans s5,
    s2.written_trans (.endCaptures n n _ st), s1.written_trans (.cancelInsert n _ st), w1, w2, w3, w4, written_writeLane, last]
  simp

end Sys2Proof.Machine
end

