-- ==== Sys2Proof/Proofs/Status.lean ====
section
namespace Sys2Proof.Machine

open Sys2Proof

/-! ### Requests that name one lane -/

@[simp] theorem laneOf_laneByte (n : LaneNo) : laneOf (laneByte n) = some n := by revert n; decide

theorem laneOf_outOfRange {b : Byte} (h : 3 < b.toNat) : laneOf b = none := by
  simp [laneOf, Nat.not_lt.2 h]

theorem laneRequest_lane (n : LaneNo) (take : LaneNo → Device → Device × Answer) (d : Device) :
    laneRequest [laneByte n] take d = take n d := by simp [laneRequest]

theorem laneRequest_outOfRange {b : Byte} (h : 3 < b.toNat) (take : LaneNo → Device → Device × Answer) (d : Device) :
    laneRequest [b] take d = (d, .refuse .badValue) := by simp [laneRequest, laneOf_outOfRange h]

/-- A request whose owner leaves the device as it was answers and does nothing else. -/
theorem onDevice_request_answered {code tag : Byte} {own : Device → Device × Answer} (s : State) (h : s.dev.quiet)
    (st : Status) (r : List Byte) (ho : own s.dev.frameEnds = (s.dev.frameEnds, ⟨st, r⟩)) :
    s.onDevice (fun d => d.request code tag own) = .next (s.withDev (s.dev.answered tag code st r)) := by
  rw [onDevice_request_quiet s h, ho]; rfl

/-- A request whose owner changes nothing writes nothing and presents nothing. -/
theorem asRequest_unchanged (own : Device → Device × Answer) (d : Device) (a : Answer) (h : own d = (d, a)) :
    asRequest own d = (d, a) := by
  rw [asRequest_eq, h, settle_self, claim_noWrite d d rfl]

/-- A lane request for a number above 3 answers BAD_VALUE and does nothing else. -/
theorem laneRequest_badValue {code tag b : Byte} (take : LaneNo → Device → Device × Answer) (s : State) (h : s.dev.quiet)
    (hb : 3 < b.toNat) : s.onDevice (fun d => d.request code tag (asRequest (laneRequest [b] take))) =
      .next (s.withDev (s.dev.answered tag code .badValue [])) :=
  onDevice_request_answered s h _ _ (asRequest_unchanged _ _ _ (laneRequest_outOfRange hb take _))

/-! ### The blocks right after reset -/

theorem Lane.afterReset_wf (txf : Bool) : (Lane.afterReset txf).Wf where
  fits := rfl
  opened := rfl
  interval := fun _ h => by cases h
  off := fun _ => ⟨rfl, rfl⟩
  inserting := fun h => by cases h
  history := ⟨Nat.zero_le _, fun _ => rfl⟩
  ring := ⟨Nat.zero_le _, rfl⟩
  number := Nat.zero_lt_succ _
  receiver := ⟨Nat.zero_le _, fun h => (by cases h), Nat.zero_lt_succ _, Nat.zero_le _⟩
  pages := ⟨rfl, rfl⟩

theorem CaptureUnit.afterReset_wf : CaptureUnit.afterReset.Wf where
  onePending := List.nodup_nil
  bound := by decide
  apart := by decide
  oneFilling := by decide
  notBoth := by decide
  sized := by intro k; fin_cases k <;> trivial
  late := fun _ h => by cases h

/-- A device whose level changes have all been taken, and whose conditions are all disabled, follows its levels. -/
theorem levelsFollowed_of_disabled {d : Device} (hc : d.attention.changes = [])
    (he : ∀ c : CondNo, (d.attention.conditions[c.val]).enabled = false) : d.LevelsFollowed where
  lead := fun c => by simp [Device.levelSeen, hc, movesOf, movesFromTo]
  latched := fun c h => by rw [he c] at h; cases h

/-- Settles O57: each form is checked at the reset values. -/
theorem resetHasItsForm : Obligations.ResetHasItsForm := by
  have lanes : ∀ n, State.reset.dev.lane n = Lane.afterReset true := by intro n; fin_cases n <;> rfl
  refine ⟨⟨fun n => lanes n ▸ Lane.afterReset_wf true, CaptureUnit.afterReset_wf, by decide⟩, ?_, ?_, ?_,
    ⟨by decide, by decide⟩, ?_, trivial, ?_, rfl⟩
  · exact ⟨by decide, by decide, by decide, by decide, by decide, by decide⟩
  · intro c h; fin_cases c <;> cases h
  · exact ⟨⟨by decide, by decide, by decide, by decide, by decide, by decide⟩, by decide, by decide, by decide, by decide, by decide⟩
  · intro e; fin_cases e <;> trivial
  · exact levelsFollowed_of_disabled rfl (by decide)

/-- Settles O20: the reply's bytes are those of the lane, with and without an open interval. -/
theorem laneStatusReportsTheLane : Obligations.LaneStatusReportsTheLane := by
  intro tag s hq
  have answered (n : LaneNo) : exec (.laneStatus tag [laneByte n]) s =
      .next (s.withDev (s.dev.answered tag 0x22#8 .ok (s.dev.laneStatus n))) :=
    onDevice_request_answered s hq _ _ (laneRequest_lane n _ _)
  refine ⟨fun b hb => onDevice_request_answered s hq _ _ (laneRequest_outOfRange hb _ _), fun n => ⟨fun hi => ?_, fun iv hi => ?_⟩⟩
  · rw [answered]
    simp [Device.laneStatus, hi, Lane.xCount, Lane.yCount, Lane.unitsSeen, modeByte, bitAt, CaptureUnit.laneState, le16]
  · rw [answered]
    simp [Device.laneStatus, hi, Lane.xCount, Lane.yCount, Lane.unitsSeen, modeByte, bitAt, CaptureUnit.laneState]

end Sys2Proof.Machine
end

