-- ==== Sys2Proof/Proofs/StartStop.lean ====
section
namespace Sys2Proof.Machine

open Sys2Proof

/-! ### A lane request that a lane takes -/

@[simp] theorem dev_withDev (s : State) (d : Device) : (s.withDev d).dev = d := rfl

/-- The device after a quiet request whose owner has left it at `d'` with this answer: the records are the request's, the levels
moved are presented and the reply begins (10 R180). -/
def Device.requested (d : Device) (tag code : Byte) (d' : Device) (a : Answer) : Device :=
  (Device.claim d.frameEnds (Device.settle d.frameEnds d')).replyWith tag code a

theorem exec_request {code tag : Byte} {own : Device → Device × Answer} (s : State) (h : s.dev.quiet) {d : Device} {a : Answer}
    (ho : own s.dev.frameEnds = (d, a)) :
    s.onDevice (fun d => d.request code tag (asRequest own)) = .next (s.withDev (s.dev.requested tag code d a)) := by
  rw [onDevice_request_quiet s h, asRequest_eq, ho]; rfl

section
variable (d : Device) (tag code : Byte) (d' : Device) (a : Answer)

@[simp] theorem lane_requested (m : LaneNo) : (d.requested tag code d' a).lane m = d'.lane m := by simp [Device.requested]
@[simp] theorem lanes_requested : (d.requested tag code d' a).lanes = d'.lanes := by simp [Device.requested]
@[simp] theorem capture_requested : (d.requested tag code d' a).capture = d'.capture := by simp [Device.requested]
@[simp] theorem timebase_requested : (d.requested tag code d' a).timebase = d'.timebase := by simp [Device.requested]
@[simp] theorem schedule_requested : (d.requested tag code d' a).schedule = d'.schedule := by simp [Device.requested]
@[simp] theorem inputs_requested : (d.requested tag code d' a).inputs = d'.inputs := by simp [Device.requested]
@[simp] theorem pattern_requested : (d.requested tag code d' a).pattern = d'.pattern := by simp [Device.requested]
@[simp] theorem journal_requested : (d.requested tag code d' a).journal = d'.journal := by simp [Device.requested]
@[simp] theorem conditions_requested :
    (d.requested tag code d' a).attention.conditions = d'.attention.conditions := by simp [Device.requested]
theorem changes_requested : (d.requested tag code d' a).attention.changes =
    d'.attention.changes ++ changesBetween d d' := by simp [Device.requested]; rfl

theorem port_requested (h : d'.port = d.frameEnds.port) : (d.requested tag code d' a).port =
    ⟨.waiting, d.port.rate, some ⟨tag, code + 0x80#8, a.status, a.results⟩⟩ := by
  have port : (Device.settle d.frameEnds d').port = d.frameEnds.port := (port_settle _ _).trans h
  unfold Device.requested Device.replyWith
  rw [port_claim, port]; rfl

theorem inFlight_requested {added : List Sent} (h : d'.inFlight = d.inFlight ++ added) :
    (d.requested tag code d' a).inFlight = d.inFlight ++ added.map fun x => { x with byRequest := true } :=
  inFlight_claim_append d.frameEnds _ added ((inFlight_settle _ _).trans h)

/-- What a request writes is what its owner writes. -/
theorem written_requested : d.written (d.requested tag code d' a) = d.written d' := by
  rw [show d.written (d.requested tag code d' a) = d.frameEnds.written (Device.claim d.frameEnds (Device.settle d.frameEnds d'))
    from rfl, written_of_claim]
  exact written_congr rfl (inFlight_settle _ _)

end

theorem filter_alarmCond (n : LaneNo) : (allConditions.filter fun c => decide (c = alarmCond n)) = [alarmCond n] := by
  revert n; decide

/-- The levels of the lanes' own conditions move with their lane alone. -/
theorem changesBetween_alarm {a b : Device} {n : LaneNo} (hl : ∀ m, m ≠ n → b.lane m = a.lane m)
    (hf : (b.lane n).txFault = (a.lane n).txFault) (hj : b.journal = a.journal) (ht : b.timebase = a.timebase)
    (hc : b.capture = a.capture) (h0 : (a.lane n).alarm = false) (h1 : (b.lane n).alarm = true) :
    changesBetween a b = [⟨alarmCond n, true⟩] := by
  have level : ∀ c : CondNo, c ≠ alarmCond n → a.level c = b.level c := by
    have fault : ∀ m, (b.lane m).txFault = (a.lane m).txFault := by
      intro m
      by_cases hm : m = n
      · rw [hm, hf]
      · rw [hl m hm]
    intro c hne
    have other : ∀ m : LaneNo, c = alarmCond m → (a.lane m).alarm = (b.lane m).alarm := by
      rintro m rfl
      rw [hl m fun e => hne (e ▸ rfl)]
    fin_cases c
    · exact congrArg Journal.level hj.symm
    · exact congrArg Journal.holdOff hj.symm
    · exact congrArg CaptureUnit.ready hc.symm
    · exact other 0 rfl
    · exact other 1 rfl
    · exact other 2 rfl
    · exact other 3 rfl
    · change (allLanes.any fun m => (a.lane m).txFault) = allLanes.any fun m => (b.lane m).txFault
      simp only [fault]
    · exact congrArg Timebase.clockLevel ht.symm
    · rfl
  have moved : a.level (alarmCond n) = false ∧ b.level (alarmCond n) = true := by
    fin_cases n <;> exact ⟨h0, h1⟩
  have one : (allConditions.filter fun c => a.level c != b.level c) = allConditions.filter fun c => decide (c = alarmCond n) := by
    refine List.filter_congr fun c _ => ?_
    by_cases hc : c = alarmCond n
    · subst hc; simp [moved]
    · simp [hc, level c hc]
  rw [changesBetween, one, filter_alarmCond, List.map_singleton, moved.2]

/-- Settles O18: the lane's own rule in OFF, with one record and one level moved; elsewhere the request changes nothing. -/
theorem laneStartOpensAnInterval : Obligations.LaneStartOpensAnInterval := by
  intro tag n s hq
  refine ⟨fun b hb => laneRequest_badValue _ s hq hb, fun hm => ?_, fun hm => ?_⟩
  · refine onDevice_request_answered s hq _ _ (asRequest_unchanged _ _ _ ?_)
    rw [laneRequest_lane]
    unfold Device.startLane
    rw [lane_frameEnds]
    cases hm' : (s.dev.lane n).mode
    · exact absurd hm' hm
    · rfl
    · rfl
  · let d0 := s.dev.frameEnds
    let started := (d0.modLane n fun l => { l.enter .monitor with interval := some (OpenInterval.fresh s.dev.now) }).writeLane n
      s.dev.now .laneStarted 1
    have own : laneRequest [laneByte n] (fun n d => ((d.startLane n d.now).1, ⟨(d.startLane n d.now).2, []⟩)) d0 =
        (started, ⟨.ok, []⟩) := by
      have hm0 : (d0.lane n).mode = .off := hm
      rw [laneRequest_lane]
      unfold Device.startLane
      rw [hm0]; rfl
    have lane : started.lane n = { s.dev.lane n with
        mode := .monitor, line := .hunt, history := [], rx := Receiver.fresh, tx := Transmitter.fresh
        checker := Checker.fresh, interval := some (newInterval s.dev.now) } := by
      rw [lane_writeLane, lane_modLane_same]; rfl
    have others : ∀ m, m ≠ n → started.lane m = s.dev.lane m := fun m hne => by
      rw [lane_writeLane, lane_modLane_ne _ _ hne]; rfl
    have sent : started.inFlight = s.dev.inFlight ++ [⟨s.dev.events, (started.lane n).writes n s.dev.now .laneStarted 1, false, false⟩] :=
      rfl
    refine ⟨_, exec_request s hq own, ?_⟩
    simp only [dev_withDev, lane_requested, lane]
    refine ⟨trivial, rfl, rfl, rfl, rfl, others, ?_, ?_, ?_, ?_, ?_, ?_, ?_, ?_, ?_, ?_⟩
    · rw [inFlight_requested _ _ _ _ _ sent, lane]; rfl
    · rw [changes_requested, changesBetween_alarm (n := n) others (by rw [lane]) rfl rfl rfl (by simp [Lane.alarm, hm])
        (by rw [lane]; rfl)]
      rfl
    · rw [conditions_requested]; rfl
    · exact port_requested _ _ _ _ _ rfl
    all_goals simp [started, d0]

/-! ### The stop sequence (01 R18, R19) -/

/-- A capture that fills for the lane is the truncated one of its slot when it has ended (08 R160). -/
theorem slot_endedCapture {d : Device} (h : d.capture.Wf) {k : SlotNo} {c : Capture} (hk : d.capture.slots[k.val] = .filling c) :
    (d.endedCapture c.lane).slots[k.val] = .full { c with truncated := true } := by
  have hs : d.capture.fillingSlot c.lane = some k := CaptureUnit.fillingSlot_eq h (by rw [hk]; simp [Slot.fillsFor])
  change (d.truncatedCapture c.lane).slots[k.val] = _
  unfold Device.truncatedCapture
  rw [hs]
  simp only [hk]
  refine full_grantTest _ k _ ?_
  simp only [CaptureUnit.ended]
  rw [slot_set, if_pos rfl]

/-- The records of a stop, in order, and what becomes of the captures (01 R19). -/
theorem stopSequence_records (d : Device) (n : LaneNo) (st : Stamp) {iv : OpenInterval} (hi : (d.lane n).interval = some iv)
    (hc : d.capture.notBothFor n) :
    d.written (d.stopSequence n st) =
      recordIf (decide ((d.lane n).mode = .test)) ((d.lane n).writes n st .testStopped 4) ++
      recordIf (decide ((d.lane n).mode = .test) && (d.lane n).tx.insertPending) ((d.lane n).writes n st .insertCancelled 0) ++
      d.capture.endRecords n (d.lane n) st ++ (d.lane n).closeRecords n st st ++
      [((d.lane n).stopped n st).writes n st .laneStopped 1] ∧
    (d.stopSequence n st).capture = d.endedCapture n := by
  obtain ⟨cancelled, hcancelled⟩ : ∃ x, x = if (d.lane n).mode = .test then
      (d.writeLane n st .testStopped TestEnd.laneStop.code).cancelInsert n st else d := ⟨_, rfl⟩
  obtain ⟨ended, hended⟩ : ∃ x, x = cancelled.endCaptures n st := ⟨_, rfl⟩
  obtain ⟨closed, hclosed⟩ : ∃ x, x = ended.close n .stopped st st := ⟨_, rfl⟩
  obtain ⟨entered, hentered⟩ : ∃ x, x = (closed.modLane n fun l => { l with txFault := false }).modLane n fun l =>
      l.enter .off := ⟨_, rfl⟩
  have whole : d.stopSequence n st = entered.writeLane n st .laneStopped 1 := by
    rw [hentered, hclosed, hended, hcancelled]; rfl
  have s1 : Device.LaneStep n d cancelled := by
    rw [hcancelled]; exact .ite ((Device.LaneStep.writeLane n n d _ _ _).trans (.cancelInsert n _ st)) (.refl n d)
  have s2 : Device.LaneStep n cancelled ended := by rw [hended]; exact .endCaptures n n _ st
  have s3 : Device.LaneStep n ended closed := by rw [hclosed]; exact .close n _ _ st st
  have s4 : Device.LaneStep n closed entered := by rw [hentered]; exact (Device.LaneStep.modLane n _ _).trans (.modLane n _ _)
  obtain ⟨tx, lane⟩ : ∃ tx, cancelled.lane n = { d.lane n with tx := tx } := by
    rw [hcancelled]
    split
    · exact ⟨_, lane_cancelInsert _ _ _⟩
    · exact ⟨_, rfl⟩
  have lane2 : ended.lane n = { d.lane n with tx := tx } := by rw [hended, lane_endCaptures, lane]
  have unit : cancelled.capture = d.capture := by
    rw [hcancelled]
    split
    · exact capture_cancelInsert _ _ _
    · rfl
  have hc' : cancelled.capture.notBothFor n := by rw [unit]; exact hc
  have w1 : d.written cancelled = recordIf (decide ((d.lane n).mode = .test)) ((d.lane n).writes n st .testStopped 4) ++
      recordIf (decide ((d.lane n).mode = .test) && (d.lane n).tx.insertPending) ((d.lane n).writes n st .insertCancelled 0) := by
    rw [hcancelled]
    split
    · next hm =>
      rw [(Device.LaneStep.writeLane n n d st .testStopped _).written_trans (.cancelInsert n _ st), written_writeLane,
        written_cancelInsert, hm]
      rfl
    · next hm => simp [hm, recordIf]
  have w2 : cancelled.written ended = d.capture.endRecords n (d.lane n) st := by
    rw [hended, written_endCaptures cancelled n st hc', unit, lane]; rfl
  have w3 : ended.written closed = (d.lane n).closeRecords n st st := by
    rw [hclosed, written_close_modeChange ended n rfl st st (iv := iv) (by rw [lane2]; exact hi), lane2]; rfl
  have w4 : closed.written entered = [] := by rw [hentered]; exact written_of_inFlight_eq rfl
  have last : entered.lane n = (d.lane n).stopped n st := by
    rw [← lane_stopSequence d n st, whole, lane_writeLane]
  constructor
  · rw [whole, (((s1.trans s2).trans s3).trans s4).written_trans (.writeLane n n entered _ _ _),
      ((s1.trans s2).trans s3).written_trans s4, (s1.trans s2).written_trans s3, s1.written_trans s2, w1, w2, w3, w4,
      written_writeLane, last]
    simp
  · rw [whole, capture_writeLane, hentered, capture_modLane, capture_modLane, hclosed,
      capture_close_modeChange ended n rfl st st, hended, capture_endCaptures]
    exact endedCapture_congr_of_others unit hc' fun m hm => s1.lanes m hm

/-- Settles O19: the stop sequence is the records, the lane and the captures of its steps. -/
theorem laneStopRunsTheStopSequence : Obligations.LaneStopRunsTheStopSequence := by
  intro tag n s hq
  refine ⟨fun b hb => laneRequest_badValue _ s hq hb, fun hm => ?_, fun iv hm hi hw => ?_⟩
  · refine onDevice_request_answered s hq _ _ (asRequest_unchanged _ _ _ ?_)
    rw [laneRequest_lane]
    unfold Device.stopLane
    rw [lane_frameEnds, hm]
  · let stopped := s.dev.frameEnds.stopSequence n s.dev.now
    have own : laneRequest [laneByte n] (fun n d => ((d.stopLane n d.now).1, ⟨(d.stopLane n d.now).2, []⟩)) s.dev.frameEnds =
        (stopped, ⟨.ok, []⟩) := by
      rw [laneRequest_lane]
      unfold Device.stopLane
      rw [lane_frameEnds]
      cases hm' : (s.dev.lane n).mode
      · exact absurd hm' hm
      · rfl
      · rfl
    have step : Device.LaneStep n s.dev.frameEnds stopped := .stopSequence n _ _
    have lane : stopped.lane n = (s.dev.lane n).stopped n s.dev.now := lane_stopSequence _ _ _
    obtain ⟨records, unit⟩ := stopSequence_records s.dev.frameEnds n s.dev.now hi (hw.notBothFor n)
    have unit : stopped.capture = s.dev.endedCapture n :=
      unit.trans (endedCapture_congr_of_others (d := s.dev.frameEnds) (d' := s.dev) rfl (hw.notBothFor n) fun _ _ => rfl)
    have tcapture : (s.withDev (s.dev.requested tag 0x21#8 stopped ⟨.ok, []⟩)).dev.capture = s.dev.endedCapture n :=
      (capture_requested _ _ _ _ _).trans unit
    have tlane : (s.withDev (s.dev.requested tag 0x21#8 stopped ⟨.ok, []⟩)).dev.lane n = (s.dev.lane n).stopped n s.dev.now :=
      (lane_requested _ _ _ _ _ _).trans lane
    refine ⟨_, exec_request s hq own, ?_⟩
    rw [tlane]
    refine ⟨?_, rfl, rfl, rfl, rfl, rfl, fun m hm => (lane_requested _ _ _ _ _ _).trans (step.lanes m hm),
      (written_requested _ _ _ _ _).trans records, ?_, tcapture, ?_, congrArg Port.reply (port_requested _ _ _ _ _ step.port)⟩
    · simp only [Lane.stopped, Lane.modeClosed, hi]; rfl
    · rintro k c hk rfl
      have slot := slot_endedCapture hw hk
      rw [← tcapture] at slot
      exact slot
    · rw [tcapture]; exact busy_endedCapture s.dev n hw

end Sys2Proof.Machine
end

