-- ==== Sys2Proof/Proofs/Operations.lean ====
section
namespace Sys2Proof.Machine

open Sys2Proof

/-! ### One operation at one lane (01 R15) -/

/-- The status of an operation: by mode, latch, pending insertion and captures of the lane (01 R15). -/
theorem status_laneAction (d : Device) (a : LaneAction) (n : LaneNo) (o : Origin) (st : Stamp) : (d.laneAction a n o st).2 =
      match a, (d.lane n).mode with
      | .swap, _ => .ok
      | _, .off => .laneOff
      | .close, _ => .ok
      | .testStart, .test => .wrongState
      | .testStart, .monitor => if (d.lane n).txFault then .txFault else .ok
      | .testStop, .monitor => .wrongState
      | .testStop, .test => .ok
      | .insert, .monitor => .wrongState
      | .insert, .test => if (d.lane n).tx.insertPending then .pending else .ok
      | .capture, _ => if (d.capture.entryOf n).isSome || (d.capture.fillingSlot n).isSome then .captureBusy else .ok := by
  have captured : (if (d.trigger n o.triggerKind st).2 then Status.ok else .captureBusy) =
      if (d.capture.entryOf n).isSome || (d.capture.fillingSlot n).isSome then .captureBusy else .ok := by
    unfold Device.trigger CaptureUnit.busy
    split <;> rfl
  cases a with
  | close => simp only [Device.laneAction, Device.closeByRequest]; cases (d.lane n).mode <;> rfl
  | swap => simp only [Device.laneAction, Device.armSwap]; cases (d.lane n).mode <;> rfl
  | testStart =>
    simp only [Device.laneAction, Device.testStart]
    cases (d.lane n).mode
    · rfl
    · dsimp only; split <;> rfl
    · rfl
  | testStop => simp only [Device.laneAction, Device.testStop]; cases (d.lane n).mode <;> rfl
  | insert =>
    simp only [Device.laneAction, Device.insert]
    cases (d.lane n).mode
    · rfl
    · rfl
    · dsimp only; split <;> rfl
  | capture =>
    simp only [Device.laneAction, Device.captureByRequest]
    cases (d.lane n).mode
    · rfl
    · exact captured
    · exact captured

/-- An operation that its lane refuses does nothing (06 R130). -/
theorem laneAction_refused (d : Device) (a : LaneAction) (n : LaneNo) (o : Origin) (st : Stamp)
    (h : (d.laneAction a n o st).2 ≠ .ok) : (d.laneAction a n o st).1 = d := by
  have captured (hc : (if (d.trigger n o.triggerKind st).2 then Status.ok else .captureBusy) ≠ .ok) :
      (d.trigger n o.triggerKind st).1 = d := by
    unfold Device.trigger at hc ⊢
    split
    · rfl
    · next hb => simp [hb] at hc
  cases a with
  | close =>
    simp only [Device.laneAction, Device.closeByRequest] at h ⊢
    cases hm : (d.lane n).mode
    · rfl
    all_goals (rw [hm] at h; exact absurd rfl h)
  | swap =>
    simp only [Device.laneAction, Device.armSwap] at h ⊢
    cases hm : (d.lane n).mode
    all_goals (rw [hm] at h; exact absurd rfl h)
  | testStart =>
    simp only [Device.laneAction, Device.testStart] at h ⊢
    cases hm : (d.lane n).mode
    · rfl
    · rw [hm] at h
      dsimp only at h ⊢
      split
      · rfl
      · next hf => rw [if_neg hf] at h; exact absurd rfl h
    · rfl
  | testStop =>
    simp only [Device.laneAction, Device.testStop] at h ⊢
    cases hm : (d.lane n).mode
    · rfl
    · rfl
    · rw [hm] at h; exact absurd rfl h
  | insert =>
    simp only [Device.laneAction, Device.insert] at h ⊢
    cases hm : (d.lane n).mode
    · rfl
    · rfl
    · rw [hm] at h
      dsimp only at h ⊢
      split
      · rfl
      · next hf => rw [if_neg hf] at h; exact absurd rfl h
  | capture =>
    simp only [Device.laneAction, Device.captureByRequest] at h ⊢
    cases hm : (d.lane n).mode
    · rfl
    all_goals (rw [hm] at h; exact captured h)

/-- Changing one lane changes the lanes alone. -/
theorem modLane_eq (d : Device) (n : LaneNo) (f : Lane → Lane) : d.modLane n f = { d with lanes := (d.modLane n f).lanes } := rfl

/-- Settles O24: the status, the refusals, and each accepted operation by the mode of the lane. -/
theorem laneOperationsAnswerByMode : Obligations.LaneOperationsAnswerByMode := by
  intro d n o st
  have running {α : Type} {l : Mode} (hm : l ≠ .off) (x y : α) (hy : l = .monitor ∨ l = .test → x = y) : x = y := by
    cases l
    · exact absurd rfl hm
    · exact hy (.inl rfl)
    · exact hy (.inr rfl)
  refine ⟨fun a => status_laneAction d a n o st, fun a => laneAction_refused d a n o st, fun hm => ?_, fun hm => ?_,
    fun hm hp => ?_, fun hm => ?_, fun hm hb => ?_⟩
  · have swapped : (d.laneAction .swap n o st).1 = d.swapInOff n st := by
      simp only [Device.laneAction, Device.armSwap, hm]
    rw [swapped]
    refine ⟨rfl, lane_exchangePages d n, (Device.LaneStep.swapInOff n d st).lanes, ?_⟩
    simp only [Device.swapInOff, inFlight_writeLane, lane_exchangePages, Lane.snapshot]
    rw [show (d.lane n).exchanged.mode = .off from hm]; rfl
  · have armed : (d.laneAction .swap n o st).1 = d.modLane n Lane.swapArmed := by
      simp only [Device.laneAction, Device.armSwap]
      cases hm' : (d.lane n).mode
      · exact absurd hm' hm
      · rfl
      · rfl
    rw [armed]
    exact ⟨rfl, lane_modLane_same _ _ _, fun m hne => lane_modLane_ne d _ hne⟩
  · have inserting : (d.laneAction .insert n o st).1 = d.modLane n Lane.inserting := by
      simp only [Device.laneAction, Device.insert, hm, hp]; rfl
    rw [inserting]
    exact ⟨rfl, lane_modLane_same _ _ _, fun m hne => lane_modLane_ne d _ hne⟩
  · simp only [Device.laneAction, Device.closeByRequest]
    cases hm' : (d.lane n).mode
    · exact absurd hm' hm
    all_goals (cases o <;> rfl)
  · have triggered : (d.trigger n o.triggerKind st).1 = Device.grantTest { d with capture := { d.capture with waiting :=
        d.capture.waiting ++ [⟨n, match o with | .host => .request | .schedule => .schedule, st, 0⟩] } } := by
      simp only [Device.trigger, hb]
      cases o <;> rfl
    simp only [Device.laneAction, Device.captureByRequest]
    cases hm' : (d.lane n).mode
    · exact absurd hm' hm
    · exact triggered
    · exact triggered

/-! ### The driver fault (01 R22, R23) -/

/-- What becomes of the captures at the end of a test. -/
theorem capture_endTest (d : Device) (n : LaneNo) (why : TestEnd) (st : Stamp) (hc : d.capture.notBothFor n) :
    (d.endTest n why st).capture = d.endedCapture n := by
  obtain ⟨x, hx⟩ : ∃ x, x = (d.close n .testStop st st).cancelInsert n st := ⟨_, rfl⟩
  have unit : x.capture = d.capture := by rw [hx, capture_cancelInsert, capture_close_modeChange d n rfl st st]
  have step : Device.LaneStep n d x := by rw [hx]; exact (Device.LaneStep.close n d _ st st).trans (.cancelInsert n _ st)
  have last : (d.endTest n why st).capture = (x.endCaptures n st).capture := by
    unfold Device.endTest
    rw [hx]
    dsimp only
    split <;> rfl
  rw [last, capture_endCaptures]
  exact endedCapture_congr_of_others unit (by rw [unit]; exact hc) fun m hm => step.lanes m hm

/-- Settles O26: outside TEST, and at a high level, the pin alone; in TEST the latch, the record and the end of the test. -/
theorem driverFaultsEndATest : Obligations.DriverFaultsEndATest := by
  intro n level s
  refine ⟨fun h => ?_, fun iv hm hl hi hw => ?_⟩
  · refine ⟨s.withDev (s.dev.modLane n fun l => { l with txf := level }), ?_, rfl, lane_modLane_same _ _ _,
      fun m hne => lane_modLane_ne _ _ hne⟩
    have hf : ¬ ((s.dev.lane n).mode = .test ∧ level = false) := by
      rintro ⟨h1, h2⟩
      rcases h with h | h
      · exact h h1
      · rw [h2] at h; cases h
    simp only [exec, execDriverFault, onDevice_eq, if_neg hf]; rfl
  · subst hl
    obtain ⟨low, hlow⟩ : ∃ x, x = (s.dev.modLane n fun l => { l with txf := false }).modLane n fun l => { l with txFault := true } :=
      ⟨_, rfl⟩
    have laneLow : low.lane n = { s.dev.lane n with txf := false, txFault := true } := by
      rw [hlow, lane_modLane_same, lane_modLane_same]
    have unit : low.capture = s.dev.capture := by rw [hlow]; rfl
    have stepLow : Device.LaneStep n s.dev low := by rw [hlow]; exact (Device.LaneStep.modLane n _ _).trans (.modLane n _ _)
    obtain ⟨faulted, hfaulted⟩ : ∃ x, x = low.writeLane n s.dev.now .txFault 0 := ⟨_, rfl⟩
    have laneFaulted : faulted.lane n = { s.dev.lane n with txf := false, txFault := true } := by
      rw [hfaulted, lane_writeLane, laneLow]
    have unit' : faulted.capture = s.dev.capture := by rw [hfaulted, capture_writeLane, unit]
    have hc : faulted.capture.notBothFor n := by rw [unit']; exact hw.notBothFor n
    have stepFaulted : Device.LaneStep n low faulted := by rw [hfaulted]; exact .writeLane n n low _ _ _
    obtain ⟨done, hdone⟩ : ∃ x, x = faulted.endTest n .fault s.dev.now := ⟨_, rfl⟩
    have stepDone : Device.LaneStep n faulted done := by rw [hdone]; exact .endTest n faulted _ _
    have ran : exec (.driverFault n false) s = .next (s.withDev (Device.settle s.dev done)) := by
      simp only [exec, execDriverFault, onDevice_eq, hm, and_self, if_true]
      rw [hdone, hfaulted, hlow]; rfl
    have lane : done.lane n = (faulted.lane n).testEnded n s.dev.now := by rw [hdone, lane_endTest]
    have captured : done.capture = s.dev.endedCapture n := by
      rw [hdone, capture_endTest faulted n _ _ hc]
      exact endedCapture_congr_of_others unit' hc fun m hne => (stepLow.trans stepFaulted).lanes m hne
    have records : s.dev.written done = [(s.dev.lane n).writes n s.dev.now .txFault 0] ++ faulted.written done := by
      rw [(stepLow.trans stepFaulted).written_trans stepDone, stepLow.written_trans stepFaulted,
        written_of_inFlight_eq (show low.inFlight = s.dev.inFlight by rw [hlow]; rfl)]
      rw [hfaulted, written_writeLane, laneLow]; rfl
    have hi' : (faulted.lane n).interval = some iv := by rw [laneFaulted]; exact hi
    have tlane : (s.withDev (Device.settle s.dev done)).dev.lane n = (faulted.lane n).testEnded n s.dev.now :=
      (lane_settle _ _ _).trans lane
    have tcapture : (s.withDev (Device.settle s.dev done)).dev.capture = s.dev.endedCapture n :=
      (capture_settle _ _).trans captured
    refine ⟨_, ran, ?_⟩
    rw [tlane, tcapture]
    refine ⟨?_, fun m hne => (lane_settle _ _ _).trans (((stepLow.trans stepFaulted).trans stepDone).lanes m hne), ?_, rfl,
      busy_endedCapture s.dev n hw⟩
    · rw [laneFaulted]
      simp only [Lane.testEnded, Lane.modeClosed, hi]
      by_cases ht : (s.dev.lane n).line = .track
      · simp only [ht, if_true, decide_true]; rfl
      · simp only [ht, if_false, decide_false]; rfl
    · have settled : s.dev.written (s.withDev (Device.settle s.dev done)).dev = s.dev.written done :=
        written_congr rfl (inFlight_settle _ _)
      have closed : ((faulted.lane n).modeClosed n .testStop s.dev.now) = { s.dev.lane n with
          txf := false, txFault := true, number := ((s.dev.lane n).number + 1) % 65536
          interval := some (newInterval s.dev.now), ring := (s.dev.lane n).closedRing n iv .testStop s.dev.now
          swapPending := false, live := (s.dev.lane n).swappedLive } := by
        rw [laneFaulted]
        simp only [Lane.modeClosed, hi]; rfl
      rw [settled, records, hdone, written_endTest faulted n .fault s.dev.now hi' hc, closed, unit', laneFaulted]
      rfl

end Sys2Proof.Machine
end

