-- ==== Sys2Proof/Proofs/Masks.lean ====
section
namespace Sys2Proof.Machine

open Sys2Proof

/-! ### Commands about one lane (01 R15, R16) -/

namespace Device.OnlyLane

theorem of_step {n : LaneNo} {d d' : Device} (h : LaneStep n d d') : OnlyLane n d d' :=
  ⟨h.lanes, h.pattern, h.timebase, h.schedule, h.inputs, h.journal, by rw [h.attention], by rw [h.port], h.records⟩

theorem refl (n : LaneNo) (d : Device) : OnlyLane n d d := of_step (.refl n d)

theorem trans {n : LaneNo} {a b c : Device} (h : OnlyLane n a b) (k : OnlyLane n b c) : OnlyLane n a c where
  lanes := fun m hm => (k.lanes m hm).trans (h.lanes m hm)
  pattern := k.pattern.trans h.pattern
  timebase := k.timebase.trans h.timebase
  schedule := k.schedule.trans h.schedule
  inputs := k.inputs.trans h.inputs
  journal := k.journal.trans h.journal
  conditions := k.conditions.trans h.conditions
  rate := k.rate.trans h.rate
  records := h.records.trans k.records

theorem settle {n : LaneNo} {d d' : Device} (b : Device) (h : OnlyLane n d d') : OnlyLane n d (Device.settle b d') where
  lanes := fun m hm => (lane_settle _ _ _).trans (h.lanes m hm)
  pattern := (pattern_settle _ _).trans h.pattern
  timebase := (timebase_settle _ _).trans h.timebase
  schedule := (schedule_settle _ _).trans h.schedule
  inputs := (inputs_settle _ _).trans h.inputs
  journal := (journal_settle _ _).trans h.journal
  conditions := (conditions_settle _ _).trans h.conditions
  rate := by rw [port_settle]; exact h.rate
  records := by rw [inFlight_settle]; exact h.records

theorem replyWith {n : LaneNo} {d d' : Device} (h : OnlyLane n d d') (tag code : Byte) (a : Answer) :
    OnlyLane n d (d'.replyWith tag code a) :=
  ⟨h.lanes, h.pattern, h.timebase, h.schedule, h.inputs, h.journal, h.conditions, h.rate, h.records⟩

theorem frameEnds (n : LaneNo) (d : Device) : OnlyLane n d d.frameEnds :=
  ⟨fun _ _ => rfl, rfl, rfl, rfl, rfl, rfl, rfl, rfl, List.prefix_refl _⟩

/-- The records that a request claims stay on their way. -/
theorem claim {n : LaneNo} {d d' : Device} (h : OnlyLane n d d') : OnlyLane n d (Device.claim d d') := by
  obtain ⟨added, hadded⟩ := h.records
  exact ⟨h.lanes, h.pattern, h.timebase, h.schedule, h.inputs, h.journal, h.conditions, h.rate,
    by rw [inFlight_claim_append d d' added hadded.symm]; exact List.prefix_append _ _⟩

/-- A request whose owner stays inside one lane does. -/
theorem request {n : LaneNo} {code tag : Byte} {own : Device → Device × Answer} (s : State) (h : s.dev.quiet)
    (ho : ∀ d, OnlyLane n d (own d).1) :
    ∃ t, s.onDevice (fun d => d.request code tag own) = .next t ∧ OnlyLane n s.dev t.dev ∧ t.pending = s.pending := by
  refine ⟨_, onDevice_request_quiet s h, ?_, rfl⟩
  exact ((frameEnds n s.dev).trans (ho _)).replyWith tag code _

/-- A request of one lane whose owner's work is one event. -/
theorem event {n : LaneNo} {code tag : Byte} {own : Device → Device × Answer} (s : State) (h : s.dev.quiet)
    (ho : ∀ d, LaneStep n d (own d).1) :
    ∃ t, s.onDevice (fun d => d.request code tag (asRequest own)) = .next t ∧ OnlyLane n s.dev t.dev ∧ t.pending = s.pending :=
  request s h fun d => by rw [asRequest_eq]; exact ((of_step (ho d)).settle d).claim

end Device.OnlyLane

theorem laneStep_abortCapture (d : Device) (n : LaneNo) : Device.LaneStep n d (d.abortCapture n).1 := by
  unfold Device.abortCapture
  split
  · exact .truncate n n d _
  · split
    · exact (Device.LaneStep.dropEntry n n d _).trans (.grantTest n _)
    · exact .refl n d

theorem laneStep_setProfile (d : Device) (n : LaneNo) (p : Profile) : Device.LaneStep n d (d.setProfile n p).1 := by
  unfold Device.setProfile
  split
  · exact .refl n d
  · dsimp only; exact .modLane n d _

/-- Settles O55: each command's work stays inside its lane, and its end presents levels and begins the reply. -/
theorem oneLaneCommandsTouchOneLane : Obligations.OneLaneCommandsTouchOneLane := by
  intro n tag count image cell level c s h
  rcases h with ⟨h, hq⟩ | h
  · simp only [List.mem_cons, List.not_mem_nil, or_false] at h
    rcases h with rfl | rfl | rfl | rfl | rfl | rfl
    · exact Device.OnlyLane.event s hq fun d => by rw [laneRequest_lane]; exact .startLane n d _
    · exact Device.OnlyLane.event s hq fun d => by rw [laneRequest_lane]; exact .stopLane n d _
    · exact Device.OnlyLane.request s hq fun d => by
        rw [ownLaneStatus, laneRequest_lane]; exact .refl n d
    · refine Device.OnlyLane.request s hq fun d => ?_
      unfold ownProfileSet
      split
      · rw [List.headD_cons, laneOf_laneByte]
        cases profileOf (laneByte n :: image).tail with
        | none => exact .refl n d
        | some p => exact .of_step (laneStep_setProfile d n p)
      · exact .refl n d
    · refine Device.OnlyLane.request s hq fun d => ?_
      simp only [ownIntervalTake, laneOf_laneByte]
      cases inRange 1 8 count.toNat with
      | none => exact .refl n d
      | some k => exact .of_step (Device.LaneStep.modLane n d fun l => { l with ring := l.ring.drop k })
    · exact Device.OnlyLane.event s hq fun d => by rw [laneRequest_lane]; exact laneStep_abortCapture d n
  · simp only [List.mem_cons, List.not_mem_nil, or_false] at h
    rcases h with rfl | rfl | rfl | rfl
    · refine ⟨_, rfl, ?_, rfl⟩
      dsimp only
      split
      · exact (Device.OnlyLane.of_step (.takeCell n s.dev cell _)).settle _
      · exact .refl n _
    · refine ⟨_, rfl, ?_, rfl⟩
      have sent : Device.OnlyLane n s.dev (Device.settle s.dev (s.dev.transmit n s.dev.now)) :=
        (Device.OnlyLane.of_step (.transmit n s.dev _)).settle _
      dsimp only
      split
      · split
        · exact sent.trans ((Device.OnlyLane.of_step (.takeCell n _ _ _)).settle _)
        · exact sent
      · exact .refl n _
    · refine ⟨_, rfl, ?_, rfl⟩
      have pin := Device.LaneStep.modLane n s.dev fun l => { l with txf := level }
      dsimp only
      split
      · exact (Device.OnlyLane.of_step (pin.trans (.takeFault n _ _))).settle _
      · exact .of_step pin
    · refine ⟨_, rfl, ?_, rfl⟩
      dsimp only
      split
      · exact .refl n _
      · exact (Device.OnlyLane.of_step ((Device.LaneStep.modLane n s.dev _).trans (.boundary n _ _))).settle _

/-! ### The work of a lane does not read the port -/

/-- The device with another port. -/
def Device.withPort (d : Device) (p : Port) : Device := { d with port := p }

section
variable (d : Device) (p : Port) (n : LaneNo) (st : Stamp)

theorem grantOne_withPort : (d.withPort p).grantOne = d.grantOne.map (·.withPort p) := by
  unfold Device.grantOne
  rw [show (d.withPort p).capture = d.capture from rfl]
  split <;> rfl

theorem grantTest_withPort : (d.withPort p).grantTest = d.grantTest.withPort p := by
  have times : ∀ (k : Nat) (d : Device), Device.grantTimes k (d.withPort p) = (Device.grantTimes k d).withPort p := by
    intro k
    induction k with
    | zero => intro d; rfl
    | succ k ih =>
      intro d
      unfold Device.grantTimes
      rw [grantOne_withPort]
      cases d.grantOne with
      | none => rfl
      | some d' => exact ih d'
  exact times 2 d

theorem truncate_withPort : (d.withPort p).truncate n st = (d.truncate n st).withPort p := by
  unfold Device.truncate
  rw [show (d.withPort p).capture = d.capture from rfl]
  split
  · rfl
  · split
    · rw [endCapture_eq, endCapture_eq, ← grantTest_withPort]; rfl
    · rfl

theorem dropEntry_withPort : (d.withPort p).dropEntry n st = (d.dropEntry n st).withPort p := by
  unfold Device.dropEntry
  rw [show (d.withPort p).capture = d.capture from rfl]
  split <;> rfl

theorem endCaptures_withPort : (d.withPort p).endCaptures n st = (d.endCaptures n st).withPort p := by
  unfold Device.endCaptures
  rw [truncate_withPort, dropEntry_withPort]

theorem trigger_withPort (k : TriggerKind) :
    (d.withPort p).trigger n k st = ((d.trigger n k st).1.withPort p, (d.trigger n k st).2) := by
  unfold Device.trigger
  rw [show (d.withPort p).capture = d.capture from rfl]
  split
  · rfl
  · rw [← grantTest_withPort]; rfl

theorem pushClosed_withPort (r : ClosedInterval) : (d.withPort p).pushClosed n r st = (d.pushClosed n r st).withPort p := by
  unfold Device.pushClosed
  rw [show (d.withPort p).lane n = d.lane n from rfl]
  dsimp only
  split <;> rfl

theorem intervalClosed_withPort (iv : OpenInterval) (reason : CloseReason) (start : Stamp) :
    (d.withPort p).intervalClosed n iv reason st start = (d.intervalClosed n iv reason st start).withPort p := by
  unfold Device.intervalClosed
  dsimp only
  rw [pushClosed_withPort, show (d.withPort p).lane n = d.lane n from rfl]
  split <;> rfl

theorem restartReceiver_withPort : (d.withPort p).restartReceiver n st = (d.restartReceiver n st).withPort p := by
  unfold Device.restartReceiver
  rw [show (d.withPort p).lane n = d.lane n from rfl]
  generalize decide ((d.lane n).line = .locked) = lost
  cases lost
  · exact congrArg (fun x => Device.modLane x n fun l => { l with rx := Receiver.fresh, line := .hunt })
      (truncate_withPort (d.modLane n fun l => { l with history := [] }) p n st)
  · exact congrArg (fun x => (Device.modLane x n fun l => { l with rx := Receiver.fresh, line := .hunt }).writeLane n st .laneUnlock 0)
      (truncate_withPort ((d.reportUnlock n).modLane n fun l => { l with history := [] }) p n st)

theorem restartChecker_withPort (b : Bool) : (d.withPort p).restartChecker n b st = (d.restartChecker n b st).withPort p := by
  have rest (lost : Bool) : ∀ y z : Device, y = z.withPort p →
      (let y := y.modLane n fun l => { l with rx := Receiver.fresh, checker := Checker.fresh, line := .search }
       let y := if b then y.modLane n fun l => { l with tx := { l.tx with position := 0 } } else y
       if lost then y.writeLane n st .patternUnlock 0 else y) =
      (let z := z.modLane n fun l => { l with rx := Receiver.fresh, checker := Checker.fresh, line := .search }
       let z := if b then z.modLane n fun l => { l with tx := { l.tx with position := 0 } } else z
       if lost then z.writeLane n st .patternUnlock 0 else z).withPort p := by
    rintro _ z rfl
    cases b <;> cases lost <;> rfl
  unfold Device.restartChecker
  rw [show (d.withPort p).lane n = d.lane n from rfl]
  generalize decide ((d.lane n).line = .track) = lost
  cases lost
  · exact rest false _ _ (truncate_withPort (d.modLane n fun l => { l with history := [] }) p n st)
  · exact rest true _ _ (truncate_withPort ((d.reportUnlock n).modLane n fun l => { l with history := [] }) p n st)

theorem swapAtClose_withPort (reason : CloseReason) :
    (d.withPort p).swapAtClose n reason st = (d.swapAtClose n reason st).withPort p := by
  obtain ⟨x, hx⟩ : ∃ x, x = (d.exchangePages n).writeClose n st .pageSwapped ((d.exchangePages n).lane n).live.val := ⟨_, rfl⟩
  have exchanged : ((d.withPort p).exchangePages n).writeClose n st .pageSwapped
      (((d.withPort p).exchangePages n).lane n).live.val = x.withPort p := by rw [hx]; rfl
  unfold Device.swapAtClose
  dsimp only
  rw [exchanged, ← hx, show (d.withPort p).lane n = d.lane n from rfl, show (x.withPort p).lane n = x.lane n from rfl]
  split
  · rfl
  · split
    · rfl
    · exact restartReceiver_withPort x p n st
    · exact restartChecker_withPort x p n st _

theorem close_withPort (reason : CloseReason) (start : Stamp) :
    (d.withPort p).close n reason st start = (d.close n reason st start).withPort p := by
  cases hi : (d.lane n).interval with
  | none => rw [close_none hi, close_none (d := d.withPort p) hi]
  | some iv =>
    rw [close_some hi, close_some (d := d.withPort p) hi, intervalClosed_withPort, swapAtClose_withPort,
      show (d.withPort p).lane n = d.lane n from rfl]
    split <;> rfl

theorem cancelInsert_withPort : (d.withPort p).cancelInsert n st = (d.cancelInsert n st).withPort p := by
  unfold Device.cancelInsert
  rw [show (d.withPort p).lane n = d.lane n from rfl]
  split <;> rfl

theorem endTest_withPort (why : TestEnd) : (d.withPort p).endTest n why st = (d.endTest n why st).withPort p := by
  unfold Device.endTest
  simp only [close_withPort, cancelInsert_withPort, endCaptures_withPort]
  obtain ⟨x, hx⟩ : ∃ x, x = ((d.close n .testStop st st).cancelInsert n st).endCaptures n st := ⟨_, rfl⟩
  rw [← hx, show (x.withPort p).lane n = x.lane n from rfl]
  split <;> rfl

theorem takeFault_withPort : (d.withPort p).takeFault n st = (d.takeFault n st).withPort p :=
  endTest_withPort ((d.modLane n fun l => { l with txFault := true }).writeLane n st .txFault 0) p n st .fault

theorem beginTest_withPort (o : Origin) : (d.withPort p).beginTest n o st = (d.beginTest n o st).withPort p := by
  unfold Device.beginTest
  dsimp only
  rw [close_withPort, endCaptures_withPort]
  obtain ⟨x, hx⟩ : ∃ x, x = (((d.close n .testStart st st).endCaptures n st).modLane n fun l => l.enter .test).writeLane n st
      .testStarted o.code := ⟨_, rfl⟩
  have begun : ((((d.close n .testStart st st).endCaptures n st).withPort p).modLane n fun l => l.enter .test).writeLane n st
      .testStarted o.code = x.withPort p := by rw [hx]; rfl
  rw [begun, ← hx, takeFault_withPort, show (x.withPort p).lane n = x.lane n from rfl]
  split <;> rfl

/-- An operation on a lane neither reads nor changes the port. -/
theorem laneAction_withPort (a : LaneAction) (o : Origin) :
    (d.withPort p).laneAction a n o st = ((d.laneAction a n o st).1.withPort p, (d.laneAction a n o st).2) := by
  have same : (d.withPort p).lane n = d.lane n := rfl
  cases a with
  | close => simp only [Device.laneAction, Device.closeByRequest, same, close_withPort]; cases (d.lane n).mode <;> rfl
  | swap => simp only [Device.laneAction, Device.armSwap, same]; cases (d.lane n).mode <;> rfl
  | testStart =>
    simp only [Device.laneAction, Device.testStart, same, beginTest_withPort]
    cases (d.lane n).mode
    · rfl
    · dsimp only; split <;> rfl
    · rfl
  | testStop => simp only [Device.laneAction, Device.testStop, same, endTest_withPort]; cases (d.lane n).mode <;> rfl
  | insert =>
    simp only [Device.laneAction, Device.insert, same]
    cases (d.lane n).mode
    · rfl
    · rfl
    · dsimp only; split <;> rfl
  | capture => simp only [Device.laneAction, Device.captureByRequest, same, trigger_withPort]; cases (d.lane n).mode <;> rfl

end

/-! ### Requests with a lane mask (01 R16) -/

theorem maskLanes_eq (m : Byte) : maskLanes m = ([0, 1, 2, 3] : List LaneNo).filter fun n => m.getLsbD n.val := rfl

/-- What the lanes of a mask leave is the fold of their own work. -/
theorem onLanes_fst (f : LaneNo → Device → Device × Status) (ns : List LaneNo) (d : Device) :
    (Device.onLanes f ns d).1 = ns.foldl (fun d n => (f n d).1) d := by
  induction ns generalizing d with
  | nil => rfl
  | cons n ns ih => exact ih _

/-- The status of an operation reads the lane and whether a capture of it is in progress. -/
theorem status_laneAction_congr {d d' : Device} {n : LaneNo} (hl : d'.lane n = d.lane n)
    (hb : d'.capture.busy n = d.capture.busy n) (a : LaneAction) (o : Origin) (st : Stamp) :
    (d'.laneAction a n o st).2 = (d.laneAction a n o st).2 := by
  unfold CaptureUnit.busy at hb
  rw [status_laneAction, status_laneAction, hl, hb]

/-- Lanes that take an operation one after another: each has the status and the lane it would have alone, and the lanes that are
not named stand (01 R16). -/
theorem onLanes_each (a : LaneAction) (o : Origin) (ns : List LaneNo) (hn : ns.Nodup) (d : Device) :
    (Device.onLanes (fun n d => d.laneAction a n o d.now) ns d).1 = ns.foldl (fun x n => (x.laneAction a n o d.now).1) d ∧
    (Device.onLanes (fun n d => d.laneAction a n o d.now) ns d).2 = ns.map (fun n => (n, (d.laneAction a n o d.now).2)) ∧
    ∀ n, (ns.foldl (fun x n => (x.laneAction a n o d.now).1) d).lane n =
      if n ∈ ns then (d.laneAction a n o d.now).1.lane n else d.lane n := by
  induction ns generalizing d with
  | nil => exact ⟨rfl, rfl, fun n => by simp⟩
  | cons n ns ih =>
    obtain ⟨hnotin, hn⟩ := List.nodup_cons.1 hn
    obtain ⟨x, hx⟩ : ∃ x, x = (d.laneAction a n o d.now).1 := ⟨_, rfl⟩
    have step : Device.LaneStep n d x := hx ▸ .laneAction n d a o _
    have captures : Device.CaptureStep n d x := hx ▸ .laneAction n d a o _
    have now : x.now = d.now := congrArg Timebase.stamp step.timebase
    obtain ⟨first, statuses, lanes⟩ := ih hn x
    rw [now] at first statuses lanes
    have status : ∀ m ∈ ns, (x.laneAction a m o d.now).2 = (d.laneAction a m o d.now).2 := fun m hm =>
      have hne : m ≠ n := fun e => hnotin (e ▸ hm)
      status_laneAction_congr (step.lanes m hne) (captures.busy m hne) a o d.now
    refine ⟨?_, ?_, fun m => ?_⟩
    · rw [List.foldl_cons, ← hx, ← first, hx]; rfl
    · rw [List.map_cons, ← List.map_congr_left fun m hm => congrArg (Prod.mk m) (status m hm), ← statuses, hx]; rfl
    · rw [List.foldl_cons, ← hx, lanes, lane_laneAction, lane_laneAction]
      by_cases hm : m = n
      · subst hm
        rw [if_neg hnotin, if_pos List.mem_cons_self, hx, lane_laneAction]
      · simp only [List.mem_cons, hm, false_or, step.lanes m hm]

theorem mem_maskLanes (m : Byte) (n : LaneNo) : n ∈ maskLanes m ↔ m.getLsbD n.val = true := by
  have all : n ∈ allLanes := by revert n; decide
  simp [maskLanes, all]

theorem nodup_maskLanes (m : Byte) : (maskLanes m).Nodup := List.Nodup.filter _ (by decide)

theorem lookup_map_pair (f : LaneNo → Status) (ns : List LaneNo) (n : LaneNo) :
    (ns.map fun m => (m, f m)).lookup n = if n ∈ ns then some (f n) else none := by
  induction ns with
  | nil => rfl
  | cons m ns ih =>
    rw [List.map_cons, List.lookup_cons, ih]
    by_cases h : n = m
    · simp [h]
    · rw [show (n == m) = false by simpa using h]; simp [h]

/-- The lanes' work takes the port as it is along. -/
theorem fold_withPort (a : LaneAction) (o : Origin) (st : Stamp) (p : Port) (ns : List LaneNo) (d : Device) :
    ns.foldl (fun x n => (x.laneAction a n o st).1) (d.withPort p) =
      (ns.foldl (fun x n => (x.laneAction a n o st).1) d).withPort p := by
  induction ns generalizing d with
  | nil => rfl
  | cons n ns ih => rw [List.foldl_cons, List.foldl_cons, laneAction_withPort, ih]

/-- The lanes' work in order is work of the lanes. -/
theorem fold_frame (a : LaneAction) (o : Origin) (st : Stamp) (ns : List LaneNo) (d : Device) :
    let d' := ns.foldl (fun x n => (x.laneAction a n o st).1) d
    d' = { d with lanes := d'.lanes, capture := d'.capture, inFlight := d'.inFlight } ∧ d.inFlight <+: d'.inFlight := by
  induction ns generalizing d with
  | nil => exact ⟨rfl, List.prefix_refl _⟩
  | cons n ns ih =>
    have step : Device.LaneStep n d (d.laneAction a n o st).1 := .laneAction n d a o st
    obtain ⟨frame, records⟩ := ih (d.laneAction a n o st).1
    rw [List.foldl_cons]
    refine ⟨?_, step.records.trans records⟩
    rw [frame, step.frame]

/-- Settles O23: the named lanes take the operation in order, each as it would alone. -/
theorem maskRequestsTreatEachLane : Obligations.MaskRequestsTreatEachLane := by
  intro tag m code a c s hq hc
  have ran : exec c s = s.onDevice fun d => d.request code tag (asRequest (maskOnly a [m])) := by
    simp only [List.mem_cons, List.not_mem_nil, or_false, Prod.mk.injEq] at hc
    rcases hc with ⟨rfl, rfl, rfl⟩ | ⟨rfl, rfl, rfl⟩ | ⟨rfl, rfl, rfl⟩ | ⟨rfl, rfl, rfl⟩ | ⟨rfl, rfl, rfl⟩ <;> rfl
  rw [ran]
  refine ⟨fun hm => ?_, fun hm => ?_⟩
  · refine onDevice_request_answered s hq _ _ (asRequest_unchanged _ _ _ ?_)
    simp [maskOnly, Device.maskRequest, hm, Answer.refuse]
  · obtain ⟨d0, hd0⟩ : ∃ x, x = s.dev.frameEnds := ⟨_, rfl⟩
    have port0 : d0 = s.dev.withPort d0.port := by rw [hd0]; rfl
    have now0 : d0.now = s.dev.now := by rw [hd0]; rfl
    obtain ⟨first, statuses, -⟩ := onLanes_each a .host (maskLanes m) (nodup_maskLanes m) d0
    obtain ⟨-, -, lanes⟩ := onLanes_each a .host (maskLanes m) (nodup_maskLanes m) s.dev
    obtain ⟨worked, hworked⟩ : ∃ x, x = (maskLanes m).foldl (fun x n => (x.laneAction a n .host s.dev.now).1) s.dev := ⟨_, rfl⟩
    obtain ⟨frame, records⟩ := fold_frame a .host s.dev.now (maskLanes m) s.dev
    rw [← hworked] at frame records lanes
    rw [now0, port0, fold_withPort, ← hworked, ← port0] at first
    have own : maskOnly a [m] s.dev.frameEnds = (worked.withPort d0.port, .ok ([0, 1, 2, 3].map fun n : LaneNo =>
        if m.getLsbD n.val then (s.dev.laneAction a n .host s.dev.now).2.code else 0xFF#8)) := by
      simp only [maskOnly, Device.maskRequest, hm, if_true, ← hd0, first, statuses, laneStatusBytes, lookup_map_pair,
        mem_maskLanes]
      refine Prod.ext rfl (congrArg Answer.ok (List.map_congr_left fun n _ => ?_))
      have status : (d0.laneAction a n .host d0.now).2 = (s.dev.laneAction a n .host s.dev.now).2 := by
        rw [now0, port0, laneAction_withPort]
      rw [status]
      by_cases hb : m.getLsbD n.val = true <;> simp [hb]
    refine ⟨_, exec_request s hq own, ?_⟩
    simp only [dev_withDev, lane_requested, lanes_requested, capture_requested, timebase_requested, schedule_requested,
      inputs_requested, pattern_requested, journal_requested, conditions_requested]
    obtain ⟨added, hadded⟩ := records
    have sent := inFlight_requested s.dev tag code (worked.withPort d0.port) (.ok ([0, 1, 2, 3].map fun n : LaneNo =>
        if m.getLsbD n.val then (s.dev.laneAction a n .host s.dev.now).2.code else 0xFF#8)) (added := added) hadded.symm
    have drop : worked.inFlight.drop s.dev.inFlight.length = added := by rw [← hadded]; simp
    rw [← maskLanes_eq, ← hworked, sent, drop]
    refine ⟨port_requested _ _ _ _ _ (by rw [hd0]; rfl), fun n => ?_, ⟨rfl, rfl, rfl⟩, ?_, ?_, ?_, ?_, ?_,
      List.prefix_append _ _, ?_⟩
    · rw [show (worked.withPort d0.port).lane n = worked.lane n from rfl, lanes n]
      simp only [mem_maskLanes]
    all_goals rw [frame]; rfl

end Sys2Proof.Machine
end

