-- ==== Sys2Proof/Proofs/Cells.lean ====
section
namespace Sys2Proof.Machine

open Sys2Proof

/-! ### What a cell makes of a lane (01 R3 to R12, 07 R140 to R142) -/

/-- A byte joins the lane's history (01 R12). -/
def Lane.handed (l : Lane) (b : Byte) : Lane := { l with history := pushHistory l.history b }

/-- The two sync bytes of a frame join the lane's history (01 R11). -/
def Lane.syncHanded (l : Lane) (w : List Cell) : Lane := (l.handed (byteOfCells (w.take 8))).handed (byteOfCells (w.drop 8))

/-- The receive side as a lost or regained signal leaves it (01 R5, R6). -/
def Receiver.cleared (r : Receiver) : Receiver :=
  { r with run := 0, idleCounted := false, validCells := 0, window := [], candidate := none }

/-- The lane after the loss of its signal (01 R5). -/
def Lane.signalLost (l : Lane) : Lane :=
  { l with
    interval := l.interval.map fun iv => { iv with lostSignal := true, lostLock := iv.lostLock || l.assembling }
    history := if l.assembling then [] else l.history
    line := .noSignal
    rx := l.rx.cleared
    checker := if l.mode = .test then Checker.fresh else l.checker }

/-- The lane with the next count of valid cells in NOSIGNAL (01 R6). -/
def Lane.noSignalCounted (l : Lane) (c : Cell) : Lane :=
  { l with rx := { l.rx with validCells := if c = .violation then 0 else l.rx.validCells + 1 } }

/-- The lane at its 64th valid cell (01 R6). -/
def Lane.signalBack (l : Lane) : Lane :=
  { l with
    line := if l.mode = .test then .search else .hunt
    rx := l.rx.cleared
    checker := if l.mode = .test then Checker.fresh else l.checker }

/-- The lane after a cell in NOSIGNAL (01 R6). -/
def Lane.noSignalCell (l : Lane) (c : Cell) : Lane :=
  if c = .violation ∨ l.rx.validCells + 1 < 64 then l.noSignalCounted c else l.signalBack

/-- The lane with one more violation in its run (01 R4). -/
def Lane.runLonger (l : Lane) : Lane :=
  { l with rx := { l.rx with run := l.rx.run + 1, idleCounted := l.rx.idleCounted || l.idleDue } }

/-- The lane after the violation run of a cell (01 R4, R5). -/
def Lane.runCell (l : Lane) (c : Cell) : Lane :=
  if c = .violation then
    if l.rx.run < Config.countMax then
      let counted := if l.idleDue then l.runLonger.counting .idle else l.runLonger
      if l.rx.run + 1 = l.page.losThreshold then counted.signalLost else counted
    else l
  else { l with rx := { l.rx with run := 0, idleCounted := false } }

/-- The lane as it enters LOCKED, before the sync bytes are handed on (01 R8). -/
def Lane.locked (l : Lane) (w : List Cell) : Lane :=
  { l with line := .locked, rx := { l.rx with window := w, candidate := none, position := 15, mismatches := 0 } }

/-- The lane after a cell in HUNT (01 R8). -/
def Lane.huntCell (l : Lane) (c : Cell) : Lane :=
  let window := pushWindow l.rx.window c
  let since := l.rx.candidate.map (· + 1)
  if windowMatches window l.page.syncWord then
    if since = some l.page.frameCells then (l.locked window).syncHanded window
    else { l with rx := { l.rx with window := window, candidate := some 0 } }
  else { l with rx := { l.rx with window := window, candidate := since } }

/-- The lane after the loss of its lock (01 R10). -/
def Lane.lockLost (l : Lane) : Lane :=
  { l.lostLock with history := [], line := .hunt, rx := { l.rx with window := [], candidate := none } }

/-- One unit seen in the open interval, if one is open (03 R48). -/
def Lane.unitSeen (l : Lane) : Lane :=
  { l with interval := l.interval.map fun iv => { iv with units := min (iv.units + 1) Config.countMax } }

/-- The lane with its mismatches in a row set (01 R9). -/
def Lane.missed (l : Lane) (k : Nat) : Lane := { l with rx := { l.rx with mismatches := k } }

/-- The lane after the frame check (01 R9, R10). -/
def Lane.frameCheck (l : Lane) : Lane :=
  if windowMatches l.rx.window l.page.syncWord then (l.unitSeen.missed 0).syncHanded l.rx.window
  else
    let counted := (l.missed (l.rx.mismatches + 1)).counting .slip
    if l.rx.mismatches + 1 < Config.unlockMismatches then counted.syncHanded l.rx.window else counted.lockLost

/-- The place of the next cell in the line frame (01 R9). -/
def Lane.nextPosition (l : Lane) : Nat := if l.rx.position + 1 < l.page.frameCells then l.rx.position + 1 else 0

/-- The lane with the next cell of its frame in the window (01 R9). -/
def Lane.moved (l : Lane) (c : Cell) : Lane :=
  { l with rx := { l.rx with window := pushWindow l.rx.window c, position := l.nextPosition } }

/-- The lane after a cell in LOCKED (01 R9). -/
def Lane.lockedCell (l : Lane) (c : Cell) : Lane :=
  if l.nextPosition = 15 then (l.moved c).frameCheck
  else if 16 ≤ l.nextPosition ∧ l.nextPosition % 8 = 7 then
    (l.moved c).handed (byteOfCells ((pushWindow l.rx.window c).drop 8))
  else l.moved c

/-- The lane after a cell in SEARCH (07 R140). -/
def Lane.searchCell (l : Lane) (p : Pattern) (c : Cell) : Lane :=
  let counts := searchCounts l.checker.counts (p.inverted l.page.invert) c
  match foundAlignment counts with
  | none => { l with checker := { l.checker with counts := counts } }
  | some k => { l with line := .track, checker := { Checker.fresh with alignment := some k, reading := l.page.invert } }

/-- The lane after the loss of TRACK (07 R142). -/
def Lane.trackLost (l : Lane) : Lane :=
  { l.lostLock with history := [], line := .search, rx := { l.rx with window := [] }, checker := Checker.fresh }

/-- The lane after a cell in TRACK (07 R141, R142). -/
def Lane.trackCell (l : Lane) (p : Pattern) (c : Cell) : Lane :=
  let next := l.checker.track p l.page.invert c
  let tracked : Lane := { l with checker := next.1 }
  let counted := if next.2 then tracked.counting .pattern else tracked
  if next.2 = true ∧ Config.blockMismatches ≤ next.1.blockMismatches then counted.trackLost
  else
    let unit := if next.1.whole = true ∧ next.1.alignment = some 15 then counted.unitSeen else counted
    if next.1.whole = true ∧ (next.1.alignment = some 7 ∨ next.1.alignment = some 15) then unit.handed (byteOfBits next.1.bits)
    else unit

/-- The lane after steps 4 to 6 of R3. -/
def Lane.lineCell (l : Lane) (p : Pattern) (c : Cell) : Lane :=
  match l.line with
  | .none | .noSignal => l
  | .hunt => l.huntCell c
  | .locked => l.lockedCell c
  | .search => l.searchCell p c
  | .track => l.trackCell p c

/-- The lane after a cell of its stream (01 R3). -/
def Lane.takeCell (l : Lane) (p : Pattern) (c : Cell) : Lane :=
  match l.line with
  | .none => l
  | .noSignal => l.noSignalCell c
  | .hunt | .locked | .search | .track =>
    ((if c = .violation then l.counting .code else l).runCell c).lineCell p c

/-! ### Each operation makes of its lane what these say -/

section
variable (d : Device) (n : LaneNo) (c : Cell) (st : Stamp)

theorem lane_handByte (b : Byte) (payload : Bool) : (d.handByte n b payload st).lane n = (d.lane n).handed b := by
  obtain ⟨x, hx⟩ : ∃ x, x = d.modLane n fun l => { l with history := pushHistory l.history b } := ⟨_, rfl⟩
  have lane : x.lane n = (d.lane n).handed b := by rw [hx, lane_modLane_same]; rfl
  unfold Device.handByte
  dsimp only
  rw [← hx, ← lane]
  split
  · split
    · exact lane_triggerOrMiss _ _ _ _ _
    · exact (lane_captureByte _ _ _ _ _).trans (lane_triggerOrMiss _ _ _ _ _)
  · split
    · rfl
    · exact lane_captureByte _ _ _ _ _

theorem lane_handSyncBytes (w : List Cell) : (d.handSyncBytes n w st).lane n = (d.lane n).syncHanded w := by
  unfold Device.handSyncBytes Lane.syncHanded
  rw [lane_handByte, lane_handByte]

theorem lane_emptyAndTruncate (x : Device) :
    ((x.modLane n fun l => { l with history := [] }).truncate n st).lane n = { x.lane n with history := [] } := by
  rw [lane_truncate, lane_modLane_same]

theorem lane_loseSignal : (d.loseSignal n st).lane n = (d.lane n).signalLost := by
  unfold Device.loseSignal Lane.signalLost
  generalize ha : (d.lane n).assembling = a
  cases a with
  | false =>
    simp only [lane_writeLane, lane_modLane_same, Bool.false_eq_true, if_false, Device.reportNoSignal, lane_modInterval_same,
      Bool.or_false]
    rfl
  | true =>
    simp only [lane_writeLane, lane_modLane_same, if_true, Device.reportNoSignal, Device.reportUnlock, lane_modInterval_same,
      lane_emptyAndTruncate, Bool.or_true, Option.map_map]
    rfl

theorem noSignalCell_counting (h : c = .violation ∨ (d.lane n).rx.validCells + 1 < 64) :
    d.noSignalCell n c st = d.modLane n fun _ => (d.lane n).noSignalCounted c := by
  unfold Device.noSignalCell Lane.noSignalCounted
  by_cases hc : c = .violation
  · simp only [if_pos hc]; rfl
  · have hv : (d.lane n).rx.validCells + 1 < Config.signalBackCells := h.resolve_left hc
    simp only [if_neg hc, if_pos hv]; rfl

theorem noSignalCell_back (hc : c ≠ .violation) (hv : 64 ≤ (d.lane n).rx.validCells + 1) :
    d.noSignalCell n c st = (d.modLane n Lane.signalBack).writeLane n st .signalBack 0 := by
  have hv : ¬ (d.lane n).rx.validCells + 1 < Config.signalBackCells := Nat.not_lt.2 hv
  unfold Device.noSignalCell
  simp only [if_neg hc, if_neg hv]
  rfl

theorem lane_noSignalCell : (d.noSignalCell n c st).lane n = (d.lane n).noSignalCell c := by
  unfold Lane.noSignalCell
  split
  · next h => rw [noSignalCell_counting _ _ _ _ h, lane_modLane_same]
  · next h =>
    obtain ⟨hc, hv⟩ := not_or.1 h
    rw [noSignalCell_back _ _ _ _ hc (Nat.not_lt.1 hv), lane_writeLane, lane_modLane_same]

theorem lane_runStep : (d.runStep n c st).lane n = (d.lane n).runCell c := by
  unfold Device.runStep Lane.runCell
  obtain ⟨x, hx⟩ : ∃ x, x = d.modLane n fun l => { l with rx :=
    { l.rx with run := l.rx.run + 1, idleCounted := l.rx.idleCounted || l.idleDue } } := ⟨_, rfl⟩
  have lane : x.lane n = (d.lane n).runLonger := by rw [hx, lane_modLane_same]; rfl
  have counted : (if (d.lane n).idleDue = true then x.countError n .idle st else x).lane n =
      if (d.lane n).idleDue = true then (d.lane n).runLonger.counting .idle else (d.lane n).runLonger := by
    split
    · rw [lane_countError, lane]
    · exact lane
  dsimp only
  rw [← hx]
  split
  · split
    · split
      · rw [lane_loseSignal, counted]
      · exact counted
    · rfl
  · exact lane_modLane_same _ _ _

theorem lane_huntCell : (d.huntCell n c st).lane n = (d.lane n).huntCell c := by
  unfold Device.huntCell Lane.huntCell
  dsimp only
  split
  · split
    · rw [lane_writeLane, lane_handSyncBytes, lane_modLane_same]; rfl
    · exact lane_modLane_same _ _ _
  · exact lane_modLane_same _ _ _

theorem lane_loseLock : (d.loseLock n st).lane n = (d.lane n).lockLost := by
  unfold Device.loseLock Lane.lockLost
  dsimp only
  rw [lane_writeLane, lane_modLane_same, lane_emptyAndTruncate, lane_reportUnlock]; rfl

theorem lane_frameCheck : (d.frameCheck n st).lane n = (d.lane n).frameCheck := by
  unfold Device.frameCheck Lane.frameCheck
  dsimp only
  split
  · rw [lane_handSyncBytes, lane_modLane_same, Device.countUnit, lane_modInterval_same]; rfl
  · have counted : ((d.modLane n fun l => { l with rx := { l.rx with mismatches := (d.lane n).rx.mismatches + 1 } }).countError n
        .slip st).lane n = ((d.lane n).missed ((d.lane n).rx.mismatches + 1)).counting .slip := by
      rw [lane_countError, lane_modLane_same]; rfl
    split
    · rw [lane_handSyncBytes, counted]
    · rw [lane_loseLock, counted]

theorem lockedCell_eq : d.lockedCell n c st =
    if (d.lane n).nextPosition = 15 then (d.modLane n fun _ => (d.lane n).moved c).frameCheck n st
    else if 16 ≤ (d.lane n).nextPosition ∧ (d.lane n).nextPosition % 8 = 7 then
      (d.modLane n fun _ => (d.lane n).moved c).handByte n (byteOfCells ((pushWindow (d.lane n).rx.window c).drop 8)) true st
    else d.modLane n fun _ => (d.lane n).moved c := by
  unfold Device.lockedCell Lane.moved Lane.nextPosition
  rfl

theorem lane_lockedCell : (d.lockedCell n c st).lane n = (d.lane n).lockedCell c := by
  rw [lockedCell_eq]
  unfold Lane.lockedCell
  split
  · rw [lane_frameCheck, lane_modLane_same]
  · split
    · rw [lane_handByte, lane_modLane_same]
    · exact lane_modLane_same _ _ _

theorem lane_searchCell : (d.searchCell n c st).lane n = (d.lane n).searchCell d.pattern c := by
  unfold Device.searchCell Lane.searchCell
  dsimp only
  cases foundAlignment (searchCounts (d.lane n).checker.counts (d.pattern.inverted (d.lane n).page.invert) c) with
  | none => exact lane_modLane_same _ _ _
  | some k => exact (lane_writeLane _ _ _ _ _ _).trans (lane_modLane_same _ _ _)

theorem lane_loseTrack : (d.loseTrack n st).lane n = (d.lane n).trackLost := by
  unfold Device.loseTrack Lane.trackLost
  dsimp only
  rw [lane_writeLane, lane_modLane_same, lane_emptyAndTruncate, lane_reportUnlock]; rfl

theorem lane_trackCell : (d.trackCell n c st).lane n = (d.lane n).trackCell d.pattern c := by
  unfold Device.trackCell Lane.trackCell
  obtain ⟨next, hnext⟩ : ∃ x, x = (d.lane n).checker.track d.pattern (d.lane n).page.invert c := ⟨_, rfl⟩
  obtain ⟨x, hx⟩ : ∃ x, x = d.modLane n fun l => { l with checker := next.1 } := ⟨_, rfl⟩
  have lane : x.lane n = { d.lane n with checker := next.1 } := by rw [hx, lane_modLane_same]
  have counted : (if next.2 then x.countError n .pattern st else x).lane n =
      if next.2 then ({ d.lane n with checker := next.1 } : Lane).counting .pattern else { d.lane n with checker := next.1 } := by
    split
    · rw [lane_countError, lane]
    · exact lane
  dsimp only
  rw [← hnext, ← hx]
  generalize (if next.2 then x.countError n .pattern st else x) = y at counted ⊢
  rw [← counted]
  have unit : (if next.1.whole = true ∧ next.1.alignment = some 15 then y.countUnit n else y).lane n =
      if next.1.whole = true ∧ next.1.alignment = some 15 then (y.lane n).unitSeen else y.lane n := by
    split
    · exact lane_modInterval_same _ _ _
    · rfl
  split
  · exact lane_loseTrack _ _ _
  · split
    · rw [lane_handByte, unit]
    · exact unit

theorem lane_lineCell : (d.lineCell n c st).lane n = (d.lane n).lineCell d.pattern c := by
  unfold Device.lineCell Lane.lineCell
  cases (d.lane n).line
  · rfl
  · exact lane_huntCell d n c st
  · exact lane_lockedCell d n c st
  · rfl
  · exact lane_searchCell d n c st
  · exact lane_trackCell d n c st

theorem lane_takeCell : (d.takeCell n c st).lane n = (d.lane n).takeCell d.pattern c := by
  have work : (((if c = .violation then d.countError n .code st else d).runStep n c st).lineCell n c st).lane n =
      ((if c = .violation then (d.lane n).counting .code else d.lane n).runCell c).lineCell d.pattern c := by
    have step : Device.LaneStep n d ((if c = .violation then d.countError n .code st else d).runStep n c st) :=
      (Device.LaneStep.ite (.countError n d _ st) (.refl n d)).trans (.runStep n _ c st)
    have first : (if c = .violation then d.countError n .code st else d).lane n =
        if c = .violation then (d.lane n).counting .code else d.lane n := by
      split
      · exact lane_countError d n _ st
      · rfl
    rw [lane_lineCell, step.pattern, lane_runStep, first]
  unfold Device.takeCell Lane.takeCell
  cases (d.lane n).line
  · rfl
  · exact work
  · exact work
  · exact lane_noSignalCell d n c st
  · exact work
  · exact work

end

end Sys2Proof.Machine
end

