-- ==== Sys2Proof/Proofs/CellArrivals.lean ====
section
namespace Sys2Proof.Machine

open Sys2Proof

/-! ### Cells outside the stream and in NOSIGNAL (01 R2, R6) -/

/-- Where no lane's alarm and latch moves, and no other block does, no condition moves. -/
theorem level_eq_of_lanes {a b : Device} (ha : ∀ m, (b.lane m).alarm = (a.lane m).alarm)
    (hf : ∀ m, (b.lane m).txFault = (a.lane m).txFault) (hj : b.journal = a.journal) (ht : b.timebase = a.timebase)
    (hc : b.capture = a.capture) (c : CondNo) : a.level c = b.level c := by
  fin_cases c
  · exact congrArg Journal.level hj.symm
  · exact congrArg Journal.holdOff hj.symm
  · exact congrArg CaptureUnit.ready hc.symm
  · exact (ha 0).symm
  · exact (ha 1).symm
  · exact (ha 2).symm
  · exact (ha 3).symm
  · change (allLanes.any fun m => (a.lane m).txFault) = allLanes.any fun m => (b.lane m).txFault
    simp only [hf]
  · exact congrArg Timebase.clockLevel ht.symm
  · rfl

/-- An event that changes one lane alone, writes nothing and moves neither its alarm nor its latch has no more effect. -/
theorem settle_modLane (d : Device) (n : LaneNo) (f : Lane → Lane) (ha : (f (d.lane n)).alarm = (d.lane n).alarm)
    (hf : (f (d.lane n)).txFault = (d.lane n).txFault) : Device.settle d (d.modLane n f) = d.modLane n f := by
  refine settle_noWrite (level_eq_of_lanes (fun m => ?_) (fun m => ?_) rfl rfl rfl) rfl
  all_goals
    by_cases hm : m = n
    · subst hm; rw [lane_modLane_same]; assumption
    · rw [lane_modLane_ne _ _ hm]

theorem exec_cellArrival (n : LaneNo) (c : Cell) (s : State) : exec (.cellArrival n c) s = .next (s.withDev
    (if (s.dev.lane n).looksAtLine then Device.settle s.dev (s.dev.takeCell n c s.dev.now) else s.dev)) := rfl

theorem Lane.looksAtLine_iff (l : Lane) : l.looksAtLine = true ↔ ¬ (l.mode = .test ∧ l.page.loopback = .internal) := by
  simp [Lane.looksAtLine, Decidable.imp_iff_not_or]

section
variable (d : Device) (n : LaneNo) (c : Cell) (st : Stamp)

theorem takeCell_noSignal (h : (d.lane n).line = .noSignal) : d.takeCell n c st = d.noSignalCell n c st := by
  unfold Device.takeCell; rw [h]

theorem takeCell_none (h : (d.lane n).line = .none) : d.takeCell n c st = d := by
  unfold Device.takeCell; rw [h]

end

/-- Settles O31: outside the stream nothing happens, and in NOSIGNAL each cell has its one effect. -/
theorem cellsOutsideTheStreamAndInNoSignal : Obligations.CellsOutsideTheStreamAndInNoSignal := by
  intro n c s
  refine ⟨fun h => ?_, fun hl hm => ?_⟩
  · rw [exec_cellArrival]
    rcases h with ⟨-, hl⟩ | h
    · rw [takeCell_none _ _ _ _ hl, settle_self, ite_self]; rfl
    · rw [if_neg fun hx => (Lane.looksAtLine_iff _).1 hx h]; rfl
  · have looks : (s.dev.lane n).looksAtLine = true := by
      rw [Lane.looksAtLine_iff]
      rintro ⟨h1, h2⟩
      rcases hm with hm | ⟨-, hm⟩
      · rw [hm] at h1; cases h1
      · rw [hm] at h2; cases h2
    have ran : exec (.cellArrival n c) s = .next (s.withDev (Device.settle s.dev (s.dev.noSignalCell n c s.dev.now))) := by
      rw [exec_cellArrival, if_pos looks, takeCell_noSignal _ _ _ _ hl]
    refine ⟨fun h => ⟨_, ran, ?_⟩, fun hc hv => ⟨_, ran, ?_⟩⟩
    · rw [dev_withDev, noSignalCell_counting _ _ _ _ h, settle_modLane _ _ _ rfl rfl]
      exact ⟨rfl, fun m hne => lane_modLane_ne _ _ hne, lane_modLane_same _ _ _⟩
    · have lane : (Device.settle s.dev (s.dev.noSignalCell n c s.dev.now)).lane n = (s.dev.lane n).signalBack := by
        rw [lane_settle, noSignalCell_back _ _ _ _ hc hv, lane_writeLane, lane_modLane_same]
      rw [dev_withDev, lane]
      refine ⟨rfl, rfl, fun ht => ?_, rfl, rfl, fun m hne => ?_, ?_, ?_⟩
      · simp [Lane.signalBack, ht, Checker.fresh]
      · rw [lane_settle, noSignalCell_back _ _ _ _ hc hv, lane_writeLane, lane_modLane_ne _ _ hne]
      · rw [written_congr rfl (inFlight_settle _ _), noSignalCell_back _ _ _ _ hc hv, ← modLane_written s.dev _ n Lane.signalBack,
          written_writeLane, lane_modLane_same]
      · rw [capture_settle, noSignalCell_back _ _ _ _ hc hv]; rfl

/-! ### One cell of the stream (01 R3) -/

/-- Settles O32: the cell's work by the line it finds after the run, and the one effect of a cell in NOSIGNAL. -/
theorem cellsAreWorkedInOrder : Obligations.CellsAreWorkedInOrder := by
  unfold Obligations.CellsAreWorkedInOrder
  intro worked
  have inOrder (d : Device) (n : LaneNo) (c : Cell) (st : Stamp) (h : (d.lane n).line = .hunt ∨ (d.lane n).line = .locked ∨
      (d.lane n).line = .search ∨ (d.lane n).line = .track) : d.takeCell n c st = worked d n c st := by
    have taken : d.takeCell n c st = ((if c = .violation then d.countError n .code st else d).runStep n c st).lineCell n c st := by
      unfold Device.takeCell
      rcases h with h | h | h | h <;> rw [h]
    rw [taken]
    simp only [worked]
    obtain ⟨two, htwo⟩ : ∃ x, x = (if c = .violation then d.countError n .code st else d).runStep n c st := ⟨_, rfl⟩
    rw [← htwo]
    unfold Device.lineCell
    cases (two.lane n).line <;> rfl
  refine ⟨fun n c s h => ?_, fun d n c st => ⟨inOrder d n c st, fun hl => ?_⟩⟩
  · have lines : (s.dev.lane n).line = .hunt ∨ (s.dev.lane n).line = .locked ∨ (s.dev.lane n).line = .search ∨
        (s.dev.lane n).line = .track := by
      rcases h with ⟨-, h | h⟩ | ⟨-, -, h | h⟩ <;> simp [h]
    have looks : (s.dev.lane n).looksAtLine = true := by
      rw [Lane.looksAtLine_iff]
      rintro ⟨h1, h2⟩
      rcases h with ⟨h, -⟩ | ⟨-, h, -⟩
      · rw [h] at h1; cases h1
      · rw [h] at h2; cases h2
    have step : Device.LaneStep n s.dev (worked s.dev n c s.dev.now) := inOrder _ _ _ _ lines ▸ .takeCell n s.dev c _
    refine ⟨?_, step.journal, step.timebase, step.schedule, step.inputs, step.pattern, step.port, step.lanes, step.records⟩
    rw [exec_cellArrival, if_pos looks, inOrder _ _ _ _ lines]
  · rw [takeCell_noSignal _ _ _ _ hl]
    by_cases h : c = .violation ∨ (d.lane n).rx.validCells + 1 < 64
    · rw [noSignalCell_counting _ _ _ _ h]
      refine ⟨rfl, List.prefix_rfl, fun m hne => lane_modLane_ne _ _ hne, fun _ => ⟨by simp, lane_modLane_same _ _ _⟩,
        fun hc hv => absurd h ?_⟩
      rintro (h | h)
      · exact hc h
      · omega
    · obtain ⟨hc, hv⟩ := not_or.1 h
      have hv := Nat.not_lt.1 hv
      have lane : (d.noSignalCell n c st).lane n = (d.lane n).signalBack := by
        rw [noSignalCell_back _ _ _ _ hc hv, lane_writeLane, lane_modLane_same]
      have records : d.written (d.noSignalCell n c st) = [(d.lane n).signalBack.writes n st .signalBack 0] := by
        rw [noSignalCell_back _ _ _ _ hc hv, ← modLane_written d _ n Lane.signalBack, written_writeLane, lane_modLane_same]
      have step : Device.LaneStep n d (d.noSignalCell n c st) := .noSignalCell n d c st
      have unit : (d.noSignalCell n c st).capture = d.capture := by rw [noSignalCell_back _ _ _ _ hc hv]; rfl
      have frame := step.frame
      rw [unit] at frame
      refine ⟨frame, step.records, step.lanes, fun h' => absurd h' h, fun _ _ => ?_⟩
      rw [lane]
      refine ⟨records, fun ht => ?_, fun ht => if_neg ht, rfl⟩
      simp [Lane.signalBack, ht, Checker.fresh]

end Sys2Proof.Machine
end

