-- ==== Sys2Proof/Proofs/ProfileImages.lean ====
section
namespace Sys2Proof.Machine

open Sys2Proof

/-! ### Numbers as bytes (R182) -/

theorem byte_eq_iff {b : Byte} {n : Nat} (h : n < 256) : b = byte n ↔ b.toNat = n := by
  rw [← BitVec.toNat_inj, byte, BitVec.toNat_ofNat, Nat.mod_eq_of_lt h]

theorem word16_eq_iff {lo hi : Byte} {n : Nat} (h : n < 65536) : word16 lo hi = n ↔ [lo, hi] = le16 n := by
  have := lo.isLt
  simp only [word16, le16, List.cons.injEq, and_true, ← BitVec.toNat_inj, BitVec.toNat_ofNat]
  omega

theorem word16_lt (lo hi : Byte) : word16 lo hi < 65536 := by
  have := lo.isLt
  have := hi.isLt
  unfold word16
  omega

theorem inRange_eq_some {lo hi n m : Nat} : inRange lo hi n = some m ↔ (lo ≤ m ∧ m ≤ hi) ∧ n = m := by
  unfold inRange
  split
  · next h => simp only [Option.some.injEq]; exact ⟨fun e => ⟨e ▸ h, e⟩, And.right⟩
  · next h => simp only [reduceCtorEq, false_iff]; exact fun ⟨hr, e⟩ => h (e ▸ hr)

/-! ### The fields of a profile and their bytes (R26, R186) -/

theorem inRange_byte {lo hi n : Nat} {b : Byte} (h : hi < 256) :
    inRange lo hi b.toNat = some n ↔ (lo ≤ n ∧ n ≤ hi) ∧ b = byte n := by
  rw [inRange_eq_some]
  exact and_congr_right fun hr => (byte_eq_iff (hr.2.trans_lt h)).symm

theorem inRange_word16 {lo hi n : Nat} {b b' : Byte} (h : hi < 65536) :
    inRange lo hi (word16 b b') = some n ↔ (lo ≤ n ∧ n ≤ hi) ∧ [b, b'] = le16 n := by
  rw [inRange_eq_some]
  exact and_congr_right fun hr => word16_eq_iff (hr.2.trans_lt h)

theorem bitRateOf_eq_some {b : Byte} {k : Fin 9} : bitRateOf b = some k ↔ b = byte k.val := by
  rw [byte_eq_iff (by omega), bitRateOf]
  split
  · simp only [Option.some.injEq, Fin.ext_iff]
  · next h => simp only [reduceCtorEq, false_iff]; omega

theorem syncWord_eq_iff {b b' : Byte} {w : SyncWord} : BitVec.ofNat 16 (word16 b b') = w ↔ [b, b'] = le16 w.toNat := by
  rw [← word16_eq_iff w.isLt, ← BitVec.toNat_inj, BitVec.toNat_ofNat, Nat.mod_eq_of_lt (word16_lt b b')]

theorem intervalModeOf_eq_some {b : Byte} {m : IntervalMode} : intervalModeOf b = some m ↔ b = m.code := by
  unfold intervalModeOf
  cases m with
  | manual =>
    simp only [IntervalMode.code]
    split
    · next h => simp [h]
    · next h => split <;> simp [h]
  | auto k =>
    rw [IntervalMode.code, byte_eq_iff (by omega)]
    split
    · next h => simp [h]
    · next h =>
      have : b.toNat ≠ 0 := fun e => h (BitVec.eq_of_toNat_eq e)
      split
      · simp only [Option.some.injEq, IntervalMode.auto.injEq, Fin.ext_iff]; omega
      · simp only [reduceCtorEq, false_iff]; omega

theorem slotClassOf_number (c : SlotClass) : slotClassOf c.number = some c := by cases c <;> rfl

theorem SlotClass.number_le (c : SlotClass) : c.number ≤ 5 := by cases c <;> decide

theorem slotClassOf_eq_some {n : Nat} {c : SlotClass} : slotClassOf n = some c ↔ n = c.number := by
  refine ⟨fun h => ?_, fun h => h ▸ slotClassOf_number c⟩
  unfold slotClassOf at h
  split at h <;> cases h <;> rfl

theorem slotClasses_eq_iff {b : Byte} {x y : SlotClass} :
    slotClassOf (b.toNat % 16) = some x ∧ slotClassOf (b.toNat / 16) = some y ↔ b = byte (x.number + 16 * y.number) := by
  have := x.number_le
  have := y.number_le
  rw [slotClassOf_eq_some, slotClassOf_eq_some, byte_eq_iff (by omega)]
  omega

/-- A burst threshold of 0 in the image is none (R186). -/
theorem burst_eq_iff {b b' : Byte} {t : Option Nat} :
    (if word16 b b' = 0 then none else some (word16 b b')) = t ↔
      (∀ n, t = some n → 1 ≤ n ∧ n ≤ 65535) ∧ [b, b'] = le16 (t.getD 0) := by
  have lt := word16_lt b b'
  cases t with
  | none => rw [Option.getD_none, ← word16_eq_iff (by decide)]; simp
  | some n =>
    rw [Option.getD_some]
    constructor
    · intro h
      split at h
      · cases h
      · cases h
        exact ⟨fun n hn => by cases hn; omega, (word16_eq_iff lt).1 rfl⟩
    · rintro ⟨hr, h⟩
      have hn := hr n rfl
      rw [(word16_eq_iff (by omega)).2 h, if_neg (by omega)]

/-- Invert stands at bits 0 and 1, loopback at bit 2 (R186). -/
theorem lineByte_eq_iff {b : Byte} {i : Invert} {x : Loopback} :
    (b.toNat ≤ 7 ∧ invertOf (b.toNat % 4) = i ∧ (if b.toNat.testBit 2 then .internal else .external) = x) ↔
      b = byte (i.code + bitAt (decide (x = .internal)) 2) := by
  have read : ∀ n ≤ 7, n = (invertOf (n % 4)).code +
      bitAt (decide ((if n.testBit 2 then Loopback.internal else .external) = .internal)) 2 := by decide
  constructor
  · rintro ⟨h, rfl, rfl⟩
    exact (byte_eq_iff (read _ h ▸ h.trans_lt (by decide))).2 (read _ h)
  · rintro rfl
    cases i <;> cases x <;> decide

/-- The four flags stand at bits 0 to 3 (R186). -/
theorem flagsByte_eq_iff {b : Byte} {f0 f1 f2 f3 : Bool} :
    (b.toNat ≤ 15 ∧ b.toNat.testBit 0 = f0 ∧ b.toNat.testBit 1 = f1 ∧ b.toNat.testBit 2 = f2 ∧ b.toNat.testBit 3 = f3) ↔
      b = byte (bitAt f0 0 + bitAt f1 1 + bitAt f2 2 + bitAt f3 3) := by
  have read : ∀ n ≤ 15, n = bitAt (n.testBit 0) 0 + bitAt (n.testBit 1) 1 + bitAt (n.testBit 2) 2 + bitAt (n.testBit 3) 3 := by
    decide
  constructor
  · rintro ⟨h, rfl, rfl, rfl, rfl⟩
    exact (byte_eq_iff (read _ h ▸ h.trans_lt (by decide))).2 (read _ h)
  · rintro rfl
    cases f0 <;> cases f1 <;> cases f2 <;> cases f3 <;> decide

/-- An absent trigger byte clears its flag and puts 0 in its byte (R186). -/
theorem trigger_eq_iff {x : Bool} {b : Byte} {t : Option Byte} :
    (if x then some b else none) = t ↔ x = t.isSome ∧ t.getD 0#8 = if t = none then 0#8 else b := by
  cases x <;> cases t <;> simp [eq_comm]

/-! ### The whole image (R186) -/

/-- What each byte of an image that reads as a profile holds: the parser taken apart. -/
theorem profileOf_bytes {b0 b1 b2 b3 b4 b5 b6 b7 b8 b9 b10 b11 b12 b13 b14 b15 b16 : Byte} {p : Profile} :
    profileOf [b0, b1, b2, b3, b4, b5, b6, b7, b8, b9, b10, b11, b12, b13, b14, b15, b16] = some p ↔
      bitRateOf b0 = some p.bitRate ∧ BitVec.ofNat 16 (word16 b1 b2) = p.syncWord ∧
      inRange 4 256 (word16 b3 b4) = some p.frameLength ∧ inRange 8 255 b5.toNat = some p.idleThreshold ∧
      inRange 256 65535 (word16 b6 b7) = some p.losThreshold ∧
      (slotClassOf (b8.toNat % 16) = some p.slotX ∧ slotClassOf (b8.toNat / 16) = some p.slotY) ∧
      intervalModeOf b9 = some p.intervalMode ∧
      (if word16 b10 b11 = 0 then none else some (word16 b10 b11)) = p.burstThreshold ∧
      inRange 0 32 b13.toNat = some p.capturePre ∧ inRange 1 96 b14.toNat = some p.capturePost ∧
      (b15.toNat ≤ 7 ∧ invertOf (b15.toNat % 4) = p.invert ∧
        (if b15.toNat.testBit 2 then .internal else .external) = p.loopback) ∧
      b16.toNat ≤ 15 ∧ b16.toNat.testBit 0 = p.burstCapture ∧ b16.toNat.testBit 1 = p.journalCloses ∧
      b16.toNat.testBit 2 = p.snapshot ∧ (if b16.toNat.testBit 3 then some b12 else none) = p.triggerByte := by
  rcases p with ⟨rate, sync, frame, idle, los, x, y, mode, burst, capture, trigger, pre, post, inv, loop, journal, snap⟩
  constructor
  · intro h
    obtain ⟨_, h0, h⟩ := Option.bind_eq_some_iff.1 h
    obtain ⟨_, h3, h⟩ := Option.bind_eq_some_iff.1 h
    obtain ⟨_, h5, h⟩ := Option.bind_eq_some_iff.1 h
    obtain ⟨_, h6, h⟩ := Option.bind_eq_some_iff.1 h
    obtain ⟨_, h8x, h⟩ := Option.bind_eq_some_iff.1 h
    obtain ⟨_, h8y, h⟩ := Option.bind_eq_some_iff.1 h
    obtain ⟨_, h9, h⟩ := Option.bind_eq_some_iff.1 h
    obtain ⟨_, h13, h⟩ := Option.bind_eq_some_iff.1 h
    obtain ⟨_, h14, h⟩ := Option.bind_eq_some_iff.1 h
    obtain ⟨_, h15, h⟩ := Option.bind_eq_some_iff.1 h
    obtain ⟨_, h16, h⟩ := Option.bind_eq_some_iff.1 h
    obtain ⟨line, rfl⟩ := inRange_eq_some.1 h15
    obtain ⟨flags, rfl⟩ := inRange_eq_some.1 h16
    cases h
    exact ⟨h0, rfl, h3, h5, h6, ⟨h8x, h8y⟩, h9, rfl, h13, h14, ⟨line.2, rfl, rfl⟩, flags.2, rfl, rfl, rfl, rfl⟩
  · rintro ⟨h0, rfl, h3, h5, h6, ⟨h8x, h8y⟩, h9, rfl, h13, h14, ⟨h15, rfl, rfl⟩, h16, rfl, rfl, rfl, rfl⟩
    have line := inRange_eq_some.2 ⟨⟨Nat.zero_le _, h15⟩, rfl⟩
    have flags := inRange_eq_some.2 ⟨⟨Nat.zero_le _, h16⟩, rfl⟩
    simp only [profileOf, h0, h3, h5, h6, h8x, h8y, h9, h13, h14, line, flags, Option.bind_eq_bind, Option.bind_some]

theorem Profile.inRange_iff (p : Profile) : p.inRange = true ↔
    (4 ≤ p.frameLength ∧ p.frameLength ≤ 256) ∧ (8 ≤ p.idleThreshold ∧ p.idleThreshold ≤ 255) ∧
    (256 ≤ p.losThreshold ∧ p.losThreshold ≤ 65535) ∧ p.capturePre ≤ 32 ∧ (1 ≤ p.capturePost ∧ p.capturePost ≤ 96) ∧
    ∀ t, p.burstThreshold = some t → 1 ≤ t ∧ t ≤ 65535 := by
  unfold Profile.inRange
  cases p.burstThreshold <;> simp [and_assoc]

/-- Reading field by field and writing field by field are one relation between the bytes and the profile. -/
theorem profileOf_bytes_iff_image {b0 b1 b2 b3 b4 b5 b6 b7 b8 b9 b10 b11 b12 b13 b14 b15 b16 : Byte} {p : Profile} :
    profileOf [b0, b1, b2, b3, b4, b5, b6, b7, b8, b9, b10, b11, b12, b13, b14, b15, b16] = some p ↔
      p.inRange = true ∧ p.image = [b0, b1, b2, b3, b4, b5, b6, b7, b8, b9, b10, b11,
        if p.triggerByte = none then 0#8 else b12, b13, b14, b15, b16] := by
  have flags : (b16.toNat ≤ 15 ∧ b16.toNat.testBit 0 = p.burstCapture ∧ b16.toNat.testBit 1 = p.journalCloses ∧
      b16.toNat.testBit 2 = p.snapshot ∧ (if b16.toNat.testBit 3 then some b12 else none) = p.triggerByte) ↔
      b16 = byte (bitAt p.burstCapture 0 + bitAt p.journalCloses 1 + bitAt p.snapshot 2 + bitAt p.triggerByte.isSome 3) ∧
      p.triggerByte.getD 0#8 = if p.triggerByte = none then 0#8 else b12 := by
    rw [trigger_eq_iff, ← flagsByte_eq_iff]
    simp only [and_assoc]
  rw [profileOf_bytes, flags, bitRateOf_eq_some, syncWord_eq_iff, inRange_word16 (by decide), inRange_byte (by decide),
    inRange_word16 (by decide), slotClasses_eq_iff, intervalModeOf_eq_some, burst_eq_iff, inRange_byte (by decide),
    inRange_byte (by decide), lineByte_eq_iff, Profile.inRange_iff]
  constructor
  · rintro ⟨rfl, sync, ⟨frame, frameBytes⟩, ⟨idle, rfl⟩, ⟨los, losBytes⟩, rfl, rfl, ⟨burst, burstBytes⟩, ⟨pre, rfl⟩,
      ⟨post, rfl⟩, rfl, rfl, trigger⟩
    refine ⟨⟨frame, idle, los, pre.2, post, burst⟩, ?_⟩
    rw [Profile.image, ← sync, ← frameBytes, ← losBytes, ← burstBytes, trigger]
    rfl
  · rintro ⟨⟨frame, idle, los, pre, post, burst⟩, image⟩
    simp only [Profile.image, le16, List.cons_append, List.nil_append, List.cons.injEq, and_true] at image
    obtain ⟨rfl, rfl, rfl, rfl, rfl, rfl, rfl, rfl, rfl, rfl, rfl, rfl, trigger, rfl, rfl, rfl, rfl⟩ := image
    exact ⟨rfl, rfl, ⟨frame, rfl⟩, ⟨idle, rfl⟩, ⟨los, rfl⟩, rfl, rfl, ⟨burst, rfl⟩, ⟨⟨Nat.zero_le _, pre⟩, rfl⟩,
      ⟨post, rfl⟩, rfl, rfl, trigger⟩

/-- A profile is read from its image, and from what differs from it in an ignored byte 12 alone (R186). -/
theorem profileOf_eq_some {b : List Byte} {p : Profile} : profileOf b = some p ↔
    b.length = 17 ∧ p.inRange = true ∧ p.image = if p.triggerByte = none then b.set 12 0#8 else b := by
  unfold profileOf
  split
  · next b0 b1 b2 b3 b4 b5 b6 b7 b8 b9 b10 b11 b12 b13 b14 b15 b16 =>
    refine Iff.trans profileOf_bytes_iff_image (Iff.trans ?_ (and_iff_right rfl).symm)
    refine and_congr_right fun _ => ?_
    split <;> rfl
  · next other =>
    simp only [reduceCtorEq, false_iff]
    rintro ⟨hb, -⟩
    match b, hb with
    | [_, _, _, _, _, _, _, _, _, _, _, _, _, _, _, _, _], _ => exact other _ _ _ _ _ _ _ _ _ _ _ _ _ _ _ _ _ rfl

theorem Profile.image_set_triggerByte {p : Profile} (h : p.triggerByte = none) : p.image.set 12 0#8 = p.image := by
  simp only [Profile.image, h]; rfl

/-- Settles O53: both directions from the one equivalence between reading an image and being that of a profile in range. -/
theorem profileImagesAgree : Obligations.ProfileImagesAgree := by
  refine ⟨fun p => ?_, Profile.inRange_iff, fun p hp => ⟨rfl, profileOf_eq_some.2 ⟨rfl, hp, ?_⟩⟩, fun b p h => ?_⟩
  · rcases p with ⟨rate, sync, frame, idle, los, x, y, mode, burst, capture, trigger, pre, post, inv, loop, journal, snap⟩
    cases burst <;> cases trigger <;> cases loop <;> rfl
  · split
    · next none => exact (Profile.image_set_triggerByte none).symm
    · rfl
  · obtain ⟨length, range, image⟩ := profileOf_eq_some.1 h
    refine ⟨range, image, fun none x => profileOf_eq_some.2 ⟨by rw [List.length_set, length], range, ?_⟩⟩
    rw [if_pos none] at image ⊢
    rw [image, List.set_set]

end Sys2Proof.Machine
end

