-- ==== Sys2Proof/Proofs/Profiles.lean ====
section
namespace Sys2Proof.Machine

open Sys2Proof

/-! ### PROFILE SET and PROFILE GET (02 R31, R32) -/

theorem pageOf_of_fin (k : Fin 2) : pageOf (BitVec.ofNat 8 k.val) = some k := by revert k; decide

theorem pageOf_outOfRange {b : Byte} (h : 1 < b.toNat) : pageOf b = none := by
  simp [pageOf, Nat.not_lt.2 h]

/-- The page that a lane does not run on keeps apart from the one it runs on (02 R26). -/
theorem Lane.idle_ne_live (l : Lane) : l.idle.val ≠ l.live.val := by
  unfold Lane.idle; generalize l.live = k; revert k; decide

/-- The lane with a profile in its idle page (02 R31). -/
def Lane.idleWritten (l : Lane) (p : Profile) : Lane := { l with pages := l.pages.set l.idle.val p }

theorem Lane.idleWritten_idle (l : Lane) (p : Profile) : (l.idleWritten p).pages[(1 - l.live).val] = p :=
  Vector.getElem_set_self l.idle.isLt

theorem Lane.idleWritten_live (l : Lane) (p : Profile) : (l.idleWritten p).pages[l.live.val] = l.pages[l.live.val] :=
  Vector.getElem_set_ne l.idle.isLt l.live.isLt l.idle_ne_live

theorem val_one_sub_page (k : Fin 2) : (1 - k).val = 1 - k.val := by revert k; decide

/-- PROFILE SET with a lane or a record out of range (02 R31). -/
theorem ownProfileSet_outOfRange {b : Byte} {image : List Byte} (hl : image.length = 17)
    (h : 3 < b.toNat ∨ profileOf image = none) (d : Device) : ownProfileSet (b :: image) d = (d, .refuse .badValue) := by
  rw [ownProfileSet, if_pos (by rw [List.length_cons, hl]), List.headD_cons, List.tail_cons]
  obtain h | h := h
  · rw [laneOf_outOfRange h]
  · rw [h]; cases laneOf b <;> rfl

theorem ownProfileSet_inRange {image : List Byte} {p : Profile} (hl : image.length = 17) (h : profileOf image = some p)
    (n : LaneNo) (d : Device) : ownProfileSet (laneByte n :: image) d = d.setProfile n p := by
  rw [ownProfileSet, if_pos (by rw [List.length_cons, hl]), List.headD_cons, List.tail_cons, laneOf_laneByte, h]

theorem ownProfileGet_outOfRange {b p : Byte} (h : 3 < b.toNat ∨ 1 < p.toNat) (d : Device) :
    ownProfileGet [b, p] d = (d, .refuse .badValue) := by
  obtain h | h := h
  · simp only [ownProfileGet, laneOf_outOfRange h]
  · simp only [ownProfileGet, pageOf_outOfRange h]; cases laneOf b <;> rfl

theorem ownProfileGet_inRange (n : LaneNo) (k : Fin 2) (d : Device) :
    ownProfileGet [laneByte n, BitVec.ofNat 8 k.val] d = (d, .ok (d.profileResults n k)) := by
  simp only [ownProfileGet, laneOf_laneByte, pageOf_of_fin]

/-- PROFILE SET keeps out of the way of a pending swap (02 R31). -/
theorem setProfile_pending {d : Device} {n : LaneNo} (h : (d.lane n).swapPending = true) (p : Profile) :
    d.setProfile n p = (d, .refuse .pending) := if_pos h

theorem setProfile_written {d : Device} {n : LaneNo} (h : (d.lane n).swapPending = false) (p : Profile) :
    d.setProfile n p = (d.modLane n (·.idleWritten p), .ok [byte (1 - (d.lane n).live.val)]) := by
  rw [← val_one_sub_page]
  exact if_neg (by simp [h])

/-- Settles O21: the owners' checks in order, the idle page written, and the page read. -/
theorem profilesAreWrittenAndRead : Obligations.ProfilesAreWrittenAndRead := by
  refine ⟨fun tag b image s hq hl => ⟨fun h => ?_, fun n p hb hp => ?_⟩, fun tag b p s hq => ⟨fun h => ?_, fun n k hb hp => ?_⟩⟩
  · exact onDevice_request_refused s hq _ (ownProfileSet_outOfRange hl h _)
  · subst hb
    have own := ownProfileSet_inRange hl hp n s.dev.frameEnds
    refine ⟨fun h => onDevice_request_refused s hq _ (own.trans (setProfile_pending (d := s.dev.frameEnds) h p)), fun h => ?_⟩
    refine ⟨_, onDevice_request_quiet s hq, ?_⟩
    rw [own, setProfile_written (d := s.dev.frameEnds) h p]
    have lane : (s.dev.frameEnds.modLane n (·.idleWritten p)).lane n = (s.dev.lane n).idleWritten p := lane_modLane_same _ _ _
    refine ⟨rfl, fun m hm => lane_modLane_ne s.dev.frameEnds (·.idleWritten p) hm, ?_⟩
    rw [dev_withDev, lane_replyWith, lane]
    exact ⟨rfl, Lane.idleWritten_idle _ p, Lane.idleWritten_live _ p⟩
  · exact onDevice_request_refused s hq _ (ownProfileGet_outOfRange h _)
  · subst hb hp
    refine onDevice_request_answered s hq _ _ ((ownProfileGet_inRange n k _).trans ?_)
    simp only [Device.profileResults, bitAt, decide_eq_true_eq]; rfl

/-! ### PAGE SWAP (02 R33) -/

/-- What a request does at each lane that its mask names, without a refusal and without work for the capture unit: what it makes of
the lane, and the records it writes there. -/
structure EachLane (f : LaneNo → Device → Device × Status) (g : Lane → Lane) (records : LaneNo → Stamp → Lane → List Record) :
    Prop where
  step : ∀ n d, Device.LaneStep n d (f n d).1
  lane : ∀ n d, (f n d).1.lane n = g (d.lane n)
  status : ∀ n d, (f n d).2 = .ok
  capture : ∀ n d, (f n d).1.capture = d.capture
  written : ∀ n (d : Device), d.written (f n d).1 = records n d.now (d.lane n)

/-- The lanes that a mask names take such a request one after another, and the others stand (01 R16). -/
theorem EachLane.onLanes {f : LaneNo → Device → Device × Status} {g : Lane → Lane}
    {records : LaneNo → Stamp → Lane → List Record} (h : EachLane f g records) (ns : List LaneNo) (hn : ns.Nodup) (d : Device) :
    ∃ d', Device.onLanes f ns d = (d', ns.map fun n => (n, .ok)) ∧
      d' = { d with lanes := d'.lanes, inFlight := d'.inFlight } ∧ d.inFlight <+: d'.inFlight ∧
      (∀ n, d'.lane n = if n ∈ ns then g (d.lane n) else d.lane n) ∧
      d.written d' = ns.flatMap fun n => records n d.now (d.lane n) := by
  induction ns generalizing d with
  | nil => exact ⟨d, rfl, rfl, List.prefix_rfl, fun n => by simp, written_self d⟩
  | cons n ns ih =>
    obtain ⟨hnotin, hn⟩ := List.nodup_cons.1 hn
    have step := h.step n d
    have frame := step.frame
    rw [h.capture] at frame
    obtain ⟨d', run, frame', sent, lanes, written⟩ := ih hn (f n d).1
    refine ⟨d', ?_, ?_, step.records.trans sent, fun m => ?_, ?_⟩
    · rw [Device.onLanes, run, List.map_cons, h.status]
    · rw [frame', frame]
    · rw [lanes]
      by_cases hm : m = n
      · subst hm
        rw [if_neg hnotin, if_pos List.mem_cons_self, h.lane]
      · simp only [List.mem_cons, hm, false_or, step.lanes m hm]
    · have now : (f n d).1.now = d.now := congrArg Timebase.stamp step.timebase
      rw [Machine.written_trans step.records sent, h.written, written, List.flatMap_cons, now]
      refine congrArg _ (List.flatMap_congr fun m hm => ?_)
      rw [step.lanes m fun e => hnotin (e ▸ hm)]

/-- The lane with no swap pending (02 R33). -/
def Lane.swapCleared (l : Lane) : Lane := { l with swapPending := false }

theorem armSwap_eq (d : Device) (n : LaneNo) (st : Stamp) : d.armSwap n st =
    (if (d.lane n).mode = .off then d.swapInOff n st else d.modLane n Lane.swapArmed, .ok) := by
  unfold Device.armSwap
  cases (d.lane n).mode <;> rfl

theorem cancelSwap_eq (d : Device) (n : LaneNo) : d.cancelSwap n =
    (if (d.lane n).mode = .off then d else d.modLane n Lane.swapCleared, .ok) := by
  unfold Device.cancelSwap
  cases (d.lane n).mode <;> rfl

theorem written_swapInOff (d : Device) (n : LaneNo) (st : Stamp) :
    d.written (d.swapInOff n st) = [(d.lane n).exchanged.writes n st .pageSwapped (1 - (d.lane n).live).val] := by
  have exchange : (d.exchangePages n).written (d.swapInOff n st) = _ := written_writeLane _ n _ _ _
  rw [lane_exchangePages] at exchange
  exact exchange

/-- ARM at each lane: a swap at once in OFF, with its record, and a pending one in a running lane (02 R33). -/
theorem armSwap_eachLane : EachLane (fun n d => d.armSwap n d.now) (fun l => if l.mode = .off then l.exchanged else l.swapArmed)
    fun n st l => if l.mode = .off then [l.exchanged.writes n st .pageSwapped (1 - l.live).val] else [] := by
  refine ⟨fun n d => .armSwap n d _, fun n d => ?_, fun n d => ?_, fun n d => ?_, fun n d => ?_⟩ <;> simp only [armSwap_eq]
  · split
    · exact lane_exchangePages d n
    · exact lane_modLane_same _ _ _
  · split <;> rfl
  · split
    · exact written_swapInOff d n _
    · exact written_self d

/-- CANCEL at each lane: a running lane's flag clears, and nothing is written (02 R33). -/
theorem cancelSwap_eachLane : EachLane (fun n d => d.cancelSwap n) (fun l => if l.mode = .off then l else l.swapCleared)
    fun _ _ _ => [] := by
  refine ⟨fun n d => .cancelSwap n d, fun n d => ?_, fun n d => ?_, fun n d => ?_, fun n d => ?_⟩ <;> simp only [cancelSwap_eq]
  · split
    · rfl
    · exact lane_modLane_same _ _ _
  · split <;> rfl
  · split <;> exact written_self d

/-- A request of this kind with a good mask: the named lanes answer OK, the others FFh (01 R16). -/
theorem EachLane.maskRequest {f : LaneNo → Device → Device × Status} {g : Lane → Lane}
    {records : LaneNo → Stamp → Lane → List Record} (h : EachLane f g records) {m : Byte} (hm : maskOk m = true) (d : Device) :
    ∃ d', Device.maskRequest f m d =
        (d', .ok ([0, 1, 2, 3].map fun n : LaneNo => if m.getLsbD n.val then 0x00#8 else 0xFF#8)) ∧
      d' = { d with lanes := d'.lanes, inFlight := d'.inFlight } ∧
      (∀ n, d'.lane n = if m.getLsbD n.val then g (d.lane n) else d.lane n) ∧
      d.written d' = (maskLanes m).flatMap fun n => records n d.now (d.lane n) := by
  obtain ⟨d', run, frame, -, lanes, written⟩ := h.onLanes (maskLanes m) (nodup_maskLanes m) d
  refine ⟨d', ?_, frame, fun n => by rw [lanes]; simp only [mem_maskLanes], written⟩
  rw [Device.maskRequest, if_pos hm, run]
  refine Prod.ext rfl (congrArg Answer.ok (List.map_congr_left fun n _ => ?_))
  rw [lookup_map_pair (fun _ => Status.ok)]
  simp only [mem_maskLanes]
  cases m.getLsbD n.val <;> rfl

theorem flatMap_ite_singleton {α β : Type} (p : α → Prop) [DecidablePred p] (f : α → β) (l : List α) :
    (l.flatMap fun x => if p x then [f x] else []) = (l.filter fun x => decide (p x)).map f := by
  induction l with
  | nil => rfl
  | cons x l ih =>
    by_cases h : p x <;> simp [ih, h]

theorem ownPageSwap_arm (m : Byte) :
    ownPageSwap [m, 1#8] = asRequest (Device.maskRequest (fun n d => d.armSwap n d.now) m) := by
  simp only [ownPageSwap, if_true]

theorem ownPageSwap_cancel (m : Byte) :
    ownPageSwap [m, 2#8] = asRequest (Device.maskRequest (fun n d => d.cancelSwap n) m) := by
  simp only [ownPageSwap, if_neg (show 2#8 ≠ 1#8 by decide), if_true]

theorem ownPageSwap_badValue {m choice : Byte} (h : maskOk m = false ∨ (choice ≠ 1#8 ∧ choice ≠ 2#8)) (d : Device) :
    ownPageSwap [m, choice] d = (d, .refuse .badValue) := by
  refine asRequest_unchanged _ _ _ ?_
  obtain hm | ⟨h1, h2⟩ := h
  · simp only [Device.maskRequest, hm, Bool.false_eq_true, if_false, ite_self]
  · simp only [if_neg h1, if_neg h2]

/-- What PAGE SWAP does with a good mask, by what its choice does at each lane. -/
theorem exec_pageSwap {f : LaneNo → Device → Device × Status} {g : Lane → Lane}
    {records : LaneNo → Stamp → Lane → List Record} (h : EachLane f g records) {tag m choice : Byte} (hm : maskOk m = true)
    (s : State) (hq : s.dev.quiet) (run : ownPageSwap [m, choice] = asRequest (Device.maskRequest f m)) :
    ∃ t, exec (.pageSwap tag [m, choice]) s = .next t ∧
      t.dev.port.reply = some ⟨tag, 0xA5#8, .ok,
        [0, 1, 2, 3].map fun n : LaneNo => if m.getLsbD n.val then 0x00#8 else 0xFF#8⟩ ∧
      (∀ n, t.dev.lane n = if m.getLsbD n.val then g (s.dev.lane n) else s.dev.lane n) ∧
      s.dev.written t.dev = ((maskLanes m).flatMap fun n => records n s.dev.now (s.dev.lane n)) ∧
      t.dev.capture = s.dev.capture ∧ t.dev.journal = s.dev.journal ∧ t.dev.timebase = s.dev.timebase ∧
      t.dev.schedule = s.dev.schedule ∧ t.dev.attention.conditions = s.dev.attention.conditions := by
  obtain ⟨d', own, frame, lanes, written⟩ := h.maskRequest hm s.dev.frameEnds
  have ran : exec (.pageSwap tag [m, choice]) s =
      s.onDevice fun d => d.request 0x25#8 tag (asRequest (Device.maskRequest f m)) := by
    rw [← run]; rfl
  refine ⟨_, ran.trans (exec_request s hq own), ?_, fun n => (lane_requested _ _ _ _ _ n).trans (lanes n),
    (written_requested _ _ _ _ _).trans written, ?_⟩
  · rw [dev_withDev, port_requested _ _ _ _ _ (by rw [frame])]; rfl
  · simp only [dev_withDev, capture_requested, journal_requested, timebase_requested, schedule_requested, conditions_requested]
    rw [frame]
    exact ⟨rfl, rfl, rfl, rfl, rfl⟩

/-- Settles O22: a bad mask or choice refused, ARM and CANCEL each by what it does at one lane. -/
theorem pageSwapArmsOrSwaps : Obligations.PageSwapArmsOrSwaps := by
  intro tag m choice s hq
  refine ⟨fun h => onDevice_request_refused s hq _ (ownPageSwap_badValue h _), fun hm hc => ?_⟩
  obtain rfl | rfl := hc
  · obtain ⟨t, ran, reply, lanes, written, rest⟩ := exec_pageSwap (tag := tag) armSwap_eachLane hm s hq (ownPageSwap_arm m)
    refine ⟨t, ran, reply, fun n => ?_, ?_, rest⟩
    · rw [lanes]
      cases m.getLsbD n.val <;> rfl
    · rw [written, if_neg (by decide), maskLanes_eq, flatMap_ite_singleton (fun n => (s.dev.lane n).mode = .off),
        List.filter_filter]
      simp only [Bool.and_comm]
      refine List.map_congr_left fun n hn => ?_
      obtain ⟨named, off⟩ := Bool.and_eq_true_iff.1 (List.mem_filter.1 hn).2
      rw [lanes, if_pos named, if_pos (of_decide_eq_true off)]
  · obtain ⟨t, ran, reply, lanes, written, rest⟩ := exec_pageSwap (tag := tag) cancelSwap_eachLane hm s hq (ownPageSwap_cancel m)
    refine ⟨t, ran, reply, fun n => ?_, ?_, rest⟩
    · rw [lanes]
      cases m.getLsbD n.val <;> rfl
    · rw [written, if_pos rfl, List.flatMap_eq_nil_iff]
      exact fun _ _ => rfl

end Sys2Proof.Machine
end

