-- ==== Sys2Proof/Proofs/Resets.lean ====
section
namespace Sys2Proof.Machine

open Sys2Proof

/-! ### What every reset clears (01 R25, 02 R42, 03 R68, 06 R133, 07 R135, R150, 08 R167, 09 R175, 10 R176) -/

/-- Every block but the timebase and the journal is in its reset state. -/
structure Device.Cleared (d : Device) : Prop where
  lanes : ∀ n, ∃ txf, d.lane n = Lane.afterReset txf
  pattern : d.pattern = Pattern.default
  schedule : ∃ ticks, d.schedule = Schedule.afterReset ticks
  inputs : d.inputs = EventInputs.afterReset
  capture : d.capture = CaptureUnit.afterReset
  conditions : d.attention.conditions = Attention.afterReset.conditions
  receiver : d.port.rx = .waiting
  reply : d.port.reply = none

theorem lane_resetBlocks (d : Device) (n : LaneNo) : d.resetBlocks.lane n = Lane.afterReset (d.lane n).txf :=
  Vector.getElem_ofFn n.isLt

theorem resetBlocks_cleared (d : Device) : d.resetBlocks.Cleared :=
  ⟨fun n => ⟨_, lane_resetBlocks d n⟩, rfl, ⟨_, rfl⟩, rfl, rfl, rfl, rfl, rfl⟩

/-- A record that arrives changes the journal, which a reset request keeps (04 R90). -/
theorem Device.Cleared.recordArrives {d : Device} (h : d.Cleared) (r : Record) : (d.recordArrives r).Cleared where
  lanes := fun n => (lane_recordArrives d r n).symm ▸ h.lanes n
  pattern := (pattern_recordArrives d r).trans h.pattern
  schedule := (schedule_recordArrives d r).symm ▸ h.schedule
  inputs := (inputs_recordArrives d r).trans h.inputs
  capture := (capture_recordArrives d r).trans h.capture
  conditions := (conditions_recordArrives d r).trans h.conditions
  receiver := (congrArg Port.rx (port_recordArrives d r)).trans h.receiver
  reply := (congrArg Port.reply (port_recordArrives d r)).trans h.reply

/-- Each reset leaves the blocks cleared, the queue as it was, and no record of its own on its way (04 R89, R90). -/
theorem exec_resetting {s : State} {c : Instr} (h : resetting s c) :
    ∃ t, exec c s = .next t ∧ t.dev.Cleared ∧ (∀ x ∈ t.dev.inFlight, x ∈ s.dev.inFlight) ∧ t.pending = s.pending := by
  have clear := resetBlocks_cleared s.dev
  cases c with
  | powerOnReset r1 r0 =>
    exact ⟨_, rfl, ⟨clear.lanes, rfl, ⟨_, rfl⟩, rfl, rfl, rfl, rfl, rfl⟩, fun x hx => absurd hx List.not_mem_nil, rfl⟩
  | resetPin r1 r0 =>
    exact ⟨_, rfl, ⟨clear.lanes, rfl, ⟨_, rfl⟩, rfl, rfl, rfl, rfl, rfl⟩, fun x hx => absurd hx List.not_mem_nil, rfl⟩
  | resetTakesEffect =>
    refine ⟨_, exec_resetTakesEffect_of_resetting h, clear.recordArrives _, fun x hx => ?_, rfl⟩
    rw [dev_withDev, Device.resetRequest, inFlight_recordArrives] at hx
    exact hx
  | _ => exact h.elim

theorem Device.Cleared.entry {d : Device} (h : d.Cleared) (e : EntryNo) : d.entry e = .empty := by
  obtain ⟨ticks, schedule⟩ := h.schedule
  rw [Device.entry, schedule]
  fin_cases e <;> rfl

theorem Device.Cleared.captureReady {d : Device} (h : d.Cleared) : d.level 2 = false :=
  congrArg CaptureUnit.ready h.capture

theorem Device.Cleared.atnLow {d : Device} (h : d.Cleared) : d.attention.atnLow = false := by
  rw [Attention.atnLow, h.conditions]; rfl

/-- Settles O4: the reset state of each block, read field by field. -/
theorem everyResetClearsTheBlocks : Obligations.EveryResetClearsTheBlocks := by
  intro s c h
  obtain ⟨t, ran, clear, records, queue⟩ := exec_resetting h
  obtain ⟨ticks, schedule⟩ := clear.schedule
  refine ⟨t, ran, fun n => ?_, clear.pattern, clear.entry, by rw [schedule]; rfl, ?_, ?_, ?_, fun k => ?_, clear.captureReady,
    fun c => ?_, clear.atnLow, ?_, ?_, clear.receiver, clear.reply, records, queue⟩
  · obtain ⟨txf, lane⟩ := clear.lanes n
    rw [lane]
    exact ⟨rfl, rfl, rfl, rfl, rfl, rfl, rfl, rfl, rfl, rfl, rfl, rfl, rfl, rfl, rfl, rfl, rfl, rfl, rfl, rfl, rfl, rfl,
      fun k => Vector.getElem_replicate k.isLt⟩
  · rw [clear.capture]; rfl
  · rw [clear.capture]; rfl
  · rw [clear.capture]; rfl
  · rw [clear.capture]
    fin_cases k <;> rfl
  · rw [clear.conditions]
    exact Vector.getElem_replicate c.isLt
  · rw [clear.inputs]; rfl
  · rw [clear.inputs]; rfl

end Sys2Proof.Machine
end

