-- ==== Sys2Proof/Proofs/CloseRecords.lean ====
section
namespace Sys2Proof.Machine

open Sys2Proof

/-! ### The pages exchanged at a close (02 R34) -/

/-- The lane's pages exchanged with the record of the swap of a close, its restart not yet done (02 R34). -/
def Device.pagesSwapped (d : Device) (n : LaneNo) (st : Stamp) : Device :=
  (d.exchangePages n).writeClose n st .pageSwapped (d.lane n).exchanged.live.val

@[simp] theorem lane_pagesSwapped (d : Device) (n : LaneNo) (st : Stamp) : (d.pagesSwapped n st).lane n = (d.lane n).exchanged :=
  lane_exchangePages d n

theorem laneStep_pagesSwapped (d : Device) (n : LaneNo) (st : Stamp) : Device.LaneStep n d (d.pagesSwapped n st) :=
  (Device.LaneStep.modLane n d _).trans (.writeClose n n _ _ _ _)

theorem written_pagesSwapped (d : Device) (n : LaneNo) (st : Stamp) :
    d.written (d.pagesSwapped n st) = [(d.lane n).exchanged.writes n st .pageSwapped (1 - (d.lane n).live).val] := by
  have exchange : (d.exchangePages n).written (d.pagesSwapped n st) = _ := written_writeClose _ n _ _ _
  rw [lane_exchangePages] at exchange
  exact exchange

/-- The swap of a close, and the restart it may need (02 R34 to R37). -/
theorem swapAtClose_eq (d : Device) (n : LaneNo) (reason : CloseReason) (st : Stamp) : d.swapAtClose n reason st =
    if reason.ofModeChange || (d.lane n).page.sameLine (d.lane n).exchanged.page then d.pagesSwapped n st
    else match (d.lane n).mode with
      | .off => d.pagesSwapped n st
      | .monitor => (d.pagesSwapped n st).restartReceiver n st
      | .test => (d.pagesSwapped n st).restartChecker n (decide ((d.lane n).page.bitRate ≠ (d.lane n).exchanged.page.bitRate)) st := by
  unfold Device.swapAtClose
  simp only [lane_writeClose, lane_exchangePages]
  rfl

/-! ### A restart (02 R36, R37) -/

/-- What the two restarts have in common: lost_lock where the lane was assembling, the history emptied, its FILLING capture ended,
the lane's own part, and the record of the lost lock (02 R36, R37). -/
def Device.restartedBy (d : Device) (n : LaneNo) (lost : Bool) (f : Lane → Lane) (k : Kind) (st : Stamp) : Device :=
  let d := if lost then d.reportUnlock n else d
  let d := ((d.modLane n fun l => { l with history := [] }).truncate n st).modLane n f
  if lost then d.writeLane n st k 0 else d

theorem modLane_modLane (d : Device) (n : LaneNo) (f g : Lane → Lane) : (d.modLane n f).modLane n g = d.modLane n fun l => g (f l) := by
  simp [Device.modLane]

theorem restartReceiver_eq (d : Device) (n : LaneNo) (st : Stamp) : d.restartReceiver n st =
    d.restartedBy n (decide ((d.lane n).line = .locked)) (fun l => { l with rx := Receiver.fresh, line := .hunt }) .laneUnlock st :=
  rfl

theorem restartChecker_eq (d : Device) (n : LaneNo) (newRate : Bool) (st : Stamp) : d.restartChecker n newRate st =
    d.restartedBy n (decide ((d.lane n).line = .track))
      (fun l => { l with
        rx := Receiver.fresh, checker := Checker.fresh, line := .search
        tx := if newRate then { l.tx with position := 0 } else l.tx }) .patternUnlock st := by
  cases newRate
  · rfl
  · unfold Device.restartChecker Device.restartedBy
    simp only [if_true, modLane_modLane]

/-- Two devices that differ in one lane give a grant the same sizes and bytes where that lane does. -/
theorem sameSizes_of_lane {d d' : Device} {n : LaneNo} (others : ∀ m, m ≠ n → d.lane m = d'.lane m) (h : d.SameSizes d' n)
    (m : LaneNo) : d.SameSizes d' m := by
  by_cases hm : m = n
  · exact hm ▸ h
  · unfold Device.SameSizes
    rw [others m hm]
    exact ⟨rfl, rfl, rfl⟩

theorem laneStep_reportUnlock_if (d : Device) (n : LaneNo) (lost : Bool) :
    Device.LaneStep n d (if lost then d.reportUnlock n else d) := .ite (.reportUnlock n d) (.refl n d)

/-- A restart ends the lane's FILLING capture, with a history that is empty by then (02 R36, R37, 08 R160). -/
theorem capture_restartedBy (d : Device) (n : LaneNo) (lost : Bool) (f : Lane → Lane) (k : Kind) (st : Stamp) :
    (d.restartedBy n lost f k st).capture = (d.modLane n fun l => { l with history := [] }).truncatedCapture n := by
  have unit : (d.restartedBy n lost f k st).capture =
      (((if lost then d.reportUnlock n else d).modLane n fun l => { l with history := [] }).truncate n st).capture := by
    cases lost <;> rfl
  rw [unit, capture_truncate]
  refine truncatedCapture_congr (by cases lost <;> rfl) n fun _ _ w _ => sameSizes_of_lane (n := n) (fun m hm => ?_) ?_ w.lane
  · rw [lane_modLane_ne _ _ hm, lane_modLane_ne _ _ hm, (laneStep_reportUnlock_if d n lost).lanes m hm]
  · unfold Device.SameSizes
    rw [lane_modLane_same, lane_modLane_same, lane_reportUnlock_if]
    cases lost <;> exact ⟨rfl, rfl, rfl⟩

theorem laneStep_restartedBy (d : Device) (n : LaneNo) (lost : Bool) (f : Lane → Lane) (k : Kind) (st : Stamp) :
    Device.LaneStep n d (d.restartedBy n lost f k st) :=
  ((((laneStep_reportUnlock_if d n lost).trans (.modLane n _ _)).trans (.truncate n n _ st)).trans (.modLane n _ f)).trans
    (.ite (.writeLane n n _ st k 0) (.refl n _))

theorem written_restartedBy (d : Device) (n : LaneNo) (lost : Bool) (f : Lane → Lane) (k : Kind) (st : Stamp) :
    d.written (d.restartedBy n lost f k st) = d.capture.truncatedRecords n st ++
      recordIf lost (((d.restartedBy n lost f k st).lane n).writes n st k 0) := by
  let emptied := (if lost then d.reportUnlock n else d).modLane n fun l => { l with history := [] }
  have before : Device.LaneStep n d emptied := (laneStep_reportUnlock_if d n lost).trans (.modLane n _ _)
  have ended : d.written ((emptied.truncate n st).modLane n f) = d.capture.truncatedRecords n st := by
    rw [written_modLane, written_congr (a' := emptied) (b' := emptied.truncate n st) (by cases lost <;> rfl) rfl, written_truncate]
    cases lost <;> rfl
  have step : Device.LaneStep n d ((emptied.truncate n st).modLane n f) :=
    (before.trans (.truncate n n _ st)).trans (.modLane n _ f)
  cases lost with
  | false => exact ended.trans (List.append_nil _).symm
  | true => exact (step.written_trans (.writeLane n n _ st k 0)).trans (congrArg₂ (· ++ ·) ended (written_writeLane _ n st k 0))

/-! ### The records and the captures of a close (03 R55 to R59) -/

theorem laneStep_closedAndSwapped (d : Device) (n : LaneNo) (iv : OpenInterval) (reason : CloseReason) (stop start : Stamp) :
    Device.LaneStep n d ((d.intervalClosed n iv reason stop start).pagesSwapped n start) :=
  (laneStep_intervalClosed d n iv reason stop start).trans (laneStep_pagesSwapped _ n start)

/-- The swap's record comes last, under the page live then, with nothing counted yet (03 R55, R59). -/
theorem written_closedAndSwapped (d : Device) (n : LaneNo) (iv : OpenInterval) (reason : CloseReason) (stop start : Stamp)
    (h : (d.lane n).swapPending = true) : d.written ((d.intervalClosed n iv reason stop start).pagesSwapped n start) =
      (d.lane n).closeRecords n stop start := by
  have counts (l : Lane) : (l.intervalClosed n iv reason stop start).exchanged.writes n start .pageSwapped (1 - l.live).val =
      ({ l with live := 1 - l.live, swapPending := false, number := (l.number + 1) % 65536, interval := none } : Lane).writes n
        start .pageSwapped (1 - l.live).val := by
    unfold Lane.writes Lane.exchanged Lane.intervalClosed
    dsimp only
    cases reason <;> rfl
  rw [(laneStep_intervalClosed d n iv reason stop start).written_trans (laneStep_pagesSwapped _ n start), written_intervalClosed,
    written_pagesSwapped, lane_intervalClosed, Lane.closeRecords, h]
  exact congrArg (_ ++ [·]) (counts (d.lane n))

theorem written_closedAlone (d : Device) (n : LaneNo) (iv : OpenInterval) (reason : CloseReason) (stop start : Stamp)
    (h : (d.lane n).swapPending = false) :
    d.written (d.intervalClosed n iv reason stop start) = (d.lane n).closeRecords n stop start := by
  rw [written_intervalClosed, Lane.closeRecords, h]
  exact (List.append_nil _).symm

theorem eq_of_mem_recordIf {b : Bool} {r x : Record} (h : r ∈ recordIf b x) : r = x := by
  cases b
  · cases h
  · exact List.mem_singleton.1 h

/-- The records of the old interval carry the end stamp, that of the swap the start stamp (03 R56). -/
theorem stamp_of_mem_closeRecords {l : Lane} {n : LaneNo} {stop start : Stamp} {r : Record} (h : r ∈ l.closeRecords n stop start) :
    r.stamp = if r.kind = .ringOverrun ∨ r.kind = .intervalClosed then stop else start := by
  rw [Lane.closeRecords, List.mem_append, List.mem_append] at h
  obtain (h | h) | h := h <;> rw [eq_of_mem_recordIf h] <;> rfl

theorem stamp_of_mem_truncatedRecords {u : CaptureUnit} {n : LaneNo} {st : Stamp} {r : Record}
    (h : r ∈ u.truncatedRecords n st) : r.stamp = st ∧ r.kind = .captureDone := by
  unfold CaptureUnit.truncatedRecords at h
  split at h
  · rw [List.mem_singleton.1 h]; exact ⟨rfl, rfl⟩
  · cases h

/-- The capture unit of a close with a restart reads of the lane that it runs on the other page with an empty history
(02 R36, R37, 08 R157). -/
theorem capture_closedAndSwapped_restartedBy (d : Device) (n : LaneNo) (iv : OpenInterval) (reason : CloseReason)
    (stop start : Stamp) (lost : Bool) (f : Lane → Lane) (k : Kind) :
    (((d.intervalClosed n iv reason stop start).pagesSwapped n start).restartedBy n lost f k start).capture =
      (d.modLane n fun l => { l with live := 1 - l.live, swapPending := false, history := [] }).truncatedCapture n := by
  have unit : ((d.intervalClosed n iv reason stop start).pagesSwapped n start).capture = d.capture :=
    capture_intervalClosed d n iv reason stop start
  rw [capture_restartedBy]
  refine truncatedCapture_congr ?_ n fun _ _ w _ => sameSizes_of_lane (n := n) (fun m hm => ?_) ?_ w.lane
  · exact unit
  · rw [lane_modLane_ne _ _ hm, lane_modLane_ne _ _ hm, (laneStep_closedAndSwapped d n iv reason stop start).lanes m hm]
  · unfold Device.SameSizes
    rw [lane_modLane_same, lane_modLane_same, lane_pagesSwapped, lane_intervalClosed]
    exact ⟨rfl, rfl, rfl⟩

theorem written_closedAndSwapped_restartedBy (d : Device) (n : LaneNo) (iv : OpenInterval) (reason : CloseReason)
    (stop start : Stamp) (lost : Bool) (f : Lane → Lane) (k : Kind) (h : (d.lane n).swapPending = true) :
    let c := ((d.intervalClosed n iv reason stop start).pagesSwapped n start).restartedBy n lost f k start
    d.written c = (d.lane n).closeRecords n stop start ++ d.capture.truncatedRecords n start ++
      recordIf lost ((c.lane n).writes n start k 0) := by
  have unit : ((d.intervalClosed n iv reason stop start).pagesSwapped n start).capture = d.capture :=
    capture_intervalClosed d n iv reason stop start
  intro c
  rw [(laneStep_closedAndSwapped d n iv reason stop start).written_trans (laneStep_restartedBy _ n lost f k start),
    written_closedAndSwapped d n iv reason stop start h, written_restartedBy, unit, List.append_assoc]

section
variable {d : Device} {n : LaneNo} {iv : OpenInterval} (hi : (d.lane n).interval = some iv) (reason : CloseReason)
  (stop start : Stamp)
include hi

theorem close_notPending (hs : (d.lane n).swapPending = false) :
    d.close n reason stop start = d.intervalClosed n iv reason stop start := by
  rw [close_some hi, hs]; rfl

/-- A pending swap is carried out without a restart, at a change of mode or between pages whose receive fields agree; else the
receive side restarts in MONITOR, the checker in TEST (02 R35 to R37). -/
theorem close_pending (hs : (d.lane n).swapPending = true) : d.close n reason stop start =
    let l := d.lane n
    let x := (d.intervalClosed n iv reason stop start).pagesSwapped n start
    if reason.ofModeChange || l.page.sameLine l.exchanged.page then x
    else match l.mode with
      | .off => x
      | .monitor => x.restartedBy n (decide (l.line = .locked)) (fun l => { l with rx := Receiver.fresh, line := .hunt })
          .laneUnlock start
      | .test => x.restartedBy n (decide (l.line = .track)) (fun m => { m with
          rx := Receiver.fresh, checker := Checker.fresh, line := .search
          tx := if decide (l.page.bitRate ≠ l.exchanged.page.bitRate) then { m.tx with position := 0 } else m.tx })
          .patternUnlock start := by
  rw [close_some hi, hs, if_pos rfl, swapAtClose_eq]
  simp only [restartReceiver_eq, restartChecker_eq, lane_pagesSwapped, lane_intervalClosed]
  rfl

theorem stamp_of_mem_written_close : ∀ r ∈ d.written (d.close n reason stop start),
    r.stamp = if r.kind = .ringOverrun ∨ r.kind = .intervalClosed then stop else start := by
  cases hs : (d.lane n).swapPending with
  | false =>
    rw [close_notPending hi reason stop start hs, written_closedAlone d n iv reason stop start hs]
    exact fun r => stamp_of_mem_closeRecords
  | true =>
    have swapped : ∀ r ∈ d.written ((d.intervalClosed n iv reason stop start).pagesSwapped n start),
        r.stamp = if r.kind = .ringOverrun ∨ r.kind = .intervalClosed then stop else start := by
      rw [written_closedAndSwapped d n iv reason stop start hs]
      exact fun r => stamp_of_mem_closeRecords
    have restarted (lost : Bool) (f : Lane → Lane) (k : Kind) (hk : ¬ (k = .ringOverrun ∨ k = .intervalClosed)) :
        ∀ r ∈ d.written (((d.intervalClosed n iv reason stop start).pagesSwapped n start).restartedBy n lost f k start),
        r.stamp = if r.kind = .ringOverrun ∨ r.kind = .intervalClosed then stop else start := by
      intro r hr
      rw [written_closedAndSwapped_restartedBy d n iv reason stop start lost f k hs, List.mem_append, List.mem_append] at hr
      obtain (hr | hr) | hr := hr
      · exact stamp_of_mem_closeRecords hr
      · obtain ⟨stamp, kind⟩ := stamp_of_mem_truncatedRecords hr
        rw [stamp, kind]; rfl
      · rw [eq_of_mem_recordIf hr]
        exact (if_neg hk).symm
    rw [close_pending hi reason stop start hs]
    dsimp only
    split
    · exact swapped
    · split
      · exact swapped
      · exact restarted _ _ _ (by decide)
      · exact restarted _ _ _ (by decide)

end

/-- The closes that belong to a change of mode (02 R35). -/
theorem ofModeChange_iff (reason : CloseReason) :
    reason.ofModeChange = true ↔ reason = .stopped ∨ reason = .testStart ∨ reason = .testStop := by
  cases reason <;> decide

/-- A swap that restarts the lane does it by its mode (02 R35). -/
theorem Lane.swappedAtClose_restarts {l : Lane} {n : LaneNo} {iv : OpenInterval} {reason : CloseReason} {stop start : Stamp}
    (h : ¬ (reason.ofModeChange || l.page.sameLine l.exchanged.page) = true) :
    (l.intervalClosed n iv reason stop start).swappedAtClose reason =
      match (l.intervalClosed n iv reason stop start).mode with
      | .off => (l.intervalClosed n iv reason stop start).exchanged
      | .monitor => (l.intervalClosed n iv reason stop start).exchanged.receiverRestarted
      | .test => (l.intervalClosed n iv reason stop start).exchanged.checkerRestarted
          (decide (l.page.bitRate ≠ l.exchanged.page.bitRate)) := by
  rw [Lane.swappedAtClose]
  exact if_neg h

section
variable {l : Lane} {n : LaneNo} {iv : OpenInterval} {reason : CloseReason} {stop start : Stamp} (h : reason ≠ .stopped)
include h

/-- The lane in MONITOR after a close with a restart (02 R36, 03 R55). -/
theorem receiverRestarted_closed : (l.intervalClosed n iv reason stop start).exchanged.receiverRestarted = { l with
    number := (l.number + 1) % 65536, ring := l.closedRing n iv reason stop, live := 1 - l.live, swapPending := false
    interval := some { newInterval start with lostLock := decide (l.line = .locked) }
    history := [], rx := ⟨0, false, 0, [], none, 0, 0⟩, line := .hunt } := by
  unfold Lane.receiverRestarted Lane.restarted Lane.exchanged Lane.intervalClosed
  rw [if_neg h]
  cases decide (l.line = .locked) <;> rfl

/-- The lane in TEST after a close with a restart (02 R37, 03 R55). -/
theorem checkerRestarted_closed :
    (l.intervalClosed n iv reason stop start).exchanged.checkerRestarted (decide (l.page.bitRate ≠ l.exchanged.page.bitRate)) =
    { l with
      number := (l.number + 1) % 65536, ring := l.closedRing n iv reason stop, live := 1 - l.live, swapPending := false
      interval := some { newInterval start with lostLock := decide (l.line = .track) }
      history := [], rx := ⟨0, false, 0, [], none, 0, 0⟩, checker := Checker.fresh, line := .search
      tx := { l.tx with position := if l.page.bitRate = l.exchanged.page.bitRate then l.tx.position else 0 } } := by
  have restarted (newRate : Bool) : (l.intervalClosed n iv reason stop start).exchanged.checkerRestarted newRate = { l with
      number := (l.number + 1) % 65536, ring := l.closedRing n iv reason stop, live := 1 - l.live, swapPending := false
      interval := some { newInterval start with lostLock := decide (l.line = .track) }
      history := [], rx := ⟨0, false, 0, [], none, 0, 0⟩, checker := Checker.fresh, line := .search
      tx := { l.tx with position := if newRate then 0 else l.tx.position } } := by
    unfold Lane.checkerRestarted Lane.restarted Lane.exchanged Lane.intervalClosed
    rw [if_neg h]
    cases decide (l.line = .track) <;> cases newRate <;> rfl
  rw [restarted]
  by_cases rate : l.page.bitRate = l.exchanged.page.bitRate <;> simp [rate]

end

/-- Settles O27: the four ways a close can go, each with its records, its captures and its lane. -/
theorem closeFormsTheRecord : Obligations.CloseFormsTheRecord := by
  intro d n reason stop start iv l hi d' next other same changing records swapped
  have step : Device.LaneStep n d d' := .close n d reason stop start
  have lane : d'.lane n = l.afterClose n reason stop start := lane_close d n reason stop start
  rw [Lane.afterClose, hi] at lane
  dsimp only at lane
  have restarts (hc : ¬ changing) (hd : same = false) : ¬ (reason.ofModeChange || l.page.sameLine l.exchanged.page) = true := by
    rw [Bool.or_eq_true, ofModeChange_iff, not_or]
    exact ⟨hc, Bool.eq_false_iff.1 hd⟩
  have restarted (hs : l.swapPending = true) {lost : Bool} {f : Lane → Lane} {k : Kind}
      (closed : d' = ((d.intervalClosed n iv reason stop start).pagesSwapped n start).restartedBy n lost f k start) :
      d.written d' = records ++ d.capture.truncatedRecords n start ++ recordIf lost ((d'.lane n).writes n start k 0) ∧
        d'.capture = swapped.truncatedCapture n := by
    rw [closed]
    exact ⟨written_closedAndSwapped_restartedBy d n iv reason stop start lost f k hs,
      capture_closedAndSwapped_restartedBy d n iv reason stop start lost f k⟩
  refine ⟨step.frame, step.lanes, stamp_of_mem_written_close hi reason stop start, fun hs => ?_, fun hs plain => ?_,
    fun hs hc hd hm => ?_, fun hs hc hd hm => ?_⟩
  · have closed : d' = d.intervalClosed n iv reason stop start := close_notPending hi reason stop start hs
    rw [hs, if_neg Bool.false_ne_true] at lane
    refine ⟨?_, ?_, lane⟩
    · rw [closed, capture_intervalClosed]
    · rw [closed, written_closedAlone d n iv reason stop start hs]
  · have plain : (reason.ofModeChange || l.page.sameLine l.exchanged.page) = true :=
      Bool.or_eq_true_iff.2 (plain.imp_left (ofModeChange_iff reason).2)
    have closed : d' = (d.intervalClosed n iv reason stop start).pagesSwapped n start :=
      (close_pending hi reason stop start hs).trans (if_pos plain)
    rw [hs, if_pos rfl, Lane.swappedAtClose] at lane
    refine ⟨?_, ?_, lane.trans (if_pos plain)⟩
    · rw [closed]; exact capture_intervalClosed d n iv reason stop start
    · rw [closed, written_closedAndSwapped d n iv reason stop start hs]
  · have apart := restarts hc hd
    have closed := (close_pending hi reason stop start hs).trans (if_neg apart)
    rw [hm] at closed
    rw [hs, if_pos rfl, Lane.swappedAtClose_restarts apart, show (l.intervalClosed n iv reason stop start).mode = .monitor from hm,
      receiverRestarted_closed fun e => hc (.inl e)] at lane
    obtain ⟨written, captures⟩ := restarted hs closed
    exact ⟨written, captures, lane⟩
  · have apart := restarts hc hd
    have closed := (close_pending hi reason stop start hs).trans (if_neg apart)
    rw [hm] at closed
    rw [hs, if_pos rfl, Lane.swappedAtClose_restarts apart, show (l.intervalClosed n iv reason stop start).mode = .test from hm,
      checkerRestarted_closed fun e => hc (.inl e)] at lane
    obtain ⟨written, captures⟩ := restarted hs closed
    exact ⟨written, captures, lane⟩

end Sys2Proof.Machine
end

