-- ==== Sys2Proof/Proofs/Boundaries.lean ====
section
namespace Sys2Proof.Machine

open Sys2Proof

/-! ### Second arrivals at the accounting unit (03 R52, R53) -/

/-- The device with the oldest second arrival of the lane taken, and these left. -/
def Device.secondTaken (d : Device) (n : LaneNo) (rest : List Arrival) : Device := d.modLane n fun l => { l with seconds := rest }

theorem exec_secondArrival_empty {n : LaneNo} {s : State} (h : (s.dev.lane n).seconds = []) :
    exec (.secondArrival n) s = .next s := by
  simp only [exec, execSecondArrival, onDevice_eq, h]

theorem exec_secondArrival {n : LaneNo} {s : State} {a : Arrival} {rest : List Arrival} (h : (s.dev.lane n).seconds = a :: rest) :
    exec (.secondArrival n) s =
      .next (s.withDev (Device.settle s.dev ((s.dev.secondTaken n rest).boundary n a))) := by
  simp only [exec, execSecondArrival, onDevice_eq, h]
  rfl

/-- An arrival taken by the accounting unit moves no level and writes nothing. -/
theorem settle_secondTaken (d : Device) (n : LaneNo) (rest : List Arrival) :
    Device.settle d (d.secondTaken n rest) = d.secondTaken n rest := by
  have lane (m : LaneNo) : ((d.secondTaken n rest).lane m).alarm = (d.lane m).alarm ∧
      ((d.secondTaken n rest).lane m).txFault = (d.lane m).txFault := by
    rw [Device.secondTaken, lane_modLane]
    split
    · next h => subst h; exact ⟨rfl, rfl⟩
    · exact ⟨rfl, rfl⟩
  refine settle_noWrite (fun c => ?_) rfl
  fin_cases c
  · rfl
  · rfl
  · rfl
  · exact (lane 0).1.symm
  · exact (lane 1).1.symm
  · exact (lane 2).1.symm
  · exact (lane 3).1.symm
  · exact List.any_congr rfl fun m => (lane m).2.symm
  · rfl
  · rfl

/-- The boundary test of R52. -/
theorem isBoundary_iff (t : CalTime) (length : Nat) :
    t.isBoundary length = true ↔ t.second ≠ 60 ∧ (t.hour * 3600 + t.minute * 60 + t.second) % length = 0 := by
  rw [CalTime.isBoundary, Bool.and_eq_true, decide_eq_true_eq, decide_eq_true_eq]
  rfl

/-- A running AUTO lane closes at a boundary of its length, and at no other second (03 R52). -/
theorem boundary_auto {d : Device} {n : LaneNo} {k : Fin 13} (hm : (d.lane n).mode ≠ .off)
    (ha : (d.lane n).page.intervalMode = .auto k) (a : Arrival) : d.boundary n a =
      if a.time.isBoundary [1, 2, 5, 10, 15, 30, 60, 120, 300, 600, 900, 1800, 3600][k.val]! then
        d.close n .boundary (d.timebase.stampOf a.time) (d.timebase.stampOf a.time)
      else d := by
  have length : (d.lane n).page.intervalMode.length =
      some ([1, 2, 5, 10, 15, 30, 60, 120, 300, 600, 900, 1800, 3600][k.val]!) := by
    rw [ha]; clear ha; revert k; decide
  unfold Device.boundary
  rw [length]
  cases h : (d.lane n).mode
  · exact absurd h hm
  · rfl
  · rfl

/-- OFF, MANUAL and second 60 close nothing (03 R52, R53). -/
theorem boundary_none {d : Device} {n : LaneNo} {a : Arrival}
    (h : (d.lane n).mode = .off ∨ (d.lane n).page.intervalMode = .manual ∨ a.time.second = 60) : d.boundary n a = d := by
  unfold Device.boundary
  rcases h with h | h | h
  · rw [h]
  · rw [h]; cases (d.lane n).mode <;> rfl
  · have never (length : Nat) : a.time.isBoundary length = false := by
      rw [Bool.eq_false_iff, ne_eq, isBoundary_iff]
      exact fun b => b.1 h
    split
    · rfl
    · rfl
    · rw [never]; rfl
    · rw [never]; rfl

/-- Settles O28: nothing delivered, nothing to close, and a running AUTO lane at each second. -/
theorem boundariesCloseAutoIntervals : Obligations.BoundariesCloseAutoIntervals := by
  intro n s l
  refine ⟨exec_secondArrival_empty, ?_⟩
  intro a rest h taken stamp
  have lane : taken.lane n = { l with seconds := rest } := lane_modLane_same _ _ _
  have idle (hb : taken.boundary n a = taken) : exec (.secondArrival n) s = .next (s.withDev taken) := by
    rw [exec_secondArrival h, show s.dev.secondTaken n rest = taken from rfl, hb,
      show Device.settle s.dev taken = taken from settle_secondTaken s.dev n rest]
  refine ⟨fun none => idle (boundary_none (by rw [lane]; exact none)), ?_⟩
  intro k hm ha h60 length ofDay
  have auto := boundary_auto (d := taken) (n := n) (k := k) (by rw [lane]; exact hm) (by rw [lane]; exact ha) a
  refine ⟨fun apart => idle (auto.trans (if_neg ?_)), fun meets => ?_⟩
  · rw [isBoundary_iff]; exact fun b => apart b.2
  · have closed : taken.boundary n a = taken.close n .boundary stamp stamp :=
      auto.trans (if_pos ((isBoundary_iff _ _).2 ⟨h60, meets⟩))
    have step : Device.LaneStep n taken (taken.close n .boundary stamp stamp) := .close n taken .boundary stamp stamp
    refine ⟨_, exec_secondArrival h, ?_⟩
    rw [dev_withDev, show s.dev.secondTaken n rest = taken from rfl, closed, lanes_settle, capture_settle, inFlight_settle,
      journal_settle, timebase_settle, schedule_settle, port_settle]
    exact ⟨rfl, rfl, rfl, step.journal, step.timebase, step.schedule, step.port⟩

end Sys2Proof.Machine
end

