-- ==== Sys2Proof/Proofs/IntervalTake.lean ====
section
namespace Sys2Proof.Machine

open Sys2Proof

/-! ### INTERVAL TAKE (03 R65, 10 R185) -/

theorem length_stampImage (st : Stamp) : st.image.length = 8 := rfl

/-- A closed interval record takes 27 bytes (R185). -/
theorem length_closedIntervalImage (r : ClosedInterval) : r.image.length = 27 := by
  simp [ClosedInterval.image, length_stampImage, le16]

/-- A take of more records than the ring holds takes them all (03 R65). -/
theorem takeIntervals_eq (d : Device) (n : LaneNo) (count : Nat) :
    let ring := (d.lane n).ring
    let k := min count ring.length
    d.takeIntervals n count = (d.modLane n fun l => { l with ring := l.ring.drop count },
      .ok ([byte k, byte (ring.length - k)] ++ (ring.take k).flatMap ClosedInterval.image)) := by
  have left (ring : List ClosedInterval) : ring.length - count = ring.length - min count ring.length := by omega
  simp only [Device.takeIntervals, List.length_take, List.length_drop, left, ← List.take_eq_take_min]

theorem ownIntervalTake_refused {b count : Byte} (h : 3 < b.toNat ∨ count.toNat < 1 ∨ 8 < count.toNat) (d : Device) :
    ownIntervalTake [b, count] d = (d, .refuse .badValue) := by
  rcases h with h | h
  · simp [ownIntervalTake, laneOf_outOfRange h]
  · have out : inRange 1 8 count.toNat = none := if_neg (by omega)
    simp [ownIntervalTake, out]

theorem ownIntervalTake_taken {count : Byte} (n : LaneNo) (low : 1 ≤ count.toNat) (high : count.toNat ≤ 8) (d : Device) :
    ownIntervalTake [laneByte n, count] d = d.takeIntervals n count.toNat := by
  have ok : inRange 1 8 count.toNat = some count.toNat := if_pos ⟨low, high⟩
  simp [ownIntervalTake, ok]

/-- Settles O29: the image field by field, the owner's checks, and what the take leaves in the ring. -/
theorem intervalTakeRemovesTheOldest : Obligations.IntervalTakeRemovesTheOldest := by
  refine ⟨fun r => ⟨length_closedIntervalImage r, ?_⟩, fun tag b count s hq => ⟨fun h => ?_, fun n hb low high => ?_⟩⟩
  · rfl
  · exact onDevice_request_answered s hq _ _ (ownIntervalTake_refused h _)
  · subst hb
    have taken := (ownIntervalTake_taken n low high s.dev.frameEnds).trans (takeIntervals_eq s.dev.frameEnds n count.toNat)
    refine ⟨_, onDevice_request_quiet s hq, ?_, ?_, fun m hm => ?_⟩
    all_goals rw [dev_withDev, taken]
    · rfl
    · rw [lane_replyWith, lane_modLane_same, ← List.drop_eq_drop_min]
      rfl
    · rw [lane_replyWith]; exact lane_modLane_ne s.dev.frameEnds _ hm

end Sys2Proof.Machine
end

