-- ==== Sys2Proof/Proofs/Errors.lean ====
section
namespace Sys2Proof.Machine

open Sys2Proof

/-! ### Errors at the slots (03 R45 to R47) -/

/-- Which error classes a slot class takes (01 R13). -/
theorem counts_iff (c : SlotClass) (e : LineError) : c.counts e = true ↔
    (c, e) ∈ ([(.code, .code), (.idle, .idle), (.slip, .slip), (.pattern, .pattern), (.codeIdle, .code), (.codeIdle, .idle)] :
      List (SlotClass × LineError)) := by
  cases c <;> cases e <;> decide

/-- A slot that has just reached 65535 saturates, with its record (03 R46). -/
def Device.saturateIf (d : Device) (n : LaneNo) (reached : Bool) (f : OpenInterval → OpenInterval) (st : Stamp) (slot : Nat) :
    Device :=
  if reached then (d.modInterval n f).writeLane n st .slotSaturated slot else d

@[simp] theorem capture_saturateIf (d : Device) (n : LaneNo) (b : Bool) (f : OpenInterval → OpenInterval) (st : Stamp) (slot : Nat) :
    (d.saturateIf n b f st slot).capture = d.capture := by
  cases b <;> rfl

theorem laneStep_saturateIf (d : Device) (n : LaneNo) (b : Bool) (f : OpenInterval → OpenInterval) (st : Stamp) (slot : Nat) :
    Device.LaneStep n d (d.saturateIf n b f st slot) :=
  .ite ((Device.LaneStep.modInterval n d f).trans (.writeLane n n _ _ _ _)) (.refl n d)

theorem written_saturateIf (d : Device) (n : LaneNo) (b : Bool) (f : OpenInterval → OpenInterval) (st : Stamp) (slot : Nat) :
    d.written (d.saturateIf n b f st slot) =
      recordIf b (((d.saturateIf n b f st slot).lane n).writes n st .slotSaturated slot) := by
  cases b
  · exact written_self d
  · exact written_writeLane (d.modInterval n f) n st .slotSaturated slot

section
variable {d : Device} {n : LaneNo} {st : Stamp} {iv : OpenInterval} (hi : (d.lane n).interval = some iv)
include hi

theorem addY_saturated (hs : iv.ySaturated = true) : d.addY n st = d := by
  simp [Device.addY, hi, hs]

theorem addY_counts (hs : iv.ySaturated = false) : d.addY n st =
    (d.modInterval n fun jv => { jv with y := iv.y + 1 }).saturateIf n (decide (iv.y + 1 = 65535))
      (fun jv => { jv with ySaturated := true }) st 1 := by
  simp [Device.addY, hi, hs, Device.saturateIf, Config.countMax]

theorem addX_saturated (hs : iv.xSaturated = true) : d.addX n st = d := by
  simp [Device.addX, hi, hs]

theorem addX_counts (hs : iv.xSaturated = false) : d.addX n st =
    ((d.modInterval n fun jv => { jv with x := iv.x + 1 }).burstTest n (iv.x + 1) st).saturateIf n (decide (iv.x + 1 = 65535))
      (fun jv => { jv with xSaturated := true }) st 0 := by
  simp [Device.addX, hi, hs, Device.saturateIf, Config.countMax]

end

/-! ### The burst test (03 R47) -/

/-- An addition that makes slot X's count `x` meets the burst threshold for the first time in the interval (03 R47). -/
def Lane.bursts (l : Lane) (iv : OpenInterval) (x : Nat) : Bool :=
  decide (l.page.burstThreshold = some x ∧ iv.burstReported = false)

/-- A lane's record reads of its open interval the two counts alone (04 R72). -/
theorem writes_mapInterval (l : Lane) {f : OpenInterval → OpenInterval} (hx : ∀ iv, (f iv).x = iv.x) (hy : ∀ iv, (f iv).y = iv.y)
    (n : LaneNo) (st : Stamp) (k : Kind) (detail : Nat) :
    ({ l with interval := l.interval.map f } : Lane).writes n st k detail = l.writes n st k detail := by
  unfold Lane.writes
  simp only [Option.map_map, Function.comp_def, hx, hy]

/-- The device with the burst noted in the open interval and its record written (03 R47). -/
def Device.burstNoted (d : Device) (n : LaneNo) (x : Nat) (st : Stamp) : Device :=
  (d.modInterval n fun iv => { iv with burstReported := true }).writeLane n st .burst x

theorem laneStep_burstNoted (d : Device) (n : LaneNo) (x : Nat) (st : Stamp) : Device.LaneStep n d (d.burstNoted n x st) :=
  (Device.LaneStep.modInterval n d _).trans (.writeLane n n _ _ _ _)

theorem writes_burstNoted (d : Device) (n : LaneNo) (x : Nat) (st : Stamp) (k : Kind) (detail : Nat) :
    ((d.burstNoted n x st).lane n).writes n st k detail = (d.lane n).writes n st k detail := by
  rw [Device.burstNoted, lane_writeLane, lane_modInterval_same]
  exact writes_mapInterval (d.lane n) (f := fun iv => { iv with burstReported := true }) (fun _ => rfl) (fun _ => rfl) n st k detail

theorem written_burstNoted (d : Device) (n : LaneNo) (x : Nat) (st : Stamp) :
    d.written (d.burstNoted n x st) = [(d.lane n).writes n st .burst x] := by
  rw [← writes_burstNoted d n x st]
  exact written_writeLane (d.modInterval n fun iv => { iv with burstReported := true }) n st .burst x

/-- Slot X's lane tests for a burst with an interval open (03 R47). -/
theorem burstTest_eq {d : Device} {n : LaneNo} {iv : OpenInterval} (hi : (d.lane n).interval = some iv) (x : Nat) (st : Stamp) :
    d.burstTest n x st =
      if (d.lane n).bursts iv x then
        if (d.lane n).page.burstCapture then ((d.burstNoted n x st).triggerOrMiss n .burst st).1 else d.burstNoted n x st
      else d := by
  simp only [Device.burstTest, hi, Option.map_some, Option.getD_some, Lane.bursts, decide_eq_true_eq]
  rfl

/-- A trigger that the unit takes writes nothing (08 R153). -/
theorem inFlight_trigger (d : Device) (n : LaneNo) (kind : TriggerKind) (st : Stamp) :
    (d.trigger n kind st).1.inFlight = d.inFlight := by
  unfold Device.trigger
  split
  · rfl
  · exact inFlight_grantTest _

theorem written_triggerOrMiss (d : Device) (n : LaneNo) (kind : TriggerKind) (st : Stamp) :
    d.written (d.triggerOrMiss n kind st).1 =
      recordIf (d.capture.busy n) ((d.lane n).writes n st .captureMissed kind.code) := by
  unfold Device.triggerOrMiss recordIf
  split
  · exact written_writeLane d n st .captureMissed kind.code
  · exact written_of_inFlight_eq (inFlight_trigger d n kind st)

/-- The unit after a trigger with no capture of the lane in progress (08 R153). -/
def Device.triggered (d : Device) (n : LaneNo) (kind : TriggerKind) (st : Stamp) : CaptureUnit :=
  (Device.grantTest { d with capture := { d.capture with waiting := d.capture.waiting ++ [⟨n, kind, st, 0⟩] } }).capture

theorem capture_triggerOrMiss (d : Device) (n : LaneNo) (kind : TriggerKind) (st : Stamp) :
    (d.triggerOrMiss n kind st).1.capture = if d.capture.busy n then d.capture else d.triggered n kind st := by
  unfold Device.triggerOrMiss Device.trigger
  split <;> rfl

/-- A trigger's grant reads nothing of the lanes that counting changes (08 R157). -/
theorem triggered_congr {d d' : Device} {n : LaneNo} (hc : d.capture = d'.capture) (others : ∀ m, m ≠ n → d.lane m = d'.lane m)
    (h : d.SameSizes d' n) (kind : TriggerKind) (st : Stamp) : d.triggered n kind st = d'.triggered n kind st :=
  capture_grantTest_congr (by rw [hc]) fun w _ => sameSizes_of_lane others h w.lane

section
variable {d : Device} {n : LaneNo} {iv : OpenInterval} (hi : (d.lane n).interval = some iv) (x : Nat) (st : Stamp)
include hi

theorem written_burstTest : d.written (d.burstTest n x st) =
    recordIf ((d.lane n).bursts iv x) ((d.lane n).writes n st .burst x) ++
    recordIf ((d.lane n).bursts iv x && (d.lane n).page.burstCapture && d.capture.busy n)
      ((d.lane n).writes n st .captureMissed 2) := by
  rw [burstTest_eq hi]
  cases (d.lane n).bursts iv x
  · exact written_self d
  · cases (d.lane n).page.burstCapture
    · exact written_burstNoted d n x st
    · have missed : (d.burstNoted n x st).written ((d.burstNoted n x st).triggerOrMiss n .burst st).1 =
          recordIf (d.capture.busy n) ((d.lane n).writes n st .captureMissed 2) := by
        rw [written_triggerOrMiss, writes_burstNoted]; rfl
      exact ((laneStep_burstNoted d n x st).written_trans (.triggerOrMiss n n _ _ _)).trans
        (congrArg₂ (· ++ ·) (written_burstNoted d n x st) missed)

theorem capture_burstTest_quiet
    (h : ¬ ((d.lane n).bursts iv x = true ∧ (d.lane n).page.burstCapture = true ∧ d.capture.busy n = false)) :
    (d.burstTest n x st).capture = d.capture := by
  rw [burstTest_eq hi]
  split
  · next hb =>
    split
    · next hc =>
      have busy : (d.burstNoted n x st).capture.busy n = true := by
        by_contra free
        exact h ⟨hb, hc, Bool.eq_false_iff.2 free⟩
      rw [capture_triggerOrMiss, if_pos busy]; rfl
    · rfl
  · rfl

theorem capture_burstTest_triggers (hb : (d.lane n).bursts iv x = true) (hc : (d.lane n).page.burstCapture = true)
    (free : d.capture.busy n = false) : (d.burstTest n x st).capture = d.triggered n .burst st := by
  have noted : (d.burstNoted n x st).capture.busy n = false := free
  rw [burstTest_eq hi, if_pos hb, if_pos hc, capture_triggerOrMiss, noted]
  refine triggered_congr (d := d.burstNoted n x st) (d' := d) rfl (laneStep_burstNoted d n x st).lanes ?_ .burst st
  rw [Device.SameSizes, Device.burstNoted, lane_writeLane, lane_modInterval_same]
  exact ⟨rfl, rfl, rfl⟩

end

/-! ### Additions -/

/-- The device with one more error in slot X, its burst and its saturation not yet judged (03 R46). -/
def Device.xCounted (d : Device) (n : LaneNo) (x : Nat) : Device := d.modInterval n fun iv => { iv with x := x }

section
variable {d : Device} {n : LaneNo} {iv : OpenInterval} (hi : (d.lane n).interval = some iv)
include hi

theorem lane_xCounted (x : Nat) : (d.xCounted n x).lane n = { d.lane n with interval := some { iv with x := x } } := by
  rw [Device.xCounted, lane_modInterval_same, hi]; rfl

variable {st : Stamp}

/-- What an addition to slot Y leaves and writes (03 R46). -/
theorem addY_adds (hs : iv.ySaturated = false) : (d.addY n st).capture = d.capture ∧
    d.written (d.addY n st) = recordIf (decide (iv.y + 1 = 65535)) (((d.addY n st).lane n).writes n st .slotSaturated 1) := by
  rw [addY_counts hi hs]
  exact ⟨capture_saturateIf _ _ _ _ _ _, written_saturateIf (d.modInterval n _) n _ _ st 1⟩

/-- The lane after an addition to slot X (03 R46, R47). -/
theorem lane_addX_adds (hs : iv.xSaturated = false) : (d.addX n st).lane n = { d.lane n with interval := some { iv with
    x := iv.x + 1
    burstReported := iv.burstReported || decide ((d.lane n).page.burstThreshold = some (iv.x + 1))
    xSaturated := decide (iv.x + 1 = 65535) } } := by
  rw [lane_addX, hi, Option.map_some, OpenInterval.addX, hs]
  rfl

theorem capture_addX (hs : iv.xSaturated = false) :
    (d.addX n st).capture = ((d.xCounted n (iv.x + 1)).burstTest n (iv.x + 1) st).capture := by
  rw [addX_counts hi hs]
  exact capture_saturateIf _ _ _ _ _ _

/-- What an addition to slot X writes: the burst and what becomes of its trigger, then the saturation (03 R46, R47). -/
theorem written_addX (hs : iv.xSaturated = false) : let l := (d.addX n st).lane n
    d.written (d.addX n st) =
      recordIf ((d.lane n).bursts iv (iv.x + 1)) (l.writes n st .burst (iv.x + 1)) ++
      recordIf ((d.lane n).bursts iv (iv.x + 1) && (d.lane n).page.burstCapture && d.capture.busy n)
        (l.writes n st .captureMissed 2) ++
      recordIf (decide (iv.x + 1 = 65535)) (l.writes n st .slotSaturated 0) := by
  have lane := lane_xCounted hi (iv.x + 1)
  have same (k : Kind) (detail : Nat) : ((d.xCounted n (iv.x + 1)).lane n).writes n st k detail =
      ((d.addX n st).lane n).writes n st k detail := by
    rw [lane, lane_addX_adds hi hs]; rfl
  have burst := written_burstTest (d := d.xCounted n (iv.x + 1)) (by rw [lane]) (iv.x + 1) st
  rw [same, same, lane] at burst
  have last : ((d.xCounted n (iv.x + 1)).burstTest n (iv.x + 1) st).written (d.addX n st) =
      recordIf (decide (iv.x + 1 = 65535)) (((d.addX n st).lane n).writes n st .slotSaturated 0) := by
    rw [addX_counts hi hs]; exact written_saturateIf _ n _ _ st 0
  have step : Device.LaneStep n ((d.xCounted n (iv.x + 1)).burstTest n (iv.x + 1) st) (d.addX n st) := by
    rw [addX_counts hi hs]; exact laneStep_saturateIf _ n _ _ st 0
  have whole := (Device.LaneStep.burstTest n (d.xCounted n (iv.x + 1)) (iv.x + 1) st).written_trans step
  rw [burst, last] at whole
  exact whole

end

/-- Settles O30: each addition is a count, for slot X the burst test, and the saturation, one after the other. -/
theorem errorsCountInTheBoundSlots : Obligations.ErrorsCountInTheBoundSlots := by
  refine ⟨counts_iff, ?_, ?_, ?_⟩
  · intro d n e st l afterX
    have page : (afterX.lane n).page = l.page := by
      dsimp only [afterX]
      split
      · rw [lane_addX]; rfl
      · rfl
    rw [← page]
    rfl
  · intro d n st iv l hi d'
    refine ⟨addY_saturated hi, fun hs => ?_⟩
    have step : Device.LaneStep n d d' := .addY n d st
    obtain ⟨capture, written⟩ := addY_adds (st := st) hi hs
    refine ⟨step.frame.trans (by rw [show d'.capture = d.capture from capture]), step.lanes, ?_, written⟩
    rw [lane_addY, hi, Option.map_some, OpenInterval.addY, hs]
    rfl
  · intro d n st iv l hi d' passes
    refine ⟨addX_saturated hi, fun hs => ?_⟩
    have step : Device.LaneStep n d d' := .addX n d st
    have lane := lane_xCounted hi (iv.x + 1)
    have counted : ((d.xCounted n (iv.x + 1)).lane n).interval = some { iv with x := iv.x + 1 } := by rw [lane]
    have bursts : l.bursts iv (iv.x + 1) = true ↔ passes := decide_eq_true_iff
    refine ⟨step.frame, step.lanes, lane_addX_adds hi hs, fun h => ?_, fun hp hc free => ?_, written_addX hi hs⟩
    · refine (capture_addX hi hs).trans (capture_burstTest_quiet counted _ st ?_)
      rw [lane]
      exact fun ⟨hb, hc, free⟩ => h ⟨bursts.1 hb, hc, free⟩
    · refine (capture_addX hi hs).trans ((capture_burstTest_triggers counted _ st ?_ ?_ free).trans ?_)
      · rw [lane]; exact bursts.2 hp
      · rw [lane]; exact hc
      · refine triggered_congr (d := d.xCounted n (iv.x + 1)) (d' := d) rfl (Device.LaneStep.modInterval n d _).lanes ?_ .burst st
        rw [Device.SameSizes, lane]
        exact ⟨rfl, rfl, rfl⟩

end Sys2Proof.Machine
end

