-- ==== Sys2Proof/Proofs/TimeSet.lean ====
section
namespace Sys2Proof.Machine

open Sys2Proof

/-! ### What a close reads of the device -/

/-- The lanes, the captures and the records on their way of one device, with the other blocks of another. -/
def Device.onto (d e : Device) : Device := { e with lanes := d.lanes, capture := d.capture, inFlight := d.inFlight, events := d.events }

section
variable (d e : Device) (n : LaneNo) (st : Stamp)

@[simp] theorem lane_onto : (d.onto e).lane n = d.lane n := rfl

theorem grantOne_onto : (d.onto e).grantOne = d.grantOne.map (·.onto e) := by
  unfold Device.grantOne
  rw [show (d.onto e).capture = d.capture from rfl]
  split <;> rfl

theorem grantTest_onto : (d.onto e).grantTest = d.grantTest.onto e := by
  have times : ∀ (k : Nat) (d : Device), Device.grantTimes k (d.onto e) = (Device.grantTimes k d).onto e := by
    intro k
    induction k with
    | zero => intro d; rfl
    | succ k ih =>
      intro d
      unfold Device.grantTimes
      rw [grantOne_onto]
      cases d.grantOne with
      | none => rfl
      | some d' => exact ih d'
  exact times 2 d

theorem truncate_onto : (d.onto e).truncate n st = (d.truncate n st).onto e := by
  unfold Device.truncate
  rw [show (d.onto e).capture = d.capture from rfl]
  split
  · rfl
  · split
    · rw [endCapture_eq, endCapture_eq, ← grantTest_onto]; rfl
    · rfl

theorem intervalClosed_onto (iv : OpenInterval) (reason : CloseReason) (start : Stamp) :
    (d.onto e).intervalClosed n iv reason st start = (d.intervalClosed n iv reason st start).onto e := by
  unfold Device.intervalClosed Device.pushClosed
  rw [lane_onto]
  dsimp only
  split <;> split <;> rfl

theorem restartedBy_onto (lost : Bool) (f : Lane → Lane) (k : Kind) :
    (d.onto e).restartedBy n lost f k st = (d.restartedBy n lost f k st).onto e := by
  unfold Device.restartedBy
  cases lost
  · exact congrArg (fun x => Device.modLane x n f) (truncate_onto (d.modLane n fun l => { l with history := [] }) e n st)
  · exact congrArg (fun x => (Device.modLane x n f).writeLane n st k 0)
      (truncate_onto ((d.reportUnlock n).modLane n fun l => { l with history := [] }) e n st)

/-- A close neither reads nor changes the blocks beside the lanes, the captures and the records on their way. -/
theorem close_onto (reason : CloseReason) (start : Stamp) :
    (d.onto e).close n reason st start = (d.close n reason st start).onto e := by
  cases hi : (d.lane n).interval with
  | none => rw [close_none hi, close_none (d := d.onto e) hi]
  | some iv =>
    have closed := intervalClosed_onto d e n st iv reason start
    cases hs : (d.lane n).swapPending with
    | false => rw [close_notPending hi reason st start hs, close_notPending (d := d.onto e) hi reason st start hs, closed]
    | true =>
      have swapped : ((d.onto e).intervalClosed n iv reason st start).pagesSwapped n start =
          ((d.intervalClosed n iv reason st start).pagesSwapped n start).onto e := by rw [closed]; rfl
      rw [close_pending hi reason st start hs, close_pending (d := d.onto e) hi reason st start hs, lane_onto]
      dsimp only
      rw [swapped]
      split
      · rfl
      · split
        · rfl
        · exact restartedBy_onto _ e n start _ _ _
        · exact restartedBy_onto _ e n start _ _ _

end

/-! ### One close after another (05 R100) -/

/-- The open intervals of these lanes are closed one after another with reason TIME_SET (05 R100). -/
def Device.closeEach (d : Device) (ns : List LaneNo) (old new : Stamp) : Device :=
  ns.foldl (fun d n => d.close n .timeSet old new) d

/-- The lanes in MONITOR or TEST, in increasing number. -/
def Device.runningLanes (d : Device) : List LaneNo := ([0, 1, 2, 3] : List LaneNo).filter fun n => decide ((d.lane n).mode ≠ .off)

theorem mem_runningLanes {d : Device} {n : LaneNo} : n ∈ d.runningLanes ↔ (d.lane n).mode ≠ .off := by
  have all : n ∈ ([0, 1, 2, 3] : List LaneNo) := by revert n; decide
  rw [Device.runningLanes, List.mem_filter, decide_eq_true_iff]
  exact and_iff_right all

theorem nodup_runningLanes (d : Device) : d.runningLanes.Nodup := List.Nodup.filter _ (by decide)

theorem mode_swappedAtClose (l : Lane) (reason : CloseReason) : (l.swappedAtClose reason).mode = l.mode := by
  unfold Lane.swappedAtClose
  split
  · rfl
  · split
    · rfl
    · unfold Lane.receiverRestarted Lane.restarted
      dsimp only
      split <;> rfl
    · unfold Lane.checkerRestarted Lane.restarted
      dsimp only
      split <;> rfl

theorem mode_afterClose (l : Lane) (n : LaneNo) (reason : CloseReason) (stop start : Stamp) :
    (l.afterClose n reason stop start).mode = l.mode := by
  unfold Lane.afterClose
  split
  · rfl
  · split
    · rw [mode_swappedAtClose]; rfl
    · rfl

/-- A close changes no lane's mode. -/
theorem mode_close (d : Device) (n : LaneNo) (reason : CloseReason) (stop start : Stamp) (m : LaneNo) :
    ((d.close n reason stop start).lane m).mode = (d.lane m).mode := by
  by_cases hm : m = n
  · subst hm
    rw [lane_close, mode_afterClose]
  · rw [(Device.LaneStep.close n d reason stop start).lanes m hm]

/-- The setting closes the lanes that run, in their order, and passes the others over (05 R100). -/
theorem closeForSetting_fold (ns : List LaneNo) (d : Device) (old new : Stamp) :
    ns.foldl (fun d n => d.closeForSetting n old new) d =
      d.closeEach (ns.filter fun n => decide ((d.lane n).mode ≠ .off)) old new := by
  induction ns generalizing d with
  | nil => rfl
  | cons n ns ih =>
    rw [List.foldl_cons, ih, List.filter_cons]
    cases hm : (d.lane n).mode with
    | off =>
      have passed : d.closeForSetting n old new = d := by rw [Device.closeForSetting, hm]
      rw [passed]
      simp
    | monitor | test =>
      have closed : d.closeForSetting n old new = d.close n .timeSet old new := by rw [Device.closeForSetting, hm]
      rw [closed]
      simp only [mode_close]
      rfl

section
variable (ns : List LaneNo) (d e : Device) (old new : Stamp)

theorem closeEach_onto : (d.onto e).closeEach ns old new = (d.closeEach ns old new).onto e := by
  induction ns generalizing d with
  | nil => rfl
  | cons n ns ih =>
    unfold Device.closeEach at ih ⊢
    rw [List.foldl_cons, List.foldl_cons, close_onto, ih]

theorem closeEach_frame : let d' := d.closeEach ns old new
    d' = { d with lanes := d'.lanes, capture := d'.capture, inFlight := d'.inFlight } ∧ d.inFlight <+: d'.inFlight := by
  induction ns generalizing d with
  | nil => exact ⟨rfl, List.prefix_refl _⟩
  | cons n ns ih =>
    have step : Device.LaneStep n d (d.close n .timeSet old new) := .close n d .timeSet old new
    obtain ⟨frame, records⟩ := ih (d.close n .timeSet old new)
    unfold Device.closeEach at frame records ⊢
    rw [List.foldl_cons]
    exact ⟨frame.trans (by rw [step.frame]), step.records.trans records⟩

/-- Each lane of the list is closed as it was before all of them, and the others stand. -/
theorem lane_closeEach (hn : ns.Nodup) (m : LaneNo) : (d.closeEach ns old new).lane m =
    if m ∈ ns then (d.lane m).afterClose m .timeSet old new else d.lane m := by
  induction ns generalizing d with
  | nil => rfl
  | cons n ns ih =>
    obtain ⟨hnotin, hn⟩ := List.nodup_cons.1 hn
    have rest := ih (d.close n .timeSet old new) hn
    unfold Device.closeEach at rest ⊢
    rw [List.foldl_cons, rest]
    by_cases hm : m = n
    · subst hm
      rw [if_neg hnotin, if_pos List.mem_cons_self, lane_close]
    · rw [(Device.LaneStep.close n d .timeSet old new).lanes m hm]
      simp only [List.mem_cons, hm, false_or]

theorem stamp_of_mem_written_closeEach : ∀ r ∈ d.written (d.closeEach ns old new),
    r.stamp = if r.kind = .ringOverrun ∨ r.kind = .intervalClosed then old else new := by
  induction ns generalizing d with
  | nil => intro r hr; exact absurd hr (by rw [Device.closeEach, List.foldl_nil, written_self]; exact List.not_mem_nil)
  | cons n ns ih =>
    intro r hr
    have step : Device.LaneStep n d (d.close n .timeSet old new) := .close n d .timeSet old new
    have records := (closeEach_frame ns (d.close n .timeSet old new) old new).2
    rw [show d.closeEach (n :: ns) old new = (d.close n .timeSet old new).closeEach ns old new from rfl,
      written_trans step.records records, List.mem_append] at hr
    obtain hr | hr := hr
    · cases hi : (d.lane n).interval with
      | none => rw [close_none hi, written_self] at hr; exact absurd hr List.not_mem_nil
      | some iv => exact stamp_of_mem_written_close hi .timeSet old new r hr
    · exact ih _ r hr

end

/-- What a swap carried out at a close leaves of the interval just opened, and the page it makes live (02 R34 to R37). -/
theorem swappedAtClose_keeps (l : Lane) (reason : CloseReason) : let l' := l.swappedAtClose reason
    l'.ring = l.ring ∧ l'.number = l.number ∧ l'.interval.map (·.start) = l.interval.map (·.start) ∧ l'.live = 1 - l.live ∧
      l'.swapPending = false := by
  have restarted (line : LineState) (lost : Bool) :
      (l.exchanged.restarted line lost).interval.map (·.start) = l.interval.map (·.start) ∧
      (l.exchanged.restarted line lost).ring = l.ring ∧ (l.exchanged.restarted line lost).number = l.number ∧
      (l.exchanged.restarted line lost).live = 1 - l.live ∧ (l.exchanged.restarted line lost).swapPending = false := by
    cases lost
    · exact ⟨rfl, rfl, rfl, rfl, rfl⟩
    · exact ⟨Option.map_map _ _ _, rfl, rfl, rfl, rfl⟩
  unfold Lane.swappedAtClose
  split
  · exact ⟨rfl, rfl, rfl, rfl, rfl⟩
  · split
    · exact ⟨rfl, rfl, rfl, rfl, rfl⟩
    · obtain ⟨start, ring, number, live, pending⟩ := restarted .hunt (decide (l.exchanged.line = .locked))
      exact ⟨ring, number, start, live, pending⟩
    · obtain ⟨start, ring, number, live, pending⟩ := restarted .search (decide (l.exchanged.line = .track))
      exact ⟨ring, number, start, live, pending⟩

/-- A running lane after a close that opens the next interval (03 R55 to R59, 05 R100). -/
theorem afterClose_opens {l : Lane} {iv : OpenInterval} (hi : l.interval = some iv) (n : LaneNo) {reason : CloseReason}
    (hr : reason ≠ .stopped) (stop start : Stamp) : let l' := l.afterClose n reason stop start
    l'.ring = l.closedRing n iv reason stop ∧ l'.number = (l.number + 1) % 65536 ∧ l'.interval.map (·.start) = some start ∧
      l'.live = l.swappedLive ∧ l'.swapPending = false ∧ l'.mode = l.mode := by
  have opened : (l.intervalClosed n iv reason stop start).interval.map (·.start) = some start := by
    rw [Lane.intervalClosed, if_neg hr]; rfl
  dsimp only
  rw [mode_afterClose, Lane.afterClose, hi, Lane.swappedLive]
  cases hs : l.swapPending with
  | false => exact ⟨rfl, rfl, opened, rfl, hs, rfl⟩
  | true =>
    obtain ⟨ring, number, interval, live, pending⟩ := swappedAtClose_keeps (l.intervalClosed n iv reason stop start) reason
    exact ⟨ring, number, interval.trans opened, live, pending, rfl⟩

/-! ### TIME SET (05 R99 to R101) -/

/-- The setting that the bytes of a TIME SET in range carry (05 R99). -/
def settingFrom (y mo d h mi se w leap : Byte) : Setting :=
  ⟨⟨y.toNat, mo.toNat, d.toNat, h.toNat, mi.toNat, se.toNat⟩, w.toNat, decide (leap = 1#8)⟩

theorem flagOf_of_le {b : Byte} (h : b.toNat ≤ 1) : flagOf b = some (decide (b = 1#8)) := by
  have two : b = 0#8 ∨ b = 1#8 := by bv_omega
  obtain rfl | rfl := two <;> rfl

theorem inRange_settingFrom {y mo d h mi se w leap : Byte} (hok : settingOk y mo d h mi se w leap) :
    (settingFrom y mo d h mi se w leap).inRange = true := by
  obtain ⟨hy, hmo, hmo', hd, hd', hh, hmi, hse, hw, -, h60⟩ := hok
  have length : d.toNat ≤ monthLength y.toNat mo.toNat := by
    unfold monthLength
    simpa using hd'
  have leap60 : se.toNat ≠ 60 ∨ (h.toNat = 23 ∧ mi.toNat = 59) ∧ leap ≠ 1#8 := by
    by_cases hs : se.toNat = 60
    · obtain ⟨h23, h59, h0⟩ := h60 hs
      exact .inr ⟨⟨h23, h59⟩, fun e => by rw [e] at h0; cases h0⟩
    · exact .inl hs
  simp only [Setting.inRange, Bool.and_eq_true, decide_eq_true_eq, Bool.or_eq_true, Bool.not_eq_true']
  exact ⟨⟨⟨⟨⟨⟨⟨hy, hmo, hmo'⟩, hd, length⟩, hh⟩, hmi⟩, hse⟩, hw⟩,
    leap60.imp_right fun ⟨at2359, noLeap⟩ => ⟨at2359, decide_eq_false noLeap⟩⟩

theorem settingOf_of_settingOk {y mo d h mi se w leap : Byte} (hok : settingOk y mo d h mi se w leap) :
    settingOf y mo d h mi se w leap = some (settingFrom y mo d h mi se w leap) := by
  have flag : flagOf leap = some (decide (leap = 1#8)) := by
    obtain ⟨-, -, -, -, -, -, -, -, -, hl, -⟩ := hok
    exact flagOf_of_le hl
  have ok := inRange_settingFrom hok
  unfold settingOf
  rw [flag]
  exact if_pos ok

/-- An accepted TIME SET closes the running lanes of what the timebase does not hold, and then writes its own record (05 R100,
R101). -/
theorem setTime_onto (d e : Device) (x : Setting) : let new := (e.timebase.set x).stamp
    (d.onto e).setTime x =
      ((d.closeEach d.runningLanes e.now new).onto { e with timebase := e.timebase.set x }).writePlain .timebase new .timeSet 0 := by
  have folded := closeForSetting_fold allLanes (d.onto { e with timebase := e.timebase.set x }) e.now (e.timebase.set x).stamp
  rw [closeEach_onto] at folded
  exact congrArg (fun x => Device.writePlain x .timebase _ .timeSet 0) folded

/-- The stamp of the new time (05 R97, R100). -/
theorem stamp_set (t : Timebase) (x : Setting) (h : t.oscFault = false) :
    (t.set x).stamp = ⟨x.time, 0, true, decide (t.run = .stopped)⟩ := by
  have held : (t.set x).held = (decide (t.run = .stopped) || t.oscFault) := rfl
  rw [Timebase.stamp, held, h, Bool.or_false]
  rfl

section
variable {y mo d h mi se w leap : Byte} (hok : settingOk y mo d h mi se w leap)
include hok

theorem ownTimeSet_accepted {dev : Device} (hf : dev.timebase.oscFault = false) :
    ownTimeSet [y, mo, d, h, mi, se, w, leap] dev =
      (Device.claim dev (Device.settle dev (dev.setTime (settingFrom y mo d h mi se w leap))), .ok []) := by
  rw [ownTimeSet, asRequest_eq]
  simp only [settingOf_of_settingOk hok, hf, Bool.false_eq_true, if_false]

theorem exec_timeSet_accepted {s : State} (hq : s.dev.quiet) (hf : s.dev.timebase.oscFault = false) (tag : Byte) :
    exec (.timeSet tag [y, mo, d, h, mi, se, w, leap]) s = .next (s.withDev
      (s.dev.requested tag 0x11#8 (s.dev.frameEnds.setTime (settingFrom y mo d h mi se w leap)) (.ok []))) := by
  have taken := ownTimeSet_accepted hok (dev := s.dev.frameEnds) hf
  refine (onDevice_request_quiet s hq).trans ?_
  rw [taken]
  rfl

end

/-- Settles O13: the closes of the running lanes in order, each lane as its own close leaves it, and the record that comes last. -/
theorem timeSetClosesRunningLanes : Obligations.TimeSetClosesRunningLanes := by
  intro tag y mo d h mi se w leap s hq hok hf
  refine ⟨_, exec_timeSet_accepted hok hq hf tag, ?_⟩
  intro new
  have stamp : (s.dev.timebase.set (settingFrom y mo d h mi se w leap)).stamp = new := stamp_set _ _ hf
  obtain ⟨closed, hclosed⟩ : ∃ x, x = s.dev.closeEach s.dev.runningLanes s.dev.now new := ⟨_, rfl⟩
  obtain ⟨worked, hworked⟩ : ∃ x, x = s.dev.frameEnds.setTime (settingFrom y mo d h mi se w leap) := ⟨_, rfl⟩
  have worked_eq : worked = (closed.onto { s.dev.frameEnds with
      timebase := s.dev.timebase.set (settingFrom y mo d h mi se w leap) }).writePlain .timebase new .timeSet 0 := by
    rw [hclosed, hworked, ← stamp]; exact setTime_onto s.dev s.dev.frameEnds _
  obtain ⟨frame, added, hadded⟩ := closeEach_frame s.dev.runningLanes s.dev s.dev.now new
  rw [← hclosed] at frame hadded
  have sent : worked.inFlight =
      s.dev.inFlight ++ (added ++ [⟨s.dev.events, ⟨new, .timebase, .timeSet, 0, none⟩, false, false⟩]) := by
    have events : closed.events = s.dev.events := by rw [frame]
    rw [worked_eq, ← List.append_assoc, hadded, ← events]; rfl
  have lane (n : LaneNo) : worked.lane n =
      if n ∈ s.dev.runningLanes then (s.dev.lane n).afterClose n .timeSet s.dev.now new else s.dev.lane n := by
    rw [worked_eq, lane_writePlain, lane_onto, hclosed, lane_closeEach _ _ _ _ (nodup_runningLanes s.dev)]
  rw [← hworked]
  simp only [dev_withDev, lane_requested, lanes_requested, capture_requested, conditions_requested, written_requested]
  refine ⟨fun n hoff => ?_, fun n iv hrun hi => ?_, ⟨?_, ?_, ?_⟩, ?_, ?_⟩
  · rw [lane, if_neg fun hm => mem_runningLanes.1 hm hoff]
  · rw [lane, if_pos (mem_runningLanes.2 hrun)]
    exact afterClose_opens hi n (by decide) s.dev.now new
  · rw [worked_eq, hclosed]; rfl
  · rw [worked_eq, hclosed]; rfl
  · have drop : closed.inFlight.drop s.dev.inFlight.length = added := by rw [← hadded]; simp
    rw [inFlight_requested _ _ _ _ _ sent, List.map_append, ← List.append_assoc, ← drop, hclosed]
    rfl
  · have written : s.dev.written worked = s.dev.written closed ++ [⟨new, .timebase, .timeSet, 0, none⟩] := by
      rw [written_of_append sent, written_of_append hadded.symm, List.map_append]; rfl
    intro r hr
    rw [written, List.mem_append, List.mem_singleton, hclosed] at hr
    obtain hr | rfl := hr
    · exact stamp_of_mem_written_closeEach _ _ _ _ r hr
    · rfl
  · rw [worked_eq]; rfl

end Sys2Proof.Machine
end

