-- ==== Sys2Proof/Proofs/LaneWork.lean ====
section
namespace Sys2Proof.Machine

open Sys2Proof

/-! ### What the work of a lane is made of -/

/-- The kinds of a close's records (03 R55). -/
def closeKinds : List Kind := [.ringOverrun, .intervalClosed, .pageSwapped]

/-- Work of lane `n` from its smallest pieces: changes of the lane and of the capture unit, records of other kinds than a close's,
and, where the work may close the lane's interval, the records of a close. What each piece keeps, the whole work keeps. -/
inductive Device.LaneWork (n : LaneNo) (closing : Prop) : Device → Device → Prop
  | refl (d : Device) : LaneWork n closing d d
  | trans {a b c : Device} (h : LaneWork n closing a b) (k : LaneWork n closing b c) : LaneWork n closing a c
  | modLane (d : Device) (f : Lane → Lane) : LaneWork n closing d (d.modLane n f)
  | capture (d : Device) (c : CaptureUnit) : LaneWork n closing d { d with capture := c }
  | write (d : Device) (r : Record) (hk : r.kind ∉ closeKinds) : LaneWork n closing d (d.write r)
  | writeClose (d : Device) (st : Stamp) (k : Kind) (x : Nat) (hc : closing) (hk : k ∈ closeKinds) :
      LaneWork n closing d (d.writeClose n st k x)

namespace Device.LaneWork

variable {n : LaneNo} {closing : Prop}

theorem ite {d a b : Device} {p : Prop} [Decidable p] (ha : LaneWork n closing d a) (hb : LaneWork n closing d b) :
    LaneWork n closing d (if p then a else b) := by
  split <;> assumption

theorem modInterval (d : Device) (f : OpenInterval → OpenInterval) : LaneWork n closing d (d.modInterval n f) := modLane d _

theorem writeLane (d : Device) (st : Stamp) {k : Kind} (x : Nat) (hk : k ∉ closeKinds) :
    LaneWork n closing d (d.writeLane n st k x) := write d _ hk

theorem writePlain (d : Device) (src : Source) (st : Stamp) {k : Kind} (x : Nat) (hk : k ∉ closeKinds) :
    LaneWork n closing d (d.writePlain src st k x) := write d _ hk

section
variable (d : Device) (st : Stamp)

/-! ### Captures (08) -/

theorem grantTest : LaneWork n closing d d.grantTest := by
  rw [grantTest_frame]; exact capture d _

theorem endCapture (k : SlotNo) (c : Capture) (t : Bool) : LaneWork n closing d (d.endCapture k c t st) :=
  ((capture d _).trans (writePlain _ _ st _ (by decide))).trans (grantTest _)

theorem truncate : LaneWork n closing d (d.truncate n st) := by
  obtain ⟨-, h⟩ | ⟨k, c, -, -, -, h⟩ := truncate_cases d n st <;> rw [h]
  · exact refl d
  · exact endCapture d st k c true

theorem dropEntry : LaneWork n closing d (d.dropEntry n st) := by
  unfold Device.dropEntry
  split
  · exact refl d
  · exact (capture d _).trans (writeLane _ st _ (by decide))

theorem endCaptures : LaneWork n closing d (d.endCaptures n st) := (truncate d st).trans (dropEntry _ st)

theorem trigger (kind : TriggerKind) : LaneWork n closing d (d.trigger n kind st).1 := by
  unfold Device.trigger
  split
  · exact refl d
  · exact (capture d _).trans (grantTest _)

theorem triggerOrMiss (kind : TriggerKind) : LaneWork n closing d (d.triggerOrMiss n kind st).1 := by
  unfold Device.triggerOrMiss
  split
  · exact writeLane d st _ (by decide)
  · exact trigger d st kind

theorem captureByte (b : Byte) : LaneWork n closing d (d.captureByte n b st) := by
  obtain ⟨-, h⟩ | ⟨k, c, -, -, -, h⟩ := captureByte_cases d n b st <;> rw [h]
  · exact refl d
  · exact ite (endCapture d st k _ false) (capture d _)

/-! ### Errors and closes (03, 02 R34 to R37) -/

theorem burstTest (x : Nat) : LaneWork n closing d (d.burstTest n x st) := by
  unfold Device.burstTest
  dsimp only
  exact ite (((modInterval d _).trans (writeLane _ st x (by decide))).trans (ite (triggerOrMiss _ st _) (refl _))) (refl d)

theorem addX : LaneWork n closing d (d.addX n st) := by
  unfold Device.addX
  split
  · exact refl d
  · dsimp only
    exact ite (refl d) (((modInterval d _).trans (burstTest _ st _)).trans
      (ite ((modInterval _ _).trans (writeLane _ st _ (by decide))) (refl _)))

theorem addY : LaneWork n closing d (d.addY n st) := by
  unfold Device.addY
  split
  · exact refl d
  · dsimp only
    exact ite (refl d) ((modInterval d _).trans
      (ite ((modInterval _ _).trans (writeLane _ st _ (by decide))) (refl _)))

theorem countError (e : LineError) : LaneWork n closing d (d.countError n e st) := by
  unfold Device.countError
  dsimp only
  exact (ite (addX d st) (refl d)).trans (ite (addY _ st) (refl _))

theorem reportUnlock : LaneWork n closing d (d.reportUnlock n) := modInterval d _

theorem emptyAndTruncate (f : Lane → Lane) : LaneWork n closing d ((d.modLane n f).truncate n st) :=
  (modLane d f).trans (truncate _ st)

theorem restartedBy (lost : Bool) (f : Lane → Lane) {k : Kind} (hk : k ∉ closeKinds) :
    LaneWork n closing d (d.restartedBy n lost f k st) := by
  unfold Device.restartedBy
  dsimp only
  exact (((ite (reportUnlock d) (refl d)).trans (emptyAndTruncate _ st _)).trans (modLane _ f)).trans
    (ite (writeLane _ st _ hk) (refl _))

/-- A close writes the records of a close (03 R55). -/
theorem close (hc : closing) (reason : CloseReason) (stop start : Stamp) :
    LaneWork n closing d (d.close n reason stop start) := by
  cases hi : (d.lane n).interval with
  | none => rw [close_none hi]; exact refl d
  | some iv =>
    have pushed (r : ClosedInterval) : LaneWork n closing d (d.pushClosed n r stop) := by
      unfold Device.pushClosed
      dsimp only
      exact ite (modLane d _) (((modLane d _).trans (writeClose _ _ _ _ hc (by decide))).trans (modLane _ _))
    have closed : LaneWork n closing d (d.intervalClosed n iv reason stop start) := by
      unfold Device.intervalClosed
      dsimp only
      exact ((pushed _).trans (ite (writeClose _ _ _ _ hc (by decide)) (refl _))).trans (modLane _ _)
    cases hs : (d.lane n).swapPending with
    | false => rw [close_notPending hi reason stop start hs]; exact closed
    | true =>
      have swapped : LaneWork n closing d ((d.intervalClosed n iv reason stop start).pagesSwapped n start) :=
        (closed.trans (modLane _ _)).trans (writeClose _ _ _ _ hc (by decide))
      rw [close_pending hi reason stop start hs]
      dsimp only
      refine ite swapped ?_
      split
      · exact swapped
      · exact swapped.trans (restartedBy _ start _ _ (by decide))
      · exact swapped.trans (restartedBy _ start _ _ (by decide))

/-! ### Cells (01, 07) -/

theorem handByte (b : Byte) (p : Bool) : LaneWork n closing d (d.handByte n b p st) := by
  unfold Device.handByte
  dsimp only
  refine (modLane d fun l => { l with history := pushHistory l.history b }).trans ?_
  split
  · exact ite (triggerOrMiss _ st _) (((triggerOrMiss _ st _).trans (captureByte _ st b)).trans (capture _ _))
  · exact ite (refl _) ((captureByte _ st b).trans (capture _ _))

theorem handSyncBytes (w : List Cell) : LaneWork n closing d (d.handSyncBytes n w st) :=
  (handByte d st _ _).trans (handByte _ st _ _)

theorem loseSignal : LaneWork n closing d (d.loseSignal n st) := by
  unfold Device.loseSignal
  dsimp only
  exact ((((modInterval d _).trans (ite (reportUnlock _) (refl _))).trans (ite (emptyAndTruncate _ st _) (refl _))).trans
    (modLane _ _)).trans (writeLane _ st _ (by decide))

theorem noSignalCell (c : Cell) : LaneWork n closing d (d.noSignalCell n c st) := by
  unfold Device.noSignalCell
  dsimp only
  exact ite (modLane d _) (ite (modLane d _) ((modLane d _).trans (writeLane _ st _ (by decide))))

theorem runStep (c : Cell) : LaneWork n closing d (d.runStep n c st) := by
  unfold Device.runStep
  dsimp only
  exact ite (ite (((modLane d _).trans (ite (countError _ st _) (refl _))).trans (ite (loseSignal _ st) (refl _))) (refl d))
    (modLane d _)

theorem huntCell (c : Cell) : LaneWork n closing d (d.huntCell n c st) := by
  unfold Device.huntCell
  dsimp only
  exact ite (ite (((modLane d _).trans (handSyncBytes _ st _)).trans (writeLane _ st _ (by decide))) (modLane d _)) (modLane d _)

theorem loseLock : LaneWork n closing d (d.loseLock n st) :=
  (((reportUnlock d).trans (emptyAndTruncate _ st _)).trans (modLane _ _)).trans (writeLane _ st _ (by decide))

theorem frameCheck : LaneWork n closing d (d.frameCheck n st) := by
  unfold Device.frameCheck
  dsimp only
  exact ite (((modInterval d _).trans (modLane _ _)).trans (handSyncBytes _ st _))
    (((modLane d _).trans (countError _ st _)).trans (ite (handSyncBytes _ st _) (loseLock _ st)))

theorem lockedCell (c : Cell) : LaneWork n closing d (d.lockedCell n c st) := by
  unfold Device.lockedCell
  dsimp only
  exact (modLane d _).trans (ite (frameCheck _ st) (ite (handByte _ st _ _) (refl _)))

theorem searchCell (c : Cell) : LaneWork n closing d (d.searchCell n c st) := by
  unfold Device.searchCell
  dsimp only
  split
  · exact modLane d _
  · exact (modLane d _).trans (writeLane _ st _ (by decide))

theorem loseTrack : LaneWork n closing d (d.loseTrack n st) :=
  (((reportUnlock d).trans (emptyAndTruncate _ st _)).trans (modLane _ _)).trans (writeLane _ st _ (by decide))

theorem trackCell (c : Cell) : LaneWork n closing d (d.trackCell n c st) := by
  unfold Device.trackCell
  dsimp only
  refine ((modLane d fun l => { l with checker := ((d.lane n).checker.track d.pattern (d.lane n).page.invert c).1 }).trans
    (ite (countError _ st _) (refl _))).trans (ite (loseTrack _ st) ?_)
  exact (ite (modInterval _ _) (refl _)).trans (ite (handByte _ st _ _) (refl _))

theorem lineCell (c : Cell) : LaneWork n closing d (d.lineCell n c st) := by
  unfold Device.lineCell
  split
  · exact refl d
  · exact refl d
  · exact huntCell d st c
  · exact lockedCell d st c
  · exact searchCell d st c
  · exact trackCell d st c

/-- A cell is work of its lane, and never closes its interval (01 R3). -/
theorem takeCell (c : Cell) : LaneWork n closing d (d.takeCell n c st) := by
  have work : LaneWork n closing d (((if c = .violation then d.countError n .code st else d).runStep n c st).lineCell n c st) :=
    ((ite (countError d st _) (refl d)).trans (runStep _ st c)).trans (lineCell _ st c)
  unfold Device.takeCell
  split
  · exact refl d
  · exact noSignalCell d st c
  · exact work
  · exact work
  · exact work
  · exact work

theorem transmit : LaneWork n closing d (d.transmit n st) := by
  unfold Device.transmit
  dsimp only
  exact (modLane d _).trans (ite (writeLane _ st _ (by decide)) (refl _))

/-! ### Changes of mode (01 R17 to R22, 07 R144, R145) -/

theorem startLane : LaneWork n closing d (d.startLane n st).1 := by
  unfold Device.startLane
  split
  · exact (modLane d _).trans (writeLane _ st _ (by decide))
  · exact refl d
  · exact refl d

theorem cancelInsert : LaneWork n closing d (d.cancelInsert n st) := by
  unfold Device.cancelInsert
  exact ite ((modLane d _).trans (writeLane _ st _ (by decide))) (refl d)

variable (hc : closing)
include hc

theorem stopSequence : LaneWork n closing d (d.stopSequence n st) := by
  unfold Device.stopSequence
  dsimp only
  exact ((((ite ((writeLane d st _ (by decide)).trans (cancelInsert _ st)) (refl d)).trans (endCaptures _ st)).trans
    (close _ hc _ st st)).trans (modLane _ _)).trans ((modLane _ _).trans (writeLane _ st _ (by decide)))

theorem endTest (why : TestEnd) : LaneWork n closing d (d.endTest n why st) := by
  unfold Device.endTest
  dsimp only
  exact (((((close d hc _ st st).trans (cancelInsert _ st)).trans (endCaptures _ st)).trans (modLane _ _)).trans
    (ite (reportUnlock _) (refl _))).trans (writeLane _ st _ (by decide))

theorem takeFault : LaneWork n closing d (d.takeFault n st) :=
  ((modLane d _).trans (writeLane _ st _ (by decide))).trans (endTest _ st hc _)

theorem beginTest (o : Origin) : LaneWork n closing d (d.beginTest n o st) := by
  unfold Device.beginTest
  dsimp only
  exact ((((close d hc _ st st).trans (endCaptures _ st)).trans (modLane _ _)).trans (writeLane _ st _ (by decide))).trans
    (ite (refl _) (takeFault _ st hc))

/-! ### Operations on a running lane (01 R15) -/

theorem stopLane : LaneWork n closing d (d.stopLane n st).1 := by
  unfold Device.stopLane
  split
  · exact refl d
  · exact stopSequence d st hc
  · exact stopSequence d st hc

/-- An operation on a running lane is work of the lane. -/
theorem laneAction (hm : (d.lane n).mode ≠ .off) (a : LaneAction) (o : Origin) :
    LaneWork n closing d (d.laneAction a n o st).1 := by
  cases a with
  | close =>
    simp only [Device.laneAction, Device.closeByRequest]
    split
    · exact refl d
    · exact close d hc _ st st
    · exact close d hc _ st st
  | swap =>
    simp only [Device.laneAction, Device.armSwap]
    split
    · next off => exact absurd off hm
    · dsimp only; exact modLane d _
    · dsimp only; exact modLane d _
  | testStart =>
    simp only [Device.laneAction, Device.testStart]
    split
    · exact refl d
    · exact refl d
    · split
      · exact refl d
      · exact beginTest d st hc o
  | testStop =>
    simp only [Device.laneAction, Device.testStop]
    split
    · exact refl d
    · exact refl d
    · exact endTest d st hc _
  | insert =>
    simp only [Device.laneAction, Device.insert]
    split
    · exact refl d
    · exact refl d
    · split
      · exact refl d
      · dsimp only; exact modLane d _
  | capture =>
    simp only [Device.laneAction, Device.captureByRequest]
    split
    · exact refl d
    · exact trigger d st _
    · exact trigger d st _

end

end Device.LaneWork

/-- An operation on a lane in OFF does nothing but a swap (01 R15, 02 R33). -/
theorem laneAction_off {d : Device} {n : LaneNo} (hm : (d.lane n).mode = .off) (a : LaneAction) (o : Origin) (st : Stamp) :
    (d.laneAction a n o st).1 = if a = .swap then d.swapInOff n st else d := by
  cases a with
  | close => simp [Device.laneAction, Device.closeByRequest, hm]
  | swap => simp [Device.laneAction, Device.armSwap, hm]
  | testStart => simp [Device.laneAction, Device.testStart, hm]
  | testStop => simp [Device.laneAction, Device.testStop, hm]
  | insert => simp [Device.laneAction, Device.insert, hm]
  | capture => simp [Device.laneAction, Device.captureByRequest, hm]

end Sys2Proof.Machine
end

