-- ==== Sys2Proof/Proofs/Arrivals.lean ====
section
namespace Sys2Proof.Machine

open Sys2Proof

/-! ### The levels an arrival moves (04 R77, R88, 09 R168) -/

/-- A change of the journal moves JOURNAL_LEVEL and JOURNAL_HELD at most (09 R168). -/
theorem changesBetween_journal (d : Device) (j : Journal) : changesBetween d { d with journal := j } =
    (if d.level 0 = j.level then [] else [⟨0, j.level⟩]) ++ (if d.level 1 = j.holdOff then [] else [⟨1, j.holdOff⟩]) := by
  have others : ([2, 3, 4, 5, 6, 7, 8, 9] : List CondNo).filter
      (fun c => d.level c != ({ d with journal := j } : Device).level c) = [] := by
    refine List.filter_eq_nil_iff.2 fun c hc => ?_
    have same : d.level c = ({ d with journal := j } : Device).level c := by fin_cases hc <;> rfl
    simp [same]
  have level0 : ({ d with journal := j } : Device).level 0 = j.level := rfl
  have level1 : ({ d with journal := j } : Device).level 1 = j.holdOff := rfl
  rw [changesBetween, show allConditions = 0 :: 1 :: [2, 3, 4, 5, 6, 7, 8, 9] from rfl, List.filter_cons, List.filter_cons,
    others, level0, level1]
  by_cases h0 : d.level 0 = j.level <;> by_cases h1 : d.level 1 = j.holdOff <;> simp [h0, h1, level0, level1]

/-- The level changes of one arrival: in a full WRAP journal the oldest record leaves before the storing (04 R77, R88). -/
def Device.arrivalMoves (before after : Device) : List LevelChange :=
  let fewer := decide (before.journal.threshold ≤ before.journal.records.length - 1)
  if before.journal.policy = .wrap ∧ 64 ≤ before.journal.records.length then
    (if before.level 0 = fewer then [] else [⟨0, fewer⟩]) ++ (if fewer = after.level 0 then [] else [⟨0, after.level 0⟩])
  else
    (if before.level 0 = after.level 0 then [] else [⟨0, after.level 0⟩]) ++
      (if before.level 1 = after.level 1 then [] else [⟨1, after.level 1⟩])

theorem changes_setJournal (d : Device) (j : Journal) : (d.setJournal j).attention.changes = d.attention.changes ++
    ((if d.level 0 = j.level then [] else [⟨0, j.level⟩]) ++ (if d.level 1 = j.holdOff then [] else [⟨1, j.holdOff⟩])) := by
  rw [← changesBetween_journal]; rfl

theorem makesRoom_iff (j : Journal) : j.makesRoom = true ↔ j.policy = .wrap ∧ 64 ≤ j.records.length := by
  rw [Journal.makesRoom, Bool.and_eq_true, decide_eq_true_eq, decide_eq_true_eq]
  rfl

theorem changes_recordArrives (d : Device) (r : Record) :
    (d.recordArrives r).attention.changes = d.attention.changes ++ d.arrivalMoves (d.recordArrives r) := by
  unfold Device.arrivalMoves
  by_cases full : d.journal.policy = .wrap ∧ 64 ≤ d.journal.records.length
  · have fewer : d.journal.giveUp.level = decide (d.journal.threshold ≤ d.journal.records.length - 1) := by
      rw [Journal.level, Journal.giveUp, List.length_tail]
    have held : d.level 1 = d.journal.giveUp.holdOff := rfl
    have held' : (d.setJournal d.journal.giveUp).level 1 = (d.journal.giveUp.append r).holdOff := rfl
    have level : (d.setJournal d.journal.giveUp).level 0 = d.journal.giveUp.level := rfl
    have arrived : d.recordArrives r = (d.setJournal d.journal.giveUp).setJournal (d.journal.giveUp.append r) :=
      if_pos ((makesRoom_iff _).2 full)
    rw [if_pos full, arrived, changes_setJournal, changes_setJournal, if_pos held, if_pos held', level, fewer, List.append_nil,
      List.append_nil, List.append_assoc]
    rfl
  · have arrived : d.recordArrives r = d.setJournal (d.journal.arrive r) := if_neg fun h => full ((makesRoom_iff _).1 h)
    rw [if_neg full, arrived, changes_setJournal]
    rfl

/-- An arrival changes the journal and presents the levels it moves, and does nothing else (04 R76). -/
theorem recordArrives_frame (d : Device) (r : Record) : d.recordArrives r = { d with
    journal := (d.recordArrives r).journal
    attention := ⟨d.attention.conditions, d.attention.changes ++ d.arrivalMoves (d.recordArrives r)⟩ } := by
  rw [← changes_recordArrives]
  unfold Device.recordArrives
  split <;> rfl

/-! ### Records on their way (03 R50, 04 R76) -/

theorem takeSent_some {place : Nat} {sent : List Sent} {x : Sent} (h : sent[place]? = some x)
    (free : ∀ y ∈ sent.take place, ¬ x.Behind y) : takeSent place sent = some (x.record, sent.eraseIdx place) := by
  have none : ((sent.take place).any fun y => x.waitsFor y) = false :=
    List.any_eq_false.2 fun y hy e => free y hy ((waitsFor_iff x y).1 e)
  simp only [takeSent, h, none, Bool.false_eq_true, if_false]

/-- What a record that arrives leaves on its way. -/
theorem takeSent_rest {place : Nat} {sent rest : List Sent} {r : Record} (h : takeSent place sent = some (r, rest)) :
    rest = sent.eraseIdx place := by
  unfold takeSent at h
  split at h
  · cases h
  · split at h
    · cases h
    · cases h; rfl

theorem splitSent_cons (first : Sent → Bool) (x : Sent) (rest : List Sent) : let later := splitSent first rest
    (first x = true ∨ (∃ y ∈ later.1, y.Behind x) → splitSent first (x :: rest) = (x :: later.1, later.2)) ∧
    (¬ (first x = true ∨ ∃ y ∈ later.1, y.Behind x) → splitSent first (x :: rest) = (later.1, x :: later.2)) := by
  have goes : (first x || (splitSent first rest).1.any fun y => y.waitsFor x) = true ↔
      first x = true ∨ ∃ y ∈ (splitSent first rest).1, y.Behind x := by
    simp only [Bool.or_eq_true, List.any_eq_true, waitsFor_iff]
  exact ⟨fun h => if_pos (goes.2 h), fun h => if_neg fun e => h (goes.1 e)⟩

/-! ### JOURNAL MARK (04 R87) -/

/-- The number an arriving record takes, 0 where it is discarded (04 R77 to R79, R87). -/
theorem numberTaken_eq (j : Journal) : j.numberTaken =
    if j.policy = .wrap ∨ (j.holdOff = false ∧ j.records.length < 64) then j.next
    else if j.holdOff = true ∧ j.records.length + 2 ≤ 64 then nextSeq j.next else 0 := by
  unfold Journal.numberTaken Journal.stores
  cases j.policy with
  | wrap => simp
  | hold => cases j.holdOff <;> simp [-Nat.reduceLeDiff] <;> rfl

theorem recordArrives_withPort (d : Device) (p : Port) (r : Record) :
    (d.withPort p).recordArrives r = (d.recordArrives r).withPort p := by
  unfold Device.recordArrives
  rw [show (d.withPort p).journal = d.journal from rfl]
  split <;> rfl

/-- Records that arrive do not meet the port. -/
theorem arrivals_withPort (sent : List Sent) (d : Device) (p : Port) :
    sent.foldl (fun d x => d.recordArrives x.record) (d.withPort p) =
      (sent.foldl (fun d x => d.recordArrives x.record) d).withPort p := by
  induction sent generalizing d with
  | nil => rfl
  | cons x rest ih => rw [List.foldl_cons, List.foldl_cons, recordArrives_withPort, ih]

/-- JOURNAL MARK with the port at rest: the requests' records arrive, then its own, whose number the reply tells (04 R87,
log 22). -/
theorem exec_journalMark (tag mark : Byte) {s : State} (hq : s.dev.quiet) :
    let d := s.dev.arriveFirst (·.byRequest)
    exec (.journalMark tag [mark]) s = .next (s.withDev (Device.answered
      (d.recordArrives ⟨s.dev.now, .port, .mark, mark.toNat, none⟩) tag 0x43#8 .ok (le32 d.journal.numberTaken))) := by
  have arrived : s.dev.frameEnds.arriveFirst (·.byRequest) =
      (s.dev.arriveFirst (·.byRequest)).withPort s.dev.frameEnds.port :=
    arrivals_withPort (splitSent (·.byRequest) s.dev.inFlight).1
      { s.dev with inFlight := (splitSent (·.byRequest) s.dev.inFlight).2 } s.dev.frameEnds.port
  have now : (s.dev.frameEnds.arriveFirst (·.byRequest)).now = s.dev.now := by rw [arriveFirst_frame]; rfl
  have taken : ownJournalMark [mark] s.dev.frameEnds =
      (((s.dev.arriveFirst (·.byRequest)).recordArrives ⟨s.dev.now, .port, .mark, mark.toNat, none⟩).withPort s.dev.frameEnds.port,
        .ok (le32 (s.dev.arriveFirst (·.byRequest)).journal.numberTaken)) := by
    simp only [ownJournalMark, Device.markJournal, now]
    rw [arrived, recordArrives_withPort]
    rfl
  have rate : ((s.dev.arriveFirst (·.byRequest)).recordArrives ⟨s.dev.now, .port, .mark, mark.toNat, none⟩).port = s.dev.port := by
    rw [port_recordArrives, arriveFirst_frame]
  refine (onDevice_request_quiet s hq).trans ?_
  rw [taken, Device.answered, rate]
  rfl

end Sys2Proof.Machine
end

