-- ==== Sys2Proof/Proofs/RecordMarks.lean ====
section
namespace Sys2Proof.Machine

open Sys2Proof

/-! ### The marks of a record on its way (03 R50, R55, 04 R87; log 1) -/

/-- The lanes in MONITOR or TEST. -/
def Device.running (d : Device) : LaneNo → Prop := fun n => (d.lane n).mode ≠ .off

/-- The record carries the mark of a close exactly where it is one of a running lane's close. -/
def Sent.Marked (running : LaneNo → Prop) (x : Sent) : Prop :=
  x.ofClose = true ↔ ∃ n, x.record.source = .lane n ∧ running n ∧ x.record.kind ∈ closeKinds

/-- Records are only added to those on their way, each rightly marked and none yet a request's. -/
def Added (running : LaneNo → Prop) (before after : List Sent) : Prop :=
  ∃ added, after = before ++ added ∧ ∀ x ∈ added, x.byRequest = false ∧ x.Marked running

/-- Each record on its way that was not before is rightly marked, and with this mark of a request. -/
def MarkedNew (running : LaneNo → Prop) (request : Bool) (before after : List Sent) : Prop :=
  ∀ x ∈ after, x ∈ before ∨ x.byRequest = request ∧ x.Marked running

section
variable {running : LaneNo → Prop}

theorem Added.of_eq {before after : List Sent} (h : after = before) : Added running before after :=
  ⟨[], by rw [h, List.append_nil], fun _ hx => absurd hx List.not_mem_nil⟩

theorem Added.trans {a b c : List Sent} (h : Added running a b) (k : Added running b c) : Added running a c := by
  obtain ⟨x, rfl, hx⟩ := h
  obtain ⟨y, rfl, hy⟩ := k
  exact ⟨x ++ y, List.append_assoc a x y, fun z hz => (List.mem_append.1 hz).elim (hx z) (hy z)⟩

theorem added_send (d : Device) (r : Record) (c : Bool)
    (h : c = true ↔ ∃ n, r.source = .lane n ∧ running n ∧ r.kind ∈ closeKinds) : Added running d.inFlight (d.send r c).inFlight :=
  ⟨[⟨d.events, r, false, c⟩], rfl, fun x hx => by rw [List.mem_singleton.1 hx]; exact ⟨rfl, h⟩⟩

theorem added_write (d : Device) (r : Record) (hk : r.kind ∉ closeKinds) : Added running d.inFlight (d.write r).inFlight :=
  added_send d r false ⟨fun h => absurd h Bool.false_ne_true, fun ⟨_, _, _, h⟩ => absurd h hk⟩

theorem added_writePlain (d : Device) (src : Source) (st : Stamp) {k : Kind} (x : Nat) (hk : k ∉ closeKinds) :
    Added running d.inFlight (d.writePlain src st k x).inFlight := added_write d _ hk

/-- The work of a lane marks its records rightly where the lane runs if the work may close its interval. -/
theorem Device.LaneWork.added {n : LaneNo} {closing : Prop} {d d' : Device} (w : d.LaneWork n closing d')
    (h : closing → running n) : Added running d.inFlight d'.inFlight := by
  induction w with
  | refl | modLane | capture => exact .of_eq rfl
  | trans _ _ first second => exact first.trans second
  | write d r hk => exact added_write d r hk
  | writeClose d st k x hc hk => exact added_send d _ true ⟨fun _ => ⟨n, rfl, h hc, hk⟩, fun _ => rfl⟩

theorem MarkedNew.of_subset {request : Bool} {before after : List Sent} (h : ∀ x ∈ after, x ∈ before) :
    MarkedNew running request before after := fun x hx => .inl (h x hx)

theorem MarkedNew.of_eq {request : Bool} {before after : List Sent} (h : after = before) :
    MarkedNew running request before after := .of_subset fun _ hx => h ▸ hx

theorem MarkedNew.trans {request : Bool} {a b c : List Sent} (h : MarkedNew running request a b)
    (k : MarkedNew running request b c) : MarkedNew running request a c :=
  fun x hx => (k x hx).elim (h x) .inr

theorem Added.markedNew {before after : List Sent} (h : Added running before after) : MarkedNew running false before after := by
  obtain ⟨added, rfl, hadded⟩ := h
  exact fun x hx => (List.mem_append.1 hx).imp_right (hadded x)

/-- A request's own records carry its mark (04 R87). -/
theorem markedNew_asRequest {own : Device → Device × Answer} {d : Device} (h : Added running d.inFlight (own d).1.inFlight) :
    MarkedNew running true d.inFlight (asRequest own d).1.inFlight := by
  obtain ⟨added, hsent, hadded⟩ := h
  have claimed := inFlight_claim_append d (Device.settle d (own d).1) added ((inFlight_settle _ _).trans hsent)
  intro x hx
  rw [asRequest_eq, claimed, List.mem_append, List.mem_map] at hx
  refine hx.imp_right ?_
  rintro ⟨y, hy, rfl⟩
  exact ⟨rfl, (hadded y hy).2⟩

/-- The port's part of a request writes nothing (10 R180, R181). -/
theorem markedNew_request {request : Bool} {own : Device → Device × Answer} {d : Device} (code tag : Byte)
    (h : MarkedNew running request d.inFlight (own d.frameEnds).1.inFlight) :
    MarkedNew running request d.inFlight (d.request code tag own).inFlight := by
  unfold Device.request
  split
  · exact .of_eq rfl
  · exact h

end

/-! ### Operations on lanes -/

/-- An operation leaves a lane in OFF where it was in OFF, and nowhere else (01 R15). -/
theorem off_afterAction (l : Lane) (a : LaneAction) (n : LaneNo) (o : Origin) (st : Stamp) :
    (l.afterAction a n o st).mode = .off ↔ l.mode = .off := by
  have ended (l : Lane) : (l.testEnded n st).mode = .monitor := by
    unfold Lane.testEnded
    split <;> rfl
  have begun : (l.testBegun n st).mode ≠ .off := by
    unfold Lane.testBegun
    split
    · exact Mode.noConfusion
    · rw [Lane.faultTaken, ended]; exact Mode.noConfusion
  unfold Lane.afterAction
  split
  · rfl
  · rw [mode_afterClose]
  · rfl
  · rfl
  · next hm =>
    split
    · rfl
    · exact iff_of_false begun (by rw [hm]; exact Mode.noConfusion)
  · rfl
  · next hm => rw [ended, hm]; decide
  · rfl
  · rfl
  · rfl
  · rfl

/-- No operation on a lane starts or stops one. -/
theorem running_laneAction (d : Device) (a : LaneAction) (n : LaneNo) (o : Origin) (st : Stamp) :
    (d.laneAction a n o st).1.running = d.running := by
  funext m
  unfold Device.running
  by_cases hm : m = n
  · subst hm
    rw [lane_laneAction, ne_eq, ne_eq, off_afterAction]
  · rw [(Device.LaneStep.laneAction n d a o st).lanes m hm]

/-- A running lane writes the records of a close, a lane in OFF a PAGE_SWAPPED that is none of a close (01 R15, 02 R33). -/
theorem added_laneAction (d : Device) (a : LaneAction) (n : LaneNo) (o : Origin) (st : Stamp) :
    Added d.running d.inFlight (d.laneAction a n o st).1.inFlight := by
  by_cases hm : (d.lane n).mode = .off
  · rw [laneAction_off hm]
    split
    · exact added_send (d.exchangePages n) _ false
        ⟨fun h => absurd h Bool.false_ne_true, fun ⟨_, he, hr, _⟩ => absurd (Source.lane.inj he ▸ hm) hr⟩
    · exact .of_eq rfl
  · exact (Device.LaneWork.laneAction (closing := True) d st trivial hm a o).added fun _ => hm

/-- The lanes of a mask take an operation that starts and stops none (01 R16). -/
theorem added_maskRequest {f : LaneNo → Device → Device × Status} (runs : ∀ n d, (f n d).1.running = d.running)
    (h : ∀ n d, Added d.running d.inFlight (f n d).1.inFlight) (mask : Byte) (d : Device) :
    Added d.running d.inFlight (Device.maskRequest f mask d).1.inFlight := by
  have fold (ns : List LaneNo) (d : Device) : Added d.running d.inFlight (Device.onLanes f ns d).1.inFlight := by
    induction ns generalizing d with
    | nil => exact .of_eq rfl
    | cons n ns ih => exact (h n d).trans (runs n d ▸ ih (f n d).1)
  unfold Device.maskRequest
  split
  · exact fold _ d
  · exact .of_eq rfl

theorem added_maskOnly (a : LaneAction) (params : List Byte) (d : Device) :
    Added d.running d.inFlight (maskOnly a params d).1.inFlight := by
  unfold maskOnly
  split
  · exact added_maskRequest (fun n d => running_laneAction d a n .host d.now) (fun n d => added_laneAction d a n .host d.now) _ d
  · exact .of_eq rfl

theorem added_laneRequest {take : LaneNo → Device → Device × Answer} (params : List Byte) (d : Device)
    (h : ∀ n, Added d.running d.inFlight (take n d).1.inFlight) :
    Added d.running d.inFlight (laneRequest params take d).1.inFlight := by
  unfold laneRequest
  split
  · split
    · exact h _
    · exact .of_eq rfl
  · exact .of_eq rfl

/-! ### The owners of the requests (10 R183) -/

section
variable (params : List Byte) (d : Device)

theorem inFlight_ownDeviceInfo : (ownDeviceInfo params d).1.inFlight = d.inFlight := by
  unfold ownDeviceInfo; split <;> rfl

theorem inFlight_ownReset : (ownReset params d).1.inFlight = d.inFlight := by
  unfold ownReset; split <;> rfl

theorem inFlight_ownAttention : (ownAttention params d).1.inFlight = d.inFlight := by
  unfold ownAttention; repeat' split
  all_goals rfl

theorem inFlight_ownAttentionConfig : (ownAttentionConfig params d).1.inFlight = d.inFlight := by
  unfold ownAttentionConfig; repeat' split
  all_goals rfl

theorem inFlight_ownExtConfig : (ownExtConfig params d).1.inFlight = d.inFlight := by
  unfold ownExtConfig; repeat' split
  all_goals rfl

theorem inFlight_ownPatternSet : (ownPatternSet params d).1.inFlight = d.inFlight := by
  unfold ownPatternSet; repeat' split
  all_goals rfl

theorem inFlight_ownPatternGet : (ownPatternGet params d).1.inFlight = d.inFlight := by
  unfold ownPatternGet; split <;> rfl

theorem inFlight_ownTimeGet : (ownTimeGet params d).1.inFlight = d.inFlight := by
  unfold ownTimeGet; split <;> rfl

theorem inFlight_ownLaneStatus : (ownLaneStatus params d).1.inFlight = d.inFlight := by
  unfold ownLaneStatus laneRequest; repeat' split
  all_goals rfl

theorem inFlight_ownProfileSet : (ownProfileSet params d).1.inFlight = d.inFlight := by
  unfold ownProfileSet Device.setProfile; repeat' split
  all_goals rfl

theorem inFlight_ownProfileGet : (ownProfileGet params d).1.inFlight = d.inFlight := by
  unfold ownProfileGet; repeat' split
  all_goals rfl

theorem inFlight_ownIntervalTake : (ownIntervalTake params d).1.inFlight = d.inFlight := by
  unfold ownIntervalTake; repeat' split
  all_goals rfl

theorem inFlight_ownJournalTake : (ownJournalTake params d).1.inFlight = d.inFlight := by
  unfold ownJournalTake asEvent
  dsimp only
  rw [inFlight_settle]
  repeat' split
  all_goals rfl

theorem inFlight_ownJournalStatus : (ownJournalStatus params d).1.inFlight = d.inFlight := by
  unfold ownJournalStatus; split <;> rfl

theorem inFlight_setPolicy (p : Policy) : (d.setPolicy p).inFlight = d.inFlight := by
  unfold Device.setPolicy
  dsimp only
  split
  · rw [inFlight_setJournal, inFlight_recordArrives]; rfl
  · rfl

theorem inFlight_ownJournalConfig : (ownJournalConfig params d).1.inFlight = d.inFlight := by
  unfold ownJournalConfig Device.configJournal; repeat' split
  · exact inFlight_setPolicy _ _
  all_goals rfl

theorem inFlight_ownCaptureStatus : (ownCaptureStatus params d).1.inFlight = d.inFlight := by
  unfold ownCaptureStatus; split <;> rfl

end

theorem added_closeEach (ns : List LaneNo) (d : Device) (old new : Stamp) {running : LaneNo → Prop} (h : ∀ n ∈ ns, running n) :
    Added running d.inFlight (d.closeEach ns old new).inFlight := by
  induction ns generalizing d with
  | nil => exact .of_eq rfl
  | cons n ns ih =>
    have first : Device.LaneWork n True d (d.close n .timeSet old new) := .close d trivial .timeSet old new
    exact (first.added fun _ => h n List.mem_cons_self).trans (ih _ fun m hm => h m (List.mem_cons_of_mem n hm))

/-- TIME SET closes running lanes alone (05 R100). -/
theorem added_setTime (d : Device) (x : Setting) : Added d.running d.inFlight (d.setTime x).inFlight := by
  have whole := setTime_onto d d x
  rw [show d.onto d = d from rfl] at whole
  rw [whole]
  exact (added_closeEach d.runningLanes d _ _ fun n hn => mem_runningLanes.1 hn).trans
    (added_writePlain (Device.onto _ _) .timebase _ 0 (by decide))

theorem added_setRun (d : Device) (r : RunState) {k : Kind} (hk : k ∉ closeKinds) {running : LaneNo → Prop} :
    Added running d.inFlight (d.setRun r k).inFlight := by
  unfold Device.setRun
  split
  · exact .of_eq rfl
  · exact added_writePlain { d with timebase := { d.timebase with run := r } } .timebase _ 0 hk

theorem added_stopLane (d : Device) (n : LaneNo) (st : Stamp) : Added d.running d.inFlight (d.stopLane n st).1.inFlight := by
  by_cases hm : (d.lane n).mode = .off
  · have passed : d.stopLane n st = (d, .ok) := by rw [Device.stopLane, hm]
    rw [passed]
    exact .of_eq rfl
  · exact (Device.LaneWork.stopLane (closing := True) d st trivial).added fun _ => hm

theorem added_abortCapture (d : Device) (n : LaneNo) {running : LaneNo → Prop} :
    Added running d.inFlight (d.abortCapture n).1.inFlight := by
  have work : Device.LaneWork n False d (d.abortCapture n).1 := by
    unfold Device.abortCapture
    split
    · exact .truncate d _
    · split
      · exact (Device.LaneWork.dropEntry d _).trans (.grantTest _)
      · exact .refl d
  exact work.added False.elim

section
variable (params : List Byte) (d : Device)

theorem markedNew_ownTimeSet : MarkedNew d.running true d.inFlight (ownTimeSet params d).1.inFlight := by
  unfold ownTimeSet
  apply markedNew_asRequest
  split
  · split
    · exact .of_eq rfl
    · split
      · exact .of_eq rfl
      · exact added_setTime d _
  · exact .of_eq rfl

theorem markedNew_ownTimeStop : MarkedNew d.running true d.inFlight (ownTimeStop params d).1.inFlight := by
  unfold ownTimeStop
  apply markedNew_asRequest
  split
  · exact added_setRun d _ (by decide)
  · exact .of_eq rfl

theorem markedNew_ownTimeRun : MarkedNew d.running true d.inFlight (ownTimeRun params d).1.inFlight := by
  unfold ownTimeRun
  apply markedNew_asRequest
  split
  · exact added_setRun d _ (by decide)
  · exact .of_eq rfl

theorem markedNew_ownLaneStart : MarkedNew d.running true d.inFlight (ownLaneStart params d).1.inFlight :=
  markedNew_asRequest <| added_laneRequest params d fun _ => (Device.LaneWork.startLane (closing := False) d _).added False.elim

theorem markedNew_ownLaneStop : MarkedNew d.running true d.inFlight (ownLaneStop params d).1.inFlight :=
  markedNew_asRequest <| added_laneRequest params d fun n => added_stopLane d n _

theorem markedNew_ownPageSwap : MarkedNew d.running true d.inFlight (ownPageSwap params d).1.inFlight := by
  have cancelled (n : LaneNo) (d : Device) :
      (d.cancelSwap n).1.running = d.running ∧ (d.cancelSwap n).1.inFlight = d.inFlight := by
    unfold Device.cancelSwap
    split
    · exact ⟨rfl, rfl⟩
    all_goals
      refine ⟨funext fun m => ?_, rfl⟩
      unfold Device.running
      rw [lane_modLane]
      split
      · next h => rw [h]
      · rfl
  unfold ownPageSwap
  apply markedNew_asRequest
  split
  · split
    · exact added_maskRequest (fun n d => running_laneAction d .swap n .host d.now)
        (fun n d => added_laneAction d .swap n .host d.now) _ d
    · split
      · exact added_maskRequest (fun n d => (cancelled n d).1) (fun n d => .of_eq (cancelled n d).2) _ d
      · exact .of_eq rfl
  · exact .of_eq rfl

theorem markedNew_ownCaptureTake : MarkedNew d.running true d.inFlight (ownCaptureTake params d).1.inFlight := by
  unfold ownCaptureTake
  apply markedNew_asRequest
  split
  · split
    · unfold Device.takeCapture
      split
      · exact .of_eq (inFlight_grantTest _)
      · exact .of_eq rfl
      · exact .of_eq rfl
    · exact .of_eq rfl
  · exact .of_eq rfl

theorem markedNew_ownCaptureAbort : MarkedNew d.running true d.inFlight (ownCaptureAbort params d).1.inFlight :=
  markedNew_asRequest <| added_laneRequest params d fun n => added_abortCapture d n

end

/-! ### The table's work (06 R122, R128) -/

/-- Work of the table starts and stops no lane, and marks its records rightly, none as a request's. -/
def Device.TableKeeps (d d' : Device) : Prop := d'.running = d.running ∧ MarkedNew d.running false d.inFlight d'.inFlight

namespace Device.TableKeeps

theorem of_eq {d d' : Device} (hl : d'.lanes = d.lanes) (h : d'.inFlight = d.inFlight) : d.TableKeeps d' := by
  refine ⟨?_, .of_eq h⟩
  unfold Device.running Device.lane
  rw [hl]

theorem trans {a b c : Device} (h : a.TableKeeps b) (k : b.TableKeeps c) : a.TableKeeps c :=
  ⟨k.1.trans h.1, h.2.trans (h.1 ▸ k.2)⟩

theorem noteRefusal (d : Device) (e : EntryNo) (place target : Nat) (st : Stamp) (status : Status) :
    d.TableKeeps (d.noteRefusal e place target st status) := by
  unfold Device.noteRefusal
  split
  · exact of_eq rfl rfl
  · exact ⟨rfl, (added_writePlain d _ st _ (by decide)).markedNew⟩

theorem noteFire (d : Device) (e : EntryNo) (st : Stamp) : d.TableKeeps (d.noteFire e st) := by
  unfold Device.noteFire
  split
  · exact of_eq rfl rfl
  · split
    · exact ⟨rfl, (added_writePlain d _ st _ (by decide)).markedNew⟩
    · exact of_eq rfl rfl

/-- A MARK action lets records arrive and writes none that stays on its way (06 R128). -/
theorem markAction (d : Device) (e : EntryNo) (tag : Byte) (st : Stamp) : d.TableKeeps (d.markAction e tag st) := by
  rw [markAction_frame]
  exact ⟨rfl, .of_subset (splitSent_sublist _ d.inFlight).2.subset⟩

theorem tableOp (d : Device) (st : Stamp) (op : TableOp) (rest : List TableOp) : d.TableKeeps (d.tableOp st op rest).1 := by
  cases op with
  | turn e =>
    simp only [Device.tableOp]
    split
    · exact (of_eq rfl rfl : d.TableKeeps (d.setEntry e (d.entry e).settled)).trans (noteFire _ e st)
    · exact of_eq rfl rfl
  | onLane e place a n =>
    have taken : d.TableKeeps (d.laneAction a n .schedule st).1 :=
      ⟨running_laneAction d a n _ st, (added_laneAction d a n _ st).markedNew⟩
    exact taken.trans (noteRefusal _ e place n.val st _)
  | mark e tag => exact markAction d e tag st
  | arm e place target =>
    exact (of_eq rfl rfl : d.TableKeeps (d.setEntry target (d.entry target).arm.1)).trans (noteRefusal _ e place target.val st _)
  | disarm e place target =>
    exact (of_eq rfl rfl : d.TableKeeps (d.setEntry target (d.entry target).disarm.1)).trans
      (noteRefusal _ e place target.val st _)

theorem tableOps (st : Stamp) (k : Nat) (d : Device) (ops : List TableOp) : d.TableKeeps (Device.tableOps st k d ops).1 := by
  induction k generalizing d ops with
  | zero => exact of_eq rfl rfl
  | succ k ih =>
    cases ops with
    | nil => exact of_eq rfl rfl
    | cons op rest => exact (tableOp d st op rest).trans (ih _ _)

theorem runTable (d : Device) (share : Option Nat) : d.TableKeeps (d.runTable share) := by
  unfold Device.runTable
  split
  · exact of_eq rfl rfl
  · next w _ => exact tableOps w.stamp _ { d with events := w.event } w.ops

theorem beginEvent (d : Device) (ev : TableEvent) (st : Stamp) : d.TableKeeps (d.beginEvent ev st) := by
  unfold Device.beginEvent
  dsimp only
  split <;> exact of_eq rfl rfl

/-- The table takes an event and does a share of its work on one (06 R122). -/
theorem tableEvent (d : Device) (share : Option Nat) {take : Device → Option Device}
    (h : ∀ d', take d = some d' → d.TableKeeps d') : d.TableKeeps (d.tableEvent share take) := by
  unfold Device.tableEvent
  split
  · exact runTable d share
  · split
    · exact of_eq rfl rfl
    · next d' hd => exact (h d' hd).trans (runTable d' share)

theorem takeSecond {d d' : Device} (h : d.takeSecond = some d') : d.TableKeeps d' := by
  unfold Device.takeSecond at h
  split at h
  · cases h
  · cases h; exact beginEvent { d with schedule := _ } _ _

theorem takeMinute {d d' : Device} (h : d.takeMinute = some d') : d.TableKeeps d' := by
  unfold Device.takeMinute at h
  split at h
  · cases h
  · cases h; exact beginEvent { d with schedule := _ } _ _

theorem takeFine {d d' : Device} (h : d.takeFine = some d') : d.TableKeeps d' := by
  unfold Device.takeFine at h
  split at h
  · cases h
  · cases h; exact beginEvent { d with schedule := _ } _ _

theorem takeEdge {d d' : Device} (p : Pin) (h : d.takeEdge p = some d') : d.TableKeeps d' := by
  unfold Device.takeEdge at h
  split at h
  · cases h
  · cases h; exact beginEvent { d with schedule := _ } _ _

theorem expire (d : Device) (e : EntryNo) : d.TableKeeps (d.expire e) := by
  unfold Device.expire
  split
  · split
    · exact runTable d _
    · exact of_eq rfl rfl
  · exact of_eq rfl rfl

end Device.TableKeeps

/-- A request to the table writes what the rest of the table's work writes (06, REQUESTS MEETING FIRES; log 6). -/
theorem markedNew_entryRequest {take : EntryNo → Device → Device × Answer} (h : ∀ e d, (take e d).1.inFlight = d.inFlight)
    (params : List Byte) (d : Device) : MarkedNew d.running false d.inFlight (entryRequest params take d).1.inFlight := by
  unfold entryRequest
  split
  · split
    · rw [h]; exact (Device.TableKeeps.runTable d none).2
    · exact .of_eq rfl
  · exact .of_eq rfl

theorem inFlight_moveEntry (f : Entry → Entry × Status) (e : EntryNo) (d : Device) : (moveEntry f e d).1.inFlight = d.inFlight := by
  unfold moveEntry
  dsimp only
  split <;> rfl

theorem markedNew_ownEntrySet (params : List Byte) (d : Device) :
    MarkedNew d.running false d.inFlight (ownEntrySet params d).1.inFlight := by
  unfold ownEntrySet
  split
  · split
    · unfold Device.defineEntry
      split <;> exact (Device.TableKeeps.runTable d none).2
    · exact .of_eq rfl
  · exact .of_eq rfl

/-! ### Requests and events (10 R183) -/

/-- The codes of the requests whose own event writes their records: all but those to the table (log 6). -/
def writesItsOwn (code : Byte) : Bool := decide (¬ (0x30 ≤ code.toNat ∧ code.toNat ≤ 0x36))

/-- JOURNAL MARK writes nothing that stays on its way (04 R87). -/
theorem subset_ownJournalMark (params : List Byte) (d : Device) : ∀ x ∈ (ownJournalMark params d).1.inFlight, x ∈ d.inFlight := by
  unfold ownJournalMark
  split
  · rw [Device.markJournal, inFlight_recordArrives, arriveFirst_frame]
    exact (splitSent_sublist _ d.inFlight).2.subset
  · exact fun _ hx => hx

/-- Each owner marks the records it writes: as a request's, but for those to the table. -/
theorem markedNew_owner : ∀ p ∈ requestOwners, ∀ (params : List Byte) (d : Device),
    MarkedNew d.running (writesItsOwn p.1) d.inFlight (p.2 params d).1.inFlight := by
  intro p hp params d
  simp only [requestOwners, List.mem_append, List.mem_cons, List.not_mem_nil, or_false] at hp
  obtain ((device | lane) | table) | rest := hp
  · obtain rfl | rfl | rfl | rfl | rfl | rfl | rfl | rfl | rfl | rfl | rfl := device
    · exact .of_eq (inFlight_ownDeviceInfo params d)
    · exact .of_eq (inFlight_ownReset params d)
    · exact .of_eq (inFlight_ownAttention params d)
    · exact .of_eq (inFlight_ownAttentionConfig params d)
    · exact .of_eq (inFlight_ownExtConfig params d)
    · exact .of_eq (inFlight_ownPatternSet params d)
    · exact .of_eq (inFlight_ownPatternGet params d)
    · exact .of_eq (inFlight_ownTimeGet params d)
    · exact markedNew_ownTimeSet params d
    · exact markedNew_ownTimeStop params d
    · exact markedNew_ownTimeRun params d
  · obtain rfl | rfl | rfl | rfl | rfl | rfl | rfl | rfl | rfl | rfl | rfl := lane
    · exact markedNew_ownLaneStart params d
    · exact markedNew_ownLaneStop params d
    · exact .of_eq (inFlight_ownLaneStatus params d)
    · exact .of_eq (inFlight_ownProfileSet params d)
    · exact .of_eq (inFlight_ownProfileGet params d)
    · exact markedNew_ownPageSwap params d
    · exact markedNew_asRequest (added_maskOnly .close params d)
    · exact .of_eq (inFlight_ownIntervalTake params d)
    · exact markedNew_asRequest (added_maskOnly .testStart params d)
    · exact markedNew_asRequest (added_maskOnly .testStop params d)
    · exact markedNew_asRequest (added_maskOnly .insert params d)
  · obtain rfl | rfl | rfl | rfl | rfl | rfl | rfl := table
    · exact markedNew_ownEntrySet params d
    · exact markedNew_entryRequest (fun _ _ => rfl) params d
    all_goals exact markedNew_entryRequest (inFlight_moveEntry _) params d
  · obtain rfl | rfl | rfl | rfl | rfl | rfl | rfl | rfl := rest
    · exact .of_eq (inFlight_ownJournalTake params d)
    · exact .of_eq (inFlight_ownJournalStatus params d)
    · exact .of_eq (inFlight_ownJournalConfig params d)
    · exact .of_subset (subset_ownJournalMark params d)
    · exact markedNew_asRequest (added_maskOnly .capture params d)
    · exact .of_eq (inFlight_ownCaptureStatus params d)
    · exact markedNew_ownCaptureTake params d
    · exact markedNew_ownCaptureAbort params d

theorem markedNew_requestOwner (code : Byte) (params : List Byte) (d : Device) :
    MarkedNew d.running (writesItsOwn code) d.inFlight (requestOwner code params d).1.inFlight := by
  unfold requestOwner
  cases h : requestOwners.lookup code with
  | none => exact .of_eq rfl
  | some own =>
    obtain ⟨before, after, owners, -⟩ := List.lookup_eq_some_iff.1 h
    exact markedNew_owner (code, own) (by rw [owners]; simp) params d

/-- A request command is the request of its code; a code that is in the table is no UNKNOWN_CODE (10 R180). -/
theorem exec_of_request? {c : Instr} {code tag : Byte} {params : List Byte} (h : c.request? = some (code, tag, params)) (s : State) :
    exec c s = .next s ∨ exec c s = s.onDevice fun d => d.request code tag (requestOwner code params) := by
  cases c with
  | unknownCode t k p =>
    cases h
    by_cases known : code ∈ Config.requestCodes
    · exact .inl (by simp only [exec, execUnknownCode, onDevice_eq, known, if_true])
    · exact .inr (by simp only [exec, execUnknownCode, onDevice_eq, known, if_false])
  | _ => cases h <;> exact .inr rfl

/-- A frame's last character hands the frame to the owner of its code (10 R178, R180). -/
theorem markedNew_crxCharacter {b : Byte} {good : Bool} {s t : State} (h : exec (.crxCharacter b good) s = .next t) :
    ∃ request, MarkedNew s.dev.running request s.dev.inFlight t.dev.inFlight := by
  have done (bytes : List Byte) (d : Device) : ∃ request, MarkedNew d.running request d.inFlight (d.frameDone bytes b).inFlight := by
    unfold Device.frameDone
    split
    · exact ⟨false, .of_eq rfl⟩
    · split
      · exact ⟨false, .of_eq rfl⟩
      · split
        · next tag code params _ =>
          exact ⟨_, markedNew_request code tag (markedNew_requestOwner code params d.frameEnds)⟩
        · exact ⟨false, .of_eq rfl⟩
  have inFrame (bytes : List Byte) (d : Device) : ∃ request, MarkedNew d.running request d.inFlight (d.frameByte bytes b).inFlight := by
    unfold Device.frameByte
    split
    · split <;> exact ⟨false, .of_eq rfl⟩
    · split
      · exact done _ d
      · exact ⟨false, .of_eq rfl⟩
  cases h
  dsimp only
  split
  · split <;> exact ⟨false, .of_eq rfl⟩
  · split
    · exact inFrame _ s.dev
    · exact ⟨false, .of_eq rfl⟩

/-- The accounting unit's work at a second arrival closes the interval of a running lane alone (03 R52). -/
theorem laneWork_boundary (d : Device) (n : LaneNo) (a : Arrival) :
    Device.LaneWork n ((d.lane n).mode ≠ .off) d (d.boundary n a) := by
  unfold Device.boundary
  split
  · exact .refl d
  · exact .refl d
  · next hm _ => exact .ite (.close d (by rw [hm]; exact Mode.noConfusion) _ _ _) (.refl d)
  · next hm _ => exact .ite (.close d (by rw [hm]; exact Mode.noConfusion) _ _ _) (.refl d)

theorem inFlight_fineTick (d : Device) : d.fineTick.inFlight = d.inFlight := by
  unfold Device.fineTick
  dsimp only
  repeat' split
  all_goals rfl

theorem inFlight_sample (d : Device) (e0 e1 : Bool) : (d.sample e0 e1).inFlight = d.inFlight := by
  unfold Device.sample
  split <;> rfl

section
variable (d : Device) {running : LaneNo → Prop}

theorem added_noteEdge (p : Pin) : Added running d.inFlight (d.noteEdge p).inFlight := by
  unfold Device.noteEdge
  split
  · exact .of_eq rfl
  · dsimp only
    split
    · exact added_writePlain { d with inputs := _ } _ _ _ (by decide)
    · exact .of_eq rfl

theorem added_detectFault : Added running d.inFlight d.detectFault.inFlight := by
  unfold Device.detectFault
  split
  · exact .of_eq rfl
  · exact added_writePlain { d with timebase := _ } _ _ _ (by decide)

theorem added_recover : Added running d.inFlight d.recover.inFlight := by
  unfold Device.recover
  split
  · exact added_writePlain { d with timebase := _ } _ _ _ (by decide)
  · exact .of_eq rfl

end

theorem inFlight_resetRequest (d : Device) : d.resetRequest.inFlight = d.inFlight := by
  rw [Device.resetRequest, inFlight_recordArrives]; rfl

theorem Added.settle {running : LaneNo → Prop} {b d d' : Device} (h : Added running d.inFlight d'.inFlight) :
    Added running d.inFlight (Device.settle b d').inFlight := by
  rw [inFlight_settle]; exact h

/-- An event that no request is marks its records rightly, none as a request's. -/
theorem markedNew_event {c : Instr} (hc : c.request? = none) (hx : ∀ b good, c ≠ .crxCharacter b good) {s t : State}
    (h : exec c s = .next t) : MarkedNew s.dev.running false s.dev.inFlight t.dev.inFlight := by
  have cell (n : LaneNo) (x : Cell) (d : Device) (st : Stamp) : Added s.dev.running d.inFlight (d.takeCell n x st).inFlight :=
    (Device.LaneWork.takeCell (closing := False) d st x).added False.elim
  cases c with
  | powerOnReset => cases h; exact .of_subset fun _ hx => absurd hx List.not_mem_nil
  | resetPin => cases h; exact .of_subset fun _ hx => absurd hx List.not_mem_nil
  | resetTakesEffect =>
    cases h
    dsimp only
    split
    · exact .of_eq rfl
    · split
      · exact .of_eq (inFlight_resetRequest s.dev)
      · exact .of_eq rfl
  | replySent =>
    cases h
    dsimp only
    unfold Device.replyEnds
    split
    · exact .of_eq rfl
    · split
      · exact .of_eq (inFlight_resetRequest s.dev)
      · exact .of_eq rfl
  | badFrame cause =>
    cases h
    dsimp only
    repeat' split
    all_goals exact .of_eq rfl
  | frameGapTimeout =>
    cases h
    dsimp only
    split <;> exact .of_eq rfl
  | crxCharacter b good => exact absurd rfl (hx b good)
  | cellArrival n x =>
    cases h
    dsimp only
    split
    · exact (cell n x s.dev _).settle.markedNew
    · exact .of_eq rfl
  | transmitCell n =>
    cases h
    have sent : Added s.dev.running s.dev.inFlight (Device.settle s.dev (s.dev.transmit n s.dev.now)).inFlight :=
      ((Device.LaneWork.transmit (closing := False) s.dev _).added False.elim).settle
    dsimp only
    split
    · split
      · exact (sent.trans (cell n _ _ _).settle).markedNew
      · exact sent.markedNew
    · exact .of_eq rfl
  | driverFault n level =>
    cases h
    dsimp only
    split
    · next hm =>
      have runs : (s.dev.lane n).mode ≠ .off := by rw [hm.1]; exact Mode.noConfusion
      exact ((Device.LaneWork.takeFault (closing := True) (s.dev.modLane n fun l => { l with txf := level }) _ trivial).added
        fun _ => runs).settle.markedNew
    · exact .of_eq rfl
  | secondArrival n =>
    cases h
    dsimp only
    split
    · exact .of_eq rfl
    · next rest _ =>
      have work := laneWork_boundary (s.dev.modLane n fun l => { l with seconds := rest }) n
      rw [lane_modLane_same] at work
      exact ((work _).added fun runs => runs).settle.markedNew
  | fineTick => cases h; exact .of_eq (inFlight_fineTick s.dev)
  | filterSample e0 e1 => cases h; exact .of_eq (inFlight_sample s.dev e0 e1)
  | extEdge p => cases h; exact (added_noteEdge s.dev p).settle.markedNew
  | oscFault => cases h; exact (added_detectFault s.dev).settle.markedNew
  | oscResumed => cases h; exact (added_recover s.dev).settle.markedNew
  | oscMeasureRestart => cases h; exact .of_eq rfl
  | crystalCycleSeen =>
    cases h
    dsimp only
    split <;> exact .of_eq rfl
  | scheduleSecondArrival share =>
    cases h; exact (Device.TableKeeps.tableEvent s.dev share fun _ => .takeSecond).2
  | minuteArrival share =>
    cases h; exact (Device.TableKeeps.tableEvent s.dev share fun _ => .takeMinute).2
  | scheduleFineTick share =>
    cases h; exact (Device.TableKeeps.tableEvent s.dev share fun _ => .takeFine).2
  | scheduleEdge p share =>
    cases h; exact (Device.TableKeeps.tableEvent s.dev share fun _ => .takeEdge p).2
  | countdownExpiry e => cases h; exact (Device.TableKeeps.expire s.dev e).2
  | recordArrival place =>
    cases h
    dsimp only
    split
    · exact .of_eq rfl
    · next r rest taken =>
      rw [inFlight_recordArrives]
      refine .of_subset fun x hx => ?_
      rw [takeSent_rest taken] at hx
      exact List.mem_of_mem_eraseIdx hx
  | conditionChange cond =>
    cases h
    dsimp only
    split <;> exact .of_eq rfl
  | _ => cases hc

/-- What a command's new records carry: the mark of a close rightly, that of a request where a request's own event wrote them
(03 R55, 04 R87; log 1). -/
theorem marks_of_exec {c : Instr} {s t : State} (h : exec c s = .next t) {x : Sent} (ht : x ∈ t.dev.inFlight)
    (hs : x ∉ s.dev.inFlight) : x.Marked s.dev.running ∧
      (∀ code tag params, c.request? = some (code, tag, params) → x.byRequest = writesItsOwn code) ∧
      (c.request? = none → (∀ b good, c ≠ .crxCharacter b good) → x.byRequest = false) := by
  have new {request : Bool} (m : MarkedNew s.dev.running request s.dev.inFlight t.dev.inFlight) :
      x.byRequest = request ∧ x.Marked s.dev.running := (m x ht).resolve_left hs
  cases hc : c.request? with
  | some r =>
    obtain ⟨code, tag, params⟩ := r
    obtain idle | ran := exec_of_request? hc s
    · rw [idle] at h
      cases h
      exact absurd ht hs
    · rw [ran, onDevice_eq] at h
      cases h
      obtain ⟨request, marked⟩ := new (markedNew_request code tag (markedNew_requestOwner code params s.dev.frameEnds))
      refine ⟨marked, fun code' tag' params' e => ?_, fun e => absurd e (Option.some_ne_none _)⟩
      cases e
      exact request
  | none =>
    refine and_assoc.1 ⟨⟨?_, fun _ _ _ e => absurd e.symm (Option.some_ne_none _)⟩, fun _ hx => ?_⟩
    · by_cases hx : ∀ b good, c ≠ .crxCharacter b good
      · exact (new (markedNew_event hc hx h)).2
      · push Not at hx
        obtain ⟨b, good, rfl⟩ := hx
        obtain ⟨request, m⟩ := markedNew_crxCharacter h
        exact (new m).2
    · exact (new (markedNew_event hc hx h)).1

/-- Settles O47: an arrival, the order on the way, the marks of each command's new records, and JOURNAL MARK. -/
theorem recordsArriveUnderThePolicyHeld : Obligations.RecordsArriveUnderThePolicyHeld := by
  refine ⟨fun d r => ⟨recordArrives_takes d r, recordArrives_frame d r⟩, fun place s x hx free => ?_,
    fun c s t h x ht hs => marks_of_exec h ht hs, fun first => ⟨rfl, splitSent_cons first⟩, fun tag mark s hq => ?_⟩
  · simp only [exec, execRecordArrival, onDevice_eq, takeSent_some hx free]
    rfl
  · have ran := exec_journalMark tag mark hq
    dsimp only at ran
    rw [numberTaken_eq] at ran
    exact ran

end Sys2Proof.Machine
end

