-- ==== Sys2Proof/Proofs/JournalForm.lean ====
section
namespace Sys2Proof.Machine

open Sys2Proof

/-! ### Sequence numbers (04 R75) -/

theorem seqChain_append_next {seqs : List Nat} {next : Nat} (h : seqChain seqs next = true) :
    seqChain (seqs ++ [next]) (nextSeq next) = true := by
  induction seqs with
  | nil => exact decide_eq_true rfl
  | cons a rest ih =>
    cases rest with
    | nil => exact Bool.and_eq_true_iff.2 ⟨h, decide_eq_true rfl⟩
    | cons b rest =>
      obtain ⟨follows, chain⟩ := Bool.and_eq_true_iff.1 h
      exact Bool.and_eq_true_iff.2 ⟨follows, ih chain⟩

theorem seqChain_of_suffix {seqs left : List Nat} {next : Nat} (hs : left <:+ seqs) (h : seqChain seqs next = true) :
    seqChain left next = true := by
  induction seqs with
  | nil => rw [List.suffix_nil.1 hs]; rfl
  | cons a rest ih =>
    obtain rfl | hs := List.suffix_cons_iff.1 hs
    · exact h
    · cases rest with
      | nil => rw [List.suffix_nil.1 hs]; rfl
      | cons b rest => exact ih hs (Bool.and_eq_true_iff.1 h).2

theorem nextSeq_inRange {n : Nat} (h : 1 ≤ n ∧ n ≤ 4294967295) : 1 ≤ nextSeq n ∧ nextSeq n ≤ 4294967295 := by
  unfold nextSeq Config.sequenceMax
  split <;> omega

/-! ### What the journal's operations keep (04 R69, R75 to R82) -/

namespace Journal

variable {j : Journal}

theorem Wf.append (h : j.Wf) (room : j.records.length < 64) (r : Record) : (j.append r).Wf where
  held := by rw [Journal.append, List.length_append]; exact room
  threshold := h.threshold
  wrapClear := h.wrapClear
  discards := h.discards
  numbers := by rw [Journal.append, List.map_append]; exact seqChain_append_next h.numbers
  next := nextSeq_inRange h.next

/-- Records leave from the oldest end (04 R77, R84). -/
theorem Wf.leaving (h : j.Wf) {left : List Stored} (hs : left <:+ j.records) : ({ j with records := left } : Journal).Wf :=
  { h with held := hs.length_le.trans h.held, numbers := seqChain_of_suffix (hs.map _) h.numbers }

theorem Wf.giveUp (h : j.Wf) : j.giveUp.Wf := h.leaving (List.tail_suffix _)

theorem Wf.appendWrap (h : j.Wf) (r : Record) : (j.appendWrap r).Wf := by
  unfold Journal.appendWrap
  split
  · next room => exact h.append room r
  · have held := h.held
    exact h.giveUp.append (by rw [Journal.giveUp, List.length_tail]; omega) r

/-- The end of a hold-off sets the discard count to 0 (04 R79, R82). -/
theorem Wf.resuming (h : j.Wf) : ({ j with holdOff := false, discards := 0 } : Journal).Wf :=
  { h with wrapClear := fun _ => rfl, discards := ⟨iff_of_true rfl rfl, Nat.zero_le _⟩ }

/-- Under HOLD a discarded record is counted (04 R78, R79). -/
theorem Wf.discarding (h : j.Wf) (hold : j.policy = .hold) :
    ({ j with holdOff := true, discards := min (j.discards + 1) Config.countMax } : Journal).Wf :=
  { h with
    wrapClear := fun wrap => absurd (hold.symm.trans wrap) Policy.noConfusion
    discards := ⟨iff_of_false (by dsimp only [Config.countMax]; omega) Bool.noConfusion, Nat.min_le_right _ _⟩ }

theorem Wf.arrive (h : j.Wf) (r : Record) : (j.arrive r).Wf := by
  unfold Journal.arrive
  split
  · exact h.appendWrap r
  · next hold =>
    split
    · next stored =>
      rw [Journal.stores, hold] at stored
      dsimp only at stored
      split
      · next off =>
        rw [if_pos off, decide_eq_true_eq] at stored
        have room : j.records.length + 2 ≤ 64 := stored
        refine (h.append (by omega) _).resuming.append ?_ r
        rw [Journal.append, List.length_append]
        exact room
      · next on =>
        rw [if_neg on, decide_eq_true_eq] at stored
        exact h.append stored r
    · exact h.discarding hold

theorem restarted_wf (st : Stamp) (cause : Nat) : (Journal.restarted st cause).Wf := by
  have emptied : Journal.emptied.Wf :=
    ⟨Nat.zero_le _, ⟨by decide, by decide⟩, fun _ => rfl, ⟨iff_of_true rfl rfl, Nat.zero_le _⟩, rfl, ⟨le_rfl, by decide⟩⟩
  exact emptied.append (by decide) _

/-- The journal after a change of policy with the stamp of its request (04 R82). -/
def underPolicy (j : Journal) (p : Policy) (st : Stamp) : Journal :=
  if j.policy = .hold ∧ p = .wrap ∧ j.holdOff = true then
    appendWrap { j with policy := .wrap, holdOff := false, discards := 0 } (Record.resumed st j.discards)
  else { j with policy := p }

theorem Wf.underPolicy (h : j.Wf) (p : Policy) (st : Stamp) : (j.underPolicy p st).Wf := by
  unfold Journal.underPolicy
  split
  · have cleared : ({ j with policy := .wrap, holdOff := false, discards := 0 } : Journal).Wf :=
      { h.resuming with wrapClear := fun _ => rfl }
    exact cleared.appendWrap _
  · next stays =>
    refine { h with wrapClear := fun wrap => ?_ }
    have wrap : p = .wrap := wrap
    cases hj : j.policy with
    | wrap => exact h.wrapClear hj
    | hold => exact Bool.eq_false_iff.2 fun off => stays ⟨hj, wrap, off⟩

end Journal

@[simp] theorem journal_setPolicy (d : Device) (p : Policy) : (d.setPolicy p).journal = d.journal.underPolicy p d.now := by
  unfold Device.setPolicy Journal.underPolicy
  dsimp only
  split
  · rw [journal_setJournal, journal_recordArrives, journal_setJournal, now_setJournal, Journal.arrive, Journal.appendWrap,
      Journal.appendWrap]
    dsimp only
    split <;> rfl
  · rfl

theorem takeRecords_eq_append (count budget : Nat) (records : List Stored) :
    records = (takeRecords count budget records).1 ++ (takeRecords count budget records).2 := by
  induction count generalizing budget records with
  | zero => rfl
  | succ count ih =>
    cases records with
    | nil => rfl
    | cons r rest =>
      unfold takeRecords
      split
      · exact congrArg (r :: ·) (ih _ rest)
      · rfl

/-! ### What the device's work keeps of the journal -/

/-- The work keeps the journal's form. -/
def Device.JournalKept (d d' : Device) : Prop := d.journal.Wf → d'.journal.Wf

namespace Device.JournalKept

theorem of_eq {d d' : Device} (h : d'.journal = d.journal) : d.JournalKept d' := fun wf => h ▸ wf

theorem refl (d : Device) : d.JournalKept d := id

theorem trans {a b c : Device} (h : a.JournalKept b) (k : b.JournalKept c) : a.JournalKept c := fun wf => k (h wf)

theorem settle {d d' : Device} (b : Device) (h : d.JournalKept d') : d.JournalKept (Device.settle b d') :=
  h.trans (of_eq (journal_settle b d'))

theorem laneStep {n : LaneNo} {d d' : Device} (h : Device.LaneStep n d d') : d.JournalKept d' := of_eq h.journal

theorem recordArrives (d : Device) (r : Record) : d.JournalKept (d.recordArrives r) := by
  intro wf
  rw [journal_recordArrives]
  exact wf.arrive r

theorem arrivals (sent : List Sent) (d : Device) : d.JournalKept (sent.foldl (fun d x => d.recordArrives x.record) d) := by
  induction sent generalizing d with
  | nil => exact refl d
  | cons x rest ih => exact (recordArrives d x.record).trans (ih _)

theorem arriveFirst (d : Device) (first : Sent → Bool) : d.JournalKept (d.arriveFirst first) :=
  arrivals (splitSent first d.inFlight).1 { d with inFlight := (splitSent first d.inFlight).2 }

theorem resetRequest (d : Device) : d.JournalKept d.resetRequest :=
  (of_eq rfl : d.JournalKept d.resetBlocks).trans (recordArrives _ _)

theorem request {own : Device → Device × Answer} {d : Device} (code tag : Byte)
    (h : d.frameEnds.JournalKept (own d.frameEnds).1) : d.JournalKept (d.request code tag own) := by
  unfold Device.request
  split
  · exact of_eq rfl
  · exact h

theorem asRequest {own : Device → Device × Answer} {d : Device} (h : d.JournalKept (own d).1) :
    d.JournalKept (asRequest own d).1 := h.settle d

/-! ### Operations on lanes and time -/

theorem maskRequest {f : LaneNo → Device → Device × Status} (h : ∀ n d, Device.LaneStep n d (f n d).1) (mask : Byte)
    (d : Device) : d.JournalKept (Device.maskRequest f mask d).1 := by
  have fold (ns : List LaneNo) (d : Device) : d.JournalKept (Device.onLanes f ns d).1 := by
    induction ns generalizing d with
    | nil => exact refl d
    | cons n ns ih => exact (laneStep (h n d)).trans (ih _)
  unfold Device.maskRequest
  split
  · exact fold _ d
  · exact refl d

theorem maskOnly (a : LaneAction) (params : List Byte) (d : Device) : d.JournalKept (maskOnly a params d).1 := by
  unfold Machine.maskOnly
  split
  · exact maskRequest (fun n d => .laneAction n d a .host d.now) _ d
  · exact refl d

theorem laneRequest {take : LaneNo → Device → Device × Answer} (params : List Byte) (d : Device)
    (h : ∀ n, Device.LaneStep n d (take n d).1) : d.JournalKept (laneRequest params take d).1 := by
  unfold Machine.laneRequest
  repeat' split
  · exact laneStep (h _)
  all_goals exact refl d

theorem setTime (d : Device) (x : Setting) : d.JournalKept (d.setTime x) := by
  have whole := setTime_onto d d x
  rw [show d.onto d = d from rfl] at whole
  rw [whole]
  exact of_eq rfl

theorem setRun (d : Device) (r : RunState) (k : Kind) : d.JournalKept (d.setRun r k) := by
  unfold Device.setRun
  split <;> exact of_eq rfl

/-! ### The table's work (06 R122, R128) -/

theorem noteRefusal (d : Device) (e : EntryNo) (place target : Nat) (st : Stamp) (status : Status) :
    d.JournalKept (d.noteRefusal e place target st status) := by
  unfold Device.noteRefusal
  split <;> exact of_eq rfl

theorem noteFire (d : Device) (e : EntryNo) (st : Stamp) : d.JournalKept (d.noteFire e st) := by
  unfold Device.noteFire
  repeat' split
  all_goals exact of_eq rfl

theorem tableOp (d : Device) (st : Stamp) (op : TableOp) (rest : List TableOp) : d.JournalKept (d.tableOp st op rest).1 := by
  have entrySet (f : EntryNo) (x : Entry) : d.JournalKept (d.setEntry f x) := of_eq rfl
  cases op with
  | turn e =>
    simp only [Device.tableOp]
    split
    · exact (entrySet e _).trans (noteFire _ e st)
    · exact refl d
  | onLane e place a n => exact (laneStep (.laneAction n d a .schedule st)).trans (noteRefusal _ e place n.val st _)
  | mark e tag => exact (arriveFirst d _).trans (recordArrives _ _)
  | arm e place target => exact (entrySet target _).trans (noteRefusal _ e place target.val st _)
  | disarm e place target => exact (entrySet target _).trans (noteRefusal _ e place target.val st _)

theorem tableOps (st : Stamp) (k : Nat) (d : Device) (ops : List TableOp) : d.JournalKept (Device.tableOps st k d ops).1 := by
  induction k generalizing d ops with
  | zero => exact refl d
  | succ k ih =>
    cases ops with
    | nil => exact refl d
    | cons op rest => exact (tableOp d st op rest).trans (ih _ _)

theorem runTable (d : Device) (share : Option Nat) : d.JournalKept (d.runTable share) := by
  unfold Device.runTable
  split
  · exact refl d
  · next w _ => exact tableOps w.stamp _ { d with events := w.event } w.ops

theorem tableEvent (d : Device) (share : Option Nat) {take : Device → Option Device}
    (h : ∀ d', take d = some d' → d'.journal = d.journal) : d.JournalKept (d.tableEvent share take) := by
  unfold Device.tableEvent
  split
  · exact runTable d share
  · split
    · exact refl d
    · next d' hd => exact (of_eq (h d' hd)).trans (runTable d' share)

theorem expire (d : Device) (e : EntryNo) : d.JournalKept (d.expire e) := by
  unfold Device.expire
  repeat' split
  · exact runTable d _
  all_goals exact refl d

theorem entryRequest {take : EntryNo → Device → Device × Answer} (h : ∀ e d, (take e d).1.journal = d.journal)
    (params : List Byte) (d : Device) : d.JournalKept (entryRequest params take d).1 := by
  unfold Machine.entryRequest
  repeat' split
  · exact (runTable d none).trans (of_eq (h _ _))
  all_goals exact refl d

end Device.JournalKept

theorem journal_beginEvent (d : Device) (ev : TableEvent) (st : Stamp) : (d.beginEvent ev st).journal = d.journal := by
  unfold Device.beginEvent
  dsimp only
  split <;> rfl

theorem journal_takeSecond {d d' : Device} (h : d.takeSecond = some d') : d'.journal = d.journal := by
  unfold Device.takeSecond at h
  split at h <;> cases h
  exact journal_beginEvent _ _ _

theorem journal_takeMinute {d d' : Device} (h : d.takeMinute = some d') : d'.journal = d.journal := by
  unfold Device.takeMinute at h
  split at h <;> cases h
  exact journal_beginEvent _ _ _

theorem journal_takeFine {d d' : Device} (h : d.takeFine = some d') : d'.journal = d.journal := by
  unfold Device.takeFine at h
  split at h <;> cases h
  exact journal_beginEvent _ _ _

theorem journal_takeEdge {d d' : Device} (p : Pin) (h : d.takeEdge p = some d') : d'.journal = d.journal := by
  unfold Device.takeEdge at h
  split at h <;> cases h
  exact journal_beginEvent _ _ _

theorem journal_moveEntry (f : Entry → Entry × Status) (e : EntryNo) (d : Device) : (moveEntry f e d).1.journal = d.journal := by
  unfold moveEntry
  dsimp only
  split <;> rfl

/-! ### The owners of the requests (10 R183) -/

/-- The owners that neither write a record, nor let one arrive, nor touch the journal. -/
def journalBystanders : List (List Byte → Device → Device × Answer) :=
  [ownDeviceInfo, ownReset, ownAttention, ownAttentionConfig, ownExtConfig, ownPatternSet, ownPatternGet, ownTimeGet,
    ownLaneStatus, ownProfileSet, ownProfileGet, ownIntervalTake, ownJournalStatus, ownCaptureStatus]

theorem journal_bystander {own : List Byte → Device → Device × Answer} (h : own ∈ journalBystanders) (params : List Byte)
    (d : Device) : (own params d).1.journal = d.journal := by
  simp only [journalBystanders, List.mem_cons, List.not_mem_nil, or_false] at h
  obtain rfl | rfl | rfl | rfl | rfl | rfl | rfl | rfl | rfl | rfl | rfl | rfl | rfl | rfl := h
  all_goals
    simp only [ownDeviceInfo, ownReset, ownAttention, ownAttentionConfig, ownExtConfig, ownPatternSet, ownPatternGet, ownTimeGet,
      ownLaneStatus, laneRequest, ownProfileSet, Device.setProfile, ownProfileGet, ownIntervalTake, ownJournalStatus,
      ownCaptureStatus]
    repeat' split
    all_goals rfl

namespace Device.JournalKept

section
variable (params : List Byte) (d : Device)

theorem ownTimeSet : d.JournalKept (ownTimeSet params d).1 := by
  unfold Machine.ownTimeSet
  apply asRequest
  repeat' split
  · exact refl d
  · exact refl d
  · exact setTime d _
  · exact refl d

theorem ownTimeStop : d.JournalKept (ownTimeStop params d).1 := by
  unfold Machine.ownTimeStop
  apply asRequest
  split
  · exact setRun d _ _
  · exact refl d

theorem ownTimeRun : d.JournalKept (ownTimeRun params d).1 := by
  unfold Machine.ownTimeRun
  apply asRequest
  split
  · exact setRun d _ _
  · exact refl d

theorem ownPageSwap : d.JournalKept (ownPageSwap params d).1 := by
  unfold Machine.ownPageSwap
  apply asRequest
  repeat' split
  · exact maskRequest (fun n d => .armSwap n d d.now) _ d
  · exact maskRequest (fun n d => .cancelSwap n d) _ d
  all_goals exact refl d

theorem ownEntrySet : d.JournalKept (ownEntrySet params d).1 := by
  have defined (d : Device) (e : EntryNo) (df : Definition) : d.JournalKept (d.defineEntry e df).1 := by
    unfold Device.defineEntry
    split <;> exact of_eq rfl
  unfold Machine.ownEntrySet
  repeat' split
  · exact (runTable d none).trans (defined _ _ _)
  all_goals exact refl d

/-- JOURNAL TAKE leaves the newest records (04 R84). -/
theorem ownJournalTake : d.JournalKept (ownJournalTake params d).1 := by
  have taken (count : Nat) : d.JournalKept (d.takeJournal count).1 :=
    fun wf => wf.leaving ⟨_, (takeRecords_eq_append count Config.takeBudget d.journal.records).symm⟩
  unfold Machine.ownJournalTake asEvent
  apply settle
  repeat' split
  · exact taken _
  all_goals exact refl d

/-- JOURNAL CONFIG takes a threshold in range alone (04 R81). -/
theorem ownJournalConfig : d.JournalKept (ownJournalConfig params d).1 := by
  have configured (p : Policy) {byte threshold : Nat} (h : inRange 1 64 byte = some threshold) :
      d.JournalKept (d.configJournal p threshold).1 := by
    intro wf
    unfold inRange at h
    split at h
    · next range =>
      cases h
      rw [Device.configJournal, journal_setPolicy]
      have set : ({ d.journal with threshold := byte } : Journal).Wf := { wf with threshold := range }
      exact set.underPolicy p _
    · cases h
  unfold Machine.ownJournalConfig
  repeat' split
  · next h => exact configured _ h
  all_goals exact refl d

theorem ownJournalMark : d.JournalKept (ownJournalMark params d).1 := by
  unfold Machine.ownJournalMark
  split
  · exact (arriveFirst d _).trans (recordArrives _ _)
  · exact refl d

theorem ownCaptureTake : d.JournalKept (ownCaptureTake params d).1 := by
  unfold Machine.ownCaptureTake
  apply asRequest
  repeat' split
  · unfold Device.takeCapture
    split
    · exact of_eq (Device.LaneStep.grantTest 0 _).journal
    all_goals exact refl d
  all_goals exact refl d

end

/-- Each owner keeps the journal's form. -/
theorem owner : ∀ p ∈ requestOwners, ∀ (params : List Byte) (d : Device), d.JournalKept (p.2 params d).1 := by
  intro p hp params d
  have passes {own : List Byte → Device → Device × Answer} (h : own ∈ journalBystanders) : d.JournalKept (own params d).1 :=
    of_eq (journal_bystander h params d)
  simp only [requestOwners, List.mem_append, List.mem_cons, List.not_mem_nil, or_false] at hp
  obtain ((device | lane) | table) | rest := hp
  · obtain rfl | rfl | rfl | rfl | rfl | rfl | rfl | rfl | rfl | rfl | rfl := device
    iterate 8 exact passes (by simp [journalBystanders])
    · exact ownTimeSet params d
    · exact ownTimeStop params d
    · exact ownTimeRun params d
  · obtain rfl | rfl | rfl | rfl | rfl | rfl | rfl | rfl | rfl | rfl | rfl := lane
    · exact asRequest (laneRequest params d fun n => .startLane n d _)
    · exact asRequest (laneRequest params d fun n => .stopLane n d _)
    · exact passes (by simp [journalBystanders])
    · exact passes (by simp [journalBystanders])
    · exact passes (by simp [journalBystanders])
    · exact ownPageSwap params d
    · exact asRequest (maskOnly .close params d)
    · exact passes (by simp [journalBystanders])
    · exact asRequest (maskOnly .testStart params d)
    · exact asRequest (maskOnly .testStop params d)
    · exact asRequest (maskOnly .insert params d)
  · obtain rfl | rfl | rfl | rfl | rfl | rfl | rfl := table
    · exact ownEntrySet params d
    · exact entryRequest (fun _ _ => rfl) params d
    all_goals exact entryRequest (journal_moveEntry _) params d
  · obtain rfl | rfl | rfl | rfl | rfl | rfl | rfl | rfl := rest
    · exact ownJournalTake params d
    · exact passes (by simp [journalBystanders])
    · exact ownJournalConfig params d
    · exact ownJournalMark params d
    · exact asRequest (maskOnly .capture params d)
    · exact passes (by simp [journalBystanders])
    · exact ownCaptureTake params d
    · exact asRequest (laneRequest params d fun n => laneStep_abortCapture d n)

theorem requestOwner (code : Byte) (params : List Byte) (d : Device) : d.JournalKept (requestOwner code params d).1 := by
  unfold Machine.requestOwner
  cases h : requestOwners.lookup code with
  | none => exact refl d
  | some own =>
    obtain ⟨before, after, owners, -⟩ := List.lookup_eq_some_iff.1 h
    exact owner (code, own) (by rw [owners]; simp) params d

/-! ### Commands that are no requests -/

/-- A frame's last character hands the frame to the owner of its code (10 R178, R180). -/
theorem crxCharacter {b : Byte} {good : Bool} {s t : State} (h : exec (.crxCharacter b good) s = .next t) :
    s.dev.JournalKept t.dev := by
  have done (bytes : List Byte) (d : Device) : d.JournalKept (d.frameDone bytes b) := by
    unfold Device.frameDone
    repeat' split
    case h_1 tag code params _ => exact request code tag (requestOwner code params d.frameEnds)
    all_goals exact of_eq rfl
  have inFrame (bytes : List Byte) (d : Device) : d.JournalKept (d.frameByte bytes b) := by
    unfold Device.frameByte
    repeat' split
    · exact of_eq rfl
    · exact of_eq rfl
    · exact done _ d
    · exact of_eq rfl
  cases h
  dsimp only
  repeat' split
  · exact of_eq rfl
  · exact refl s.dev
  · exact inFrame _ s.dev
  · exact of_eq rfl

theorem event {c : Instr} (hc : c.request? = none) {s t : State} (h : exec c s = .next t) : s.dev.JournalKept t.dev := by
  cases c with
  | powerOnReset => cases h; exact fun _ => Journal.restarted_wf _ 1
  | resetPin => cases h; exact fun _ => Journal.restarted_wf _ 2
  | resetTakesEffect =>
    cases h
    dsimp only
    repeat' split
    · exact refl s.dev
    · exact resetRequest s.dev
    · exact refl s.dev
  | replySent =>
    cases h
    dsimp only
    unfold Device.replyEnds
    repeat' split
    · exact refl s.dev
    · exact resetRequest s.dev
    · exact of_eq rfl
  | badFrame cause =>
    cases h
    dsimp only
    repeat' split
    all_goals exact of_eq rfl
  | frameGapTimeout =>
    cases h
    dsimp only
    split <;> exact of_eq rfl
  | crxCharacter b good => exact crxCharacter h
  | cellArrival n x =>
    cases h
    dsimp only
    split
    · exact (laneStep (.takeCell n s.dev x _)).settle _
    · exact refl s.dev
  | transmitCell n =>
    cases h
    have sent : s.dev.JournalKept (Device.settle s.dev (s.dev.transmit n s.dev.now)) := (laneStep (.transmit n s.dev _)).settle _
    dsimp only
    repeat' split
    · exact sent.trans ((laneStep (.takeCell n _ _ _)).settle _)
    · exact sent
    · exact refl s.dev
  | driverFault n level =>
    cases h
    dsimp only
    split
    · exact (laneStep ((Device.LaneStep.modLane n s.dev _).trans (.takeFault n _ _))).settle _
    · exact of_eq rfl
  | secondArrival n =>
    cases h
    dsimp only
    split
    · exact refl s.dev
    · exact (laneStep ((Device.LaneStep.modLane n s.dev _).trans (.boundary n _ _))).settle _
  | fineTick =>
    cases h
    dsimp only
    unfold Device.fineTick
    dsimp only
    repeat' split
    all_goals exact of_eq rfl
  | filterSample e0 e1 =>
    cases h
    dsimp only
    unfold Device.sample
    split <;> exact of_eq rfl
  | extEdge p =>
    cases h
    refine settle _ ?_
    unfold Device.noteEdge
    dsimp only
    repeat' split
    all_goals exact of_eq rfl
  | oscFault =>
    cases h
    refine settle _ ?_
    unfold Device.detectFault
    split <;> exact of_eq rfl
  | oscResumed =>
    cases h
    refine settle _ ?_
    unfold Device.recover
    split <;> exact of_eq rfl
  | oscMeasureRestart => cases h; exact of_eq rfl
  | crystalCycleSeen =>
    cases h
    dsimp only
    split <;> exact of_eq rfl
  | scheduleSecondArrival share => cases h; exact tableEvent s.dev share fun _ => journal_takeSecond
  | minuteArrival share => cases h; exact tableEvent s.dev share fun _ => journal_takeMinute
  | scheduleFineTick share => cases h; exact tableEvent s.dev share fun _ => journal_takeFine
  | scheduleEdge p share => cases h; exact tableEvent s.dev share fun _ => journal_takeEdge p
  | countdownExpiry e => cases h; exact expire s.dev e
  | recordArrival place =>
    cases h
    dsimp only
    split
    · exact refl s.dev
    · next r rest _ => exact recordArrives { s.dev with inFlight := rest } r
  | conditionChange cond =>
    cases h
    dsimp only
    split <;> exact of_eq rfl
  | _ => cases hc

theorem exec {c : Instr} {s t : State} (h : exec c s = .next t) : s.dev.JournalKept t.dev := by
  cases hc : c.request? with
  | none => exact event hc h
  | some r =>
    obtain ⟨code, tag, params⟩ := r
    obtain idle | ran := exec_of_request? hc s
    · cases idle.symm.trans h
      exact refl s.dev
    · cases ran.symm.trans h
      exact request code tag (requestOwner code params s.dev.frameEnds)

end Device.JournalKept

/-- Settles O58: no command's work takes the journal out of its form, and a step runs one command or none. -/
theorem journalKeepsItsForm : Obligations.JournalKeepsItsForm := by
  intro s t wf h
  unfold step at h
  split at h
  · cases h; exact wf
  · exact Device.JournalKept.exec h wf

end Sys2Proof.Machine
end

