-- ==== Sys2Proof/Proofs/JournalResets.lean ====
section
namespace Sys2Proof.Machine

open Sys2Proof

/-! ### The journal after a reset (04 R89, R90) -/

/-- A journal emptied and started again holds RESTART alone, below its threshold (04 R89). -/
theorem restarted_eq (st : Stamp) (cause : Nat) :
    Journal.restarted st cause = ⟨[⟨1, ⟨st, .device, .restart, cause, none⟩⟩], 2, .wrap, 48, false, 0⟩ := rfl

theorem level_restarted (st : Stamp) (cause : Nat) : (Journal.restarted st cause).level = false := rfl

/-- A reset request keeps the timebase, and RESTART with the stamp after it arrives at the journal held (04 R90). -/
theorem resetRequest_takes (d : Device) :
    d.resetRequest.now = d.now ∧ d.journal.Takes ⟨d.now, .device, .restart, 3, none⟩ d.resetRequest.journal :=
  ⟨now_recordArrives d.resetBlocks _, recordArrives_takes d.resetBlocks _⟩

/-- Settles O5: the two resets that empty the journal start it again, the reset request keeps it. -/
theorem resetsWriteRestart : Obligations.ResetsWriteRestart := by
  exact ⟨fun r1 r0 s => ⟨⟨_, rfl, restarted_eq _ 1, level_restarted _ 1⟩,
      ⟨_, rfl, restarted_eq s.dev.now 2, rfl, level_restarted _ 2⟩⟩,
    fun s h => ⟨_, exec_resetTakesEffect_of_resetting h, resetRequest_takes s.dev⟩⟩

end Sys2Proof.Machine
end

