-- ==== Sys2Proof/Proofs/JournalTake.lean ====
section
namespace Sys2Proof.Machine

open Sys2Proof

/-! ### The image of a journal record (10 R182, R184) -/

theorem stampImage_eq (st : Stamp) : st.image =
    [byte st.time.year, byte st.time.month, byte st.time.day, byte st.time.hour, byte st.time.minute, byte st.time.second] ++
      le16 (st.fraction + (if st.held then 16384 else 0) + (if st.timeValid then 32768 else 0)) := rfl

/-! ### The records a take removes (04 R83, R84) -/

/-- A take removes no more records than asked for, within its budget of bytes, and leaves one behind only where it has as many as
asked for or the next does not fit (04 R84). -/
theorem takeRecords_stops (count budget : Nat) (records : List Stored) : let split := takeRecords count budget records
    split.1.length ≤ count ∧ (split.1.map Stored.size).sum ≤ budget ∧
      (split.1.length < count → ∀ r rest, split.2 = r :: rest → budget < (split.1.map Stored.size).sum + r.size) := by
  induction count generalizing budget records with
  | zero => exact ⟨le_rfl, Nat.zero_le _, fun h => absurd h (lt_irrefl _)⟩
  | succ count ih =>
    cases records with
    | nil => exact ⟨Nat.zero_le _, Nat.zero_le _, fun _ _ _ h => nomatch h⟩
    | cons r rest =>
      unfold takeRecords
      by_cases fits : r.size ≤ budget
      · obtain ⟨few, small, full⟩ := ih (budget - r.size) rest
        rw [if_pos fits]
        refine ⟨Nat.succ_le_succ few, ?_, fun short x xs left => ?_⟩
        · rw [List.map_cons, List.sum_cons]; omega
        · have := full (Nat.lt_of_succ_lt_succ short) x xs left
          rw [List.map_cons, List.sum_cons]; omega
      · rw [if_neg fits]
        refine ⟨Nat.zero_le _, Nat.zero_le _, fun _ x xs left => ?_⟩
        cases left
        rw [List.map_nil, List.sum_nil]; omega

/-- The first record always fits (04 R84). -/
theorem takeRecords_ne_nil {count : Nat} (h : 1 ≤ count) {records : List Stored} (hr : records ≠ []) :
    (takeRecords count Config.takeBudget records).1 ≠ [] := by
  obtain ⟨r, rest, rfl⟩ := List.exists_cons_of_ne_nil hr
  obtain ⟨count, rfl⟩ := Nat.exists_eq_add_of_le' h
  have fits : r.size ≤ Config.takeBudget := by unfold Stored.size Config.takeBudget; split <;> omega
  rw [takeRecords, if_pos fits]
  exact List.cons_ne_nil _ _

/-! ### JOURNAL TAKE (04 R83, R88) -/

/-- Records that leave the journal can make JOURNAL_LEVEL fall, and move no other level (04 R88). -/
theorem changesBetween_leaving (d : Device) {left : List Stored} (h : left.length ≤ d.journal.records.length) :
    changesBetween d { d with journal := { d.journal with records := left } } =
      if d.journal.threshold ≤ d.journal.records.length ∧ left.length < d.journal.threshold then [⟨0, false⟩] else [] := by
  have before : d.level 0 = decide (d.journal.threshold ≤ d.journal.records.length) := rfl
  have after : ({ d.journal with records := left } : Journal).level = decide (d.journal.threshold ≤ left.length) := rfl
  have held : d.level 1 = ({ d.journal with records := left } : Journal).holdOff := rfl
  rw [changesBetween_journal, before, after, if_pos held, List.append_nil]
  by_cases falls : d.journal.threshold ≤ d.journal.records.length ∧ left.length < d.journal.threshold
  · rw [if_pos falls, decide_eq_true falls.1, decide_eq_false (Nat.not_le.2 falls.2), if_neg Bool.noConfusion]
  · rw [if_neg falls, if_pos (decide_eq_decide.2 (by omega))]

/-- An event that writes no record only presents the levels it moves (09 R168). -/
theorem settle_nothingWritten {before after : Device} (h : after.inFlight = before.inFlight) :
    Device.settle before after = Device.present before after := by
  rw [Device.settle, if_pos (congrArg List.length h)]

theorem ownJournalTake_refused {count : Byte} (h : count.toNat < 1 ∨ 15 < count.toNat) (d : Device) :
    ownJournalTake [count] d = (d, .refuse .badValue) := by
  have out : inRange 1 15 count.toNat = none := if_neg (by omega)
  exact asEvent_refused _ _ _ (by simp only [out])

/-- An accepted take: the records gone, the level it moves presented, and the reply (04 R83, R84). -/
theorem ownJournalTake_taken {count : Byte} (low : 1 ≤ count.toNat) (high : count.toNat ≤ 15) (d : Device) :
    let split := takeRecords count.toNat Config.takeBudget d.journal.records
    ownJournalTake [count] d = ({ d with
      journal := { d.journal with records := split.2 }
      attention := { d.attention with changes := d.attention.changes ++
        (if d.journal.threshold ≤ d.journal.records.length ∧ split.2.length < d.journal.threshold then [⟨0, false⟩] else []) } },
      .ok ([byte split.1.length, byte split.2.length] ++ split.1.flatMap Stored.image)) := by
  have ok : inRange 1 15 count.toNat = some count.toNat := if_pos ⟨low, high⟩
  have fewer : (takeRecords count.toNat Config.takeBudget d.journal.records).2.length ≤ d.journal.records.length := by
    have whole := congrArg List.length (takeRecords_eq_append count.toNat Config.takeBudget d.journal.records)
    rw [List.length_append] at whole
    omega
  dsimp only
  rw [← changesBetween_leaving d fewer]
  simp only [ownJournalTake, asEvent, ok, Device.takeJournal, settle_nothingWritten]
  rfl

/-- Settles O45: the images field by field and code by code, the owner's check, and what the take removes and answers. -/
theorem journalTakeRemovesTheOldest : Obligations.JournalTakeRemovesTheOldest := by
  refine ⟨fun _ => ⟨rfl, rfl, rfl, rfl⟩, stampImage_eq, fun r => ?_, by decide,
    fun tag count s hq => ⟨fun h => ?_, fun low high => ?_⟩⟩
  · obtain ⟨seq, st, source, kind, detail, snapshot⟩ := r
    cases snapshot <;> rcases source with _ | _ | _ | (_ | _) | _ | _ | _ | _ <;> rfl
  · exact onDevice_request_refused s hq _ (ownJournalTake_refused h _)
  · obtain ⟨few, small, full⟩ := takeRecords_stops count.toNat Config.takeBudget s.dev.journal.records
    refine ⟨_, _, _, onDevice_request_quiet s hq, takeRecords_eq_append count.toNat Config.takeBudget _, few, small, full,
      takeRecords_ne_nil low, ?_⟩
    rw [dev_withDev, ownJournalTake_taken low high]
    rfl

end Sys2Proof.Machine
end

