-- ==== Sys2Proof/Proofs/JournalConfig.lean ====
section
namespace Sys2Proof.Machine

open Sys2Proof

/-! ### Work on the journal (04 R81, R82, R88) -/

/-- Work that touches the journal alone and presents the levels it moves. -/
structure Device.JournalWork (d d' : Device) : Prop where
  frame : d' = { d with journal := d'.journal, attention := d'.attention }
  conditions : d'.attention.conditions = d.attention.conditions
  changes : d.attention.changes <+: d'.attention.changes

namespace Device.JournalWork

theorem trans {a b c : Device} (h : a.JournalWork b) (k : b.JournalWork c) : a.JournalWork c where
  frame := k.frame.trans (by rw [h.frame])
  conditions := k.conditions.trans h.conditions
  changes := h.changes.trans k.changes

theorem setJournal (d : Device) (j : Journal) : d.JournalWork (d.setJournal j) := ⟨rfl, rfl, List.prefix_append _ _⟩

theorem recordArrives (d : Device) (r : Record) : d.JournalWork (d.recordArrives r) := by
  unfold Device.recordArrives
  split
  · exact (setJournal d _).trans (setJournal _ _)
  · exact setJournal d _

theorem setPolicy (d : Device) (p : Policy) : d.JournalWork (d.setPolicy p) := by
  unfold Device.setPolicy
  dsimp only
  split
  · exact ((setJournal d _).trans (recordArrives _ _)).trans (setJournal _ _)
  · exact setJournal d _

theorem configJournal (d : Device) (p : Policy) (threshold : Nat) : d.JournalWork (d.configJournal p threshold).1 :=
  (setJournal d _).trans (setPolicy _ p)

/-- A request whose owner does work on the journal alone (10 R180). -/
theorem replyWith {d d' : Device} (h : d.frameEnds.JournalWork d') (tag code : Byte) (a : Answer) :
    d'.replyWith tag code a =
      Device.answered { d with journal := d'.journal, attention := d'.attention } tag code a.status a.results :=
  congrArg (·.replyWith tag code a) h.frame

end Device.JournalWork

/-! ### JOURNAL CONFIG and JOURNAL STATUS (04 R81, R82, R86) -/

theorem journal_configJournal (d : Device) (p : Policy) (threshold : Nat) : (d.configJournal p threshold).1.journal =
    ({ d.journal with threshold := threshold } : Journal).underPolicy p d.now := journal_setPolicy _ p

/-- The threshold, then the policy: only a change from HOLD to WRAP in hold-off does more (04 R81, R82). -/
theorem underPolicy_eq (j : Journal) (threshold : Nat) (p : Policy) (st : Stamp) :
    ({ j with threshold := threshold } : Journal).underPolicy p st =
      if j.policy = .hold ∧ p = .wrap ∧ j.holdOff = true then
        { j with
          threshold := threshold, policy := .wrap, holdOff := false, discards := 0, next := nextSeq j.next
          records := (if j.records.length < 64 then j.records else j.records.tail) ++
            [⟨j.next, ⟨st, .journal, .journalResumed, j.discards, none⟩⟩] }
      else { j with threshold := threshold, policy := p } := by
  unfold Journal.underPolicy
  dsimp only
  split
  · by_cases room : j.records.length < 64
    · rw [if_pos room, Journal.appendWrap, if_pos (show _ < Config.journalCapacity from room)]; rfl
    · rw [if_neg room, Journal.appendWrap, if_neg (show ¬ _ < Config.journalCapacity from room)]; rfl
  · rfl

theorem ownJournalConfig_refused {p threshold : Byte} (h : 1 < p.toNat ∨ threshold.toNat < 1 ∨ 64 < threshold.toNat)
    (d : Device) : ownJournalConfig [p, threshold] d = (d, .refuse .badValue) := by
  unfold ownJournalConfig
  obtain h | h := h
  · have unknown : policyOf p = none := by
      unfold policyOf
      rw [if_neg (by rintro rfl; exact absurd h (by decide)), if_neg (by rintro rfl; exact absurd h (by decide))]
    simp only [unknown]
  · have out : inRange 1 64 threshold.toNat = none := if_neg (by omega)
    simp only [out]
    cases policyOf p <;> rfl

theorem policyOf_code (p : Policy) : policyOf p.code = some p := by cases p <;> rfl

theorem ownJournalConfig_taken (p : Policy) {threshold : Byte} (low : 1 ≤ threshold.toNat) (high : threshold.toNat ≤ 64)
    (d : Device) : ownJournalConfig [p.code, threshold] d = d.configJournal p threshold.toNat := by
  have ok : inRange 1 64 threshold.toNat = some threshold.toNat := if_pos ⟨low, high⟩
  simp only [ownJournalConfig, policyOf_code, ok]

/-- The status of the journal, the oldest sequence number 0 where it is empty (04 R86). -/
theorem statusResults_eq (j : Journal) : j.statusResults =
    [byte j.records.length] ++ le32 j.next ++ le32 (match j.records with | [] => 0 | r :: _ => r.seq) ++
      [match j.policy with | .wrap => 0#8 | .hold => 1#8, byte j.threshold, if j.holdOff then 1#8 else 0#8] ++
      le16 j.discards := by
  obtain ⟨records, next, policy, threshold, holdOff, discards⟩ := j
  cases records <;> cases policy <;> rfl

/-- Settles O46: the owner's checks, the journal it leaves and what it presents, and the status read from the journal. -/
theorem journalConfigSetsThresholdAndPolicy : Obligations.JournalConfigSetsThresholdAndPolicy := by
  refine ⟨fun tag p threshold s hq => ⟨fun h => ?_, fun policy hp low high => ?_⟩, fun tag s hq => ?_⟩
  · exact onDevice_request_refused s hq _ (ownJournalConfig_refused h _)
  · obtain rfl : p = policy.code := by rw [hp]; cases policy <;> rfl
    have work := Device.JournalWork.configJournal s.dev.frameEnds policy threshold.toNat
    have journal := (journal_configJournal s.dev.frameEnds policy threshold.toNat).trans (underPolicy_eq _ _ _ _)
    dsimp only
    refine ⟨_, onDevice_request_quiet s hq, ?_⟩
    rw [dev_withDev, ownJournalConfig_taken policy low high]
    refine ⟨journal, work.conditions, work.changes, (work.replyWith tag 0x42#8 _).trans ?_⟩
    rw [Device.configJournal] at journal ⊢
    rw [journal]
    rfl
  · exact onDevice_request_answered s hq _ _ (congrArg (fun r => (s.dev.frameEnds, Answer.ok r)) (statusResults_eq s.dev.journal))

end Sys2Proof.Machine
end

