-- ==== Sys2Proof/Proofs/Fires.lean ====
section
namespace Sys2Proof.Machine

open Sys2Proof

/-! ### The number that the records of one event carry (04 R76; log 1) -/

/-- Work of one event: the number of the event stands, and what it puts on its way carries that number. -/
def Device.OneEvent (d d' : Device) : Prop :=
  d'.events = d.events ∧ ∀ x ∈ d'.inFlight, x ∈ d.inFlight ∨ x.event = d.events

namespace Device.OneEvent

theorem of_subset {d d' : Device} (h : d'.events = d.events) (k : ∀ x ∈ d'.inFlight, x ∈ d.inFlight) : d.OneEvent d' :=
  ⟨h, fun x hx => .inl (k x hx)⟩

theorem of_eq {d d' : Device} (h : d'.events = d.events) (k : d'.inFlight = d.inFlight) : d.OneEvent d' :=
  of_subset h fun _ hx => k ▸ hx

theorem trans {a b c : Device} (h : a.OneEvent b) (k : b.OneEvent c) : a.OneEvent c :=
  ⟨k.1.trans h.1, fun x hx => (k.2 x hx).elim (h.2 x) fun e => .inr (e.trans h.1)⟩

theorem send (d : Device) (r : Record) (ofClose : Bool) : d.OneEvent (d.send r ofClose) :=
  ⟨rfl, fun _ hx => (List.mem_append.1 hx).imp_right fun hx => by rw [List.mem_singleton.1 hx]⟩

theorem laneWork {n : LaneNo} {closing : Prop} {d d' : Device} (w : d.LaneWork n closing d') : d.OneEvent d' := by
  induction w with
  | refl | modLane | capture => exact of_eq rfl rfl
  | trans _ _ first second => exact first.trans second
  | write d r _ => exact send d r false
  | writeClose d st k x _ _ => exact send d _ true

theorem laneAction (d : Device) (a : LaneAction) (n : LaneNo) (o : Origin) (st : Stamp) :
    d.OneEvent (d.laneAction a n o st).1 := by
  by_cases hm : (d.lane n).mode = .off
  · rw [laneAction_off hm]
    split
    · exact send (d.exchangePages n) _ false
    · exact of_eq rfl rfl
  · exact laneWork (.laneAction (closing := True) d st trivial hm a o)

theorem noteRefusal (d : Device) (e : EntryNo) (place target : Nat) (st : Stamp) (status : Status) :
    d.OneEvent (d.noteRefusal e place target st status) := by
  unfold Device.noteRefusal
  split
  · exact of_eq rfl rfl
  · exact send d _ false

theorem noteFire (d : Device) (e : EntryNo) (st : Stamp) : d.OneEvent (d.noteFire e st) := by
  unfold Device.noteFire
  split
  · exact of_eq rfl rfl
  · split
    · exact send d _ false
    · exact of_eq rfl rfl

/-- A MARK action takes records off their way and puts none on it (06 R128). -/
theorem markAction (d : Device) (e : EntryNo) (tag : Byte) (st : Stamp) : d.OneEvent (d.markAction e tag st) := by
  rw [markAction_frame]
  exact of_subset rfl (splitSent_sublist _ d.inFlight).2.subset

theorem tableOp (d : Device) (st : Stamp) (op : TableOp) (rest : List TableOp) : d.OneEvent (d.tableOp st op rest).1 := by
  have entrySet (f : EntryNo) (x : Entry) : d.OneEvent (d.setEntry f x) := of_eq rfl rfl
  cases op with
  | turn e =>
    simp only [Device.tableOp]
    split
    · exact (entrySet e _).trans (noteFire _ e st)
    · exact of_eq rfl rfl
  | onLane e place a n => exact (laneAction d a n .schedule st).trans (noteRefusal _ e place n.val st _)
  | mark e tag => exact markAction d e tag st
  | arm e place target => exact (entrySet target _).trans (noteRefusal _ e place target.val st _)
  | disarm e place target => exact (entrySet target _).trans (noteRefusal _ e place target.val st _)

theorem tableOps (st : Stamp) (k : Nat) (d : Device) (ops : List TableOp) : d.OneEvent (Device.tableOps st k d ops).1 := by
  induction k generalizing d ops with
  | zero => exact of_eq rfl rfl
  | succ k ih =>
    cases ops with
    | nil => exact of_eq rfl rfl
    | cons op rest => exact (tableOp d st op rest).trans (ih _ _)

end Device.OneEvent

/-! ### The work on an event (06 R122, R128, R129) -/

theorem runTable_none {d : Device} (h : d.schedule.work = none) (share : Option Nat) : d.runTable share = d := by
  rw [Device.runTable, h]

theorem runTable_some {d : Device} {w : Work} (h : d.schedule.work = some w) (share : Option Nat) :
    let done := Device.tableOps w.stamp (share.getD (d.stepsLeft w.ops)) { d with events := w.event } w.ops
    d.runTable share = { done.1 with
      events := d.events
      schedule := { done.1.schedule with work := if done.2 = [] then none else some { w with ops := done.2 } } } := by
  rw [Device.runTable, h]
  simp only [List.isEmpty_iff]

theorem actionOps_cons (e : EntryNo) (place : Nat) (a : Action) (rest : List Action) :
    actionOps e place (a :: rest) = (match a with
      | .onLanes b mask => (([0, 1, 2, 3] : List LaneNo).filter fun n => mask.getLsbD n.val).map fun n => .onLane e place b n
      | .mark tag => [.mark e tag]
      | .arm f => [.arm e place f]
      | .disarm f => [.disarm e place f]) ++ actionOps e (place + 1) rest := by
  cases a <;> rfl

/-! ### One step (06 R122, R128 to R131) -/

section
variable (d : Device) (st : Stamp) (e : EntryNo) (rest : List TableOp)

/-- The turn of an entry that is still due: it settles, its fire is noted, and its actions come next (06 R128). -/
theorem tableOp_turn_due {df : Definition} {r : Nat} (h : d.entry e = .held .armed df r) (due : df.isCountdown = true → r = 0) :
    d.tableOp st (.turn e) rest =
      (if df.journalFire then
          (d.setEntry e (Entry.held .armed df r).settled).writePlain (.schedule e) st .scheduleFired df.kind.fireCause
        else d.setEntry e (Entry.held .armed df r).settled, actionOps e 0 df.actions ++ rest) := by
  have stillDue : (d.entry e).stillDue = true := by
    rw [h, Entry.stillDue, Bool.or_eq_true, Bool.not_eq_true', decide_eq_true_eq]
    exact (Bool.eq_false_or_eq_true df.isCountdown).elim (fun c => .inr (due c)) .inl
  have fired : (d.setEntry e (Entry.held .armed df r).settled).noteFire e st =
      if df.journalFire then
        (d.setEntry e (Entry.held .armed df r).settled).writePlain (.schedule e) st .scheduleFired df.kind.fireCause
      else d.setEntry e (Entry.held .armed df r).settled := by
    rw [Device.noteFire, entry_setEntry_same, Entry.settled]
    cases df.repeats <;> rfl
  simp only [Device.tableOp, if_pos stillDue]
  rw [h, fired]
  rfl

/-- An entry that is no longer due loses its turn (06 R122). -/
theorem tableOp_turn_lost (h : ∀ df r, d.entry e = .held .armed df r → df.isCountdown = true ∧ r ≠ 0) :
    d.tableOp st (.turn e) rest = (d, rest) := by
  have notDue : ¬ (d.entry e).stillDue = true := by
    cases he : d.entry e with
    | empty => exact Bool.false_ne_true
    | held state df r =>
      cases state with
      | armed =>
        obtain ⟨countdown, left⟩ := h df r he
        simp [Entry.stillDue, countdown, left]
      | idle | paused => exact Bool.false_ne_true
  simp only [Device.tableOp, if_neg notDue]

/-- An action at a lane: its owner takes it and presents what it moves, or refuses it and does nothing (06 R129, R130). -/
theorem tableOp_onLane (place : Nat) (a : LaneAction) (n : LaneNo) : let owner := d.laneAction a n .schedule st
    d.tableOp st (.onLane e place a n) rest = (if owner.2 = .ok then Device.present d owner.1 else
      d.writePlain (.schedule e) st .actionRefused (owner.2.code.toNat + 256 * n.val + 4096 * place), rest) := by
  have moveless (x : Nat) : Device.present d (d.writePlain (.schedule e) st .actionRefused x) =
      d.writePlain (.schedule e) st .actionRefused x := present_levels fun _ => rfl
  simp only [Device.tableOp, Device.noteRefusal]
  split
  · rfl
  · next refused => rw [laneAction_refused d a n .schedule st refused, moveless, refusedDetail]

theorem setEntry_self {f : EntryNo} {x : Entry} (h : d.entry f = x) : d.setEntry f x = d := by
  subst h
  unfold Device.setEntry Device.entry
  rw [Vector.set_getElem_self]

/-- ARM and DISARM of an EMPTY entry are refused with NO_ENTRY (06 R118, R119, R130). -/
theorem tableOp_empty {f : EntryNo} (h : d.entry f = .empty) (place : Nat) :
    let refused := d.writePlain (.schedule e) st .actionRefused (0x0B + 256 * f.val + 4096 * place)
    d.tableOp st (.arm e place f) rest = (refused, rest) ∧ (d.tableOp st (.disarm e place f) rest).1 = refused := by
  simp only [Device.tableOp, h, Entry.arm, Entry.disarm, setEntry_self d h]
  exact ⟨rfl, rfl⟩

/-- ARM and DISARM of an entry that holds a definition, and the turn that DISARM takes away (06 R118, R119, R122, R131). -/
theorem tableOp_held {f : EntryNo} {state : EntryState} {df : Definition} {r : Nat} (h : d.entry f = .held state df r)
    (place : Nat) :
    d.tableOp st (.arm e place f) rest = (d.setEntry f (.held .armed df (df.loaded r)), rest) ∧
    d.tableOp st (.disarm e place f) rest =
      (d.setEntry f (.held .idle df r), rest.filter fun o => decide (o ≠ .turn f)) := by
  simp only [Device.tableOp, h]
  exact ⟨rfl, rfl⟩

end

/-- Settles O42: the work as its steps, the steps of an action list, and each kind of step. -/
theorem aFireSettlesThenActs : Obligations.AFireSettlesThenActs := by
  refine ⟨fun d share => ⟨fun h => runTable_none h share, fun w h => ?_⟩,
    fun e place a rest => ⟨rfl, actionOps_cons e place a rest⟩, fun d st k op rest => ⟨rfl, tableOps_nil st k d, rfl⟩,
    fun d st e rest => ⟨fun df r he due => ?_, tableOp_turn_lost d st e rest, tableOp_onLane d st e rest, fun tag => rfl,
      fun place f he => tableOp_empty d st e rest he place, fun place f state df r he => ?_⟩⟩
  · refine ⟨runTable_some h share, (Device.OneEvent.tableOps w.stamp _ { d with events := w.event } w.ops).2, ?_⟩
    rintro rfl
    exact tableOps_completes w.stamp _ { d with events := w.event } w.ops (le_of_eq (stepsLeft_congr (fun _ => rfl) w.ops))
  · obtain ⟨kind, repeats, journalFire, actions⟩ := df
    cases kind <;> exact tableOp_turn_due d st e rest he due
  · obtain ⟨kind, repeats, journalFire, actions⟩ := df
    cases kind <;> exact tableOp_held d st e rest he place

end Sys2Proof.Machine
end

