-- ==== Sys2Proof/Proofs/Calendar.lean ====
section
namespace Sys2Proof.Machine

open Sys2Proof

/-! ### The carry of the second (05 R94 to R96) -/

theorem beforeLeap_iff (t : Timebase) : t.beforeLeap = true ↔
    t.leapPending = true ∧ t.time.hour = 23 ∧ t.time.minute = 59 ∧ t.time.second = 59 := by
  simp only [Timebase.beforeLeap, Bool.and_eq_true, decide_eq_true_eq, and_assoc]

theorem carrySecond_leap {t : Timebase} (h : t.beforeLeap = true) :
    t.carrySecond = ({ t with time := { t.time with second := 60 }, leapPending := false }, false) := if_pos h

theorem carrySecond_within {t : Timebase} (h : t.time.second < 59) :
    t.carrySecond = ({ t with time := { t.time with second := t.time.second + 1 } }, false) := by
  have noLeap : ¬ t.beforeLeap = true := fun leap => by
    obtain ⟨-, -, -, at59⟩ := (beforeLeap_iff t).1 leap
    omega
  rw [Timebase.carrySecond, if_neg noLeap, if_pos h]

theorem carrySecond_minute {t : Timebase} (h : ¬ t.beforeLeap = true) (hs : 59 ≤ t.time.second) :
    t.carrySecond = (Timebase.carryMinute { t with time := { t.time with second := 0 } }, true) := by
  rw [Timebase.carrySecond, if_neg h, if_neg (Nat.not_lt.2 hs)]

theorem carryMinute_within {t : Timebase} (h : t.time.minute < 59) :
    t.carryMinute = { t with time := { t.time with minute := t.time.minute + 1 } } := if_pos h

theorem carryMinute_hour {t : Timebase} (h : 59 ≤ t.time.minute) (hh : t.time.hour < 23) :
    t.carryMinute = { t with time := { t.time with minute := 0, hour := t.time.hour + 1 } } := by
  rw [Timebase.carryMinute, if_neg (Nat.not_lt.2 h), if_pos hh]

theorem carryMinute_day {t : Timebase} (h : 59 ≤ t.time.minute) (hh : 23 ≤ t.time.hour) :
    t.carryMinute = { t with
      time := CalTime.nextDay { t.time with minute := 0, hour := 0 }
      weekday := if t.weekday < 6 then t.weekday + 1 else 0 } := by
  rw [Timebase.carryMinute, if_neg (Nat.not_lt.2 h), if_neg (Nat.not_lt.2 hh)]

/-- The carry of the minute moves the calendar time and the weekday alone (05 R94). -/
theorem carryMinute_frame (t : Timebase) :
    t.carryMinute = { t with time := t.carryMinute.time, weekday := t.carryMinute.weekday } := by
  unfold Timebase.carryMinute
  repeat' split
  all_goals rfl

/-! ### The day after (05 R94, R95) -/

theorem monthLength_eq (year month : Nat) : monthLength year month =
    if month = 2 then (if year % 4 = 0 then 29 else 28) else if month ∈ [4, 6, 9, 11] then 30 else 31 := by
  simp only [monthLength, List.mem_cons, List.not_mem_nil, or_false]

theorem one_le_monthLength (year month : Nat) : 1 ≤ monthLength year month := by
  unfold monthLength
  repeat' split
  all_goals decide

theorem nextDay_within {t : CalTime} (h : t.day < monthLength t.year t.month) : t.nextDay = { t with day := t.day + 1 } :=
  if_pos h

theorem nextDay_month {t : CalTime} (h : monthLength t.year t.month ≤ t.day) (hm : t.month < 12) :
    t.nextDay = { t with day := 1, month := t.month + 1 } := by
  rw [CalTime.nextDay, if_neg (Nat.not_lt.2 h), if_pos hm]

/-- 99 is followed by 0 (05 R94). -/
theorem nextDay_year {t : CalTime} (h : monthLength t.year t.month ≤ t.day) (hm : 12 ≤ t.month) (hy : t.year ≤ 99) :
    t.nextDay = { t with day := 1, month := 1, year := if t.year = 99 then 0 else t.year + 1 } := by
  rw [CalTime.nextDay, if_neg (Nat.not_lt.2 h), if_neg (Nat.not_lt.2 hm)]
  by_cases last : t.year = 99
  · rw [if_neg (by omega), if_pos last]
  · rw [if_pos (by omega), if_neg last]

/-- Settles O16: the leap second, the second within its minute, and each carry above it. -/
theorem theCalendarCarries : Obligations.TheCalendarCarries := by
  intro b wf hw c last
  have length : last = monthLength b.time.year b.time.month := (monthLength_eq _ _).symm
  refine ⟨fun leap => carrySecond_leap ((beforeLeap_iff b).2 leap), carrySecond_within, fun at59 noLeap => ?_⟩
  let ended : Timebase := { b with time := { b.time with second := 0 } }
  have carried : c = (ended.carryMinute, true) := carrySecond_minute (fun leap => noLeap ((beforeLeap_iff b).1 leap)) at59
  rw [carried]
  refine ⟨rfl, carryMinute_frame ended, fun within => ?_, fun atEnd within => ?_, fun atEnd at23 => ?_⟩
  · have minute := carryMinute_within (t := ended) within
    exact ⟨congrArg (·.time) minute, congrArg (·.weekday) minute⟩
  · have hour := carryMinute_hour (t := ended) (Nat.le_of_eq atEnd.symm) within
    exact ⟨congrArg (·.time) hour, congrArg (·.weekday) hour⟩
  · have day := carryMinute_day (t := ended) (Nat.le_of_eq atEnd.symm) (Nat.le_of_eq at23.symm)
    have weekday : (if b.weekday < 6 then b.weekday + 1 else 0) = if b.weekday = 6 then 0 else b.weekday + 1 := by
      by_cases atSix : b.weekday = 6
      · rw [if_pos atSix, if_neg (by omega)]
      · rw [if_neg atSix, if_pos (by omega)]
    rw [day, length]
    exact ⟨weekday, fun within => nextDay_within within,
      fun atLast within => nextDay_month (Nat.le_of_eq atLast.symm) within,
      fun atLast at12 => nextDay_year (Nat.le_of_eq atLast.symm) (Nat.le_of_eq at12.symm) wf.year⟩

/-! ### Fine ticks (05 R92, R93) -/

theorem lane_deliver (d : Device) (minute : Bool) (n : LaneNo) :
    (d.deliver minute).lane n = { d.lane n with seconds := (d.lane n).seconds ++ [d.timebase.arrival] } :=
  Vector.getElem_ofFn n.isLt

theorem fineTick_fault {d : Device} (h : d.timebase.oscFault = true) : d.fineTick = d := if_pos h

theorem fineTick_stopped {d : Device} (h : d.timebase.oscFault = false) (hr : d.timebase.run = .stopped) :
    d.fineTick = d.deliverTick := by
  rw [Device.fineTick, if_neg (Bool.eq_false_iff.1 h)]
  exact if_pos hr

theorem fineTick_within {d : Device} (h : d.timebase.oscFault = false) (hr : d.timebase.run = .running)
    (hf : d.timebase.fraction < 1023) : d.fineTick =
      { d.deliverTick with timebase := { d.deliverTick.timebase with fraction := d.timebase.fraction + 1 } } := by
  have runs : ¬ d.deliverTick.timebase.run = .stopped := fun e => RunState.noConfusion (hr.symm.trans e)
  rw [Device.fineTick, if_neg (Bool.eq_false_iff.1 h)]
  exact (if_neg runs).trans (if_pos hf)

/-- The last tick of a second carries it and delivers the arrivals (05 R93, R94). -/
theorem fineTick_second {d : Device} (h : d.timebase.oscFault = false) (hr : d.timebase.run = .running)
    (hf : 1023 ≤ d.timebase.fraction) :
    let carried := Timebase.carrySecond { d.deliverTick.timebase with fraction := 0 }
    d.fineTick = Device.deliver { d.deliverTick with timebase := carried.1 } carried.2 := by
  have runs : ¬ d.deliverTick.timebase.run = .stopped := fun e => RunState.noConfusion (hr.symm.trans e)
  rw [Device.fineTick, if_neg (Bool.eq_false_iff.1 h)]
  exact (if_neg runs).trans (if_neg (Nat.not_lt.2 hf))

/-- What a delivery leaves: the lanes apart, only the two lists of the table (05 R93, R94). -/
theorem deliver_frame (d : Device) (minute : Bool) : d.deliver minute = { d with
    lanes := (d.deliver minute).lanes
    schedule := { d.schedule with
      seconds := d.schedule.seconds ++ [d.timebase.arrival]
      minutes := d.schedule.minutes ++ (if minute then [d.timebase.arrival] else []) } } := by
  cases minute
  · rw [if_neg Bool.noConfusion, List.append_nil]; rfl
  · rfl

theorem exec_fineTick (s : State) : exec .fineTick s = .next (s.withDev s.dev.fineTick) := rfl

/-- Settles O15: no tick during a fault, a tick while STOPPED, within the second, and at its end. -/
theorem fineTicksAdvanceTheFraction : Obligations.FineTicksAdvanceTheFraction := by
  intro s b ticked
  refine ⟨fun fault => ?_, fun noFault stopped => ?_, fun noFault running within => ?_, fun noFault running atEnd => ?_⟩
  · rw [exec_fineTick, fineTick_fault fault]; rfl
  · rw [exec_fineTick, fineTick_stopped noFault stopped]; rfl
  · rw [exec_fineTick, fineTick_within noFault running within]; rfl
  · have second := fineTick_second noFault running atEnd
    refine ⟨_, exec_fineTick s, ?_, fun n => ?_⟩
    · rw [dev_withDev, second]; exact deliver_frame _ _
    · rw [dev_withDev, second]; exact lane_deliver _ _ n

end Sys2Proof.Machine
end

