-- ==== Sys2Proof/Proofs/TimeRequests.lean ====
section
namespace Sys2Proof.Machine

open Sys2Proof

/-! ### TIME GET (05 R98) -/

theorem timebaseResults_eq (t : Timebase) : t.results =
    [byte t.time.year, byte t.time.month, byte t.time.day, byte t.time.hour, byte t.time.minute, byte t.time.second] ++
      le16 (t.fraction + (if t.run = .stopped ∨ t.oscFault = true then 16384 else 0) + (if t.timeValid then 32768 else 0)) ++
      [byte t.weekday, byte ((if t.leapPending then 1 else 0) + (if t.run = .stopped then 2 else 0) +
        (if t.oscFault then 4 else 0) + (if t.oscFaultSeen then 8 else 0))] := by
  have held : t.stamp.held = true ↔ t.run = .stopped ∨ t.oscFault = true := by
    rw [show t.stamp.held = (decide (t.run = .stopped) || t.oscFault) from rfl, Bool.or_eq_true, decide_eq_true_eq]
  have bits : bitAt (decide (t.run = .stopped)) 1 = if t.run = .stopped then 2 else 0 := by
    simp only [bitAt, decide_eq_true_eq, pow_one]
  rw [Timebase.results, stampImage_eq, bits]
  simp only [held]
  rfl

/-- Settles O11: the owner reads the timebase and changes nothing. -/
theorem timeGetReportsTheTimebase : Obligations.TimeGetReportsTheTimebase := by
  intro tag s hq b
  rw [← timebaseResults_eq]
  exact onDevice_request_answered s hq _ _ rfl

/-! ### The checks of TIME SET (05 R99) -/

theorem le_one_of_flagOf {b : Byte} {f : Bool} (h : flagOf b = some f) : b.toNat ≤ 1 ∧ (f = false → b.toNat = 0) := by
  unfold flagOf at h
  split at h
  · next zero => subst zero; exact ⟨Nat.zero_le _, fun _ => rfl⟩
  · split at h
    · next one => subst one; cases h; exact ⟨le_rfl, Bool.noConfusion⟩
    · cases h

/-- The bytes of a TIME SET carry a setting only where they are in range (05 R99). -/
theorem settingOk_of_settingOf {y mo d h mi se w leap : Byte} {x : Setting} (hx : settingOf y mo d h mi se w leap = some x) :
    settingOk y mo d h mi se w leap := by
  unfold settingOf at hx
  cases flag : flagOf leap with
  | none => rw [flag] at hx; cases hx
  | some f =>
    obtain ⟨leapRange, noLeap⟩ := le_one_of_flagOf flag
    rw [flag, Option.bind_eq_bind, Option.bind_some, Option.ite_none_right_eq_some] at hx
    obtain ⟨inRange, -⟩ := hx
    simp only [Setting.inRange, Bool.and_eq_true, decide_eq_true_eq, Bool.or_eq_true, Bool.not_eq_true'] at inRange
    obtain ⟨⟨⟨⟨⟨⟨⟨year, month⟩, day⟩, hour⟩, minute⟩, second⟩, weekday⟩, at60⟩ := inRange
    rw [monthLength_eq] at day
    refine ⟨year, month.1, month.2, day.1, day.2, hour, minute, second, weekday, leapRange, fun is60 => ?_⟩
    obtain ⟨⟨at23, at59⟩, without⟩ := at60.resolve_left (not_not.2 is60)
    exact ⟨at23, at59, noLeap without⟩

theorem settingOf_of_not_settingOk {y mo d h mi se w leap : Byte} (out : ¬ settingOk y mo d h mi se w leap) :
    settingOf y mo d h mi se w leap = none :=
  Option.eq_none_iff_forall_ne_some.2 fun _ hx => out (settingOk_of_settingOf hx)

/-- What an accepted TIME SET leaves of the timebase and the port (05 R100). -/
theorem timebase_setTime (d : Device) (x : Setting) : (d.setTime x).timebase = d.timebase.set x :=
  congrArg (·.timebase) (setTime_onto d d x)

theorem port_setTime (d : Device) (x : Setting) : (d.setTime x).port = d.port :=
  congrArg (·.port) (setTime_onto d d x)

/-- Settles O12: the two refusals in their order, and the setting that is taken. -/
theorem timeSetChecksItsSetting : Obligations.TimeSetChecksItsSetting := by
  intro tag y mo d h mi se w leap s hq
  refine ⟨fun out => ?_, fun ok fault => ?_, fun ok noFault => ?_⟩
  · refine onDevice_request_refused s hq .badValue (asRequest_refused _ _ _ ?_)
    simp only [settingOf_of_not_settingOk out]
  · refine onDevice_request_refused s hq .clockFault (asRequest_refused _ _ _ ?_)
    have fault : s.dev.frameEnds.timebase.oscFault = true := fault
    simp only [settingOf_of_settingOk ok, fault, if_true]
  · refine ⟨_, exec_timeSet_accepted ok hq noFault tag, ?_, ?_⟩
    · exact congrArg (·.reply) (port_requested s.dev tag 0x11#8 _ _ (port_setTime _ _))
    · rw [dev_withDev, timebase_requested, timebase_setTime]
      rfl

/-! ### CLOCK (05 R91) -/

/-- Where lanes, journal and capture unit stand, no condition but CLOCK can move (09 R168). -/
theorem level_eq_of_clock {a b : Device} (hl : b.lanes = a.lanes) (hj : b.journal = a.journal) (hc : b.capture = a.capture)
    {c : CondNo} (h : c = 8 → a.timebase.clockLevel = b.timebase.clockLevel) : a.level c = b.level c := by
  have lane (n : LaneNo) : b.lane n = a.lane n := congrArg (·[n.val]) hl
  by_cases clock : c = 8
  · subst clock; exact h rfl
  · have same : ({ a with timebase := b.timebase } : Device).level c = b.level c :=
      level_eq_of_lanes (a := { a with timebase := b.timebase }) (fun m => congrArg Lane.alarm (lane m))
        (fun m => congrArg Lane.txFault (lane m)) hj rfl hc c
    rw [← same]
    fin_cases c
    iterate 8 exact rfl
    · exact absurd rfl clock
    · rfl

theorem changesBetween_clock {a b : Device} (hl : b.lanes = a.lanes) (hj : b.journal = a.journal)
    (hc : b.capture = a.capture) : changesBetween a b =
      if a.timebase.clockLevel = b.timebase.clockLevel then [] else [⟨8, b.timebase.clockLevel⟩] := by
  by_cases same : a.timebase.clockLevel = b.timebase.clockLevel
  · have still (c : CondNo) : a.level c = b.level c := level_eq_of_clock hl hj hc fun _ => same
    rw [if_pos same]
    simp only [changesBetween, still, bne_self_eq_false, List.filter_false, List.map_nil]
  · have one : (allConditions.filter fun c => a.level c != b.level c) = allConditions.filter fun c => decide (c = 8) := by
      refine List.filter_congr fun c _ => ?_
      by_cases clock : c = 8
      · subst clock
        rw [decide_eq_true rfl]
        exact bne_iff_ne.2 same
      · rw [level_eq_of_clock hl hj hc fun e => absurd e clock, decide_eq_false clock, bne_self_eq_false]
    rw [if_neg same, changesBetween, one]
    rfl

/-! ### TIME STOP and TIME RUN (05 R104, R105) -/

/-- The device with this timebase. -/
def Device.withTimebase (d : Device) (t : Timebase) : Device := { d with timebase := t }

theorem setRun_held {d : Device} {r : RunState} (h : d.timebase.run = r) (k : Kind) : d.setRun r k = d := if_pos h

theorem setRun_changes {d : Device} {r : RunState} (h : d.timebase.run ≠ r) (k : Kind) :
    let t := { d.timebase with run := r }
    d.setRun r k = (d.withTimebase t).writePlain .timebase t.stamp k 0 := if_neg h

/-- A request whose owner writes one record and moves no level. -/
theorem requested_one {d d' : Device} (tag code : Byte) (a : Answer) {x : Sent} (h : d'.inFlight = d.inFlight ++ [x])
    (hl : ∀ c, d.level c = d'.level c) : d.requested tag code d' a =
      Device.replyWith { d' with
        inFlight := d.inFlight ++ [{ x with byRequest := true }], events := d'.events + 1 } tag code a := by
  have longer : d'.inFlight.length ≠ d.frameEnds.inFlight.length := by
    rw [h, show d.frameEnds.inFlight = d.inFlight from rfl, List.length_append]
    exact Nat.ne_of_gt (Nat.lt_succ_self _)
  have claimed := inFlight_claim_append d.frameEnds { d' with events := d'.events + 1 } [x] h
  rw [Device.requested, settle_write (a := d.frameEnds) hl longer]
  exact congrArg (fun l => Device.replyWith { d' with inFlight := l, events := d'.events + 1 } tag code a) claimed

/-- A change of the run state, as a request that answers OK (05 R104, R105). -/
theorem requested_setRun {d : Device} {r : RunState} (h : d.timebase.run ≠ r) (k : Kind) (tag code : Byte) :
    d.requested tag code (d.frameEnds.setRun r k) (.ok []) = Device.answered { d with
      timebase := { d.timebase with run := r }
      inFlight := d.inFlight ++
        [⟨d.events, ⟨({ d.timebase with run := r } : Timebase).stamp, .timebase, k, 0, none⟩, true, false⟩]
      events := d.events + 1 } tag code .ok [] := by
  let t := { d.timebase with run := r }
  rw [setRun_changes (d := d.frameEnds) h]
  exact requested_one (d' := (d.frameEnds.withTimebase t).writePlain .timebase t.stamp k 0) tag code (.ok []) rfl
    fun c => level_eq_of_clock rfl rfl rfl fun _ => rfl

theorem exec_timeStop (tag : Byte) {s : State} (hq : s.dev.quiet) : exec (.timeStop tag []) s =
    .next (s.withDev (s.dev.requested tag 0x12#8 (s.dev.frameEnds.setRun .stopped .clockStopped) (.ok []))) :=
  exec_request s hq rfl

theorem exec_timeRun (tag : Byte) {s : State} (hq : s.dev.quiet) : exec (.timeRun tag []) s =
    .next (s.withDev (s.dev.requested tag 0x13#8 (s.dev.frameEnds.setRun .running .clockRun) (.ok []))) :=
  exec_request s hq rfl

/-- A request whose owner changes nothing only answers. -/
theorem requested_unchanged (d : Device) (tag code : Byte) (a : Answer) :
    d.requested tag code d.frameEnds a = d.answered tag code a.status a.results := by
  rw [Device.requested, settle_self, claim_noWrite _ _ rfl]
  rfl

/-- Settles O14: in each state one request changes the run state and the other is already served. -/
theorem timeStopAndRunChangeTheRunState : Obligations.TimeStopAndRunChangeTheRunState := by
  intro tag s hq b
  refine ⟨fun running => ?_, fun stopped => ?_, fun stopped => ?_, fun running => ?_⟩
  · rw [exec_timeStop tag hq, requested_setRun (fun e => RunState.noConfusion (running.symm.trans e))]
    rfl
  · rw [exec_timeStop tag hq, setRun_held (d := s.dev.frameEnds) stopped, requested_unchanged]
    rfl
  · rw [exec_timeRun tag hq, requested_setRun (fun e => RunState.noConfusion (stopped.symm.trans e))]
    rfl
  · rw [exec_timeRun tag hq, setRun_held (d := s.dev.frameEnds) running, requested_unchanged]
    rfl

/-! ### The oscillator (05 R107, R108) -/

theorem detectFault_faulty {d : Device} (h : d.timebase.oscFault = true) : d.detectFault = d := if_pos h

theorem detectFault_found {d : Device} (h : d.timebase.oscFault = false) : d.detectFault =
    (d.withTimebase { d.timebase with
        oscFault := true, oscFaultSeen := true, timeValid := false, measure := none }).writePlain
      .timebase ⟨d.timebase.time, d.timebase.fraction, false, true⟩ .oscFault 0 := by
  have stamp : ({ d.timebase with oscFault := true, oscFaultSeen := true, timeValid := false, measure := none } : Timebase).stamp =
      ⟨d.timebase.time, d.timebase.fraction, false, true⟩ := by
    simp only [Timebase.stamp, Timebase.held, Bool.or_true]
  rw [← stamp, Device.detectFault, if_neg (Bool.eq_false_iff.1 h)]
  rfl

theorem recover_measured {d : Device} (h : d.timebase.oscFault = true) {k : Nat} (hk : d.timebase.measure = some k) :
    d.recover = (d.withTimebase { d.timebase with oscFault := false, measure := none }).writePlain
      .timebase ⟨d.timebase.time, d.timebase.fraction, d.timebase.timeValid, decide (d.timebase.run = .stopped)⟩
      .oscResumed 0 := by
  have stamp : ({ d.timebase with oscFault := false, measure := none } : Timebase).stamp =
      ⟨d.timebase.time, d.timebase.fraction, d.timebase.timeValid, decide (d.timebase.run = .stopped)⟩ := by
    simp only [Timebase.stamp, Timebase.held, Bool.or_false]
  rw [← stamp, Device.recover, h, hk]
  rfl

theorem recover_nothing {d : Device} (h : d.timebase.oscFault = false ∨ d.timebase.measure = none) : d.recover = d := by
  refine if_neg fun both => ?_
  rw [Bool.and_eq_true] at both
  obtain ⟨fault, measured⟩ := both
  obtain noFault | none := h
  · rw [noFault] at fault; cases fault
  · rw [none] at measured; cases measured

/-- CLOCK is false where the time is valid and no fault has been seen since it was set (05 R91). -/
theorem not_clockLevel (t : Timebase) : (!t.clockLevel) = (t.timeValid && !t.oscFaultSeen) := by
  rw [Timebase.clockLevel, Bool.not_or, Bool.not_not]

theorem exec_oscFault (s : State) : exec .oscFault s = .next (s.withDev (Device.settle s.dev s.dev.detectFault)) := rfl

theorem exec_oscResumed (s : State) : exec .oscResumed s = .next (s.withDev (Device.settle s.dev s.dev.recover)) := rfl

theorem exec_crystalCycleSeen {s : State} (h : s.dev.timebase.oscFault = true) : exec .crystalCycleSeen s =
    .next (s.withDev (s.dev.withTimebase { s.dev.timebase with
      measure := some (match s.dev.timebase.measure with | none => 0 | some k => k + 1) })) :=
  congrArg (fun d => s.onDevice fun _ => d) (if_pos h)

theorem exec_crystalCycleSeen_noFault {s : State} (h : s.dev.timebase.oscFault = false) : exec .crystalCycleSeen s = .next s :=
  congrArg (fun d => s.onDevice fun _ => d) (if_neg (Bool.eq_false_iff.1 h))

theorem exec_oscMeasureRestart (s : State) : exec .oscMeasureRestart s =
    .next (s.withDev (s.dev.withTimebase { s.dev.timebase with measure := s.dev.timebase.measure.map fun _ => 0 })) := rfl

/-- Settles O17: the detection and the recovery with their records, and what the measure's events do. -/
theorem oscillatorFaultAndRecovery : Obligations.OscillatorFaultAndRecovery := by
  intro s b
  refine ⟨fun fault => ?_, fun noFault => ⟨_, exec_oscFault s, ?_⟩, fun fault k measured => ⟨_, exec_oscResumed s, ?_⟩,
    fun nothing => ?_, fun fault idle => ?_, fun fault k measured => ?_, exec_crystalCycleSeen_noFault, fun k measured => ?_,
    fun idle => ?_⟩
  · rw [exec_oscFault, detectFault_faulty fault, settle_self]; rfl
  · have changes := changesBetween_clock (a := s.dev) (b := s.dev.detectFault)
    rw [detectFault_found noFault] at changes ⊢
    simp only [dev_withDev, timebase_settle, inFlight_settle, changes_settle, conditions_settle, lanes_settle, schedule_settle]
    refine ⟨rfl, rfl, ?_, rfl, rfl, rfl⟩
    rw [changes rfl rfl rfl, ← not_clockLevel]
    cases s.dev.timebase.clockLevel <;> rfl
  · rw [recover_measured fault measured]
    simp only [dev_withDev, timebase_settle, inFlight_settle, conditions_settle, lanes_settle, schedule_settle]
    exact ⟨rfl, rfl, rfl, rfl, rfl⟩
  · rw [exec_oscResumed, recover_nothing nothing, settle_self]; rfl
  · rw [exec_crystalCycleSeen fault, idle]; rfl
  · rw [exec_crystalCycleSeen fault, measured]; rfl
  · rw [exec_oscMeasureRestart, measured]; rfl
  · rw [exec_oscMeasureRestart, idle, Option.map_none, ← idle]; rfl

end Sys2Proof.Machine
end

