-- ==== Sys2Proof/Proofs/OtherForms.lean ====
section
namespace Sys2Proof.Machine

open Sys2Proof

/-! ### The timebase keeps its form (05 R91 to R96, R100) -/

theorem CalTime.Wf.nextDay {t : CalTime} (h : t.Wf) : t.nextDay.Wf := by
  obtain ⟨year, ⟨low, high⟩, ⟨first, atMost⟩, hour, minute, second⟩ := h
  by_cases within : t.day < monthLength t.year t.month
  · rw [nextDay_within within]
    exact ⟨year, ⟨low, high⟩, ⟨Nat.le_add_left 1 _, within⟩, hour, minute, second⟩
  have atLast := Nat.not_lt.1 within
  by_cases inYear : t.month < 12
  · rw [nextDay_month atLast inYear]
    exact ⟨year, ⟨Nat.le_add_left 1 _, inYear⟩, ⟨le_rfl, one_le_monthLength _ _⟩, hour, minute, second⟩
  · rw [nextDay_year atLast (Nat.not_lt.1 inYear) year]
    refine ⟨?_, ⟨le_rfl, (by decide : 1 ≤ 12)⟩, ⟨le_rfl, one_le_monthLength _ _⟩, hour, minute, second⟩
    dsimp only
    split <;> omega

theorem Timebase.Wf.carryMinute {t : Timebase} (h : t.Wf) (zero : t.time.second = 0) : t.carryMinute.Wf := by
  have second (hour minute : Nat) : t.time.second ≤ 60 ∧ (t.time.second = 60 → hour = 23 ∧ minute = 59) := by omega
  by_cases inHour : t.time.minute < 59
  · rw [carryMinute_within inHour]
    exact { h with time := { h.time with minute := inHour, second := second _ _ } }
  have atLast := Nat.not_lt.1 inHour
  by_cases inDay : t.time.hour < 23
  · rw [carryMinute_hour atLast inDay]
    exact { h with time := { h.time with hour := inDay, minute := Nat.zero_le _, second := second _ _ } }
  · have midnight : CalTime.Wf { t.time with minute := 0, hour := 0 } :=
      { h.time with hour := Nat.zero_le _, minute := Nat.zero_le _, second := second _ _ }
    rw [carryMinute_day atLast (Nat.not_lt.1 inDay)]
    refine { h with time := midnight.nextDay, weekday := ?_ }
    dsimp only
    split <;> omega

theorem Timebase.Wf.carrySecond {t : Timebase} (h : t.Wf) : t.carrySecond.1.Wf := by
  by_cases leap : t.beforeLeap = true
  · obtain ⟨-, at23, at59, -⟩ := (beforeLeap_iff t).1 leap
    rw [carrySecond_leap leap]
    exact { h with time := { h.time with second := ⟨le_rfl, fun _ => ⟨at23, at59⟩⟩ } }
  by_cases within : t.time.second < 59
  · rw [carrySecond_within within]
    exact { h with time := { h.time with second := ⟨by dsimp only; omega, fun at60 => by dsimp only at at60; omega⟩ } }
  · have zeroed : Timebase.Wf { t with time := { t.time with second := 0 } } :=
      { h with time := { h.time with second := ⟨Nat.zero_le _, fun at60 => absurd at60 (by decide : ¬ 0 = 60)⟩ } }
    rw [carrySecond_minute leap (Nat.not_lt.1 within)]
    exact zeroed.carryMinute rfl

/-- A setting in range is a calendar time with its weekday (05 R99). -/
theorem Setting.wf_of_inRange {x : Setting} (h : x.inRange = true) : x.time.Wf ∧ x.weekday ≤ 6 := by
  simp only [Setting.inRange, Bool.and_eq_true, decide_eq_true_eq, Bool.or_eq_true, Bool.not_eq_true'] at h
  obtain ⟨⟨⟨⟨⟨⟨⟨year, month⟩, day⟩, hour⟩, minute⟩, second⟩, weekday⟩, at60⟩ := h
  exact ⟨⟨year, month, day, hour, minute, second, fun is60 => (at60.resolve_left (not_not.2 is60)).1⟩, weekday⟩

theorem inRange_of_settingOf {y mo d h mi se w leap : Byte} {x : Setting} (hx : settingOf y mo d h mi se w leap = some x) :
    x.inRange = true := by
  have ok := settingOk_of_settingOf hx
  obtain rfl := Option.some_injective _ ((settingOf_of_settingOk ok).symm.trans hx)
  exact inRange_settingFrom ok

/-- An accepted setting makes the time valid, which no oscillator fault stands against (05 R91, R99, R100). -/
theorem Timebase.Wf.set {t : Timebase} (h : t.Wf) (noFault : t.oscFault = false) {x : Setting} (hx : x.inRange = true) :
    (t.set x).Wf := by
  obtain ⟨time, weekday⟩ := Setting.wf_of_inRange hx
  exact { h with time := time, fraction := Nat.zero_le _, weekday := weekday, valid := fun _ => ⟨rfl, noFault⟩ }

/-! ### The attention unit and the event inputs keep their form (09 R169, R171, R172, R173) -/

/-- The form of one condition: a latch only while enabled (09 R169). -/
def Condition.Wf (x : Condition) : Prop := x.latch = true → x.enabled = true

theorem Condition.Wf.change {x : Condition} (h : x.Wf) (level : Bool) : (x.change level).Wf := fun latch => by
  rw [Condition.change, Bool.or_eq_true, Bool.and_eq_true] at latch
  exact latch.elim h And.left

theorem Condition.Wf.event {x : Condition} (h : x.Wf) : x.event.Wf := fun latch => by
  rw [Condition.event, Bool.or_eq_true] at latch
  exact latch.elim h id

theorem Condition.Wf.serve {x : Condition} (h : x.Wf) (clear level : Bool) : (x.serve clear level).Wf := fun latch => by
  rw [Condition.serve, Bool.or_eq_true, Bool.and_eq_true, Bool.and_eq_true, Bool.and_eq_true] at latch
  exact latch.elim (fun kept => h kept.1) fun again => again.1.1

theorem Condition.configure_wf (x : Condition) (enable : Bool) (mode : AttentionMode) (level : Bool) :
    (x.configure enable mode level).Wf := fun latch => (Bool.and_eq_true_iff.1 latch).1

theorem Attention.Wf.modify {a : Attention} (h : a.Wf) (c : CondNo) {f : Condition → Condition} (hf : ∀ x, x.Wf → (f x).Wf) :
    (a.modify c f).Wf := by
  intro k
  by_cases same : c.val = k.val
  · obtain rfl : c = k := Fin.ext same
    simp only [Attention.modify, Vector.getElem_set_self]
    exact hf _ (h c)
  · simp only [Attention.modify, Vector.getElem_set_ne _ _ same]
    exact h k

theorem Attention.Wf.each {a : Attention} (h : a.Wf) {f : CondNo → Condition → Condition} (hf : ∀ c x, x.Wf → (f c x).Wf) :
    (a.each f).Wf := by
  intro k
  simp only [Attention.each, Vector.getElem_ofFn]
  exact hf k _ (h k)

/-- A fourth agreeing sample turns the count back to 0 (09 R173). -/
theorem PinFilter.count_sample {p : PinFilter} (h : p.count ≤ 3) (level : Bool) : (p.sample level).1.count ≤ 3 := by
  unfold PinFilter.sample
  split
  · exact Nat.zero_le _
  · split
    · dsimp only; omega
    · exact Nat.zero_le _

/-! ### The definitions that an ENTRY SET can carry (06 R112 to R116, 10 R187) -/

theorem actionOf_ok {code arg : Byte} {a : Action} (h : actionOf code arg = some a) : a.ok = true := by
  have onMask {x : LaneAction} (hm : (if maskOk arg then some (Action.onLanes x arg) else none) = some a) : a.ok = true := by
    rw [Option.ite_none_right_eq_some] at hm
    obtain ⟨ok, same⟩ := hm
    cases same
    exact ok
  have onEntry {f : EntryNo → Action} (ok : ∀ e, (f e).ok = true) (he : (entryOf arg).map f = some a) : a.ok = true := by
    obtain ⟨e, -, rfl⟩ := Option.map_eq_some_iff.1 he
    exact ok e
  unfold actionOf at h
  dsimp only at h
  split at h
  case h_7 => cases h; rfl
  case h_8 => exact onEntry (fun _ => rfl) h
  case h_9 => exact onEntry (fun _ => rfl) h
  case h_10 => cases h
  all_goals exact onMask h

theorem actionsOf_ok {bytes : List Byte} {as : List Action} (h : actionsOf bytes = some as) :
    bytes.length = 2 * as.length ∧ as.all Action.ok = true := by
  induction bytes using actionsOf.induct generalizing as with
  | case1 => cases h; exact ⟨rfl, rfl⟩
  | case2 _ => cases h
  | case3 code arg rest ih =>
    simp only [actionsOf, Option.bind_eq_bind, Option.bind_eq_some_iff] at h
    obtain ⟨a, first, more, others, same⟩ := h
    cases same
    obtain ⟨length, ok⟩ := ih others
    refine ⟨by simp only [List.length_cons, length]; omega, ?_⟩
    rw [List.all_cons, actionOf_ok first, ok]
    rfl

theorem fieldOf_le {hi : Nat} {b : Byte} {f : Option Nat} (h : fieldOf hi b = some f) :
    f.all (fun v => decide (v ≤ hi)) = true := by
  unfold fieldOf at h
  split at h
  · cases h; rfl
  · obtain ⟨v, inside, rfl⟩ := Option.map_eq_some_iff.1 h
    obtain ⟨⟨-, le⟩, rfl⟩ := inRange_eq_some.1 inside
    exact decide_eq_true le

theorem daySelectorOf_ok {selector arg : Byte} {day : DaySelector} (h : daySelectorOf selector arg = some day) :
    (EntryKind.atTime none none none day).ok = true := by
  unfold daySelectorOf at h
  split at h
  · obtain ⟨-, same⟩ := (Option.ite_none_right_eq_some ..).1 h
    cases same; rfl
  · obtain ⟨inside, same⟩ := (Option.ite_none_right_eq_some ..).1 h
    cases same
    exact decide_eq_true inside
  · obtain ⟨v, inside, rfl⟩ := Option.map_eq_some_iff.1 h
    obtain ⟨inside, rfl⟩ := inRange_eq_some.1 inside
    exact decide_eq_true inside
  · cases h

/-- The kind fields of a definition are in range, and only edges that can be are taken (10 R187). -/
theorem entryKindOf_ok {k b2 b3 b4 b5 b6 b7 : Byte} {kind : EntryKind} (h : entryKindOf k b2 b3 b4 b5 b6 b7 = some kind) :
    kind.ok = true := by
  have countdown {base : Base} (hp : ((inRange 1 16777215 (word24 b3 b4 b5)).bind fun preset =>
      if b6 = 0#8 ∧ b7 = 0#8 then some (EntryKind.countdown base preset) else none) = some kind) : kind.ok = true := by
    simp only [Option.bind_eq_some_iff, Option.ite_none_right_eq_some] at hp
    obtain ⟨preset, inside, -, same⟩ := hp
    cases same
    obtain ⟨inside, rfl⟩ := inRange_eq_some.1 inside
    exact decide_eq_true inside
  unfold entryKindOf at h
  simp only [Option.bind_eq_bind, Option.bind_some, Option.bind_none] at h
  split at h
  · simp only [Option.bind_eq_some_iff, Option.ite_none_right_eq_some] at h
    obtain ⟨second, hs, minute, hm, hour, hh, day, hd, -, same⟩ := h
    cases same
    simp only [EntryKind.ok, fieldOf_le hs, fieldOf_le hm, fieldOf_le hh, Bool.true_and]
    exact daySelectorOf_ok hd
  · split at h
    case h_5 => cases h
    all_goals exact countdown h
  · repeat' split at h
    all_goals cases h
    all_goals rfl
  · cases h

/-- The definition of an ENTRY SET of a length that the request table has is in range (06 R116). -/
theorem definitionOf_ok {bytes : List Byte} {df : Definition} (h : definitionOf bytes = some df)
    (length : bytes.length + 1 ∈ entrySetLengths) : df.ok = true := by
  unfold definitionOf at h
  split at h
  · simp only [Option.bind_eq_bind, Option.bind_eq_some_iff] at h
    obtain ⟨kind, hk, flags, -, actions, ha, same⟩ := h
    cases same
    obtain ⟨count, ok⟩ := actionsOf_ok ha
    have fitting : 1 ≤ actions.length ∧ actions.length ≤ 4 := by
      simp only [entrySetLengths, List.length_cons, List.mem_cons, List.not_mem_nil, or_false] at length
      omega
    simp only [Definition.ok, entryKindOf_ok hk, ok, fitting, and_self, decide_true, Bool.and_self]
  · cases h

/-! ### An entry keeps its form (06 R111, R116 to R122, R128) -/

theorem Definition.loaded_of_not_countdown {df : Definition} (h : df.isCountdown = false) (r : Nat) : df.loaded r = r := by
  unfold Definition.isCountdown at h
  unfold Definition.loaded
  split
  · next base preset kind => rw [kind] at h; cases h
  all_goals rfl

theorem Definition.loaded_le {df : Definition} (h : df.ok = true) {r : Nat} (hr : r ≤ 16777215) : df.loaded r ≤ 16777215 := by
  unfold Definition.loaded
  split
  · next base preset kind =>
    simp only [Definition.ok, kind, EntryKind.ok, Bool.and_eq_true, decide_eq_true_eq] at h
    obtain ⟨⟨⟨-, preset⟩, -⟩, -⟩ := h
    exact preset
  all_goals exact hr

namespace Entry

section
variable {state : EntryState} {df : Definition} {r : Nat}

/-- Another state, PAUSED for a countdown alone. -/
theorem Wf.moved (h : (Entry.held state df r).Wf) {state' : EntryState} (hp : state' = .paused → df.isCountdown = true) :
    (Entry.held state' df r).Wf := by
  obtain ⟨ok, -, most, zero⟩ := h
  exact ⟨ok, hp, most, zero⟩

/-- A countdown's count loaded again (06 R118, R128). -/
theorem Wf.reloaded (h : (Entry.held state df r).Wf) : (Entry.held state df (df.loaded r)).Wf := by
  obtain ⟨ok, paused, most, zero⟩ := h
  exact ⟨ok, paused, Definition.loaded_le ok most, fun other => (Definition.loaded_of_not_countdown other r).trans (zero other)⟩

/-- One tick of a countdown (06 R124). -/
theorem Wf.ticked (h : (Entry.held state df r).Wf) : (Entry.held state df (r - 1)).Wf := by
  obtain ⟨ok, paused, most, zero⟩ := h
  exact ⟨ok, paused, (Nat.sub_le r 1).trans most, fun other => by rw [zero other]⟩

end

variable {x : Entry}

theorem Wf.arm (h : x.Wf) : x.arm.1.Wf := by
  cases x with
  | empty => trivial
  | held state df r => exact (h.moved EntryState.noConfusion).reloaded

theorem Wf.disarm (h : x.Wf) : x.disarm.1.Wf := by
  cases x with
  | empty => trivial
  | held state df r => exact h.moved EntryState.noConfusion

theorem Wf.pause (h : x.Wf) : x.pause.1.Wf := by
  unfold Entry.pause
  split
  · trivial
  · split
    · next countdown => exact h.moved fun _ => countdown
    · exact h
  · exact h

theorem Wf.resume (h : x.Wf) : x.resume.1.Wf := by
  unfold Entry.resume
  split
  · trivial
  · exact h.moved EntryState.noConfusion
  · exact h

theorem clear_wf (x : Entry) : x.clear.1.Wf := trivial

theorem Wf.settled (h : x.Wf) : x.settled.Wf := by
  cases x with
  | empty => trivial
  | held state df r =>
    simp only [Entry.settled]
    split
    · exact h.reloaded
    · exact h.moved EntryState.noConfusion

theorem Wf.judge (h : x.Wf) (ev : TableEvent) : (x.judge ev).1.Wf := by
  unfold Entry.judge
  split
  · split
    · split
      · exact h.ticked
      · exact h
    · exact h
  · exact h

end Entry

/-- A definition in range makes an entry in its form (06 R116). -/
theorem Definition.entry_wf {df : Definition} (h : df.ok = true) : df.entry.Wf :=
  ⟨h, EntryState.noConfusion, Definition.loaded_le h (Nat.zero_le _), fun other => Definition.loaded_of_not_countdown other 0⟩

/-! ### The receiver keeps its form (10 R177, R178) -/

theorem Port.wf_waiting {p : Port} (h : p.rx = .waiting) : p.Wf := by
  unfold Port.Wf
  rw [h]
  trivial

theorem Port.wf_cons {p : Port} {len : Byte} {rest : List Byte} (h : p.rx = .inFrame (len :: rest)) :
    p.Wf ↔ 2 ≤ len.toNat ∧ len.toNat ≤ 250 ∧ rest.length ≤ len.toNat := by
  unfold Port.Wf
  rw [h]

end Sys2Proof.Machine
end

