-- ==== Sys2Proof/Proofs/OtherFormsKept.lean ====
section
namespace Sys2Proof.Machine

open Sys2Proof

/-! ### What the device's work keeps of the other blocks -/

/-- The work keeps the forms of the timebase, the table, the attention unit, the event inputs and the port, each on its own. -/
structure Device.FormsKept (d d' : Device) : Prop where
  timebase : d.timebase.Wf → d'.timebase.Wf
  schedule : d.schedule.Wf → d'.schedule.Wf
  attention : d.attention.Wf → d'.attention.Wf
  inputs : d.inputs.Wf → d'.inputs.Wf
  port : d.port.Wf → d'.port.Wf

/-- What those five forms speak of: no records, no events on their way, no reply. -/
def Device.formed (d : Device) : Timebase × Vector Entry 8 × Vector Condition 10 × (Nat × Nat) × RxState :=
  (d.timebase, d.schedule.entries, d.attention.conditions, (d.inputs.ext0.count, d.inputs.ext1.count), d.port.rx)

namespace Device.FormsKept

theorem of_eq {d d' : Device} (h : d'.formed = d.formed) : d.FormsKept d' := by
  simp only [Device.formed, Prod.mk.injEq] at h
  obtain ⟨timebase, entries, conditions, ⟨ext0, ext1⟩, rx⟩ := h
  constructor
  · rw [timebase]; exact id
  · unfold Schedule.Wf; rw [entries]; exact id
  · unfold Attention.Wf; rw [conditions]; exact id
  · unfold EventInputs.Wf; rw [ext0, ext1]; exact id
  · unfold Port.Wf; rw [rx]; exact id

theorem refl (d : Device) : d.FormsKept d := ⟨id, id, id, id, id⟩

theorem trans {a b c : Device} (h : a.FormsKept b) (k : b.FormsKept c) : a.FormsKept c :=
  ⟨k.timebase ∘ h.timebase, k.schedule ∘ h.schedule, k.attention ∘ h.attention, k.inputs ∘ h.inputs, k.port ∘ h.port⟩

theorem settle {d d' : Device} (b : Device) (h : d.FormsKept d') : d.FormsKept (Device.settle b d') := by
  refine h.trans (of_eq ?_)
  unfold Device.settle
  split <;> rfl

theorem laneStep {n : LaneNo} {d d' : Device} (h : Device.LaneStep n d d') : d.FormsKept d' :=
  of_eq ((congrArg Device.formed h.frame).trans rfl)

theorem journalWork {d d' : Device} (h : d.JournalWork d') : d.FormsKept d' := by
  have conditions : Device.formed { d with journal := d'.journal, attention := d'.attention } = d.formed := by
    simp only [Device.formed, h.conditions]
  exact of_eq ((congrArg Device.formed h.frame).trans conditions)

theorem recordArrives (d : Device) (r : Record) : d.FormsKept (d.recordArrives r) := journalWork (.recordArrives d r)

theorem arriveFirst (d : Device) (first : Sent → Bool) : d.FormsKept (d.arriveFirst first) :=
  of_eq ((congrArg Device.formed (arriveFirst_frame d first)).trans rfl)

/-! ### Work on one block -/

section
variable (d : Device)

theorem withTimebase {t : Timebase} (h : d.timebase.Wf → t.Wf) : d.FormsKept (d.withTimebase t) :=
  { refl d with timebase := h }

theorem setEntry (e : EntryNo) {x : Entry} (h : (d.entry e).Wf → x.Wf) : d.FormsKept (d.setEntry e x) := by
  refine { refl d with schedule := fun wf f => ?_ }
  change ((d.setEntry e x).entry f).Wf
  by_cases same : f = e
  · subst same
    rw [entry_setEntry_same]
    exact h (wf f)
  · rw [entry_setEntry_ne d x same]
    exact wf f

theorem judgeAll (ev : TableEvent) : d.FormsKept (d.judgeAll ev) := by
  refine { refl d with schedule := fun wf e => ?_ }
  simp only [Device.judgeAll, Vector.getElem_ofFn]
  exact (wf e).judge ev

theorem modify (c : CondNo) {f : Condition → Condition} (hf : ∀ x, x.Wf → (f x).Wf) (changes : List LevelChange) :
    d.FormsKept { d with attention := { d.attention.modify c f with changes := changes } } :=
  { refl d with attention := fun wf => wf.modify c hf }

theorem each {f : CondNo → Condition → Condition} (hf : ∀ c x, x.Wf → (f c x).Wf) :
    d.FormsKept { d with attention := d.attention.each f } :=
  { refl d with attention := fun wf => wf.each hf }

theorem receiver {p : Port} (h : d.port.Wf → p.Wf) : d.FormsKept { d with port := p } := { refl d with port := h }

theorem frameEnds : d.FormsKept d.frameEnds := receiver d fun _ => Port.wf_waiting rfl

/-- A discarded frame raises one port error (10 R178). -/
theorem discardFrame : d.FormsKept d.discardFrame :=
  (frameEnds d).trans (modify _ portErrorCond (fun _ wf => wf.event) _)

end

/-! ### Resets and requests -/

/-- A reset clears every block but the timebase (06 R133, 09 R175, 10 R176). -/
theorem of_cleared {d d' : Device} (h : d'.Cleared) (ht : d.timebase.Wf → d'.timebase.Wf) : d.FormsKept d' where
  timebase := ht
  schedule := fun _ e => by
    change (d'.entry e).Wf
    rw [h.entry e]
    trivial
  attention := fun _ c latch => by
    rw [h.conditions] at latch
    simp only [Attention.afterReset, Vector.getElem_replicate] at latch
    cases latch
  inputs := fun _ => by
    rw [h.inputs]
    exact ⟨Nat.zero_le _, Nat.zero_le _⟩
  port := fun _ => Port.wf_waiting h.receiver

theorem resetRequest (d : Device) : d.FormsKept d.resetRequest :=
  of_cleared ((resetBlocks_cleared d).recordArrives _) fun wf => (timebase_recordArrives _ _).symm ▸ wf

theorem request {own : Device → Device × Answer} {d : Device} (code tag : Byte)
    (h : d.frameEnds.FormsKept (own d.frameEnds).1) : d.FormsKept (d.request code tag own) := by
  unfold Device.request
  split
  · exact discardFrame d
  · exact ((frameEnds d).trans h).trans (of_eq rfl)

theorem asRequest {own : Device → Device × Answer} {d : Device} (h : d.FormsKept (own d).1) :
    d.FormsKept (asRequest own d).1 := (h.settle d).trans (of_eq rfl)

/-! ### Operations on lanes and time -/

theorem maskRequest {f : LaneNo → Device → Device × Status} (h : ∀ n d, Device.LaneStep n d (f n d).1) (mask : Byte)
    (d : Device) : d.FormsKept (Device.maskRequest f mask d).1 := by
  have fold (ns : List LaneNo) (d : Device) : d.FormsKept (Device.onLanes f ns d).1 := by
    induction ns generalizing d with
    | nil => exact refl d
    | cons n ns ih => exact (laneStep (h n d)).trans (ih _)
  unfold Device.maskRequest
  split
  · exact fold _ d
  · exact refl d

theorem maskOnly (a : LaneAction) (params : List Byte) (d : Device) : d.FormsKept (maskOnly a params d).1 := by
  unfold Machine.maskOnly
  split
  · exact maskRequest (fun n d => .laneAction n d a .host d.now) _ d
  · exact refl d

theorem laneRequest {take : LaneNo → Device → Device × Answer} (params : List Byte) (d : Device)
    (h : ∀ n, Device.LaneStep n d (take n d).1) : d.FormsKept (laneRequest params take d).1 := by
  unfold Machine.laneRequest
  repeat' split
  · exact laneStep (h _)
  all_goals exact refl d

theorem setTime {d : Device} (noFault : d.timebase.oscFault = false) {x : Setting} (hx : x.inRange = true) :
    d.FormsKept (d.setTime x) :=
  (withTimebase d fun wf => wf.set noFault hx).trans (of_eq ((congrArg Device.formed (setTime_onto d d x)).trans rfl))

theorem setRun (d : Device) (r : RunState) (k : Kind) : d.FormsKept (d.setRun r k) := by
  by_cases held : d.timebase.run = r
  · rw [setRun_held held]; exact refl d
  · rw [setRun_changes held]
    exact (withTimebase d (t := { d.timebase with run := r }) fun wf => { wf with }).trans (of_eq rfl)

/-! ### The table's work (06 R122, R128) -/

theorem noteRefusal (d : Device) (e : EntryNo) (place target : Nat) (st : Stamp) (status : Status) :
    d.FormsKept (d.noteRefusal e place target st status) := by
  unfold Device.noteRefusal
  split <;> exact of_eq rfl

theorem noteFire (d : Device) (e : EntryNo) (st : Stamp) : d.FormsKept (d.noteFire e st) := by
  unfold Device.noteFire
  repeat' split
  all_goals exact of_eq rfl

theorem tableOp (d : Device) (st : Stamp) (op : TableOp) (rest : List TableOp) : d.FormsKept (d.tableOp st op rest).1 := by
  cases op with
  | turn e =>
    simp only [Device.tableOp]
    split
    · exact (setEntry d e Entry.Wf.settled).trans (noteFire _ e st)
    · exact refl d
  | onLane e place a n =>
    exact ((laneStep (.laneAction n d a .schedule st)).trans (noteRefusal _ e place n.val st _)).trans (of_eq rfl)
  | mark e tag => exact (arriveFirst d _).trans (recordArrives _ _)
  | arm e place target => exact (setEntry d target Entry.Wf.arm).trans (noteRefusal _ e place target.val st _)
  | disarm e place target => exact (setEntry d target Entry.Wf.disarm).trans (noteRefusal _ e place target.val st _)

theorem tableOps (st : Stamp) (k : Nat) (d : Device) (ops : List TableOp) : d.FormsKept (Device.tableOps st k d ops).1 := by
  induction k generalizing d ops with
  | zero => exact refl d
  | succ k ih =>
    cases ops with
    | nil => exact refl d
    | cons op rest => exact (tableOp d st op rest).trans (ih _ _)

theorem runTable (d : Device) (share : Option Nat) : d.FormsKept (d.runTable share) := by
  cases hw : d.schedule.work with
  | none => rw [runTable_none hw]; exact refl d
  | some w =>
    unfold Device.runTable
    rw [hw]
    exact (((of_eq rfl : d.FormsKept { d with events := w.event }).trans (tableOps w.stamp _ _ w.ops))).trans (of_eq rfl)

theorem beginEvent (d : Device) (ev : TableEvent) (st : Stamp) : d.FormsKept (d.beginEvent ev st) := by
  unfold Device.beginEvent
  dsimp only
  split
  · exact judgeAll d ev
  · exact (judgeAll d ev).trans (of_eq rfl)

/-- An event taken off its list, and then judged (06 R122). -/
theorem taken {d e : Device} (h : e.formed = d.formed) (ev : TableEvent) (st : Stamp) : d.FormsKept (e.beginEvent ev st) :=
  (of_eq h).trans (beginEvent e ev st)

theorem takeSecond {d d' : Device} (h : d.takeSecond = some d') : d.FormsKept d' := by
  unfold Device.takeSecond at h
  split at h <;> cases h
  exact taken (by rfl) _ _

theorem takeMinute {d d' : Device} (h : d.takeMinute = some d') : d.FormsKept d' := by
  unfold Device.takeMinute at h
  split at h <;> cases h
  exact taken (by rfl) _ _

theorem takeFine {d d' : Device} (h : d.takeFine = some d') : d.FormsKept d' := by
  unfold Device.takeFine at h
  split at h <;> cases h
  exact taken (by rfl) _ _

theorem takeEdge {d d' : Device} (p : Pin) (h : d.takeEdge p = some d') : d.FormsKept d' := by
  unfold Device.takeEdge at h
  split at h <;> cases h
  exact taken (by rfl) _ _

theorem tableEvent (d : Device) (share : Option Nat) {take : Device → Option Device}
    (h : ∀ d', take d = some d' → d.FormsKept d') : d.FormsKept (d.tableEvent share take) := by
  unfold Device.tableEvent
  split
  · exact runTable d share
  · split
    · exact refl d
    · next d' hd => exact (h d' hd).trans (runTable d' share)

theorem expire (d : Device) (e : EntryNo) : d.FormsKept (d.expire e) := by
  unfold Device.expire
  repeat' split
  · exact runTable d _
  all_goals exact refl d

/-! ### Requests to the table (06 R116 to R121) -/

theorem entryRequest {take : EntryNo → Device → Device × Answer} (h : ∀ e (d : Device), d.FormsKept (take e d).1)
    (params : List Byte) (d : Device) : d.FormsKept (entryRequest params take d).1 := by
  unfold Machine.entryRequest
  repeat' split
  · exact (runTable d none).trans (h _ _)
  all_goals exact refl d

theorem moveEntry {f : Entry → Entry × Status} (hf : ∀ {x : Entry}, x.Wf → (f x).1.Wf) (e : EntryNo) (d : Device) :
    d.FormsKept (moveEntry f e d).1 := by
  unfold Machine.moveEntry
  dsimp only
  split
  · exact setEntry d e hf
  · exact refl d

theorem defineEntry (d : Device) (e : EntryNo) {df : Definition} (h : df.ok = true) : d.FormsKept (d.defineEntry e df).1 := by
  have defined : d.FormsKept (d.setEntry e df.entry) := setEntry d e fun _ => Definition.entry_wf h
  unfold Device.defineEntry
  split
  · exact defined
  · exact defined
  · exact refl d
  · exact refl d

/-- ENTRY SET takes a definition in range alone (06 R116). -/
theorem ownEntrySet (params : List Byte) (d : Device) : d.FormsKept (ownEntrySet params d).1 := by
  unfold Machine.ownEntrySet
  split
  · next length =>
    split
    · next e df _ hdf =>
      have ok : df.ok = true := by
        cases params with
        | nil => cases hdf
        | cons b rest => exact definitionOf_ok hdf length
      exact (runTable d none).trans (defineEntry _ e ok)
    · exact refl d
  · exact refl d

/-! ### The owners of the requests (10 R183) -/

section
variable (params : List Byte) (d : Device)

theorem ownTimeSet : d.FormsKept (ownTimeSet params d).1 := by
  unfold Machine.ownTimeSet
  apply asRequest
  split
  · split
    · exact refl d
    · next x hx =>
      split
      · exact refl d
      · next noFault => exact setTime (Bool.eq_false_iff.2 noFault) (inRange_of_settingOf hx)
  · exact refl d

theorem ownTimeStop : d.FormsKept (ownTimeStop params d).1 := by
  unfold Machine.ownTimeStop
  apply asRequest
  split
  · exact setRun d _ _
  · exact refl d

theorem ownTimeRun : d.FormsKept (ownTimeRun params d).1 := by
  unfold Machine.ownTimeRun
  apply asRequest
  split
  · exact setRun d _ _
  · exact refl d

theorem ownAttention : d.FormsKept (ownAttention params d).1 := by
  unfold Machine.ownAttention
  repeat' split
  · exact each d fun _ _ wf => wf.serve _ _
  all_goals exact refl d

theorem ownAttentionConfig : d.FormsKept (ownAttentionConfig params d).1 := by
  unfold Machine.ownAttentionConfig
  repeat' split
  · exact each d fun _ x _ => x.configure_wf _ _ _
  all_goals exact refl d

theorem ownPageSwap : d.FormsKept (ownPageSwap params d).1 := by
  unfold Machine.ownPageSwap
  apply asRequest
  repeat' split
  · exact maskRequest (fun n d => .armSwap n d d.now) _ d
  · exact maskRequest (fun n d => .cancelSwap n d) _ d
  all_goals exact refl d

theorem ownJournalTake : d.FormsKept (ownJournalTake params d).1 := by
  unfold Machine.ownJournalTake asEvent
  apply settle
  repeat' split
  all_goals exact of_eq rfl

theorem ownJournalConfig : d.FormsKept (ownJournalConfig params d).1 := by
  unfold Machine.ownJournalConfig
  repeat' split
  · exact journalWork (.configJournal d _ _)
  all_goals exact refl d

theorem ownJournalMark : d.FormsKept (ownJournalMark params d).1 := by
  unfold Machine.ownJournalMark
  split
  · exact (arriveFirst d _).trans (recordArrives _ _)
  · exact refl d

theorem ownCaptureTake : d.FormsKept (ownCaptureTake params d).1 := by
  unfold Machine.ownCaptureTake
  apply asRequest
  repeat' split
  · unfold Device.takeCapture
    split
    · exact trans (b := { d with capture := d.capture.setSlot _ .free }) (of_eq rfl) (laneStep (.grantTest 0 _))
    all_goals exact refl d
  all_goals exact refl d

end

/-- The owners that touch nothing that the five forms speak of. -/
def bystanders : List (List Byte → Device → Device × Answer) :=
  [ownDeviceInfo, ownReset, ownExtConfig, ownPatternSet, ownPatternGet, ownTimeGet, ownLaneStatus, ownProfileSet,
    ownProfileGet, ownIntervalTake, ownJournalStatus, ownCaptureStatus]

theorem bystander {own : List Byte → Device → Device × Answer} (h : own ∈ bystanders) (params : List Byte) (d : Device) :
    d.FormsKept (own params d).1 := by
  refine of_eq ?_
  simp only [bystanders, List.mem_cons, List.not_mem_nil, or_false] at h
  obtain rfl | rfl | rfl | rfl | rfl | rfl | rfl | rfl | rfl | rfl | rfl | rfl := h
  all_goals
    simp only [ownDeviceInfo, ownReset, ownExtConfig, ownPatternSet, ownPatternGet, ownTimeGet, ownLaneStatus, Machine.laneRequest,
      ownProfileSet, Device.setProfile, ownProfileGet, ownIntervalTake, ownJournalStatus, ownCaptureStatus]
    repeat' split
    all_goals rfl

theorem owner : ∀ p ∈ requestOwners, ∀ (params : List Byte) (d : Device), d.FormsKept (p.2 params d).1 := by
  intro p hp params d
  have passes {own : List Byte → Device → Device × Answer} (h : own ∈ bystanders) : d.FormsKept (own params d).1 :=
    bystander h params d
  simp only [requestOwners, List.mem_append, List.mem_cons, List.not_mem_nil, or_false] at hp
  obtain ((device | lane) | table) | rest := hp
  · obtain rfl | rfl | rfl | rfl | rfl | rfl | rfl | rfl | rfl | rfl | rfl := device
    · exact passes (by simp [bystanders])
    · exact passes (by simp [bystanders])
    · exact ownAttention params d
    · exact ownAttentionConfig params d
    iterate 4 exact passes (by simp [bystanders])
    · exact ownTimeSet params d
    · exact ownTimeStop params d
    · exact ownTimeRun params d
  · obtain rfl | rfl | rfl | rfl | rfl | rfl | rfl | rfl | rfl | rfl | rfl := lane
    · exact asRequest (laneRequest params d fun n => .startLane n d _)
    · exact asRequest (laneRequest params d fun n => .stopLane n d _)
    · exact passes (by simp [bystanders])
    · exact passes (by simp [bystanders])
    · exact passes (by simp [bystanders])
    · exact ownPageSwap params d
    · exact asRequest (maskOnly .close params d)
    · exact passes (by simp [bystanders])
    · exact asRequest (maskOnly .testStart params d)
    · exact asRequest (maskOnly .testStop params d)
    · exact asRequest (maskOnly .insert params d)
  · obtain rfl | rfl | rfl | rfl | rfl | rfl | rfl := table
    · exact ownEntrySet params d
    · exact entryRequest (fun _ d => refl d) params d
    · exact entryRequest (moveEntry Entry.Wf.arm) params d
    · exact entryRequest (moveEntry Entry.Wf.disarm) params d
    · exact entryRequest (moveEntry Entry.Wf.pause) params d
    · exact entryRequest (moveEntry Entry.Wf.resume) params d
    · exact entryRequest (moveEntry (f := Entry.clear) fun _ => Entry.clear_wf _) params d
  · obtain rfl | rfl | rfl | rfl | rfl | rfl | rfl | rfl := rest
    · exact ownJournalTake params d
    · exact passes (by simp [bystanders])
    · exact ownJournalConfig params d
    · exact ownJournalMark params d
    · exact asRequest (maskOnly .capture params d)
    · exact passes (by simp [bystanders])
    · exact ownCaptureTake params d
    · exact asRequest (laneRequest params d fun n => laneStep_abortCapture d n)

theorem requestOwner (code : Byte) (params : List Byte) (d : Device) : d.FormsKept (requestOwner code params d).1 := by
  unfold Machine.requestOwner
  cases h : requestOwners.lookup code with
  | none => exact refl d
  | some own =>
    obtain ⟨before, after, owners, -⟩ := List.lookup_eq_some_iff.1 h
    exact owner (code, own) (by rw [owners]; simp) params d

/-! ### The receiver (10 R177, R178) -/

theorem frameDone (d : Device) (bytes : List Byte) (check : Byte) : d.FormsKept (d.frameDone bytes check) := by
  unfold Device.frameDone
  repeat' split
  case h_1 tag code params _ => exact request code tag (requestOwner code params d.frameEnds)
  all_goals exact discardFrame d

/-- LEN is taken only in its range, and a character joins the bytes only while LEN counts it (10 R177, R178). -/
theorem frameByte {d : Device} {bytes : List Byte} (hrx : d.port.rx = .inFrame bytes) (b : Byte) :
    d.FormsKept (d.frameByte bytes b) := by
  cases bytes with
  | nil =>
    simp only [Device.frameByte]
    split
    · exact discardFrame d
    · next inside =>
      simp only [Config.lenMin, Config.lenMax, not_or, Nat.not_lt] at inside
      exact receiver d fun _ => (Port.wf_cons rfl).2 ⟨inside.1, inside.2, Nat.zero_le _⟩
  | cons len rest =>
    simp only [Device.frameByte]
    split
    · exact frameDone d _ b
    · next more =>
      refine receiver d fun wf => (Port.wf_cons rfl).2 ?_
      obtain ⟨least, most, counted⟩ := (Port.wf_cons hrx).1 wf
      rw [List.length_cons] at more
      refine ⟨least, most, ?_⟩
      change (rest ++ [b]).length ≤ _
      rw [List.length_append, List.length_singleton]
      omega

theorem crxCharacter {b : Byte} {good : Bool} {s t : State} (h : exec (.crxCharacter b good) s = .next t) :
    s.dev.FormsKept t.dev := by
  cases h
  dsimp only
  split
  · split
    · exact receiver s.dev fun _ => trivial
    · exact refl s.dev
  · next bytes hrx =>
    split
    · exact frameByte hrx b
    · exact discardFrame s.dev

/-! ### Ticks, samples and the oscillator (05 R92, R93, R107, R108, 09 R173) -/

theorem deliverTick (d : Device) : d.FormsKept d.deliverTick := by
  refine { refl d with timebase := fun wf => { wf with divider := ?_ } }
  dsimp only [Device.deliverTick]
  split <;> omega

theorem fineTick (d : Device) : d.FormsKept d.fineTick := by
  cases fault : d.timebase.oscFault with
  | true => rw [fineTick_fault fault]; exact refl d
  | false =>
    cases run : d.timebase.run with
    | stopped => rw [fineTick_stopped fault run]; exact deliverTick d
    | running =>
      refine (deliverTick d).trans ?_
      by_cases within : d.timebase.fraction < 1023
      · rw [fineTick_within fault run within]
        exact withTimebase _ fun wf => { wf with fraction := within }
      · have zeroed (wf : d.deliverTick.timebase.Wf) : Timebase.Wf { d.deliverTick.timebase with fraction := 0 } :=
          { wf with fraction := Nat.zero_le _ }
        rw [fineTick_second fault run (Nat.not_lt.1 within)]
        exact (withTimebase _ fun wf => (zeroed wf).carrySecond).trans (of_eq rfl)

theorem sample (d : Device) (e0 e1 : Bool) : d.FormsKept (d.sample e0 e1) := by
  unfold Device.sample
  split
  · exact refl d
  · exact { refl d with inputs := fun ⟨ext0, ext1⟩ => ⟨PinFilter.count_sample ext0 e0, PinFilter.count_sample ext1 e1⟩ }

theorem noteEdge (d : Device) (p : Pin) : d.FormsKept (d.noteEdge p) := by
  unfold Device.noteEdge
  dsimp only
  repeat' split
  all_goals exact of_eq rfl

/-- The detection makes the time invalid, and no measure is under way (05 R107). -/
theorem detectFault (d : Device) : d.FormsKept d.detectFault := by
  cases fault : d.timebase.oscFault with
  | true => rw [detectFault_faulty fault]; exact refl d
  | false =>
    rw [detectFault_found fault]
    refine (withTimebase d fun wf => ?_).trans (of_eq rfl)
    exact { wf with measure := fun _ => rfl, valid := Bool.noConfusion }

theorem recover (d : Device) : d.FormsKept d.recover := by
  by_cases measured : d.timebase.oscFault = true ∧ d.timebase.measure.isSome = true
  · obtain ⟨fault, some⟩ := measured
    obtain ⟨k, hk⟩ := Option.isSome_iff_exists.1 some
    rw [recover_measured fault hk]
    refine (withTimebase d fun wf => ?_).trans (of_eq rfl)
    exact { wf with measure := Bool.noConfusion, valid := fun valid => ⟨(wf.valid valid).1, rfl⟩ }
  · rw [not_and_or, Bool.not_eq_true, Bool.not_eq_true, Option.isSome_eq_false_iff, Option.isNone_iff_eq_none] at measured
    rw [recover_nothing measured]
    exact refl d

/-- The measure runs only during a fault (05 R108). -/
theorem crystalCycleSeen {s t : State} (h : exec .crystalCycleSeen s = .next t) : s.dev.FormsKept t.dev := by
  cases fault : s.dev.timebase.oscFault with
  | true =>
    cases (exec_crystalCycleSeen fault).symm.trans h
    exact withTimebase s.dev fun wf => { wf with measure := fun _ => fault }
  | false =>
    cases (exec_crystalCycleSeen_noFault fault).symm.trans h
    exact refl s.dev

theorem oscMeasureRestart {s t : State} (h : exec .oscMeasureRestart s = .next t) : s.dev.FormsKept t.dev := by
  cases h
  refine withTimebase s.dev fun wf => { wf with measure := fun some => wf.measure ?_ }
  rw [Option.isSome_map] at some
  exact some

/-! ### Every command -/

theorem event {c : Instr} (hc : c.request? = none) {s t : State} (h : exec c s = .next t) : s.dev.FormsKept t.dev := by
  cases c with
  | powerOnReset r1 r0 =>
    obtain ⟨t', ht, cleared, -⟩ := exec_resetting (s := s) (c := .powerOnReset r1 r0) trivial
    cases ht.symm.trans h
    obtain ⟨-, -, -, timebase, -⟩ := resetHasItsForm
    cases h
    exact of_cleared cleared fun _ => timebase
  | resetPin r1 r0 =>
    obtain ⟨t', ht, cleared, -⟩ := exec_resetting (s := s) (c := .resetPin r1 r0) trivial
    cases ht.symm.trans h
    cases h
    exact of_cleared cleared id
  | resetTakesEffect =>
    cases h
    dsimp only
    repeat' split
    · exact refl s.dev
    · exact resetRequest s.dev
    · exact refl s.dev
  | replySent =>
    cases h
    dsimp only
    unfold Device.replyEnds
    repeat' split
    · exact refl s.dev
    · exact resetRequest s.dev
    · exact of_eq rfl
  | badFrame cause =>
    cases h
    dsimp only
    repeat' split
    case isFalse => exact refl s.dev
    all_goals exact discardFrame s.dev
  | frameGapTimeout =>
    cases h
    dsimp only
    split
    · exact refl s.dev
    · exact discardFrame s.dev
  | crxCharacter b good => exact crxCharacter h
  | cellArrival n x =>
    cases h
    dsimp only
    split
    · exact (laneStep (.takeCell n s.dev x _)).settle _
    · exact refl s.dev
  | transmitCell n =>
    cases h
    have sent : s.dev.FormsKept (Device.settle s.dev (s.dev.transmit n s.dev.now)) := (laneStep (.transmit n s.dev _)).settle _
    dsimp only
    repeat' split
    · exact sent.trans ((laneStep (.takeCell n _ _ _)).settle _)
    · exact sent
    · exact refl s.dev
  | driverFault n level =>
    cases h
    dsimp only
    split
    · exact (laneStep ((Device.LaneStep.modLane n s.dev _).trans (.takeFault n _ _))).settle _
    · exact of_eq rfl
  | secondArrival n =>
    cases h
    dsimp only
    split
    · exact refl s.dev
    · exact (laneStep ((Device.LaneStep.modLane n s.dev _).trans (.boundary n _ _))).settle _
  | fineTick => cases h; exact fineTick s.dev
  | filterSample e0 e1 => cases h; exact sample s.dev e0 e1
  | extEdge p => cases h; exact (noteEdge s.dev p).settle _
  | oscFault => cases h; exact (detectFault s.dev).settle _
  | oscResumed => cases h; exact (recover s.dev).settle _
  | oscMeasureRestart => exact oscMeasureRestart h
  | crystalCycleSeen => exact crystalCycleSeen h
  | scheduleSecondArrival share => cases h; exact tableEvent s.dev share fun _ => takeSecond
  | minuteArrival share => cases h; exact tableEvent s.dev share fun _ => takeMinute
  | scheduleFineTick share => cases h; exact tableEvent s.dev share fun _ => takeFine
  | scheduleEdge p share => cases h; exact tableEvent s.dev share fun _ => takeEdge p
  | countdownExpiry e => cases h; exact expire s.dev e
  | recordArrival place =>
    cases h
    dsimp only
    split
    · exact refl s.dev
    · next r rest _ => exact trans (b := { s.dev with inFlight := rest }) (of_eq rfl) (recordArrives _ r)
  | conditionChange cond =>
    cases h
    dsimp only
    split
    · exact refl s.dev
    · exact modify s.dev cond (fun _ wf => wf.change _) _
  | _ => cases hc

theorem exec {c : Instr} {s t : State} (h : exec c s = .next t) : s.dev.FormsKept t.dev := by
  cases hc : c.request? with
  | none => exact event hc h
  | some r =>
    obtain ⟨code, tag, params⟩ := r
    obtain idle | ran := exec_of_request? hc s
    · cases idle.symm.trans h
      exact refl s.dev
    · cases ran.symm.trans h
      exact request code tag (requestOwner code params s.dev.frameEnds)

end Device.FormsKept

/-- Settles O60: no command's work takes one of the five blocks out of its form, and a step runs one command or none. -/
theorem theOtherBlocksKeepTheirForm : Obligations.TheOtherBlocksKeepTheirForm := by
  intro s t h
  have kept : s.dev.FormsKept t.dev := by
    unfold step at h
    split at h
    · cases h; exact .refl s.dev
    · next c rest _ => exact Device.FormsKept.exec (s := { s with pending := rest }) h
  exact ⟨kept.timebase, kept.schedule, kept.attention, kept.inputs, kept.port⟩

end Sys2Proof.Machine
end

