-- ==== Sys2Proof/Proofs/EntryRequests.lean ====
section
namespace Sys2Proof.Machine

open Sys2Proof

/-! ### What the table's work leaves alone (06 R122, R128) -/

/-- Neither the timebase nor the port differs: the table's work reads the one and never comes to the other. -/
structure Device.OffTable (d d' : Device) : Prop where
  timebase : d'.timebase = d.timebase
  port : d'.port = d.port

namespace Device.OffTable

theorem refl (d : Device) : d.OffTable d := ⟨rfl, rfl⟩

theorem trans {a b c : Device} (h : a.OffTable b) (k : b.OffTable c) : a.OffTable c :=
  ⟨k.timebase.trans h.timebase, k.port.trans h.port⟩

theorem noteRefusal (d : Device) (e : EntryNo) (place target : Nat) (st : Stamp) (status : Status) :
    d.OffTable (d.noteRefusal e place target st status) := by
  unfold Device.noteRefusal
  split <;> exact ⟨rfl, rfl⟩

theorem noteFire (d : Device) (e : EntryNo) (st : Stamp) : d.OffTable (d.noteFire e st) := by
  unfold Device.noteFire
  repeat' split
  all_goals exact ⟨rfl, rfl⟩

theorem tableOp (d : Device) (st : Stamp) (op : TableOp) (rest : List TableOp) : d.OffTable (d.tableOp st op rest).1 := by
  have entrySet (f : EntryNo) (x : Entry) : d.OffTable (d.setEntry f x) := ⟨rfl, rfl⟩
  cases op with
  | turn e =>
    simp only [Device.tableOp]
    split
    · exact (entrySet e _).trans (noteFire _ e st)
    · exact refl d
  | onLane e place a n =>
    have owner := Device.LaneStep.laneAction n d a .schedule st
    have taken : d.OffTable (d.laneAction a n .schedule st).1 := ⟨owner.timebase, owner.port⟩
    obtain ⟨timebase, port⟩ := taken.trans (noteRefusal _ e place n.val st _)
    exact ⟨timebase, port⟩
  | mark e tag =>
    simp only [Device.tableOp]
    rw [markAction_frame]
    exact ⟨rfl, rfl⟩
  | arm e place target => exact (entrySet target _).trans (noteRefusal _ e place target.val st _)
  | disarm e place target => exact (entrySet target _).trans (noteRefusal _ e place target.val st _)

theorem tableOps (st : Stamp) (k : Nat) (d : Device) (ops : List TableOp) : d.OffTable (Device.tableOps st k d ops).1 := by
  induction k generalizing d ops with
  | zero => exact refl d
  | succ k ih =>
    cases ops with
    | nil => exact refl d
    | cons op rest => exact (tableOp d st op rest).trans (ih _ _)

theorem runTable (d : Device) (share : Option Nat) : d.OffTable (d.runTable share) := by
  cases hw : d.schedule.work with
  | none => rw [runTable_none hw]; exact refl d
  | some w =>
    obtain ⟨timebase, port⟩ := tableOps w.stamp (share.getD (d.stepsLeft w.ops)) { d with events := w.event } w.ops
    rw [runTable_some hw]
    exact ⟨timebase, port⟩

end Device.OffTable

/-! ### Requests that name one entry (10 R183) -/

@[simp] theorem entryOf_entryByte (e : EntryNo) : entryOf (entryByte e) = some e := by revert e; decide

theorem entryOf_outOfRange {b : Byte} (h : 7 < b.toNat) : entryOf b = none := by
  simp [entryOf, Nat.not_lt.2 h]

theorem entryRequest_entry (e : EntryNo) (take : EntryNo → Device → Device × Answer) (d : Device) :
    entryRequest [entryByte e] take d = take e d.finishTable := by
  simp only [entryRequest, entryOf_entryByte]

/-- The table's work once done, there is nothing to finish. -/
theorem finishTable_atRest {d : Device} (h : d.schedule.work = none) : d.finishTable = d := runTable_none h none

theorem finishTable_frameEnds {d : Device} (h : d.schedule.work = none) : d.frameEnds.finishTable = d.frameEnds :=
  finishTable_atRest (d := d.frameEnds) h

theorem finishTable_twice (d : Device) : d.finishTable.finishTable = d.finishTable :=
  finishTable_atRest (work_runTable_none d)

/-- A number above 7 is BAD_VALUE before the table is asked (06 R117 to R121). -/
theorem entryRequest_badValue {code tag b : Byte} (take : EntryNo → Device → Device × Answer) (s : State) (h : s.dev.quiet)
    (hb : 7 < b.toNat) : s.onDevice (fun d => d.request code tag (entryRequest [b] take)) =
      .next (s.withDev (s.dev.answered tag code .badValue [])) :=
  onDevice_request_refused s h _ (by simp only [entryRequest, entryOf_outOfRange hb])

theorem frameEnds_of_waiting {d : Device} (h : d.port.rx = .waiting) : d.frameEnds = d := by
  unfold Device.frameEnds
  rw [← h]

/-- A request whose owner finishes the table's work before anything else finds, right after that work, what it finds now (log 6). -/
theorem takenAfterTheWork {c : Instr} {code tag : Byte} {own : Device → Device × Answer}
    (hc : ∀ t, exec c t = t.onDevice fun d => d.request code tag own) (hown : ∀ d, own d = own d.finishTable) (s : State)
    (h : s.dev.quiet) : TakenAfterTheWork c s := by
  have port : s.dev.frameEnds.finishTable.port = s.dev.frameEnds.port :=
    (Device.OffTable.runTable s.dev.frameEnds none).port
  have quiet : (s.withDev s.dev.frameEnds.finishTable).dev.quiet := (congrArg Port.reply port).trans h
  have waiting : s.dev.frameEnds.finishTable.frameEnds = s.dev.frameEnds.finishTable :=
    frameEnds_of_waiting (congrArg Port.rx port)
  refine ⟨?_, work_runTable_none s.dev.frameEnds⟩
  calc exec c s
      = .next (s.withDev ((own s.dev.frameEnds).1.replyWith tag code (own s.dev.frameEnds).2)) := by
        rw [hc, onDevice_request_quiet s h]
    _ = exec c (s.withDev s.dev.frameEnds.finishTable) := by
        rw [hc, onDevice_request_quiet _ quiet, dev_withDev, waiting, ← hown]
        rfl

theorem entryRequest_finishes (e : EntryNo) (take : EntryNo → Device → Device × Answer) (d : Device) :
    entryRequest [entryByte e] take d = entryRequest [entryByte e] take d.finishTable := by
  rw [entryRequest_entry, entryRequest_entry, finishTable_twice]

/-! ### ENTRY ARM, DISARM, PAUSE, RESUME and CLEAR (06 R118 to R121) -/

section
variable {code tag : Byte} {e : EntryNo} {f : Entry → Entry × Status} {s : State}

/-- A move that its rule allows: the entry stands moved, and the reply has its state and remaining count. -/
theorem moveEntry_moved (hq : s.dev.quiet) (hw : s.dev.schedule.work = none) {x : Entry} (h : f (s.dev.entry e) = (x, .ok)) :
    s.onDevice (fun d => d.request code tag (entryRequest [entryByte e] (moveEntry f))) =
      .next (s.withDev ((s.dev.setEntry e x).answered tag code .ok x.results)) := by
  have own : entryRequest [entryByte e] (moveEntry f) s.dev.frameEnds = (s.dev.frameEnds.setEntry e x, .ok x.results) := by
    rw [entryRequest_entry, finishTable_frameEnds hw, moveEntry, entry_frameEnds, h]
    rfl
  rw [onDevice_request_quiet s hq, own]
  rfl

/-- A move that its rule refuses changes nothing. -/
theorem moveEntry_refused (hq : s.dev.quiet) (hw : s.dev.schedule.work = none) {x : Entry} {st : Status}
    (h : f (s.dev.entry e) = (x, st)) (hst : st ≠ .ok) :
    s.onDevice (fun d => d.request code tag (entryRequest [entryByte e] (moveEntry f))) =
      .next (s.withDev (s.dev.answered tag code st [])) := by
  refine onDevice_request_refused s hq st ?_
  rw [entryRequest_entry, finishTable_frameEnds hw, moveEntry, entry_frameEnds, h]
  exact if_neg hst

end

/-- ENTRY PAUSE takes an ARMED countdown alone (06 R120). -/
theorem Entry.pause_held (st : EntryState) (df : Definition) (r : Nat) : (Entry.held st df r).pause =
    if st = .armed ∧ df.isCountdown = true then (.held .paused df r, .ok) else (.held st df r, .wrongState) := by
  cases st with
  | armed => simp only [Entry.pause, true_and]
  | idle | paused => rfl

/-- ENTRY RESUME takes a PAUSED entry alone (06 R120). -/
theorem Entry.resume_held (st : EntryState) (df : Definition) (r : Nat) : (Entry.held st df r).resume =
    if st = .paused then (.held .armed df r, .ok) else (.held st df r, .wrongState) := by
  cases st <;> rfl

/-- Settles O38: each request is the move of its rule, made or refused. -/
theorem entryRequestsMoveEntries : Obligations.EntryRequestsMoveEntries := by
  intro tag e s hq ok refused
  refine ⟨fun hw he => ?_, fun st df r hw he => ?_, fun b hb => ?_, fun c hc _ => ?_⟩
  · have missing {f : Entry → Entry × Status} (h : f .empty = (.empty, .noEntry)) (code : Byte) :=
      moveEntry_refused (code := code) (tag := tag) hq hw (he ▸ h) (by decide)
    exact ⟨missing rfl _, missing rfl _, missing rfl _, missing rfl _, moveEntry_moved hq hw rfl⟩
  · intro shown loaded
    have moved {f : Entry → Entry × Status} {x : Entry} (h : f (.held st df r) = (x, .ok)) (code : Byte) :=
      moveEntry_moved (code := code) (tag := tag) hq hw (he ▸ h)
    have wrong {f : Entry → Entry × Status} (h : f (.held st df r) = (.held st df r, .wrongState)) (code : Byte) :=
      moveEntry_refused (code := code) (tag := tag) hq hw (he ▸ h) (by decide)
    refine ⟨?_, moved rfl _, ?_, ?_, moved rfl _⟩
    · have arm : (Entry.held st df r).arm = (.held .armed df loaded, .ok) := by
        obtain ⟨kind, repeats, journalFire, actions⟩ := df
        cases kind <;> rfl
      exact moved arm _
    · split
      · next countdown => exact moved ((Entry.pause_held st df r).trans (if_pos countdown)) _
      · next other => exact wrong ((Entry.pause_held st df r).trans (if_neg other)) _
    · split
      · next paused => exact moved ((Entry.resume_held st df r).trans (if_pos paused)) _
      · next other => exact wrong ((Entry.resume_held st df r).trans (if_neg other)) _
  · exact ⟨entryRequest_badValue _ s hq hb, entryRequest_badValue _ s hq hb, entryRequest_badValue _ s hq hb,
      entryRequest_badValue _ s hq hb, entryRequest_badValue _ s hq hb⟩
  · simp only [List.mem_cons, List.not_mem_nil, or_false] at hc
    rcases hc with rfl | rfl | rfl | rfl | rfl
    all_goals exact takenAfterTheWork (fun _ => rfl) (entryRequest_finishes e _) s hq

/-! ### ENTRY SET and ENTRY GET (06 R116, R117) -/

/-- The image of a definition with the entry byte before it has a length that the request table allows (10 R183, R187). -/
theorem entrySetLengths_of_image (b : Byte) {image : List Byte} (h : image.length ∈ [10, 12, 14, 16]) :
    (b :: image).length ∈ entrySetLengths := by
  simp only [entrySetLengths, List.length_cons, List.mem_cons, List.not_mem_nil, or_false] at h ⊢
  omega

theorem ownEntrySet_badValue {b : Byte} {image : List Byte} (hl : image.length ∈ [10, 12, 14, 16])
    (h : 7 < b.toNat ∨ definitionOf image = none) (d : Device) : ownEntrySet (b :: image) d = (d, .refuse .badValue) := by
  rw [ownEntrySet, if_pos (entrySetLengths_of_image _ hl), List.headD_cons, List.tail_cons]
  obtain h | h := h
  · rw [entryOf_outOfRange h]
  · rw [h]; cases entryOf b <;> rfl

theorem ownEntrySet_inRange {image : List Byte} {df : Definition} (hl : image.length ∈ [10, 12, 14, 16])
    (h : definitionOf image = some df) (e : EntryNo) (d : Device) :
    ownEntrySet (entryByte e :: image) d = d.finishTable.defineEntry e df := by
  rw [ownEntrySet, if_pos (entrySetLengths_of_image _ hl), List.headD_cons, List.tail_cons, entryOf_entryByte, h]

/-- An ARMED or PAUSED entry keeps its definition (06 R116). -/
theorem defineEntry_active {d : Device} {e : EntryNo} (h : ∃ r df', d.entry e = .held .armed df' r ∨ d.entry e = .held .paused df' r)
    (df : Definition) : d.defineEntry e df = (d, .refuse .entryActive) := by
  obtain ⟨r, df', h | h⟩ := h <;> rw [Device.defineEntry, h]

/-- An EMPTY or IDLE entry takes a new one (06 R116). -/
theorem defineEntry_free {d : Device} {e : EntryNo} (h : d.entry e = .empty ∨ ∃ r df', d.entry e = .held .idle df' r)
    (df : Definition) : d.defineEntry e df = (d.setEntry e df.entry, .ok []) := by
  obtain h | ⟨r, df', h⟩ := h <;> rw [Device.defineEntry, h]

/-- ENTRY GET at rest reads the entry and changes nothing (06 R117). -/
theorem entryGet_atRest {s : State} (hq : s.dev.quiet) (hw : s.dev.schedule.work = none) (tag : Byte) (e : EntryNo) :
    exec (.entryGet tag [entryByte e]) s = .next (s.withDev (s.dev.answered tag 0x31#8 .ok (s.dev.entry e).getResults)) := by
  refine onDevice_request_answered s hq _ _ ?_
  rw [ownEntryGet, entryRequest_entry, finishTable_frameEnds hw]
  rfl

/-- Settles O39: the two checks of ENTRY SET in order, the definition held, and what ENTRY GET reads. -/
theorem entriesAreDefinedAndRead : Obligations.EntriesAreDefinedAndRead := by
  refine ⟨fun tag b image s hq hl => ⟨fun h => ?_, fun e df hb hdf => ?_⟩, fun tag s hq => ⟨fun e _ => ?_, fun b hb => ?_,
    fun e hw he => ?_, fun e st df r hw he => ?_⟩⟩
  · exact onDevice_request_refused s hq _ (ownEntrySet_badValue hl h _)
  · subst hb
    have own := ownEntrySet_inRange hl hdf e
    have atRest (hw : s.dev.schedule.work = none) :
        ownEntrySet (entryByte e :: image) s.dev.frameEnds = s.dev.frameEnds.defineEntry e df := by
      rw [own, finishTable_frameEnds hw]
    refine ⟨fun _ => takenAfterTheWork (fun _ => rfl) (fun d => by rw [own, own, finishTable_twice]) s hq, fun hw active => ?_,
      fun hw free => ?_⟩
    · exact onDevice_request_refused s hq _ ((atRest hw).trans (defineEntry_active (d := s.dev.frameEnds) active df))
    · refine (onDevice_request_quiet s hq).trans ?_
      rw [atRest hw, defineEntry_free (d := s.dev.frameEnds) free]
      obtain ⟨kind, repeats, journalFire, actions⟩ := df
      cases kind <;> rfl
  · exact takenAfterTheWork (fun _ => rfl) (entryRequest_finishes e _) s hq
  · exact entryRequest_badValue _ s hq hb
  · rw [entryGet_atRest hq hw, he]
    rfl
  · rw [entryGet_atRest hq hw, he]
    cases st <;> rfl

end Sys2Proof.Machine
end

