-- ==== Sys2Proof/Proofs/TableEvents.lean ====
section
namespace Sys2Proof.Machine

open Sys2Proof

/-! ### Step 1 of an event at one entry (06 R122 to R126) -/

/-- Only an ARMED entry is judged (06 R122). -/
theorem judge_notArmed {x : Entry} (h : ∀ df r, x ≠ .held .armed df r) (ev : TableEvent) : x.judge ev = (x, false) := by
  cases x with
  | empty => rfl
  | held st df r =>
    cases st with
    | armed => exact absurd rfl (h df r)
    | idle | paused => rfl

/-- A countdown takes the ticks of its base, and no other event (06 R124). -/
theorem judge_countdown {df : Definition} {base : Base} {preset : Nat} (h : df.kind = .countdown base preset) (r : Nat)
    (ev : TableEvent) : (Entry.held .armed df r).judge ev =
      if base.ticksAt ev then (.held .armed df (r - 1), decide (r ≤ 1)) else (.held .armed df r, false) := by
  have due : decide (r - 1 = 0) = decide (r ≤ 1) := decide_eq_decide.2 Nat.sub_eq_zero_iff_le
  simp only [Entry.judge, h, due]

/-- Another kind is due where it meets the event, and keeps its count (06 R123, R126). -/
theorem judge_notCountdown {df : Definition} (h : df.isCountdown = false) (r : Nat) (ev : TableEvent) :
    (Entry.held .armed df r).judge ev = (.held .armed df r, df.kind.meets ev) := by
  obtain ⟨kind, repeats, journalFire, actions⟩ := df
  cases kind with
  | countdown base preset => cases h
  | atTime second minute hour day => rfl
  | external pin edge => rfl

theorem fieldMatches_iff (f : Option Nat) (n : Nat) : fieldMatches f n = true ↔ f = none ∨ f = some n := by
  cases f <;> simp [fieldMatches]

theorem DaySelector.matches_iff (day : DaySelector) (a : Arrival) : day.matches a = true ↔
    day = .any ∨ (∃ set, day = .weekdays set ∧ set.getLsbD a.weekday = true) ∨ day = .dayOfMonth a.time.day := by
  cases day <;> simp [DaySelector.matches]

/-- A MATCH entry meets the second arrivals that its four fields match (06 R123). -/
theorem meets_second_iff (second minute hour : Option Nat) (day : DaySelector) (a : Arrival) :
    (EntryKind.atTime second minute hour day).meets (.second a) = true ↔
      (second = none ∨ second = some a.time.second) ∧ (minute = none ∨ minute = some a.time.minute) ∧
      (hour = none ∨ hour = some a.time.hour) ∧
      (day = .any ∨ (∃ set, day = .weekdays set ∧ set.getLsbD a.weekday = true) ∨ day = .dayOfMonth a.time.day) := by
  simp only [EntryKind.meets, Bool.and_eq_true, fieldMatches_iff, DaySelector.matches_iff, and_assoc]

/-- A second in range is no leap second (06 R112). -/
theorem second_le_of_ok {second minute hour : Option Nat} {day : DaySelector}
    (h : (EntryKind.atTime second minute hour day).ok = true) {n : Nat} (hn : second = some n) : n ≤ 59 := by
  subst hn
  simp only [EntryKind.ok, Option.all_some, Bool.and_eq_true, decide_eq_true_eq] at h
  obtain ⟨⟨⟨inside, -⟩, -⟩, -⟩ := h
  exact inside

/-- An EXTERNAL entry meets its pin's edges of its choice (06 R126). -/
theorem meets_edge_iff (pin : Pin) (edge : EdgeChoice) (e : Edge) : (EntryKind.external pin edge).meets (.edge e) = true ↔
    pin = e.pin ∧ (edge = .both ∨ (edge = .rising ∧ e.rising = true) ∨ (edge = .falling ∧ e.rising = false)) := by
  rw [EntryKind.meets, Bool.and_eq_true, decide_eq_true_eq]
  cases edge <;> simp [EdgeChoice.takes]

/-- Settles O40: the three kinds judged, and what MATCH and EXTERNAL entries meet. -/
theorem entriesAreJudged : Obligations.EntriesAreJudged := by
  refine ⟨fun ev x => ⟨fun h => judge_notArmed h ev, fun df r base preset hx hk => ⟨fun h => ?_, fun h => ?_⟩,
      fun df r hx h => hx ▸ judge_notCountdown h r ev, fun base => ?_⟩,
    fun second minute hour day a ok => ⟨meets_second_iff second minute hour day a, fun leap h => ?_,
      fun _ _ _ => ⟨rfl, rfl, rfl⟩⟩,
    meets_edge_iff, fun _ _ _ _ _ => ⟨rfl, rfl, rfl⟩⟩
  · rw [hx, judge_countdown hk, if_pos h]
  · rw [hx, judge_countdown hk, h, if_neg Bool.false_ne_true]
  · cases base <;> cases ev <;> simp [Base.ticksAt]
  · obtain ⟨any | matched, -⟩ := (meets_second_iff second minute hour day a).1 h
    · exact any
    · have := second_le_of_ok ok matched
      omega

/-! ### The work that an event begins (06 R122) -/

/-- Every entry is judged, and the turns of the due ones are the work begun, in increasing number (06 R122). -/
theorem beginEvent_atRest {d : Device} (h : d.schedule.work = none) (ev : TableEvent) (st : Stamp) :
    let due := allEntries.filter fun e => ((d.entry e).judge ev).2
    d.beginEvent ev st = { d with
      schedule := { d.schedule with
        entries := Vector.ofFn fun e : EntryNo => ((d.entry e).judge ev).1
        work := if due = [] then none else some ⟨st, d.events, due.map .turn⟩ }
      events := if due = [] then d.events else d.events + 1 } := by
  intro due
  have same : d.dueEntries ev = due := rfl
  rw [Device.beginEvent, same]
  by_cases nothing : due = []
  · simp only [nothing, List.isEmpty_nil, if_true, Device.judgeAll, h]
  · simp only [nothing, List.isEmpty_iff, if_false]
    rfl

/-- Work of no steps done is none. -/
theorem runTable_zero {d : Device} (h : ∀ w, d.schedule.work = some w → w.ops ≠ []) : d.runTable (some 0) = d := by
  cases hw : d.schedule.work with
  | none => exact runTable_none hw _
  | some w =>
    rw [runTable_some hw]
    simp only [Option.getD_some, Device.tableOps, if_neg (h w hw), ← hw]

/-- A share of 0 and then another is that other share (log 6). -/
theorem runTable_runTable_zero (d : Device) (share : Option Nat) : (d.runTable (some 0)).runTable share = d.runTable share := by
  by_cases left : ∀ w, d.schedule.work = some w → w.ops ≠ []
  · rw [runTable_zero left]
  · push Not at left
    obtain ⟨w, hw, noSteps⟩ := left
    have finished (share : Option Nat) : d.runTable share = { d with schedule := { d.schedule with work := none } } := by
      rw [runTable_some hw]
      simp only [noSteps, tableOps_nil, if_true]
    rw [finished, finished, runTable_none rfl]

/-- The work begun has the turn of a due entry before it. -/
theorem runTable_beginEvent_zero {d : Device} (h : d.schedule.work = none) (ev : TableEvent) (st : Stamp) :
    (d.beginEvent ev st).runTable (some 0) = d.beginEvent ev st := by
  refine runTable_zero fun w hw => ?_
  rw [beginEvent_atRest h] at hw
  dsimp only at hw
  split at hw
  · cases hw
  · next due => cases hw; exact mt List.map_eq_nil_iff.1 due

/-! ### How the table takes an event (06 R122, R126, R127) -/

section
variable {d d' : Device} {take : Device → Option Device}

theorem tableEvent_atWork (h : d.schedule.work ≠ none) (share : Option Nat) (take : Device → Option Device) :
    d.tableEvent share take = d.runTable share := by
  obtain ⟨w, hw⟩ := Option.ne_none_iff_exists'.1 h
  rw [Device.tableEvent, hw]

theorem tableEvent_nothing (hw : d.schedule.work = none) (h : take d = none) (share : Option Nat) :
    d.tableEvent share take = d := by
  rw [Device.tableEvent, hw, h]

theorem tableEvent_taken (hw : d.schedule.work = none) (h : take d = some d') (share : Option Nat) :
    d.tableEvent share take = d'.runTable share := by
  rw [Device.tableEvent, hw, h]

/-- The event taken with a share of 0, the share given then goes on with its work (log 6). -/
theorem tableEvent_share (h : d.schedule.work = none) (share : Option Nat) (take : Device → Option Device) :
    d.tableEvent share take = (d.tableEvent (some 0) take).runTable share := by
  cases ht : take d with
  | none => rw [tableEvent_nothing h ht, tableEvent_nothing h ht, runTable_none h]
  | some d' => rw [tableEvent_taken h ht, tableEvent_taken h ht, runTable_runTable_zero]

/-- Without a share the whole work is done. -/
theorem work_tableEvent_none (d : Device) (take : Device → Option Device) : (d.tableEvent none take).schedule.work = none := by
  by_cases h : d.schedule.work = none
  · rw [tableEvent_share h]
    exact work_runTable_none _
  · rw [tableEvent_atWork h]
    exact work_runTable_none _

end

/-- Taking an event off its list and beginning its work is what the table does with a share of 0. -/
theorem tableEvent_begun {d e : Device} {take : Device → Option Device} (hw : d.schedule.work = none)
    (he : e.schedule.work = none) {ev : TableEvent} {st : Stamp} (h : take d = some (e.beginEvent ev st)) :
    d.tableEvent (some 0) take = e.beginEvent ev st := by
  rw [tableEvent_taken hw h, runTable_beginEvent_zero he]

/-- The oldest edge of a pin is the first of that pin in the list (06 R126). -/
theorem firstEdge_append {p : Pin} {pre : List Edge} (h : ∀ f ∈ pre, f.pin ≠ p) (later : List Edge) :
    firstEdge p (pre ++ later) = (firstEdge p later).map fun x => (x.1, pre ++ x.2) := by
  induction pre with
  | nil => simp only [List.nil_append, Option.map_id']
  | cons f pre ih =>
    rw [List.cons_append, firstEdge, if_neg (h f List.mem_cons_self), ih fun g hg => h g (List.mem_cons_of_mem f hg)]
    cases firstEdge p later <;> rfl

theorem firstEdge_none {p : Pin} {edges : List Edge} (h : ∀ f ∈ edges, f.pin ≠ p) : firstEdge p edges = none := by
  have := firstEdge_append h []
  rwa [List.append_nil] at this

theorem firstEdge_some {p : Pin} {pre : List Edge} {e : Edge} (h : ∀ f ∈ pre, f.pin ≠ p) (he : e.pin = p) (post : List Edge) :
    firstEdge p (pre ++ e :: post) = some (e, pre ++ post) := by
  rw [firstEdge_append h, firstEdge, if_pos he, Option.map_some]

theorem takeSecond_cons {d : Device} {a : Arrival} {rest : List Arrival} (h : d.schedule.seconds = a :: rest) :
    d.takeSecond = some (Device.beginEvent { d with schedule := { d.schedule with seconds := rest } } (.second a)
      (d.timebase.stampOf a.time)) := by
  simp only [Device.takeSecond, h]

theorem takeMinute_cons {d : Device} {a : Arrival} {rest : List Arrival} (h : d.schedule.minutes = a :: rest) :
    d.takeMinute = some (Device.beginEvent { d with schedule := { d.schedule with minutes := rest } } (.minute a)
      (d.timebase.stampOf a.time)) := by
  simp only [Device.takeMinute, h]

theorem takeFine_running {d : Device} (h : d.timebase.oscFault = false) :
    d.takeFine = some (Device.beginEvent { d with schedule := { d.schedule with ticks := d.schedule.ticks - 1 } }
      (.fine (d.timebase.is64 d.schedule.ticks)) d.now) :=
  if_neg (ne_true_of_eq_false h)

theorem takeEdge_append {d : Device} {p : Pin} {pre : List Edge} {e : Edge} {post : List Edge}
    (h : d.schedule.edges = pre ++ e :: post) (he : e.pin = p) (first : ∀ f ∈ pre, f.pin ≠ p) :
    d.takeEdge p = some (Device.beginEvent { d with schedule := { d.schedule with edges := pre ++ post } } (.edge e) d.now) := by
  simp only [Device.takeEdge, h, firstEdge_some first he]

/-- The four commands at which the table takes an event are `tableEvent` of one taking each. -/
theorem exec_tableEvent {f : Option Nat → Instr} {pin : Pin}
    (h : f ∈ [Instr.scheduleSecondArrival, Instr.minuteArrival, Instr.scheduleFineTick, Instr.scheduleEdge pin]) :
    ∃ take : Device → Option Device, ∀ share s, exec (f share) s = .next (s.withDev (s.dev.tableEvent share take)) := by
  simp only [List.mem_cons, List.not_mem_nil, or_false] at h
  rcases h with rfl | rfl | rfl | rfl
  · exact ⟨Device.takeSecond, fun _ _ => rfl⟩
  · exact ⟨Device.takeMinute, fun _ _ => rfl⟩
  · exact ⟨Device.takeFine, fun _ _ => rfl⟩
  · exact ⟨Device.takeEdge pin, fun _ _ => rfl⟩

/-- Settles O41: each taking gives its event or nothing, and the work goes on by the share. -/
theorem theTableTakesItsEvents : Obligations.TheTableTakesItsEvents := by
  refine ⟨fun s hw => ?_, fun s share f pin hf => ?_⟩
  · intro x begun held
    have nothing {take : Device → Option Device} (h : take s.dev = none) (share : Option Nat) :
        s.onDevice (fun d => d.tableEvent share take) = .next s := by
      rw [onDevice_eq, tableEvent_nothing hw h]
    have taken {take : Device → Option Device} {y : Schedule} {ev : TableEvent} {st : Stamp}
        (h : take s.dev = some (Device.beginEvent { s.dev with schedule := y } ev st))
        (idle : y.work = none) (same : y.entries = x.entries) :
        s.onDevice (fun d => d.tableEvent (some 0) take) = .next (s.withDev (begun y ev st)) := by
      have entries (e : EntryNo) : Device.entry { s.dev with schedule := y } e = s.dev.entry e := by
        simp only [Device.entry, same, x]
      rw [onDevice_eq, tableEvent_begun hw idle h, beginEvent_atRest idle]
      simp only [entries]
      rfl
    refine ⟨fun share h => nothing ?_ share, fun share h => nothing ?_ share, fun share h => nothing ?_ share,
      fun pin share h => nothing ?_ share, fun a rest h => ?_, fun a rest h => ?_, fun h => ?_,
      fun pin pre e post h he first => ?_⟩
    · rw [Device.takeSecond, h]
    · rw [Device.takeMinute, h]
    · rw [Device.takeFine, if_pos h]
    · rw [Device.takeEdge, firstEdge_none h]
    · exact taken (takeSecond_cons h) hw rfl
    · exact taken (takeMinute_cons h) hw rfl
    · exact taken (takeFine_running h) hw rfl
    · exact taken (takeEdge_append h he first) hw rfl
  · obtain ⟨take, run⟩ := exec_tableEvent hf
    refine ⟨fun d hw h => ?_, fun hw => ?_, ⟨_, run none s, work_tableEvent_none s.dev take⟩⟩
    · rw [run] at h
      cases h
      rw [run, tableEvent_share hw]
    · rw [run, tableEvent_atWork hw]

end Sys2Proof.Machine
end

