-- ==== Sys2Proof/Proofs/CountdownExpiry.lean ====
section
namespace Sys2Proof.Machine

open Sys2Proof

/-! ### The steps of an action list (06 R128, R129) -/

/-- The steps of an action list are its actions at their targets, and no turns. -/
theorem mem_actionOps {op : TableOp} {e : EntryNo} {place : Nat} {as : List Action} (h : op ∈ actionOps e place as) :
    (∃ p a n, op = .onLane e p a n) ∨ (∃ tag, op = .mark e tag ∧ .mark tag ∈ as) ∨
      (∃ p f, op = .arm e p f ∧ .arm f ∈ as) ∨ ∃ p f, op = .disarm e p f ∧ .disarm f ∈ as := by
  induction as generalizing place with
  | nil => cases h
  | cons a as ih =>
    obtain here | later := List.mem_append.1 h
    · cases a with
      | onLanes a mask =>
        obtain ⟨n, -, rfl⟩ := List.mem_map.1 here
        exact .inl ⟨place, a, n, rfl⟩
      | mark tag => exact .inr (.inl ⟨tag, List.mem_singleton.1 here, List.mem_cons_self⟩)
      | arm f => exact .inr (.inr (.inl ⟨place, f, List.mem_singleton.1 here, List.mem_cons_self⟩))
      | disarm f => exact .inr (.inr (.inr ⟨place, f, List.mem_singleton.1 here, List.mem_cons_self⟩))
    · obtain lanes | ⟨tag, same, mem⟩ | ⟨p, f, same, mem⟩ | ⟨p, f, same, mem⟩ := ih later
      · exact .inl lanes
      · exact .inr (.inl ⟨tag, same, List.mem_cons_of_mem a mem⟩)
      · exact .inr (.inr (.inl ⟨p, f, same, List.mem_cons_of_mem a mem⟩))
      · exact .inr (.inr (.inr ⟨p, f, same, List.mem_cons_of_mem a mem⟩))

theorem turn_notMem_actionOps (e f : EntryNo) (place : Nat) (as : List Action) : .turn f ∉ actionOps e place as := by
  intro h
  obtain ⟨_, _, _, same⟩ | ⟨_, same, -⟩ | ⟨_, _, same, -⟩ | ⟨_, _, same, -⟩ := mem_actionOps h <;> cases same

/-- A step that is no turn leaves the steps after it that are no turns, whatever it takes away behind them (06 R122). -/
theorem tableOp_steps {op : TableOp} (hop : ∀ f, op ≠ .turn f) {ops : List TableOp} (hops : ∀ f, .turn f ∉ ops) (d : Device)
    (st : Stamp) (rest : List TableOp) : ∃ rest', (d.tableOp st op (ops ++ rest)).2 = ops ++ rest' := by
  cases op with
  | turn f => exact absurd rfl (hop f)
  | onLane | mark | arm => exact ⟨rest, rfl⟩
  | disarm e place target =>
    have kept : ops.filter (fun o => decide (o ≠ .turn target)) = ops :=
      List.filter_eq_self.2 fun o ho => decide_eq_true fun same => hops target (same ▸ ho)
    exact ⟨_, by rw [Device.tableOp, List.filter_append, kept]⟩

/-- What each step of a list does, and what goes on from one step to the next, the whole list does. -/
theorem tableOps_steps {R : Device → Device → Prop} (refl : ∀ d, R d d) (trans : ∀ {a b c}, R a b → R b c → R a c)
    {ops : List TableOp} (noTurn : ∀ f, .turn f ∉ ops) {st : Stamp}
    (step : ∀ op ∈ ops, ∀ d rest, R d (d.tableOp st op rest).1) (d : Device) (rest : List TableOp) :
    R d (Device.tableOps st ops.length d (ops ++ rest)).1 := by
  induction ops generalizing d rest with
  | nil => exact refl d
  | cons op ops ih =>
    have later (f : EntryNo) : .turn f ∉ ops := fun mem => noTurn f (List.mem_cons_of_mem op mem)
    obtain ⟨rest', left⟩ := tableOp_steps (fun f same => noTurn f (same ▸ List.mem_cons_self)) later d st rest
    have next := ih later (fun o ho => step o (List.mem_cons_of_mem op ho)) (d.tableOp st op (ops ++ rest)).1 rest'
    rw [← left] at next
    exact trans (step op List.mem_cons_self d _) next

/-! ### What a step of an action leaves alone (06 R128 to R131) -/

@[simp] theorem entry_noteRefusal (d : Device) (e f : EntryNo) (place target : Nat) (st : Stamp) (status : Status) :
    (d.noteRefusal e place target st status).entry f = d.entry f := by
  unfold Device.noteRefusal
  split <;> rfl

/-- An action that neither arms nor disarms an entry leaves it alone. -/
theorem entry_actionOp {op : TableOp} {e f : EntryNo} {place : Nat} {as : List Action} (h : op ∈ actionOps e place as)
    (other : ∀ a ∈ as, a ≠ .arm f ∧ a ≠ .disarm f) (d : Device) (st : Stamp) (rest : List TableOp) :
    (d.tableOp st op rest).1.entry f = d.entry f := by
  obtain ⟨p, a, n, rfl⟩ | ⟨tag, rfl, -⟩ | ⟨p, g, rfl, mem⟩ | ⟨p, g, rfl, mem⟩ := mem_actionOps h
  · have owner := (Device.LaneStep.laneAction n d a .schedule st).schedule
    simp only [Device.tableOp, entry_present, entry_noteRefusal]
    exact congrArg (fun x : Schedule => x.entries[f.val]) owner
  · exact entry_markAction d e f tag st
  · have ne : f ≠ g := fun same => (other _ mem).1 (same ▸ rfl)
    simp only [Device.tableOp, entry_noteRefusal, entry_setEntry_ne d _ ne]
  · have ne : f ≠ g := fun same => (other _ mem).2 (same ▸ rfl)
    simp only [Device.tableOp, entry_noteRefusal, entry_setEntry_ne d _ ne]

/-- Nothing arrives at the journal, and records are only added to those on their way. -/
def Device.OnlySends (d d' : Device) : Prop := d'.journal = d.journal ∧ d.inFlight <+: d'.inFlight

namespace Device.OnlySends

theorem refl (d : Device) : d.OnlySends d := ⟨rfl, List.prefix_rfl⟩

theorem trans {a b c : Device} (h : a.OnlySends b) (k : b.OnlySends c) : a.OnlySends c :=
  ⟨k.1.trans h.1, h.2.trans k.2⟩

theorem noteRefusal (d : Device) (e : EntryNo) (place target : Nat) (st : Stamp) (status : Status) :
    d.OnlySends (d.noteRefusal e place target st status) := by
  unfold Device.noteRefusal
  split
  · exact refl d
  · exact ⟨rfl, List.prefix_append _ _⟩

/-- Every action but a MARK only sends (06 R128). -/
theorem actionOp {op : TableOp} {e : EntryNo} {place : Nat} {as : List Action} (h : op ∈ actionOps e place as)
    (noMark : ∀ a ∈ as, ∀ tag, a ≠ .mark tag) (d : Device) (st : Stamp) (rest : List TableOp) :
    d.OnlySends (d.tableOp st op rest).1 := by
  have entrySet (f : EntryNo) (x : Entry) : d.OnlySends (d.setEntry f x) := ⟨rfl, List.prefix_rfl⟩
  obtain ⟨p, a, n, rfl⟩ | ⟨tag, rfl, mem⟩ | ⟨p, g, rfl, -⟩ | ⟨p, g, rfl, -⟩ := mem_actionOps h
  · have owner := Device.LaneStep.laneAction n d a .schedule st
    have taken : d.OnlySends (d.laneAction a n .schedule st).1 := ⟨owner.journal, owner.records⟩
    exact taken.trans (noteRefusal _ e p n.val st _)
  · exact absurd rfl (noMark _ mem tag)
  · exact (entrySet g _).trans (noteRefusal _ e p g.val st _)
  · exact (entrySet g _).trans (noteRefusal _ e p g.val st _)

end Device.OnlySends

/-! ### COUNTDOWN_EXPIRY (06 R124, R128) -/

section
variable {d : Device} {w : Work} {e : EntryNo} {rest : List TableOp} {df : Definition} {base : Base} {preset : Nat}

/-- A countdown that fires is loaded again where it repeats, and IDLE otherwise (06 R128). -/
theorem settled_countdown (hk : df.kind = .countdown base preset) : (Entry.held .armed df 0).settled =
    if df.repeats then .held .armed df preset else .held .idle df 0 := by
  simp only [Entry.settled, Definition.loaded, hk]

/-- The device after the turn of a countdown at 0: the entry settled, and the fire noted where journal_fire is yes. -/
def Device.fired (d : Device) (e : EntryNo) (st : Stamp) (df : Definition) : Device :=
  if df.journalFire then
    (d.setEntry e (Entry.held .armed df 0).settled).writePlain (.schedule e) st .scheduleFired df.kind.fireCause
  else d.setEntry e (Entry.held .armed df 0).settled

theorem entry_fired (d : Device) (e : EntryNo) (st : Stamp) (df : Definition) :
    (d.fired e st df).entry e = (Entry.held .armed df 0).settled := by
  unfold Device.fired
  split
  · rw [entry_writePlain, entry_setEntry_same]
  · exact entry_setEntry_same d e _

theorem journal_fired (d : Device) (e : EntryNo) (st : Stamp) (df : Definition) : (d.fired e st df).journal = d.journal := by
  unfold Device.fired
  split <;> rfl

theorem inFlight_fired (d : Device) (e : EntryNo) (st : Stamp) (df : Definition) : (d.fired e st df).inFlight = d.inFlight ++
    if df.journalFire then [⟨d.events, ⟨st, .schedule e, .scheduleFired, df.kind.fireCause, none⟩, false, false⟩] else [] := by
  unfold Device.fired
  split
  · rfl
  · exact (List.append_nil _).symm

/-- At the turn of a countdown at 0 the table does that turn and then the steps of its actions. -/
theorem tableOps_turn (he : d.entry e = .held .armed df 0) (st : Stamp) (k : Nat) (rest : List TableOp) :
    Device.tableOps st (1 + k) d (.turn e :: rest) =
      Device.tableOps st k (d.fired e st df) (actionOps e 0 df.actions ++ rest) := by
  rw [Nat.add_comm, Device.tableOps, tableOp_turn_due d st e rest he fun _ => rfl]
  rfl

/-- The entry whose turn it is, a countdown at 0, expires (06 R124). -/
theorem expire_turn (hw : d.schedule.work = some w) (hops : w.ops = .turn e :: rest) (he : d.entry e = .held .armed df 0)
    (hk : df.isCountdown = true) : d.expire e = d.runTable (some (1 + (actionOps e 0 df.actions).length)) := by
  have turn : w.ops.head? = some (.turn e) ∧ df.isCountdown = true ∧ 0 = 0 := ⟨by rw [hops]; rfl, hk, rfl⟩
  rw [Device.expire, hw, he]
  exact if_pos turn

/-- An expiry is the fire's turn and then the steps of its actions (06 R128). -/
theorem expire_steps (hw : d.schedule.work = some w) (hops : w.ops = .turn e :: rest) (he : d.entry e = .held .armed df 0)
    (hk : df.isCountdown = true) :
    let done := Device.tableOps w.stamp (actionOps e 0 df.actions).length
      (Device.fired { d with events := w.event } e w.stamp df) (actionOps e 0 df.actions ++ rest)
    d.expire e = { done.1 with
      events := d.events
      schedule := { done.1.schedule with work := if done.2 = [] then none else some { w with ops := done.2 } } } := by
  rw [expire_turn hw hops he hk, runTable_some hw, hops, Option.getD_some,
    tableOps_turn (d := { d with events := w.event }) he]

/-- Any other entry does not (log 16). -/
theorem expire_other (h : (∀ w, d.schedule.work = some w → w.ops.head? ≠ some (.turn e)) ∨
    ∀ df, d.entry e = .held .armed df 0 → df.isCountdown = false) : d.expire e = d := by
  unfold Device.expire
  split
  · next w df r hw he =>
    refine if_neg ?_
    rintro ⟨turn, countdown, rfl⟩
    obtain h | h := h
    · exact h w hw turn
    · exact Bool.false_ne_true ((h df he).symm.trans countdown)
  · rfl

end

/-- Settles O43: the turn, and then the steps of the actions: without a MARK each only sends, and without an ARM or DISARM of the
entry each leaves it as it was settled. -/
theorem countdownsExpireAtTheirTurn : Obligations.CountdownsExpireAtTheirTurn := by
  refine fun e s => ⟨fun w rest df base preset hw hops he hk => ?_, fun h => ?_⟩
  · have countdown : df.isCountdown = true := by rw [Definition.isCountdown, hk]
    have cause : df.kind.fireCause = 2 := by rw [hk]; rfl
    have expired := expire_turn hw hops he countdown
    have steps := expire_steps hw hops he countdown
    have noTurn (f : EntryNo) := turn_notMem_actionOps e f 0 df.actions
    let turned := Device.fired { s.dev with events := w.event } e w.stamp df
    have off := Device.OffTable.runTable s.dev (some (1 + (actionOps e 0 df.actions).length))
    refine ⟨s.withDev (s.dev.expire e), rfl, expired, fun noMark => ?_, fun other => ?_, ?_, ?_⟩
    · obtain ⟨journal, sent⟩ := tableOps_steps (st := w.stamp) Device.OnlySends.refl Device.OnlySends.trans noTurn
        (fun op h d rest => .actionOp h noMark d w.stamp rest) turned rest
      rw [journal_fired] at journal
      rw [inFlight_fired, cause] at sent
      rw [dev_withDev, steps]
      exact ⟨journal, sent⟩
    · have kept := tableOps_steps (R := fun a b => b.entry e = a.entry e) (st := w.stamp) (fun _ => rfl)
        (fun h k => k.trans h) noTurn (fun op h d rest => entry_actionOp h other d w.stamp rest) turned rest
      rw [entry_fired, settled_countdown hk] at kept
      rw [dev_withDev, steps]
      exact kept
    · rw [dev_withDev, expired, off.timebase]
    · rw [dev_withDev, expired, off.port]
  · rw [show exec (.countdownExpiry e) s = .next (s.withDev (s.dev.expire e)) from rfl, expire_other h]
    rfl

end Sys2Proof.Machine
end

