-- ==== Sys2Proof/Proofs/DefinitionImages.lean ====
section
namespace Sys2Proof.Machine

open Sys2Proof

/-! ### The fields of a kind and their bytes (06 R112 to R114, 10 R187) -/

theorem word24_eq_iff {lo mid hi : Byte} {n : Nat} (h : n < 16777216) : word24 lo mid hi = n ↔ [lo, mid, hi] = le24 n := by
  have := lo.isLt
  have := mid.isLt
  simp only [word24, le24, List.cons.injEq, and_true, ← BitVec.toNat_inj, BitVec.toNat_ofNat]
  omega

theorem inRange_word24 {lo hi n : Nat} {b b' b'' : Byte} (h : hi < 16777216) :
    inRange lo hi (word24 b b' b'') = some n ↔ (lo ≤ n ∧ n ≤ hi) ∧ [b, b', b''] = le24 n := by
  rw [inRange_eq_some]
  exact and_congr_right fun hr => word24_eq_iff (hr.2.trans_lt h)

/-- A number in range is never read as ANY, whose byte is 255 (R187). -/
theorem fieldOf_eq_some {hi : Nat} (h : hi < 255) {b : Byte} {f : Option Nat} :
    fieldOf hi b = some f ↔ f.all (fun v => decide (v ≤ hi)) = true ∧ b = fieldByte f := by
  unfold fieldOf
  cases f with
  | none =>
    simp only [Option.all_none, true_and, fieldByte]
    split
    · next any => simp only [any]
    · next other => simp [other]
  | some n =>
    simp only [Option.all_some, decide_eq_true_eq, fieldByte]
    split
    · next any =>
      subst any
      simp only [Option.some.injEq, reduceCtorEq, false_iff, not_and]
      intro inside same
      have := (byte_eq_iff (inside.trans_lt (h.trans (by decide)))).1 same
      simp only [BitVec.toNat_ofNat] at this
      omega
    · simp only [Option.map_eq_some_iff, Option.some.injEq, exists_eq_right, inRange_byte (h.trans (by decide)), Nat.zero_le,
        true_and]

theorem DaySelector.image_pair (day : DaySelector) : ∃ selector arg, day.image = [selector, arg] := by
  cases day <;> exact ⟨_, _, rfl⟩

/-- The day selector's two bytes (R187). -/
theorem daySelectorOf_eq_some {selector arg : Byte} {day : DaySelector} : daySelectorOf selector arg = some day ↔
    (EntryKind.atTime none none none day).ok = true ∧ [selector, arg] = day.image := by
  constructor
  · intro h
    refine ⟨daySelectorOf_ok h, ?_⟩
    unfold daySelectorOf at h
    split at h
    case h_4 => cases h
    all_goals rename_i code; obtain rfl := (byte_eq_iff (by decide)).2 code
    · obtain ⟨rfl, same⟩ := (Option.ite_none_right_eq_some ..).1 h
      cases same; rfl
    · obtain ⟨-, same⟩ := (Option.ite_none_right_eq_some ..).1 h
      cases same; rfl
    · obtain ⟨v, inside, rfl⟩ := Option.map_eq_some_iff.1 h
      obtain ⟨-, rfl⟩ := (inRange_byte (by decide)).1 inside
      rfl
  · rintro ⟨ok, image⟩
    cases day with
    | any => cases image; rfl
    | weekdays set => cases image; exact if_pos (of_decide_eq_true ok)
    | dayOfMonth n =>
      cases image
      exact Option.map_eq_some_iff.2 ⟨n, (inRange_byte (by decide)).2 ⟨of_decide_eq_true ok, rfl⟩, rfl⟩

theorem atTime_ok_iff {second minute hour : Option Nat} {day : DaySelector} :
    (EntryKind.atTime second minute hour day).ok = true ↔ second.all (fun v => decide (v ≤ 59)) = true ∧
      minute.all (fun v => decide (v ≤ 59)) = true ∧ hour.all (fun v => decide (v ≤ 23)) = true ∧
      (EntryKind.atTime none none none day).ok = true := by
  simp only [EntryKind.ok, Option.all_none, Bool.and_eq_true, true_and, and_assoc]

/-- What reads as a kind is its code and its fields (R187). -/
theorem fields_of_entryKindOf {k b2 b3 b4 b5 b6 b7 : Byte} {kind : EntryKind}
    (h : entryKindOf k b2 b3 b4 b5 b6 b7 = some kind) : k = kind.code ∧ [b2, b3, b4, b5, b6, b7] = kind.fields := by
  unfold entryKindOf at h
  split at h
  case h_4 => cases h
  all_goals rename_i known; obtain rfl := (byte_eq_iff (by decide)).2 known
  case h_1 =>
    obtain ⟨second, hs, h⟩ := Option.bind_eq_some_iff.1 h
    obtain ⟨minute, hm, h⟩ := Option.bind_eq_some_iff.1 h
    obtain ⟨hour, hh, h⟩ := Option.bind_eq_some_iff.1 h
    obtain ⟨day, hd, h⟩ := Option.bind_eq_some_iff.1 h
    obtain ⟨rfl, same⟩ := (Option.ite_none_right_eq_some ..).1 h
    cases same
    obtain ⟨-, rfl⟩ := (fieldOf_eq_some (by decide)).1 hs
    obtain ⟨-, rfl⟩ := (fieldOf_eq_some (by decide)).1 hm
    obtain ⟨-, rfl⟩ := (fieldOf_eq_some (by decide)).1 hh
    obtain ⟨-, image⟩ := daySelectorOf_eq_some.1 hd
    rw [EntryKind.fields, ← image]
    exact ⟨rfl, rfl⟩
  case h_2 =>
    have read {base : Base} (h : ((inRange 1 16777215 (word24 b3 b4 b5)).bind fun preset =>
        if b6 = 0#8 ∧ b7 = 0#8 then some (EntryKind.countdown base preset) else none) = some kind) (code : b2 = base.code) :
        2#8 = kind.code ∧ [b2, b3, b4, b5, b6, b7] = kind.fields := by
      obtain ⟨preset, hp, h⟩ := Option.bind_eq_some_iff.1 h
      obtain ⟨⟨rfl, rfl⟩, same⟩ := (Option.ite_none_right_eq_some ..).1 h
      cases same
      obtain ⟨-, image⟩ := (inRange_word24 (by decide)).1 hp
      rw [EntryKind.fields, ← image, code]
      exact ⟨rfl, rfl⟩
    dsimp only at h
    split at h
    case h_5 => cases h
    all_goals rename_i base; exact read h ((byte_eq_iff (by decide)).2 base)
  case h_3 =>
    have read {pin : Pin} {edge : EdgeChoice} (h : (if b4 = 0#8 ∧ b5 = 0#8 ∧ b6 = 0#8 ∧ b7 = 0#8 then
        some (EntryKind.external pin edge) else none) = some kind) (first : b2 = if pin = .ext1 then 1#8 else 0#8)
        (code : b3 = edge.code) : 3#8 = kind.code ∧ [b2, b3, b4, b5, b6, b7] = kind.fields := by
      obtain ⟨⟨rfl, rfl, rfl, rfl⟩, same⟩ := (Option.ite_none_right_eq_some ..).1 h
      cases same
      rw [EntryKind.fields, first, code]
      exact ⟨rfl, rfl⟩
    dsimp only at h
    split at h
    · next pin =>
      split at h
      case h_4 => cases h
      all_goals rename_i edge; exact read h pin ((byte_eq_iff (by decide)).2 edge)
    · split at h
      · next pin =>
        split at h
        case h_4 => cases h
        all_goals rename_i edge; exact read h pin ((byte_eq_iff (by decide)).2 edge)
      · cases h

/-- The fields of a kind in range read as it (R187). -/
theorem entryKindOf_fields {b2 b3 b4 b5 b6 b7 : Byte} {kind : EntryKind} (ok : kind.ok = true)
    (h : [b2, b3, b4, b5, b6, b7] = kind.fields) : entryKindOf kind.code b2 b3 b4 b5 b6 b7 = some kind := by
  cases kind with
  | atTime second minute hour day =>
    obtain ⟨hs, hm, hh, hd⟩ := atTime_ok_iff.1 ok
    obtain ⟨selector, arg, image⟩ := day.image_pair
    rw [EntryKind.fields, image] at h
    cases h
    have second := (fieldOf_eq_some (by decide)).2 ⟨hs, rfl⟩
    have minute := (fieldOf_eq_some (by decide)).2 ⟨hm, rfl⟩
    have hour := (fieldOf_eq_some (by decide)).2 ⟨hh, rfl⟩
    have day := daySelectorOf_eq_some.2 ⟨hd, image.symm⟩
    exact Option.bind_eq_some_iff.2 ⟨_, second, Option.bind_eq_some_iff.2 ⟨_, minute, Option.bind_eq_some_iff.2 ⟨_, hour,
      Option.bind_eq_some_iff.2 ⟨_, day, rfl⟩⟩⟩⟩
  | countdown base preset =>
    have inside : 1 ≤ preset ∧ preset ≤ 16777215 := of_decide_eq_true ok
    cases h
    cases base <;> exact Option.bind_eq_some_iff.2 ⟨preset, (inRange_word24 (by decide)).2 ⟨inside, rfl⟩, rfl⟩
  | external pin edge =>
    have taken : edge ≠ .none := of_decide_eq_true ok
    cases h
    cases edge with
    | none => exact absurd rfl taken
    | rising | falling | both => cases pin <;> rfl

theorem entryKindOf_eq_some {k b2 b3 b4 b5 b6 b7 : Byte} {kind : EntryKind} : entryKindOf k b2 b3 b4 b5 b6 b7 = some kind ↔
    kind.ok = true ∧ k = kind.code ∧ [b2, b3, b4, b5, b6, b7] = kind.fields := by
  refine ⟨fun h => ⟨entryKindOf_ok h, fields_of_entryKindOf h⟩, ?_⟩
  rintro ⟨ok, rfl, fields⟩
  exact entryKindOf_fields ok fields

/-! ### Actions and their bytes (06 R115, 10 R187) -/

theorem entryOf_eq_some {b : Byte} {e : EntryNo} : entryOf b = some e ↔ b = byte e.val := by
  rw [byte_eq_iff (by omega), entryOf]
  split
  · simp only [Option.some.injEq, Fin.ext_iff]
  · next above => simp only [reduceCtorEq, false_iff]; omega

/-- Two bytes read as an action where they are its image and it is in range (R187). -/
theorem actionOf_eq_some {code arg : Byte} {a : Action} : actionOf code arg = some a ↔ a.ok = true ∧ [code, arg] = a.image := by
  constructor
  · intro h
    refine ⟨actionOf_ok h, ?_⟩
    unfold actionOf at h
    dsimp only at h
    split at h
    case h_10 => cases h
    all_goals rename_i known; obtain rfl := (byte_eq_iff (by decide)).2 known
    case h_7 => cases h; rfl
    case h_8 | h_9 =>
      obtain ⟨e, number, rfl⟩ := Option.map_eq_some_iff.1 h
      rw [entryOf_eq_some.1 number]
      rfl
    all_goals
      obtain ⟨-, same⟩ := (Option.ite_none_right_eq_some ..).1 h
      cases same; rfl
  · rintro ⟨ok, image⟩
    cases a with
    | onLanes x mask => cases image; cases x <;> exact if_pos ok
    | mark tag => cases image; rfl
    | arm e | disarm e =>
      cases image
      exact Option.map_eq_some_iff.2 ⟨e, entryOf_eq_some.2 rfl, rfl⟩

theorem Action.image_pair (a : Action) : ∃ code arg, a.image = [code, arg] := by
  cases a <;> exact ⟨_, _, rfl⟩

/-- Reading an action list and writing one (R187). -/
theorem actionsOf_eq_some {bytes : List Byte} {as : List Action} :
    actionsOf bytes = some as ↔ as.all Action.ok = true ∧ bytes = as.flatMap Action.image := by
  constructor
  · intro h
    obtain ⟨-, ok⟩ := actionsOf_ok h
    refine ⟨ok, ?_⟩
    clear ok
    induction bytes using actionsOf.induct generalizing as with
    | case1 => cases h; rfl
    | case2 _ => cases h
    | case3 code arg rest ih =>
      obtain ⟨a, first, h⟩ := Option.bind_eq_some_iff.1 h
      obtain ⟨more, others, same⟩ := Option.bind_eq_some_iff.1 h
      cases same
      obtain ⟨-, image⟩ := actionOf_eq_some.1 first
      rw [List.flatMap_cons, ← image, ← ih others]
      rfl
  · rintro ⟨ok, rfl⟩
    induction as with
    | nil => rfl
    | cons a as ih =>
      rw [List.all_cons, Bool.and_eq_true] at ok
      obtain ⟨aOk, asOk⟩ := ok
      obtain ⟨code, arg, image⟩ := a.image_pair
      have first := actionOf_eq_some.2 ⟨aOk, image.symm⟩
      rw [List.flatMap_cons, image]
      exact Option.bind_eq_some_iff.2 ⟨a, first, Option.bind_eq_some_iff.2 ⟨as, ih asOk, rfl⟩⟩

/-! ### The whole image (06 R116, 10 R187) -/

/-- Both flags stand at bits 0 and 1, the others are 0 (R187). -/
theorem entryFlags_eq_iff {b : Byte} {repeats journalFire : Bool} :
    (b.toNat ≤ 3 ∧ b.toNat.testBit 0 = repeats ∧ b.toNat.testBit 1 = journalFire) ↔
      b = byte (bitAt repeats 0 + bitAt journalFire 1) := by
  have read : ∀ n ≤ 3, n = bitAt (n.testBit 0) 0 + bitAt (n.testBit 1) 1 := by decide
  constructor
  · rintro ⟨h, rfl, rfl⟩
    exact (byte_eq_iff (read _ h ▸ h.trans_lt (by decide))).2 (read _ h)
  · rintro rfl
    cases repeats <;> cases journalFire <;> decide

theorem EntryKind.fields_six (kind : EntryKind) : ∃ b2 b3 b4 b5 b6 b7, kind.fields = [b2, b3, b4, b5, b6, b7] := by
  cases kind with
  | atTime second minute hour day =>
    obtain ⟨selector, arg, image⟩ := day.image_pair
    exact ⟨_, _, _, _, _, _, by rw [EntryKind.fields, image]; rfl⟩
  | countdown base preset => exact ⟨_, _, _, _, _, _, rfl⟩
  | external pin edge => exact ⟨_, _, _, _, _, _, rfl⟩

/-- A definition is read from its image, and from nothing else (R116, R187). -/
theorem definitionOf_eq_some {b : List Byte} {df : Definition} :
    definitionOf b = some df ↔ df.kind.ok = true ∧ df.actions.all Action.ok = true ∧ b = df.image := by
  constructor
  · intro h
    unfold definitionOf at h
    split at h
    · obtain ⟨kind, hk, h⟩ := Option.bind_eq_some_iff.1 h
      obtain ⟨flags, hf, h⟩ := Option.bind_eq_some_iff.1 h
      obtain ⟨actions, ha, same⟩ := Option.bind_eq_some_iff.1 h
      cases same
      obtain ⟨⟨-, le⟩, rfl⟩ := inRange_eq_some.1 hf
      obtain ⟨kindOk, rfl, fields⟩ := entryKindOf_eq_some.1 hk
      obtain ⟨actionsOk, rfl⟩ := actionsOf_eq_some.1 ha
      refine ⟨kindOk, actionsOk, ?_⟩
      rw [Definition.image, ← fields, ← entryFlags_eq_iff.1 ⟨le, rfl, rfl⟩]
      rfl
    · cases h
  · rintro ⟨kindOk, actionsOk, rfl⟩
    obtain ⟨kind, repeats, journalFire, actions⟩ := df
    obtain ⟨b2, b3, b4, b5, b6, b7, fields⟩ := kind.fields_six
    obtain ⟨le, first, second⟩ := (entryFlags_eq_iff (repeats := repeats) (journalFire := journalFire)).2 rfl
    rw [Definition.image, fields]
    refine Option.bind_eq_some_iff.2 ⟨kind, entryKindOf_fields kindOk fields.symm, Option.bind_eq_some_iff.2
      ⟨_, inRange_eq_some.2 ⟨⟨Nat.zero_le _, le⟩, rfl⟩, Option.bind_eq_some_iff.2
      ⟨actions, actionsOf_eq_some.2 ⟨actionsOk, rfl⟩, ?_⟩⟩⟩
    rw [first, second]

theorem Definition.length_image (df : Definition) : df.image.length = 8 + 2 * df.actions.length := by
  obtain ⟨b2, b3, b4, b5, b6, b7, fields⟩ := df.kind.fields_six
  have pairs : (df.actions.flatMap Action.image).length = 2 * df.actions.length := by
    induction df.actions with
    | nil => rfl
    | cons a as ih =>
      obtain ⟨code, arg, image⟩ := a.image_pair
      simp only [List.flatMap_cons, image, List.length_append, ih, List.length_cons, List.length_nil]
      omega
  rw [Definition.image, fields]
  simp only [List.cons_append, List.nil_append, List.length_cons, pairs]
  omega

/-- A mask names a lane, and lanes 0 to 3 alone (R182). -/
theorem maskOk_iff (mask : Byte) : maskOk mask = true ↔ 1 ≤ mask.toNat ∧ mask.toNat ≤ 15 := by
  rw [maskOk, Bool.and_eq_true, decide_eq_true_eq, decide_eq_true_eq, Ne, ← BitVec.toNat_inj, BitVec.toNat_ofNat]
  omega

theorem actions_ok_iff (as : List Action) : as.all Action.ok = true ↔
    ∀ a m, Action.onLanes a m ∈ as → 1 ≤ m.toNat ∧ m.toNat ≤ 15 := by
  rw [List.all_eq_true]
  refine ⟨fun h a m mem => (maskOk_iff m).1 (h _ mem), fun h x mem => ?_⟩
  cases x with
  | onLanes a m => exact (maskOk_iff m).2 (h a m mem)
  | mark | arm | disarm => rfl

theorem Definition.ok_iff (df : Definition) : df.ok = true ↔
    df.kind.ok = true ∧ 1 ≤ df.actions.length ∧ df.actions.length ≤ 4 ∧ df.actions.all Action.ok = true := by
  rw [Definition.ok, Bool.and_eq_true, Bool.and_eq_true, decide_eq_true_eq, and_assoc, and_assoc]

theorem all_le_iff (f : Option Nat) (hi : Nat) : f.all (fun v => decide (v ≤ hi)) = true ↔ ∀ n, f = some n → n ≤ hi := by
  cases f <;> simp

theorem dayOk_iff (day : DaySelector) : (EntryKind.atTime none none none day).ok = true ↔
    (∀ set, day = .weekdays set → 1 ≤ set.toNat ∧ set.toNat ≤ 127) ∧ ∀ n, day = .dayOfMonth n → 1 ≤ n ∧ n ≤ 31 := by
  cases day <;> simp [EntryKind.ok]

/-- Settles O54: the bytes kind by kind, the ranges field by field, and reading as the inverse of writing. -/
theorem definitionImagesAgree : Obligations.DefinitionImagesAgree := by
  refine ⟨fun df => ?_, fun df => ?_, fun df ok => ?_, fun b df length h => ?_⟩
  · intro field action flags
    have fields : field = fieldByte := by
      funext f
      cases f <;> rfl
    have actions : action = Action.image := by
      funext a
      cases a with
      | onLanes x mask => cases x <;> rfl
      | mark | arm | disarm => rfl
    obtain ⟨kind, repeats, journalFire, as⟩ := df
    rw [fields, actions]
    cases kind with
    | atTime second minute hour day => cases day <;> rfl
    | countdown base preset => cases base <;> rfl
    | external pin edge => cases pin <;> cases edge <;> rfl
  · rw [Definition.ok_iff, actions_ok_iff]
    refine and_congr_left fun _ => ?_
    obtain ⟨kind, repeats, journalFire, as⟩ := df
    cases kind with
    | atTime second minute hour day => rw [atTime_ok_iff, all_le_iff, all_le_iff, all_le_iff, dayOk_iff]
    | countdown base preset => exact decide_eq_true_iff
    | external pin edge => exact decide_eq_true_iff
  · obtain ⟨kindOk, least, most, actionsOk⟩ := (Definition.ok_iff df).1 ok
    refine ⟨?_, definitionOf_eq_some.2 ⟨kindOk, actionsOk, rfl⟩⟩
    have length := df.length_image
    simp only [List.mem_cons, List.not_mem_nil, or_false]
    omega
  · obtain ⟨-, -, image⟩ := definitionOf_eq_some.1 h
    refine ⟨definitionOf_ok h ?_, image.symm⟩
    simp only [List.mem_cons, List.not_mem_nil, or_false, entrySetLengths] at length ⊢
    omega

end Sys2Proof.Machine
end

