-- ==== Sys2Proof/Proofs/PatternRequests.lean ====
section
namespace Sys2Proof.Machine

open Sys2Proof

/-! ### The test pattern at the port and at a reset (07 R135, R136) -/

/-- The owner of PATTERN SET looks for a lane in TEST (07 R136). -/
theorem anyTesting_iff (d : Device) :
    (allLanes.any fun n => decide ((d.lane n).mode = .test)) = true ↔ ∃ n, (d.lane n).mode = .test := by
  have all : ∀ n : LaneNo, n ∈ allLanes := by decide
  simp [all]

theorem ownPatternSet_testing {d : Device} (h : ∃ n, (d.lane n).mode = .test) (a b : Byte) :
    ownPatternSet [a, b] d = (d, .refuse .wrongState) := if_pos ((anyTesting_iff d).2 h)

theorem ownPatternSet_idle {d : Device} (h : ∀ n, (d.lane n).mode ≠ .test) (a b : Byte) :
    ownPatternSet [a, b] d = ({ d with pattern := ⟨a, b⟩ }, .ok []) :=
  if_neg fun testing => Exists.elim ((anyTesting_iff d).1 testing) h

/-- Settles O9: the owners' answers, and the pattern among the blocks that every reset clears. -/
theorem patternIsSetReadAndReset : Obligations.PatternIsSetReadAndReset := by
  refine ⟨fun tag a b s hq => ⟨fun testing => ?_, fun idle => ?_, ?_⟩, fun s c h => ?_⟩
  · exact onDevice_request_refused s hq _ (ownPatternSet_testing (d := s.dev.frameEnds) testing a b)
  · refine (onDevice_request_quiet s hq).trans ?_
    rw [ownPatternSet_idle (d := s.dev.frameEnds) idle a b]; rfl
  · exact onDevice_request_answered s hq _ _ rfl
  · obtain ⟨t, ran, clear, -, -⟩ := exec_resetting h
    exact ⟨t, ran, clear.pattern⟩

end Sys2Proof.Machine
end

