-- ==== Sys2Proof/Proofs/TestRuns.lean ====
section
namespace Sys2Proof.Machine

open Sys2Proof

/-! ### The start and the end of a test (07 R144, R145, 01 R22) -/

/-- A lane with an open interval after the close of a change of mode (02 R35, R39, 03 R55). -/
theorem modeClosed_of_open {l : Lane} {iv : OpenInterval} (hi : l.interval = some iv) (n : LaneNo) {reason : CloseReason}
    (h : reason ≠ .stopped) (st : Stamp) : l.modeClosed n reason st = { l with
      number := (l.number + 1) % 65536, interval := some (newInterval st), ring := l.closedRing n iv reason st
      swapPending := false, live := l.swappedLive } := by
  unfold Lane.modeClosed Lane.intervalClosed
  rw [hi, if_neg h]

/-- A lane with an open interval after the end of its test (07 R145). -/
theorem testEnded_of_open {l : Lane} {iv : OpenInterval} (hi : l.interval = some iv) (n : LaneNo) (st : Stamp) :
    l.testEnded n st = { l with
      mode := .monitor, line := .hunt, history := [], rx := ⟨0, false, 0, [], none, 0, 0⟩, tx := ⟨false, 0, .none, []⟩
      checker := Checker.fresh, swapPending := false, live := l.swappedLive, number := (l.number + 1) % 65536
      interval := some { newInterval st with lostLock := decide (l.line = .track) }
      ring := l.closedRing n iv .testStop st } := by
  rw [Lane.testEnded, modeClosed_of_open hi n (by decide)]
  by_cases track : l.line = .track
  · rw [if_pos track, decide_eq_true track]; rfl
  · rw [if_neg track, decide_eq_false track]; rfl

/-- A lane without a capture in progress has none to end (08 R151). -/
theorem CaptureUnit.idle_iff (u : CaptureUnit) (n : LaneNo) :
    u.busy n = false ↔ u.entryOf n = none ∧ u.fillingSlot n = none := by
  rw [CaptureUnit.busy, Bool.or_eq_false_iff, Option.isSome_eq_false_iff, Option.isSome_eq_false_iff, Option.isNone_iff_eq_none,
    Option.isNone_iff_eq_none]

theorem CaptureUnit.endRecords_of_idle {u : CaptureUnit} {n : LaneNo} (h : u.busy n = false) (l : Lane) (st : Stamp) :
    u.endRecords n l st = [] := by
  obtain ⟨entry, slot⟩ := (u.idle_iff n).1 h
  rw [CaptureUnit.endRecords, CaptureUnit.truncatedRecords, entry, slot]; rfl

theorem endedCapture_of_idle {d : Device} {n : LaneNo} (h : d.capture.busy n = false) : d.endedCapture n = d.capture := by
  obtain ⟨entry, slot⟩ := (d.capture.idle_iff n).1 h
  have same : d.truncatedCapture n = d.capture := by rw [Device.truncatedCapture, slot]
  have all : (d.capture.waiting.filter fun w => decide (w.lane ≠ n)) = d.capture.waiting :=
    List.filter_eq_self.2 fun w hw => by simpa using CaptureUnit.entryOf_eq_none.1 entry w hw
  rw [Device.endedCapture, same, all]

/-- The lane right after its entry to TEST (07 R144). -/
def Lane.testEntered (l : Lane) (n : LaneNo) (st : Stamp) : Lane := (l.modeClosed n .testStart st).enter .test

/-- The device with its lane in TEST, a TXFn already low not yet taken (07 R144). -/
def Device.testEntered (d : Device) (n : LaneNo) (o : Origin) (st : Stamp) : Device :=
  (((d.close n .testStart st st).endCaptures n st).modLane n fun l => l.enter .test).writeLane n st .testStarted o.code

section
variable (d : Device) (n : LaneNo) (o : Origin) (st : Stamp)

theorem lane_testEntered : (d.testEntered n o st).lane n = (d.lane n).testEntered n st := by
  rw [Device.testEntered, lane_writeLane, lane_modLane_same, lane_endCaptures, lane_close_modeChange d n rfl]; rfl

/-- A TXFn already low is taken last (01 R22, 07 R144). -/
theorem beginTest_eq : d.beginTest n o st =
    if (d.lane n).txf then d.testEntered n o st else (d.testEntered n o st).takeFault n st := by
  have txf : ((d.testEntered n o st).lane n).txf = (d.lane n).txf :=
    (congrArg Lane.txf (lane_testEntered d n o st)).trans (txf_modeClosed (d.lane n) n .testStart st)
  rw [← txf]; rfl

theorem laneStep_testEntered : Device.LaneStep n d (d.testEntered n o st) :=
  (((Device.LaneStep.close n d _ st st).trans (.endCaptures n n _ st)).trans (.modLane n _ _)).trans (.writeLane n n _ _ _ _)

theorem testStart_accepted (hm : (d.lane n).mode = .monitor) (hf : (d.lane n).txFault = false) :
    (d.laneAction .testStart n o st).1 = d.beginTest n o st := by
  simp only [Device.laneAction, Device.testStart, hm, hf]; rfl

theorem testStop_accepted (hm : (d.lane n).mode = .test) :
    (d.laneAction .testStop n o st).1 = d.endTest n o.testEnd st := by
  simp only [Device.laneAction, Device.testStop, hm]

end

section
variable {d : Device} {n : LaneNo} (st : Stamp) (hc : d.capture.notBothFor n)
include hc

/-- What becomes of the captures at the start of a test (01 R20). -/
theorem capture_testEntered (o : Origin) : (d.testEntered n o st).capture = d.endedCapture n := by
  have unit : (d.close n .testStart st st).capture = d.capture := capture_close_modeChange d n rfl st st
  rw [Device.testEntered, capture_writeLane, capture_modLane, capture_endCaptures]
  exact endedCapture_congr_of_others unit (by rw [unit]; exact hc) (Device.LaneStep.close n d _ st st).lanes

/-- The start of a test: its records in order (07 R144). -/
theorem written_testEntered {iv : OpenInterval} (hi : (d.lane n).interval = some iv) (o : Origin) :
    d.written (d.testEntered n o st) = (d.lane n).closeRecords n st st ++
      d.capture.endRecords n ((d.lane n).modeClosed n .testStart st) st ++
      [((d.lane n).testEntered n st).writes n st .testStarted o.code] := by
  obtain ⟨closed, hclosed⟩ : ∃ x, x = d.close n .testStart st st := ⟨_, rfl⟩
  obtain ⟨entered, hentered⟩ : ∃ x, x = (closed.endCaptures n st).modLane n fun l => l.enter .test := ⟨_, rfl⟩
  have whole : d.testEntered n o st = entered.writeLane n st .testStarted o.code := by rw [hentered, hclosed]; rfl
  have close : Device.LaneStep n d closed := hclosed ▸ .close n d _ st st
  have enter : Device.LaneStep n closed entered := hentered ▸ (Device.LaneStep.endCaptures n n closed st).trans (.modLane n _ _)
  have unit : closed.capture = d.capture := hclosed ▸ capture_close_modeChange d n rfl st st
  have lane : entered.lane n = (d.lane n).testEntered n st := by rw [← lane_testEntered d n o st, whole, lane_writeLane]
  have closeRecords : d.written closed = (d.lane n).closeRecords n st st :=
    hclosed ▸ written_close_modeChange d n rfl st st hi
  have endRecords : closed.written entered = d.capture.endRecords n ((d.lane n).modeClosed n .testStart st) st := by
    rw [hentered, written_modLane, written_endCaptures closed n st (by rw [unit]; exact hc), unit, hclosed,
      lane_close_modeChange d n rfl]
  rw [whole, (close.trans enter).written_trans (.writeLane n n entered _ _ _), close.written_trans enter, closeRecords,
    endRecords, written_writeLane, lane]

end

/-! ### A driver fault right after the start (01 R22; log 19) -/

theorem CaptureUnit.notBothFor_of_idle {u : CaptureUnit} {n : LaneNo} (h : u.busy n = false) : u.notBothFor n := by
  rintro ⟨entry, -⟩
  rw [((u.idle_iff n).1 h).1] at entry
  cases entry

/-- The device with the latch set and its record written, the test not yet ended (01 R22). -/
def Device.faultNoted (d : Device) (n : LaneNo) (st : Stamp) : Device :=
  (d.modLane n fun l => { l with txFault := true }).writeLane n st .txFault 0

section
variable (d : Device) (n : LaneNo) (st : Stamp)

theorem takeFault_eq : d.takeFault n st = (d.faultNoted n st).endTest n .fault st := rfl

theorem lane_faultNoted : (d.faultNoted n st).lane n = { d.lane n with txFault := true } := by
  rw [Device.faultNoted, lane_writeLane, lane_modLane_same]

theorem laneStep_faultNoted : Device.LaneStep n d (d.faultNoted n st) :=
  (Device.LaneStep.modLane n d _).trans (.writeLane n n _ _ _ _)

theorem written_faultNoted : d.written (d.faultNoted n st) = [(d.lane n).writes n st .txFault 0] := by
  rw [Device.faultNoted, ← modLane_written d _ n fun l => { l with txFault := true }, written_writeLane, lane_modLane_same]
  rfl

end

section
variable {d : Device} {n : LaneNo} (st : Stamp) (idle : d.capture.busy n = false)
include idle

/-- A driver fault on a lane without a capture in progress leaves the capture unit alone (01 R22). -/
theorem capture_takeFault : (d.takeFault n st).capture = d.capture := by
  have idle : (d.faultNoted n st).capture.busy n = false := idle
  rw [takeFault_eq, capture_endTest _ n .fault st (CaptureUnit.notBothFor_of_idle idle), endedCapture_of_idle idle]
  rfl

/-- A driver fault with no insertion pending and no capture in progress writes the fault, the close and the end (01 R22). -/
theorem written_takeFault {iv : OpenInterval} (hi : (d.lane n).interval = some iv)
    (insert : (d.lane n).tx.insertPending = false) : d.written (d.takeFault n st) = [(d.lane n).writes n st .txFault 0] ++
    (d.lane n).closeRecords n st st ++ [((d.lane n).faultTaken n st).writes n st .testStopped 3] := by
  have idle : (d.faultNoted n st).capture.busy n = false := idle
  have ended := written_endTest (d.faultNoted n st) n .fault st (by rw [lane_faultNoted]; exact hi)
    (CaptureUnit.notBothFor_of_idle idle)
  rw [CaptureUnit.endRecords_of_idle idle, lane_faultNoted] at ended
  dsimp only at ended
  rw [insert, recordIf, if_neg Bool.false_ne_true, List.append_nil, List.append_nil] at ended
  rw [takeFault_eq, (laneStep_faultNoted d n st).written_trans (.endTest n _ _ st), written_faultNoted, ended,
    ← List.append_assoc]
  rfl

end

/-- Settles O25: the entry to TEST, the entry with the driver fault behind it, and the end of a test. -/
theorem testsStartAndStopWithTheirRecords : Obligations.TestsStartAndStopWithTheirRecords := by
  intro d n o st iv l hi hw closed
  have notBoth : d.capture.notBothFor n := hw.notBothFor n
  have idle : (d.endedCapture n).busy n = false := busy_endedCapture d n hw
  have started : l.modeClosed n .testStart st = closed .testStart := modeClosed_of_open hi n (by decide) st
  have stopped : l.modeClosed n .testStop st = closed .testStop := modeClosed_of_open hi n (by decide) st
  have lane : (d.testEntered n o st).lane n = (closed .testStart).enter .test := by
    rw [lane_testEntered, Lane.testEntered]; exact congrArg (·.enter .test) started
  have capture : (d.testEntered n o st).capture = d.endedCapture n := capture_testEntered st notBoth o
  have records := written_testEntered st notBoth hi o
  rw [← lane_testEntered d n o st, lane, started] at records
  refine ⟨fun hm hf ht => ?_, fun hm hf ht => ?_, fun hm => ?_⟩
  · rw [testStart_accepted d n o st hm hf, beginTest_eq, if_pos ht]
    dsimp only
    rw [lane, capture]
    exact ⟨rfl, records, rfl, idle⟩
  · have free : (d.testEntered n o st).capture.busy n = false := by rw [capture]; exact idle
    have faulted := written_takeFault st free (iv := newInterval st) (by rw [lane]; rfl) (by rw [lane]; rfl)
    have number : (l.number + 2) % 65536 = ((l.number + 1) % 65536 + 1) % 65536 := by omega
    have ended := lane_takeFault (d.testEntered n o st) n st
    rw [lane, Lane.faultTaken, testEnded_of_open (iv := newInterval st) rfl] at ended
    rw [testStart_accepted d n o st hm hf, beginTest_eq, if_neg (by rw [ht]; exact Bool.false_ne_true)]
    dsimp only
    rw [number]
    refine ⟨ended, ?_, (capture_takeFault st free).trans capture, by rw [capture_takeFault st free]; exact free⟩
    rw [(laneStep_testEntered d n o st).written_trans (.takeFault n _ st), records, faulted, ← lane_takeFault, lane]
    simp only [List.append_assoc, List.cons_append, List.nil_append]
    rfl
  · have records := written_endTest d n o.testEnd st hi notBoth
    have captured := capture_endTest d n o.testEnd st notBoth
    have code : o.testEnd.code = o.code := by cases o <;> rfl
    rw [← lane_endTest d n o.testEnd st, stopped, code] at records
    rw [testStop_accepted d n o st hm]
    exact ⟨(lane_endTest d n _ st).trans (testEnded_of_open hi n st), records, captured, captured.symm ▸ idle⟩

end Sys2Proof.Machine
end

