-- ==== Sys2Proof/Proofs/PatternChecker.lean ====
section
namespace Sys2Proof.Machine

open Sys2Proof

/-! ### The cells of the pattern and the bits of a byte (07 R137, R141) -/

/-- The cell of a lane's pattern under an invert reading (07 R137). -/
theorem cell_inverted (p : Pattern) (reading : Invert) (k : Nat) : (p.inverted reading).cell k =
    if k < 8 then (if reading = .a ∨ reading = .both then ~~~p.a else p.a).getLsbD k
    else (if reading = .b ∨ reading = .both then ~~~p.b else p.b).getLsbD (k - 8) := by
  cases reading <;> rfl

theorem testBit_bitsNat (bits : List Bool) (j : Nat) : (bitsNat bits).testBit j = bits[j]?.getD false := by
  induction bits generalizing j with
  | nil => exact Nat.zero_testBit j
  | cons b rest ih =>
    have digit : bitsNat (b :: rest) = 2 * bitsNat rest + b.toNat := by cases b <;> simp [bitsNat, Nat.add_comm]
    rw [digit]
    cases j with
    | zero => cases b <;> simp [Nat.testBit_zero]
    | succ j =>
      rw [Nat.testBit_succ, show (2 * bitsNat rest + b.toNat) / 2 = bitsNat rest by have := b.toNat_le; omega, ih]
      rfl

/-- The j-th cell of a byte gives its bit j (07 R141). -/
theorem getLsbD_byteOfBits (bits : List Bool) (j : Fin 8) : (byteOfBits bits).getLsbD j.val = bits[j.val]?.getD false := by
  rw [byteOfBits, BitVec.getLsbD_ofNat, testBit_bitsNat]
  simp [j.isLt]

/-! ### A cell in SEARCH (07 R140) -/

theorem foundAlignment_eq_none {counts : Fin 16 → Nat} (h : ∀ k, counts k < 32) : foundAlignment (Vector.ofFn counts) = none := by
  refine List.find?_eq_none.2 fun k _ => ?_
  simpa [Config.trackCells] using h k

/-- The lowest alignment whose count has reached 32 is found (07 R140). -/
theorem foundAlignment_eq_some {counts : Fin 16 → Nat} {k : Fin 16} (hk : counts k = 32) (lowest : ∀ j, j < k → counts j < 32) :
    foundAlignment (Vector.ofFn counts) = some k := by
  refine List.find?_eq_some_iff_getElem.2 ⟨?_, k.val, ?_, ?_, fun j hj => ?_⟩
  · simp [Config.trackCells, hk]
  · simp
  · simp
  · simpa [Config.trackCells] using lowest ⟨j, by omega⟩ hj

section
variable (d : Device) (n : LaneNo) (c : Cell) (st : Stamp)

/-- The lane as it enters TRACK (07 R140). -/
def Lane.tracking (l : Lane) (k : Fin 16) : Lane :=
  { l with line := .track, checker := { Checker.fresh with alignment := some k, reading := l.page.invert } }

theorem searchCell_searching {counts : Vector Nat 16}
    (hc : searchCounts (d.lane n).checker.counts (d.pattern.inverted (d.lane n).page.invert) c = counts)
    (h : foundAlignment counts = none) :
    d.searchCell n c st = d.modLane n fun l => { l with checker := { l.checker with counts := counts } } := by
  simp only [Device.searchCell, hc, h]

theorem searchCell_found {counts : Vector Nat 16}
    (hc : searchCounts (d.lane n).checker.counts (d.pattern.inverted (d.lane n).page.invert) c = counts) {k : Fin 16}
    (h : foundAlignment counts = some k) :
    d.searchCell n c st = (d.modLane n fun _ => (d.lane n).tracking k).writeLane n st .patternLock 0 := by
  simp only [Device.searchCell, hc, h]
  rfl

end

/-! ### A cell in TRACK (07 R141, R142) -/

/-- The checker after a cell in TRACK, with the pattern's cell and the block's mismatches spelled out (07 R137, R141). -/
theorem track_aligned {k : Checker} {p : Fin 16} (h : k.alignment = some p) (pattern : Pattern) (live : Invert) (c : Cell) :
    let position := p + 1
    let reading := if position = 0 then live else k.reading
    let a := if reading = .a ∨ reading = .both then ~~~pattern.a else pattern.a
    let b := if reading = .b ∨ reading = .both then ~~~pattern.b else pattern.b
    let mismatch := cellBit c ≠ if position.val < 8 then a.getLsbD position.val else b.getLsbD (position.val - 8)
    let newBlock := 256 ≤ k.blockCells
    let whole := decide (position = 0) || k.whole
    k.track pattern live c = ({ k with
      alignment := some position, reading := reading, whole := whole
      bits := if whole = false then [] else if position = 0 ∨ position = 8 then [cellBit c] else k.bits ++ [cellBit c]
      blockCells := if newBlock then 1 else k.blockCells + 1
      blockMismatches := (if newBlock then 0 else k.blockMismatches) + (if mismatch then 1 else 0) }, decide mismatch) := by
  intro position reading a b mismatch newBlock whole
  have misses (m : Nat) : m + (if mismatch then 1 else 0) = if mismatch then m + 1 else m := by split <;> rfl
  rw [misses]
  simp only [Checker.track, h, Option.getD_some, cell_inverted, decide_eq_true_eq, Bool.not_eq_true']
  rfl

/-- The device with the checker of its lane moved on, and a mismatch handed to accounting (07 R141). -/
def Device.tracked (d : Device) (n : LaneNo) (next : Checker × Bool) (st : Stamp) : Device :=
  let moved := d.modLane n fun l => { l with checker := next.1 }
  if next.2 then moved.countError n .pattern st else moved

section
variable (d : Device) (n : LaneNo) (c : Cell) (st : Stamp)

theorem laneStep_tracked (next : Checker × Bool) : Device.LaneStep n d (d.tracked n next st) :=
  (Device.LaneStep.modLane n d _).trans (.ite (.countError n _ _ st) (.refl n _))

/-- The loss of TRACK is a restart that keeps the rest of the receive side (07 R142). -/
theorem loseTrack_eq : d.loseTrack n st = d.restartedBy n true
    (fun l => { l with line := .search, rx := { l.rx with window := [] }, checker := Checker.fresh }) .patternUnlock st := rfl

theorem capture_loseTrack :
    (d.loseTrack n st).capture = (d.modLane n fun l => { l with history := [] }).truncatedCapture n := by
  rw [loseTrack_eq, capture_restartedBy]

theorem written_loseTrack : d.written (d.loseTrack n st) =
    d.capture.truncatedRecords n st ++ [((d.loseTrack n st).lane n).writes n st .patternUnlock 0] := by
  rw [loseTrack_eq, written_restartedBy]; rfl

/-- The unit that position 15 counts, and the byte that positions 7 and 15 hand on (07 R141). -/
def Device.trackHanded (d : Device) (n : LaneNo) (k : Checker) (st : Stamp) : Device :=
  let unit := if k.whole = true ∧ k.alignment = some 15 then d.countUnit n else d
  if k.whole = true ∧ (k.alignment = some 7 ∨ k.alignment = some 15) then unit.handByte n (byteOfBits k.bits) false st else unit

theorem trackCell_eq {next : Checker × Bool} (h : (d.lane n).checker.track d.pattern (d.lane n).page.invert c = next) :
    d.trackCell n c st =
      if next.2 = true ∧ 16 ≤ next.1.blockMismatches then (d.tracked n next st).loseTrack n st
      else (d.tracked n next st).trackHanded n next.1 st := by
  subst h; rfl

end

/-- Settles O36: SEARCH by what the counts find, TRACK by what the checker makes of the cell. -/
theorem theCheckerTracksThePattern : Obligations.TheCheckerTracksThePattern := by
  intro d n c st l expected counts s'
  have counted : searchCounts l.checker.counts (d.pattern.inverted l.page.invert) c = Vector.ofFn counts := rfl
  refine ⟨fun short => searchCell_searching d n c st counted (foundAlignment_eq_none short), fun k reached lowest => ?_,
    fun p aligned => ?_⟩
  · have found : s' = _ := searchCell_found d n c st counted (foundAlignment_eq_some reached lowest)
    have step : Device.LaneStep n d s' := .searchCell n d c st
    have lane : s'.lane n = l.tracking k := by rw [found, lane_writeLane, lane_modLane_same]
    have records : d.written s' = [(s'.lane n).writes n st .patternLock 0] := by
      rw [found, lane_writeLane]; exact written_writeLane (d.modLane n fun _ => l.tracking k) n st .patternLock 0
    have capture : s'.capture = d.capture := by rw [found]; rfl
    have frame := step.frame
    rw [capture] at frame
    rw [lane] at records ⊢
    exact ⟨frame, step.records, step.lanes, rfl, rfl, rfl, rfl, rfl, rfl, rfl, records⟩
  · intro t' position reading a b mismatch newBlock misses whole bits moved counted
    obtain ⟨checker, hchecker⟩ : ∃ x, x = (moved.lane n).checker := ⟨_, rfl⟩
    have movedLane : moved.lane n = { l with checker := checker } := by rw [hchecker, lane_modLane_same]
    have next : l.checker.track d.pattern l.page.invert c = (checker, decide mismatch) := by
      rw [hchecker, lane_modLane_same]; exact track_aligned aligned d.pattern l.page.invert c
    obtain ⟨hposition, hwhole, hbits, hmisses⟩ : checker.alignment = some position ∧ checker.whole = whole ∧
        checker.bits = bits ∧ checker.blockMismatches = misses := by
      rw [hchecker, lane_modLane_same]; exact ⟨rfl, rfl, rfl, rfl⟩
    have tracked : d.tracked n (checker, decide mismatch) st = counted := by
      rw [hchecker, lane_modLane_same, Device.tracked]; simp only [decide_eq_true_eq]; rfl
    have ran : t' = if mismatch ∧ 16 ≤ misses then counted.loseTrack n st else counted.trackHanded n checker st := by
      rw [show t' = _ from trackCell_eq d n c st next, tracked, hmisses]; simp only [decide_eq_true_eq]
    refine ⟨fun lost => ?_, fun kept => ⟨byteOfBits bits, getLsbD_byteOfBits bits, ?_⟩⟩
    · have lostTrack : t' = counted.loseTrack n st := ran.trans (if_pos lost)
      have step : Device.LaneStep n d t' := .trackCell n d c st
      have before : Device.LaneStep n d counted := tracked ▸ laneStep_tracked d n st _
      have countedLane : counted.lane n = { l with checker := checker, interval := (counted.lane n).interval } := by
        rw [show counted = moved.countError n .pattern st from if_pos lost.1, lane_countError, movedLane]; rfl
      have lane : t'.lane n = (counted.lane n).trackLost := by rw [lostTrack, lane_loseTrack]
      have capture : t'.capture = (counted.modLane n fun l => { l with history := [] }).truncatedCapture n := by
        rw [lostTrack, capture_loseTrack]
      have records : d.written t' = d.written counted ++ counted.capture.truncatedRecords n st ++
          [(t'.lane n).writes n st .patternUnlock 0] := by
        rw [lostTrack, before.written_trans (.loseTrack n _ st), written_loseTrack, ← List.append_assoc]
      refine ⟨step.frame, step.records, step.lanes, ?_, ?_, fun k => ?_, capture, records⟩
      · rw [lane, countedLane]; rfl
      · rw [lane]; rfl
      · rw [lane]; exact Vector.getElem_replicate k.isLt
    · rw [ran, if_neg kept, Device.trackHanded, hposition, hwhole, hbits]
      simp only [Option.some.injEq]
      rfl

end Sys2Proof.Machine
end

