-- ==== Sys2Proof/Proofs/Grants.lean ====
section
namespace Sys2Proof.Machine

open Sys2Proof

/-! ### What a grant finds free (08 R156) -/

theorem Slot.isFree_iff (x : Slot) : x.isFree = true ↔ x = .free := by cases x <;> simp [Slot.isFree]

namespace CaptureUnit

variable {u : CaptureUnit}

theorem freeEngine_eq_none (first : u.engines[0] ≠ none) (second : u.engines[1] ≠ none) : u.freeEngine = none := by
  simp [freeEngine, first, second]

theorem freeEngine_of_lowest {e : Fin 2} (free : u.engines[e.val] = none)
    (lowest : ∀ f : Fin 2, f < e → u.engines[f.val] ≠ none) : u.freeEngine = some e := by
  obtain rfl | rfl : e = 0 ∨ e = 1 := by omega
  · have first : u.engines[0] = none := free
    simp [freeEngine, first]
  · have first : u.engines[0] ≠ none := lowest 0 (by decide)
    have second : u.engines[1] = none := free
    simp [freeEngine, first, second]

theorem freeSlot_eq_none (h : ∀ k : SlotNo, u.slots[k.val] ≠ .free) : u.freeSlot = none :=
  List.find?_eq_none.2 fun k _ free => h k ((Slot.isFree_iff _).1 free)

/-- The slots below a slot come before it in the search. -/
theorem allSlots_split (k : SlotNo) : ∃ before after, allSlots = before ++ k :: after ∧ ∀ i ∈ before, i < k :=
  ⟨allSlots.take k.val, allSlots.drop (k.val + 1), by revert k; decide⟩

theorem freeSlot_of_lowest {k : SlotNo} (free : u.slots[k.val] = .free)
    (lowest : ∀ i : SlotNo, i < k → u.slots[i.val] ≠ .free) : u.freeSlot = some k := by
  obtain ⟨before, after, split, below⟩ := allSlots_split k
  refine List.find?_eq_some_iff_append.2 ⟨(Slot.isFree_iff _).2 free, before, after, split, fun i hi => ?_⟩
  rw [Bool.not_eq_true', Bool.eq_false_iff, ne_eq, Slot.isFree_iff]
  exact lowest i (below i hi)

end CaptureUnit

/-! ### One grant and the grant test (08 R156, R157) -/

theorem grantOne_eq_none {d : Device}
    (h : d.capture.waiting = [] ∨ d.capture.freeEngine = none ∨ d.capture.freeSlot = none) : d.grantOne = none := by
  unfold Device.grantOne
  split
  · next hw he hk => rw [hw, he, hk] at h; simp at h
  · rfl

/-- The capture an entry is granted, as its lane stands: the live page, its size after the trigger, and the most recent bytes of
the history ring up to its size before (08 R157). -/
def Waiting.granted (w : Waiting) (l : Lane) : Capture :=
  ⟨w.lane, w.kind, w.stamp, w.lateBy, l.live, l.page.capturePost, min l.page.capturePre l.history.length,
    l.history.drop (l.history.length - min l.page.capturePre l.history.length), false⟩

theorem grantOne_eq_some {d : Device} {w : Waiting} {rest : List Waiting} {e : Fin 2} {k : SlotNo}
    (oldest : d.capture.waiting = w :: rest) (engine : d.capture.freeEngine = some e) (slot : d.capture.freeSlot = some k) :
    d.grantOne = some { d with capture := ⟨rest, d.capture.engines.set e.val (some k),
      d.capture.slots.set k.val (.filling (w.granted (d.lane w.lane)))⟩ } := by
  have recent (pre len : Nat) : len - (len - pre) = min pre len ∧ len - min pre len = len - pre := by omega
  simp only [Device.grantOne, oldest, engine, slot, Waiting.granted, List.length_drop, recent]

/-- Two grants bind both engines, so no third follows. -/
theorem grantOne_after_two {d d' d'' : Device} (first : d.grantOne = some d') (second : d'.grantOne = some d'') :
    d''.grantOne = none := by
  obtain ⟨_, _, e, k, _, -, -, -, -, -, -, -, -, rfl⟩ := grantOne_cases first
  obtain ⟨_, _, f, j, _, -, free, -, -, -, -, -, -, rfl⟩ := grantOne_cases second
  have other : e ≠ f := by rintro rfl; simp at free
  have bound (i : Fin 2) : ((d.capture.engines.set e.val (some k)).set f.val (some j))[i.val] ≠ none := by
    obtain rfl | rfl : i = f ∨ i = e := by omega
    · simp
    · rw [Vector.getElem_set_ne _ _ fun same => other (Fin.ext same.symm)]; simp
  exact grantOne_eq_none (.inr (.inl (CaptureUnit.freeEngine_eq_none (bound 0) (bound 1))))

theorem grantTest_of_none {d : Device} (h : d.grantOne = none) : d.grantTest = d := by
  simp only [Device.grantTest, Device.grantTimes, h]

/-- The test is repeated after a grant; that it stops after two loses none (08 R156). -/
theorem grantTest_of_some {d d' : Device} (h : d.grantOne = some d') : d.grantTest = d'.grantTest := by
  cases again : d'.grantOne with
  | none => simp only [Device.grantTest, Device.grantTimes, h, again]
  | some d'' => simp only [Device.grantTest, Device.grantTimes, h, again, grantOne_after_two h again]

/-- Settles O49: a test that lacks something ends at once, another is one grant and the test again. -/
theorem grantsServeTheOldestEntry : Obligations.GrantsServeTheOldestEntry := by
  refine fun d => ⟨fun lacking => grantTest_of_none (grantOne_eq_none ?_), ?_⟩
  · obtain noEntry | ⟨first, second⟩ | noSlot := lacking
    · exact .inl noEntry
    · exact .inr (.inl (CaptureUnit.freeEngine_eq_none first second))
    · exact .inr (.inr (CaptureUnit.freeSlot_eq_none noSlot))
  · intro w rest e k oldest engine lowestEngine slot lowestSlot
    exact grantTest_of_some (grantOne_eq_some oldest (CaptureUnit.freeEngine_of_lowest engine lowestEngine)
      (CaptureUnit.freeSlot_of_lowest slot lowestSlot))

end Sys2Proof.Machine
end

