-- ==== Sys2Proof/Proofs/CaptureRequests.lean ====
section
namespace Sys2Proof.Machine

open Sys2Proof

/-! ### CAPTURE TAKE (08 R164) -/

theorem slotOf_slotByte (k : SlotNo) : slotOf (slotByte k) = some k := by revert k; decide

theorem slotOf_outOfRange {b : Byte} (h : 3 < b.toNat) : slotOf b = none := by
  simp [slotOf, Nat.not_lt.2 h]

theorem ownCaptureTake_outOfRange {b : Byte} (h : 3 < b.toNat) (d : Device) :
    ownCaptureTake [b] d = (d, .refuse .badValue) :=
  asRequest_unchanged _ d _ (by simp only [slotOf_outOfRange h])

theorem ownCaptureTake_slot (k : SlotNo) : ownCaptureTake [slotByte k] = asRequest fun d => d.takeCapture k := by
  simp only [ownCaptureTake, slotOf_slotByte]

section
variable {d : Device} {k : SlotNo} {c : Capture}

theorem takeCapture_full (h : d.capture.slots[k.val] = .full c) :
    d.takeCapture k = (Device.grantTest { d with capture := d.capture.setSlot k .free }, .ok (c.image k)) := by
  simp only [Device.takeCapture, h]

theorem takeCapture_filling (h : d.capture.slots[k.val] = .filling c) : d.takeCapture k = (d, .refuse .slotBusy) := by
  simp only [Device.takeCapture, h]

theorem takeCapture_free (h : d.capture.slots[k.val] = .free) : d.takeCapture k = (d, .refuse .empty) := by
  simp only [Device.takeCapture, h]

end

/-- A request whose owner writes no record leaves those on their way as they were. -/
theorem inFlight_requested_noWrite {d d' : Device} (tag code : Byte) (a : Answer) (h : d'.inFlight = d.inFlight) :
    (d.requested tag code d' a).inFlight = d.inFlight := by
  rw [inFlight_requested d tag code d' a (added := []) (by rw [h, List.append_nil]), List.map_nil, List.append_nil]

/-- The end of a frame changes nothing that a grant reads. -/
theorem capture_grantTest_frameEnds (d : Device) (u : CaptureUnit) :
    (Device.grantTest { d.frameEnds with capture := u }).capture = (Device.grantTest { d with capture := u }).capture :=
  capture_grantTest_congr rfl fun _ _ => ⟨rfl, rfl, rfl⟩

/-- A FULL slot is answered, freed, and the grant test made (08 R164). -/
theorem captureTake_full (tag : Byte) {s : State} (quiet : s.dev.quiet) {k : SlotNo} {c : Capture}
    (full : s.dev.capture.slots[k.val] = .full c) : ∃ t, exec (.captureTake tag [slotByte k]) s = .next t ∧
      t.dev.port.reply = some ⟨tag, 0xD2#8, .ok, c.image k⟩ ∧
      t.dev.capture = (Device.grantTest { s.dev with capture := s.dev.capture.setSlot k .free }).capture ∧
      t.dev.inFlight = s.dev.inFlight ∧ t.dev.lanes = s.dev.lanes ∧ t.dev.journal = s.dev.journal ∧
      t.dev.schedule = s.dev.schedule ∧ t.dev.timebase = s.dev.timebase := by
  let freed : Device := { s.dev.frameEnds with capture := s.dev.capture.setSlot k .free }
  have own : s.dev.frameEnds.takeCapture k = (freed.grantTest, .ok (c.image k)) := takeCapture_full full
  have step : Device.LaneStep 0 freed freed.grantTest := .grantTest 0 freed
  have ran : exec (.captureTake tag [slotByte k]) s =
      .next (s.withDev (s.dev.requested tag 0x52#8 freed.grantTest (.ok (c.image k)))) := by
    rw [exec, execCaptureTake, ownCaptureTake_slot]; exact exec_request s quiet own
  refine ⟨_, ran, ?_⟩
  simp only [dev_withDev, capture_requested, lanes_requested, journal_requested, schedule_requested, timebase_requested,
    lanes_grantTest]
  exact ⟨congrArg Port.reply (port_requested _ _ _ _ _ step.port), capture_grantTest_frameEnds s.dev _,
    inFlight_requested_noWrite _ _ _ (inFlight_grantTest freed), rfl, step.journal, step.schedule, step.timebase⟩

/-! ### CAPTURE ABORT (08 R162) -/

section
variable {d : Device} {n : LaneNo}

theorem abortCapture_filling {k : SlotNo} (h : d.capture.fillingSlot n = some k) :
    d.abortCapture n = (d.truncate n d.now, .ok [1#8, slotByte k]) := by
  simp only [Device.abortCapture, h]; rfl

theorem abortCapture_pending {w : Waiting} (notFilling : d.capture.fillingSlot n = none)
    (pending : d.capture.entryOf n = some w) :
    d.abortCapture n = ((d.dropEntry n d.now).grantTest, .ok [2#8, 0xFF#8]) := by
  simp only [Device.abortCapture, notFilling, pending, Option.isSome_some, if_true]

theorem abortCapture_idle (h : d.capture.busy n = false) : d.abortCapture n = (d, .refuse .empty) := by
  obtain ⟨entry, slot⟩ := (CaptureUnit.idle_iff _ n).1 h
  simp only [Device.abortCapture, slot, entry, Option.isSome_none, Bool.false_eq_true, if_false]

/-- The entry that is dropped writes CAPTURE_DROPPED with its kind (08 R161). -/
theorem written_dropEntry (st : Stamp) {w : Waiting} (pending : d.capture.entryOf n = some w) :
    d.written (d.dropEntry n st) = [(d.lane n).writes n st .captureDropped w.kind.code] := by
  rw [Device.dropEntry, pending]
  exact written_writeLane { d with capture.waiting := d.capture.waiting.filter fun v => decide (v.lane ≠ n) } n st _ _

end

/-- An abort that a lane takes: its answer is the reply, and what it does to the unit and writes stand. -/
theorem exec_captureAbort (tag : Byte) {s : State} (quiet : s.dev.quiet) (n : LaneNo) {d : Device} {a : Answer}
    (own : s.dev.frameEnds.abortCapture n = (d, a)) : ∃ t, exec (.captureAbort tag [laneByte n]) s = .next t ∧
      t.dev.port.reply = some ⟨tag, 0xD3#8, a.status, a.results⟩ ∧ t.dev.capture = d.capture ∧
      s.dev.written t.dev = s.dev.written d ∧ t.dev.lanes = d.lanes ∧ t.dev.journal = s.dev.journal := by
  have step : Device.LaneStep n s.dev.frameEnds d := by
    have := laneStep_abortCapture s.dev.frameEnds n
    rwa [own] at this
  refine ⟨_, exec_request s quiet ((laneRequest_lane n _ _).trans own), ?_⟩
  simp only [dev_withDev, capture_requested, lanes_requested, journal_requested, written_requested]
  exact ⟨congrArg Port.reply (port_requested _ _ _ _ _ step.port), trivial, trivial, trivial, step.journal⟩

theorem captureAbort_idle (tag : Byte) {s : State} (quiet : s.dev.quiet) {n : LaneNo} (idle : s.dev.capture.busy n = false) :
    exec (.captureAbort tag [laneByte n]) s = .next (s.withDev (s.dev.answered tag 0x53#8 .empty [])) :=
  onDevice_request_answered s quiet _ _
    (asRequest_unchanged _ _ _ ((laneRequest_lane n _ _).trans (abortCapture_idle (d := s.dev.frameEnds) idle)))

theorem captureAbort_filling (tag : Byte) {s : State} (quiet : s.dev.quiet) (wf : s.dev.capture.Wf) {k : SlotNo} {c : Capture}
    (filling : s.dev.capture.slots[k.val] = .filling c) : ∃ t, exec (.captureAbort tag [laneByte c.lane]) s = .next t ∧
      t.dev.port.reply = some ⟨tag, 0xD3#8, .ok, [1#8, slotByte k]⟩ ∧
      t.dev.capture.slots[k.val] = .full { c with truncated := true } ∧ t.dev.capture = s.dev.truncatedCapture c.lane ∧
      s.dev.written t.dev = [⟨s.dev.now, .capture, .captureDone, k.val + 32768, none⟩] ∧
      t.dev.lanes = s.dev.lanes ∧ t.dev.journal = s.dev.journal := by
  have fills : s.dev.capture.fillingSlot c.lane = some k :=
    CaptureUnit.fillingSlot_eq wf ((CaptureUnit.fillsFor_iff _ _).2 ⟨c, filling, rfl⟩)
  obtain ⟨t, ran, reply, unit, records, lanes, journal⟩ :=
    exec_captureAbort tag quiet c.lane (abortCapture_filling (d := s.dev.frameEnds) fills)
  have ended : t.dev.capture = s.dev.truncatedCapture c.lane :=
    (unit.trans (capture_truncate _ _ _)).trans
      (truncatedCapture_congr (d := s.dev.frameEnds) (d' := s.dev) rfl _ fun _ _ _ _ => ⟨rfl, rfl, rfl⟩)
  have done : s.dev.capture.truncatedRecords c.lane s.dev.now =
      [⟨s.dev.now, .capture, .captureDone, k.val + 32768, none⟩] := by rw [CaptureUnit.truncatedRecords, fills]
  refine ⟨t, ran, reply, ?_, ended, ?_, ?_, journal⟩
  · rw [ended]; exact slot_endedCapture wf filling
  · exact records.trans ((written_truncate s.dev.frameEnds _ _).trans done)
  · exact lanes.trans (lanes_ext (lane_truncate s.dev.frameEnds c.lane _))

theorem captureAbort_pending (tag : Byte) {s : State} (quiet : s.dev.quiet) {n : LaneNo} {w : Waiting}
    (notFilling : s.dev.capture.fillingSlot n = none) (pending : s.dev.capture.entryOf n = some w) :
    ∃ t, exec (.captureAbort tag [laneByte n]) s = .next t ∧ t.dev.port.reply = some ⟨tag, 0xD3#8, .ok, [2#8, 0xFF#8]⟩ ∧
      t.dev.capture = (Device.grantTest { s.dev with capture := { s.dev.capture with
        waiting := s.dev.capture.waiting.filter fun v => decide (v.lane ≠ n) } }).capture ∧
      s.dev.written t.dev = [(s.dev.lane n).writes n s.dev.now .captureDropped w.kind.code] ∧
      t.dev.lanes = s.dev.lanes ∧ t.dev.journal = s.dev.journal := by
  let dropped := s.dev.frameEnds.dropEntry n s.dev.now
  obtain ⟨t, ran, reply, unit, records, lanes, journal⟩ :=
    exec_captureAbort tag quiet n (abortCapture_pending (d := s.dev.frameEnds) notFilling pending)
  have same (m : LaneNo) : dropped.lane m = s.dev.lane m := lane_dropEntry s.dev.frameEnds n s.dev.now m
  refine ⟨t, ran, reply, unit.trans ?_, records.trans ?_, lanes.trans ?_, journal⟩
  · refine capture_grantTest_congr (capture_dropEntry s.dev.frameEnds n s.dev.now) fun v _ => ?_
    rw [Device.SameSizes, show (s.dev.frameEnds.dropEntry n s.dev.frameEnds.now).lane v.lane = _ from same v.lane]
    exact ⟨rfl, rfl, rfl⟩
  · exact (written_congr rfl (inFlight_grantTest dropped)).trans (written_dropEntry (d := s.dev.frameEnds) s.dev.now pending)
  · exact (lanes_grantTest dropped).trans (lanes_ext same)

/-! ### CAPTURE STATUS (08 R165, 10 R183) -/

section
variable {u : CaptureUnit} {k : SlotNo} {c : Capture}

theorem slotImage_free (h : u.slots[k.val] = .free) : u.slotImage k = [0#8, 0#8] := by
  simp only [CaptureUnit.slotImage, h]

theorem slotImage_filling (h : u.slots[k.val] = .filling c) : u.slotImage k =
    [byte (1 + 4 * c.lane.val + (if u.engines[1] = some k then 16 else 0)), byte c.data.length] := by
  simp only [CaptureUnit.slotImage, h, CaptureUnit.engineOf, mul_ite, mul_one, mul_zero]

theorem slotImage_full (h : u.slots[k.val] = .full c) : u.slotImage k =
    [byte (2 + 4 * c.lane.val + (if c.truncated then 128 else 0)), byte c.data.length] := by
  simp only [CaptureUnit.slotImage, h]; rfl

end

/-- Settles O48: the owners' checks, then each slot and lane state by its own lemma, and the status image block by block. -/
theorem capturesAreTakenAbortedAndReported : Obligations.CapturesAreTakenAbortedAndReported := by
  intro tag b s quiet
  refine ⟨fun high => ⟨?_, laneRequest_badValue _ s quiet high⟩, ?_, ?_, ?_⟩
  · exact onDevice_request_refused s quiet _ (ownCaptureTake_outOfRange high _)
  · rintro k rfl
    have refused {st : Status} (own : s.dev.frameEnds.takeCapture k = (s.dev.frameEnds, .refuse st)) :
        exec (.captureTake tag [slotByte k]) s = .next (s.withDev (s.dev.answered tag 0x52#8 st [])) :=
      onDevice_request_refused s quiet _ (by rw [ownCaptureTake_slot]; exact asRequest_unchanged _ _ _ own)
    exact ⟨fun _ => captureTake_full tag quiet, fun _ filling => refused (takeCapture_filling filling),
      fun free => refused (takeCapture_free free)⟩
  · rintro n rfl
    refine ⟨captureAbort_idle tag quiet, ?_, fun _ => captureAbort_pending tag quiet⟩
    rintro k c wf filling rfl
    exact captureAbort_filling tag quiet wf filling
  · intro u slotBytes engineByte
    have image (k : SlotNo) : u.slotImage k = slotBytes k := by
      cases h : u.slots[k.val] with
      | free => simp only [slotImage_free h, slotBytes, h]
      | filling c => simp only [slotImage_filling h, slotBytes, h]
      | full c => simp only [slotImage_full h, slotBytes, h]
    have slots : allSlots.flatMap u.slotImage = slotBytes 0 ++ slotBytes 1 ++ slotBytes 2 ++ slotBytes 3 := by
      simp only [allSlots, List.flatMap_cons, List.flatMap_nil, image, List.append_nil, List.append_assoc]
    refine onDevice_request_answered s quiet _ _ (congrArg (fun r => (s.dev.frameEnds, Answer.ok r)) ?_)
    rw [show s.dev.frameEnds.capture = u from rfl, CaptureUnit.statusResults, slots]
    rfl

end Sys2Proof.Machine
end

