-- ==== Sys2Proof/Proofs/EventInputs.lean ====
section
namespace Sys2Proof.Machine

open Sys2Proof

/-! ### The event input filter (09 R173) -/

section
variable {p : PinFilter} {x : Bool}

theorem sample_equal (same : x = p.level) : p.sample x = ({ p with count := 0 }, false) := if_pos same

theorem sample_counts (differs : x ≠ p.level) (few : p.count + 1 < 4) :
    p.sample x = ({ p with count := p.count + 1 }, false) := (if_neg differs).trans (if_pos few)

theorem sample_changes (differs : x ≠ p.level) (fourth : 4 ≤ p.count + 1) :
    p.sample x = ({ p with level := x, count := 0 }, true) := (if_neg differs).trans (if_neg (Nat.not_lt.2 fourth))

end

/-- A pin hands on an edge at the fourth sample that differs, to the level sampled (09 R173, R174). -/
theorem edgeOf_sample (pin : Pin) (p : PinFilter) (x : Bool) : edgeOf pin (p.sample x).1 (p.sample x).2 =
    if x ≠ p.level ∧ 4 ≤ p.count + 1 then [⟨pin, x⟩] else [] := by
  by_cases same : x = p.level
  · rw [sample_equal same, if_neg fun h => h.1 same]
    rfl
  by_cases few : p.count + 1 < 4
  · rw [sample_counts same few, if_neg fun h => Nat.not_le.2 few h.2]
    rfl
  · have fourth := Nat.not_lt.1 few
    rw [sample_changes same fourth, if_pos ⟨same, fourth⟩]
    rfl

theorem PinFilter.sample_fst (p : PinFilter) (x : Bool) : (p.sample x).1 =
    if x = p.level then { p with count := 0 }
    else if p.count + 1 < 4 then { p with count := p.count + 1 } else { p with level := x, count := 0 } := by
  unfold PinFilter.sample
  split_ifs <;> rfl

/-- A sample while osc_fault is set is none (09 R173). -/
theorem exec_filterSample_fault {s : State} (h : s.dev.timebase.oscFault = true) (x0 x1 : Bool) :
    exec (.filterSample x0 x1) s = .next s := congrArg (fun d => s.onDevice fun _ => d) (if_pos h)

theorem exec_filterSample {s : State} (h : s.dev.timebase.oscFault = false) (x0 x1 : Bool) :
    let s0 := s.dev.inputs.ext0.sample x0
    let s1 := s.dev.inputs.ext1.sample x1
    let edges := edgeOf .ext0 s0.1 s0.2 ++ edgeOf .ext1 s1.1 s1.2
    exec (.filterSample x0 x1) s = .next (s.withDev { s.dev with
      inputs := ⟨s0.1, s1.1, s.dev.inputs.edges ++ edges.map fun e => ⟨e, s.dev.now⟩⟩
      schedule := { s.dev.schedule with edges := s.dev.schedule.edges ++ edges } }) :=
  congrArg (fun d => s.onDevice fun _ => d) (if_neg (ne_true_of_eq_false h))

/-! ### EXT_EDGE (09 R174) -/

theorem choice_takes_iff (c : EdgeChoice) (rising : Bool) :
    c.takes rising = true ↔ c = .both ∨ (c = .rising ∧ rising = true) ∨ (c = .falling ∧ rising = false) := by
  cases c <;> simp [EdgeChoice.takes]

/-- The oldest edge of a pin is the first of that pin in the list (09 R174). -/
theorem firstStamped_some {p : Pin} {pre : List StampedEdge} {e : StampedEdge} (first : ∀ f ∈ pre, f.edge.pin ≠ p)
    (he : e.edge.pin = p) (post : List StampedEdge) : firstStamped p (pre ++ e :: post) = some (e, pre ++ post) := by
  induction pre with
  | nil => exact if_pos he
  | cons f pre ih =>
    rw [List.cons_append, firstStamped, if_neg (first f List.mem_cons_self), ih fun g hg => first g (List.mem_cons_of_mem f hg)]
    rfl

/-- The device with these edges on their way to the journal side. -/
def Device.withEdges (d : Device) (edges : List StampedEdge) : Device := { d with inputs := { d.inputs with edges := edges } }

theorem choice_withEdges (d : Device) (edges : List StampedEdge) (p : Pin) :
    ((d.withEdges edges).inputs.pin p).choice = (d.inputs.pin p).choice := by
  cases p <;> rfl

theorem noteEdge_oldest {d : Device} {p : Pin} {e : StampedEdge} {rest : List StampedEdge}
    (h : firstStamped p d.inputs.edges = some (e, rest)) :
    d.noteEdge p = if (d.inputs.pin p).choice.takes e.edge.rising then
        (d.withEdges rest).writePlain (.ext p) e.stamp .extEdge (if e.edge.rising then 1 else 2)
      else d.withEdges rest := by
  rw [← choice_withEdges d rest, Device.noteEdge, h]
  rfl

/-- The edge is one event, which moves no level. -/
theorem settle_noteEdge {d : Device} {p : Pin} {e : StampedEdge} {rest : List StampedEdge}
    (h : firstStamped p d.inputs.edges = some (e, rest)) :
    Device.settle d (d.noteEdge p) = if (d.inputs.pin p).choice.takes e.edge.rising then
        { d.withEdges rest with
          inFlight := d.inFlight ++
            [⟨d.events, ⟨e.stamp, .ext p, .extEdge, if e.edge.rising then 1 else 2, none⟩, false, false⟩]
          events := d.events + 1 }
      else d.withEdges rest := by
  have still {d' : Device} (lanes : d'.lanes = d.lanes) (journal : d'.journal = d.journal) (timebase : d'.timebase = d.timebase)
      (capture : d'.capture = d.capture) (c : CondNo) : d.level c = d'.level c :=
    level_eq_of_clock lanes journal capture fun _ => congrArg Timebase.clockLevel timebase.symm
  rw [noteEdge_oldest h]
  split
  · let noted := (d.withEdges rest).writePlain (.ext p) e.stamp .extEdge (if e.edge.rising then 1 else 2)
    have longer : noted.inFlight.length ≠ d.inFlight.length := by
      rw [inFlight_writePlain, List.length_append]
      exact Nat.ne_of_gt (Nat.lt_succ_self _)
    exact settle_write (b := noted) (still rfl rfl rfl rfl) longer
  · exact settle_noWrite (still rfl rfl rfl rfl) rfl

theorem exec_extEdge (p : Pin) (s : State) :
    exec (.extEdge p) s = .next (s.withDev (Device.settle s.dev (s.dev.noteEdge p))) := rfl

/-! ### EXT CONFIG (09 R174) -/

theorem edgeChoiceOf_code (x : EdgeChoice) : edgeChoiceOf x.code = some x := by cases x <;> rfl

theorem edgeChoiceOf_outOfRange {b : Byte} (h : 3 < b.toNat) : edgeChoiceOf b = none := by
  have other {n : Byte} (low : n.toNat ≤ 3) : b ≠ n := fun same => Nat.not_lt.2 low (same ▸ h)
  rw [edgeChoiceOf, if_neg (other (by decide)), if_neg (other (by decide)), if_neg (other (by decide)),
    if_neg (other (by decide))]

theorem ownExtConfig_outOfRange {c0 c1 : Byte} (h : 3 < c0.toNat ∨ 3 < c1.toNat) (d : Device) :
    ownExtConfig [c0, c1] d = (d, .refuse .badValue) := by
  obtain high | high := h
  · simp only [ownExtConfig, edgeChoiceOf_outOfRange high]
  · simp only [ownExtConfig, edgeChoiceOf_outOfRange high]
    cases edgeChoiceOf c0 <;> rfl

theorem ownExtConfig_code (x0 x1 : EdgeChoice) (d : Device) : ownExtConfig [x0.code, x1.code] d =
    ({ d with inputs := { d.inputs with
        ext0 := { d.inputs.ext0 with choice := x0 }, ext1 := { d.inputs.ext1 with choice := x1 } } }, .ok []) := by
  simp only [ownExtConfig, edgeChoiceOf_code]

/-- Settles O44: each pin's sample by itself, the oldest edge with its choice, and the two choices as one request. -/
theorem edgesAreFilteredAndJournalled : Obligations.EdgesAreFilteredAndJournalled := by
  refine ⟨fun x0 x1 s => ?_, fun s => ⟨?_, fun tag c0 c1 quiet => ⟨fun high => ?_, ?_⟩⟩⟩
  · intro i after edge edges
    refine ⟨fun fault => exec_filterSample_fault fault x0 x1, fun noFault => (exec_filterSample noFault x0 x1).trans ?_⟩
    rw [edgeOf_sample, edgeOf_sample, PinFilter.sample_fst, PinFilter.sample_fst]
  · intro pin pre e post held ofPin first choice taken takes
    have oldest : firstStamped pin s.dev.inputs.edges = some (e, pre ++ post) := by rw [held, firstStamped_some first ofPin]
    have judged : choice.takes e.edge.rising = true ↔ takes := choice_takes_iff choice e.edge.rising
    rw [exec_extEdge, settle_noteEdge oldest]
    exact ⟨fun does => by rw [if_pos (judged.2 does)]; rfl, fun doesNot => by rw [if_neg fun h => doesNot (judged.1 h)]; rfl⟩
  · exact onDevice_request_refused s quiet _ (ownExtConfig_outOfRange high _)
  · rintro x0 x1 rfl rfl
    refine (onDevice_request_quiet s quiet).trans ?_
    rw [ownExtConfig_code]
    rfl

end Sys2Proof.Machine
end

