-- ==== Sys2Proof/Proofs/AttentionUnit.lean ====
section
namespace Sys2Proof.Machine

open Sys2Proof

/-! ### The ten levels (09 R168) -/

theorem Lane.alarm_iff (l : Lane) :
    l.alarm = true ↔ (l.mode = .monitor ∧ l.line ≠ .locked) ∨ (l.mode = .test ∧ l.line ≠ .track) := by
  unfold Lane.alarm
  cases l.mode <;> simp

theorem level_alarmCond (d : Device) (n : LaneNo) : d.level (alarmCond n) = (d.lane n).alarm := by
  fin_cases n <;> rfl

theorem Slot.isFull_iff (x : Slot) : x.isFull = true ↔ ∃ c, x = .full c := by
  cases x <;> simp [Slot.isFull]

theorem CaptureUnit.ready_iff (u : CaptureUnit) : u.ready = true ↔ ∃ (k : SlotNo) (c : Capture), u.slots[k.val] = .full c := by
  simp only [CaptureUnit.ready, List.any_eq_true, mem_allSlots, true_and, Slot.isFull_iff]

theorem mem_allLanes (n : LaneNo) : n ∈ allLanes := by revert n; decide

theorem mem_allConditions (c : CondNo) : c ∈ allConditions := by revert c; decide

theorem level_txFault (d : Device) : d.level 7 = true ↔ ∃ n, (d.lane n).txFault = true := by
  simp only [Device.level, List.any_eq_true, mem_allLanes, true_and]

theorem clockLevel_iff (t : Timebase) : t.clockLevel = true ↔ t.timeValid = false ∨ t.oscFaultSeen = true := by
  rw [Timebase.clockLevel, Bool.or_eq_true, Bool.not_eq_true']

/-! ### Ten fields of equal width in one number (10 R183) -/

/-- The ten conditions' values, condition n as digit n. -/
theorem foldl_conditions (b : Nat) (v : CondNo → Nat) :
    allConditions.foldl (fun acc c => acc + v c * b ^ c.val) 0 = Nat.ofDigits b (List.ofFn v) := by
  rw [Nat.ofDigits_eq_sum_mapIdx, List.sum_eq_foldl]
  rfl

theorem ofDigits_conditions_lt {b : Nat} (hb : 1 < b) {v : CondNo → Nat} (small : ∀ c, v c < b) :
    Nat.ofDigits b (List.ofFn v) < b ^ 10 := by
  have := Nat.ofDigits_lt_base_pow_length hb (l := List.ofFn v) (List.forall_mem_ofFn_iff.2 small)
  rwa [List.length_ofFn] at this

theorem ofDigits_conditions_digit {b : Nat} {v : CondNo → Nat} (small : ∀ c, v c < b) (c : CondNo) :
    Nat.ofDigits b (List.ofFn v) / b ^ c.val % b = v c := by
  have inside : c.val < (List.ofFn v).length := by rw [List.length_ofFn]; exact c.isLt
  rw [Nat.ofDigits_div_pow_eq_ofDigits_drop c.val (Nat.zero_lt_of_lt (small c)) _ (List.forall_mem_ofFn_iff.2 small),
    List.drop_eq_getElem_cons inside, Nat.ofDigits_mod_eq_head!, List.head!_cons, List.getElem_ofFn,
    Nat.mod_eq_of_lt (small c)]

/-- Condition n at bit n. -/
theorem condBits_image (f : CondNo → Bool) : ∃ w < 1024, condBits f = le16 w ∧ ∀ c : CondNo, w.testBit c.val = f c := by
  have small (c : CondNo) : (f c).toNat < 2 := (f c).toNat_lt
  refine ⟨_, ofDigits_conditions_lt (by decide) small, ?_, fun c => ?_⟩
  · rw [← foldl_conditions, condBits]
    simp only [bitAt, Bool.toNat, Bool.cond_eq_ite, ite_mul, one_mul, zero_mul]
  · rw [Nat.testBit_eq_decide_div_mod_eq, ofDigits_conditions_digit small]
    cases f c <;> rfl

theorem AttentionMode.code_lt (m : AttentionMode) : m.code < 4 := by cases m <;> decide

/-- The mode of condition n at bits 2n and 2n + 1. -/
theorem modeBits_image (f : CondNo → AttentionMode) :
    ∃ w < 1048576, modeBits f = le24 w ∧ ∀ c : CondNo, w / 4 ^ c.val % 4 = (f c).code := by
  have small (c : CondNo) : (f c).code < 4 := (f c).code_lt
  exact ⟨_, ofDigits_conditions_lt (by decide) small, by rw [← foldl_conditions, modeBits], ofDigits_conditions_digit small⟩

theorem attentionModeOf_level_iff {n : Nat} (h : n < 4) : attentionModeOf n = .level ↔ n = 3 := by
  revert n; decide

/-! ### Each condition on its own (09 R171, R172) -/

theorem conditions_each (a : Attention) (f : CondNo → Condition → Condition) (c : CondNo) :
    (a.each f).conditions[c.val] = f c a.conditions[c.val] := by
  simp only [Attention.each, Vector.getElem_ofFn, Attention.cond]

/-- A change of each condition to itself is none. -/
theorem each_unchanged {a : Attention} {f : CondNo → Condition → Condition}
    (h : ∀ c : CondNo, f c a.conditions[c.val] = a.conditions[c.val]) : a.each f = a := by
  have conditions : (a.each f).conditions = a.conditions :=
    Vector.ext fun i hi => (conditions_each a f ⟨i, hi⟩).trans (h ⟨i, hi⟩)
  exact congrArg (fun v => ({ a with conditions := v } : Attention)) conditions

/-- Where nothing is cleared and a true LEVEL condition is latched already, serving a condition leaves it (09 R171). -/
theorem serve_nothing {x : Condition} {level : Bool}
    (latched : x.enabled = true → x.mode = .level → level = true → x.latch = true) : x.serve false level = x := by
  have kept : (x.latch && !false || x.enabled && decide (x.mode = .level) && level) = x.latch := by
    rw [Bool.not_false, Bool.and_true, Bool.or_eq_left_iff_imp]
    simp only [Bool.and_eq_true, decide_eq_true_eq]
    exact fun ⟨⟨enabled, mode⟩, high⟩ => latched enabled mode high
  exact congrArg (fun l => ({ x with latch := l } : Condition)) kept

/-- The unit after an ATTENTION with this clear set and these levels (09 R171). -/
def Attention.served (a : Attention) (clear : Nat) (level : CondNo → Bool) : Attention :=
  a.each fun c x => x.serve (clear.testBit c.val) (level c)

theorem conditions_served (a : Attention) (clear : Nat) (level : CondNo → Bool) (c : CondNo) :
    (a.served clear level).conditions[c.val] = (a.conditions[c.val]).serve (clear.testBit c.val) (level c) :=
  conditions_each a _ c

/-- An empty clear set changes nothing where the unit follows the levels (09 R171). -/
theorem served_nothing {d : Device} (h : d.LevelsFollowed) : d.attention.served 0 d.levelSeen = d.attention :=
  each_unchanged fun c => by
    rw [Nat.zero_testBit]
    exact serve_nothing (h.latched c)

/-- The mode of a condition is LEVEL where its two bits are 3 (09 R172, 10 R183). -/
theorem modeIn_level_iff (modes : Nat) (c : CondNo) : modeIn modes c = .level ↔ modes / 4 ^ c.val % 4 = 3 :=
  attentionModeOf_level_iff (Nat.mod_lt _ (by decide))

/-- The unit after an ATTENTION CONFIG with these settings and these levels (09 R172). -/
def Attention.configured (a : Attention) (enables modes : Nat) (level : CondNo → Bool) : Attention :=
  a.each fun c x => x.configure (enables.testBit c.val) (modeIn modes c) (level c)

theorem conditions_configured (a : Attention) (enables modes : Nat) (level : CondNo → Bool) (c : CondNo) :
    (a.configured enables modes level).conditions[c.val] = ⟨enables.testBit c.val, modeIn modes c, enables.testBit c.val &&
      ((a.conditions[c.val]).latch || (decide (modes / 4 ^ c.val % 4 = 3) && level c))⟩ := by
  rw [Attention.configured, conditions_each, Condition.configure]
  simp only [modeIn_level_iff]

theorem levelTaken_eq (d : Device) : d.levelTaken = d.levelSeen := funext (levelTaken_eq_levelSeen d)

/-! ### ATTENTION and ATTENTION CONFIG (09 R171, R172) -/

theorem ownAttention_badValue {lo hi : Byte} (h : 1024 ≤ word16 lo hi) (d : Device) :
    ownAttention [lo, hi] d = (d, .refuse .badValue) := if_neg (Nat.not_lt.2 h)

theorem exec_attention (tag : Byte) {lo hi : Byte} {s : State} (quiet : s.dev.quiet) (h : word16 lo hi < 1024) :
    let a := s.dev.attention
    let after := a.served (word16 lo hi) s.dev.levelSeen
    exec (.attention tag [lo, hi]) s = .next (s.withDev (Device.answered { s.dev with attention := after } tag 0x03#8 .ok
      (condBits s.dev.levelSeen ++ condBits (fun c => (a.conditions[c.val]).enabled) ++
        modeBits (fun c => (a.conditions[c.val]).mode) ++ condBits (fun c => (a.conditions[c.val]).latch) ++
        condBits (fun c => (after.conditions[c.val]).latch) ++
        [byte ((if s.dev.inputs.ext0.level then 1 else 0) + (if s.dev.inputs.ext1.level then 2 else 0))]))) := by
  have own : ownAttention [lo, hi] s.dev.frameEnds = s.dev.frameEnds.attend (word16 lo hi) := if_pos h
  refine (onDevice_request_quiet s quiet).trans ?_
  rw [own, Device.attend, levelTaken_eq]
  rfl

theorem ownAttentionConfig_badValue {e0 e1 m0 m1 m2 : Byte} (h : 1024 ≤ word16 e0 e1 ∨ 1048576 ≤ word24 m0 m1 m2)
    (d : Device) : ownAttentionConfig [e0, e1, m0, m1, m2] d = (d, .refuse .badValue) :=
  if_neg fun ⟨enables, modes⟩ => h.elim (Nat.not_le.2 enables) (Nat.not_le.2 modes)

theorem exec_attentionConfig (tag : Byte) {e0 e1 m0 m1 m2 : Byte} {s : State} (quiet : s.dev.quiet)
    (enables : word16 e0 e1 < 1024) (modes : word24 m0 m1 m2 < 1048576) :
    exec (.attentionConfig tag [e0, e1, m0, m1, m2]) s = .next (s.withDev (Device.answered { s.dev with
      attention := s.dev.attention.configured (word16 e0 e1) (word24 m0 m1 m2) s.dev.levelSeen } tag 0x04#8 .ok [])) := by
  have own : ownAttentionConfig [e0, e1, m0, m1, m2] s.dev.frameEnds =
    (s.dev.frameEnds.configAttention (word16 e0 e1) (word24 m0 m1 m2), .ok []) := if_pos ⟨enables, modes⟩
  refine (onDevice_request_quiet s quiet).trans ?_
  rw [own, Device.configAttention, levelTaken_eq]
  rfl

/-! ### CONDITION_CHANGE and ATN (09 R169, R170) -/

/-- The oldest change of a condition is the first of it in the list (09 R168). -/
theorem takeChange_some {c : CondNo} {pre : List LevelChange} {x : LevelChange} (first : ∀ y ∈ pre, y.cond ≠ c)
    (hx : x.cond = c) (post : List LevelChange) : takeChange c (pre ++ x :: post) = some (x.level, pre ++ post) := by
  induction pre with
  | nil => exact if_pos hx
  | cons y pre ih =>
    rw [List.cons_append, takeChange, if_neg (first y List.mem_cons_self), ih fun z hz => first z (List.mem_cons_of_mem y hz)]
    rfl

theorem exec_conditionChange {c : CondNo} {s : State} {level : Bool} {rest : List LevelChange}
    (h : takeChange c s.dev.attention.changes = some (level, rest)) : exec (.conditionChange c) s = .next (s.withDev
      { s.dev with attention := { s.dev.attention.modify c fun x => x.change level with changes := rest } }) := by
  simp only [exec, execConditionChange, onDevice_eq, h, State.withDev]

theorem atnLow_iff (a : Attention) : a.atnLow = true ↔ ∃ i : CondNo, (a.conditions[i.val]).latch = true := by
  simp only [Attention.atnLow, List.any_eq_true, mem_allConditions, true_and]

/-- Settles O50: the levels one by one, the images digit by digit, and each request condition by condition. -/
theorem attentionLatchesAndReports : Obligations.AttentionLatchesAndReports := by
  refine ⟨fun d => ⟨rfl, rfl, d.capture.ready_iff, fun n => ?_, level_txFault d, clockLevel_iff d.timebase, rfl⟩,
    condBits_image, fun f => ?_, fun tag lo hi s quiet => ⟨fun high => ?_, fun low => ?_⟩,
    fun tag e0 e1 m0 m1 m2 s quiet => ⟨fun high => ?_, fun enables modes => ?_⟩, fun c s => ⟨?_, atnLow_iff _⟩⟩
  · rw [level_alarmCond]
    exact Lane.alarm_iff _
  · obtain ⟨w, small, image, digit⟩ := modeBits_image f
    exact ⟨w, small, image, digit⟩
  · exact onDevice_request_refused s quiet _ (ownAttention_badValue high _)
  · refine ⟨_, exec_attention tag quiet low, conditions_served s.dev.attention _ _, fun none follows => ?_, rfl⟩
    change s.dev.attention.served (word16 lo hi) s.dev.levelSeen = s.dev.attention
    rw [show word16 lo hi = 0 from none, served_nothing follows]
  · exact onDevice_request_refused s quiet _ (ownAttentionConfig_badValue high _)
  · exact ⟨_, exec_attentionConfig tag quiet enables modes, rfl, conditions_configured s.dev.attention _ _ _⟩
  · intro pre x post held ofCond first
    have oldest : takeChange c s.dev.attention.changes = some (x.level, pre ++ post) := by rw [held, takeChange_some first ofCond]
    exact exec_conditionChange oldest

end Sys2Proof.Machine
end

