-- ==== Sys2Proof/Proofs/RequestOwners.lean ====
section
namespace Sys2Proof.Machine

open Sys2Proof

/-! ### A request command and its owner (10 R180, R181, R183) -/

theorem map_fst_requestOwners : requestOwners.map (·.1) = Config.requestCodes := rfl

theorem requestOwner_unknown {code : Byte} (h : code ∉ Config.requestCodes) (params : List Byte) (d : Device) :
    requestOwner code params d = (d, .refuse .unknown) := by
  have absent : requestOwners.lookup code = none := List.lookup_eq_none_iff.2 fun p hp =>
    bne_iff_ne.2 fun same => h (same ▸ map_fst_requestOwners ▸ List.mem_map_of_mem hp)
  rw [requestOwner, absent]
  rfl

theorem requestOwner_mem {code : Byte} (h : code ∈ Config.requestCodes) : (code, requestOwner code) ∈ requestOwners := by
  unfold requestOwner
  cases found : requestOwners.lookup code with
  | none =>
    rw [← map_fst_requestOwners] at h
    obtain ⟨p, hp, same⟩ := List.mem_map.1 h
    exact absurd same.symm (bne_iff_ne.1 (List.lookup_eq_none_iff.1 found p hp))
  | some own =>
    obtain ⟨before, after, owners, -⟩ := List.lookup_eq_some_iff.1 found
    rw [owners]
    exact List.mem_append_right _ List.mem_cons_self

theorem exec_unknownCode {code : Byte} (h : code ∉ Config.requestCodes) (tag : Byte) (params : List Byte) (s : State) :
    exec (.unknownCode tag code params) s = s.onDevice fun d => d.request code tag (requestOwner code params) :=
  congrArg (fun d => s.onDevice fun _ => d) (if_neg h)

/-- A request command that a sender can form hands its frame to the owner of its code, or is answered UNKNOWN. -/
theorem exec_request_of_wf {c : Instr} {code tag : Byte} {params : List Byte} (h : c.request? = some (code, tag, params))
    (wf : c.wf = true) (s : State) : exec c s = s.onDevice fun d => d.request code tag (requestOwner code params) := by
  cases c with
  | unknownCode t k p =>
    cases h
    rw [Instr.wf, Bool.and_eq_true, decide_eq_true_eq] at wf
    exact exec_unknownCode wf.1 tag params s
  | _ => cases h <;> rfl

/-- Settles O6: the port discards the frame before its owner sees it. -/
theorem requestsDuringAReplyAreOverruns : Obligations.RequestsDuringAReplyAreOverruns := by
  intro c code tag params s request wf busy
  rw [exec_request_of_wf request wf, onDevice_request_busy s busy]

/-! ### Parameter lengths (10 R180, R183) -/

/-- The owner answers BAD_LENGTH to every length but these, and does nothing else. -/
def RefusesLengths (own : List Byte → Device → Device × Answer) (allowed : List Nat) : Prop :=
  ∀ (params : List Byte) (d : Device), params.length ∉ allowed → own params d = (d, .refuse .badLength)

namespace RefusesLengths

section
variable {own : List Byte → Device → Device × Answer}

theorem none (more : ∀ b rest d, own (b :: rest) d = (d, .refuse .badLength)) : RefusesLengths own [0] := by
  intro params d h
  match params with
  | [] => exact absurd List.mem_cons_self h
  | b :: rest => exact more b rest d

theorem one (fewer : ∀ d, own [] d = (d, .refuse .badLength))
    (more : ∀ a b rest d, own (a :: b :: rest) d = (d, .refuse .badLength)) :
    RefusesLengths own [1] := by
  intro params d h
  match params with
  | [] => exact fewer d
  | [_] => exact absurd List.mem_cons_self h
  | a :: b :: rest => exact more a b rest d

theorem two (empty : ∀ d, own [] d = (d, .refuse .badLength)) (fewer : ∀ a d, own [a] d = (d, .refuse .badLength))
    (more : ∀ a b c rest d, own (a :: b :: c :: rest) d = (d, .refuse .badLength)) : RefusesLengths own [2] := by
  intro params d h
  match params with
  | [] => exact empty d
  | [a] => exact fewer a d
  | [_, _] => exact absurd List.mem_cons_self h
  | a :: b :: c :: rest => exact more a b c rest d

theorem asRequest {allowed : List Nat} (h : RefusesLengths own allowed) :
    RefusesLengths (fun params => Machine.asRequest (own params)) allowed :=
  fun params d bad => asRequest_refused _ _ d (h params d bad)

end

theorem laneRequest (take : LaneNo → Device → Device × Answer) :
    RefusesLengths (fun params => Machine.laneRequest params take) [1] :=
  one (fun _ => rfl) (fun _ _ _ _ => rfl)

theorem maskOnly (a : LaneAction) : RefusesLengths (Machine.maskOnly a) [1] := one (fun _ => rfl) (fun _ _ _ _ => rfl)

theorem entryRequest (take : EntryNo → Device → Device × Answer) :
    RefusesLengths (fun params => Machine.entryRequest params take) [1] :=
  one (fun _ => rfl) (fun _ _ _ _ => rfl)

theorem ownAttentionConfig : RefusesLengths Machine.ownAttentionConfig [5] := by
  intro params d h
  unfold Machine.ownAttentionConfig
  split
  · exact absurd List.mem_cons_self h
  · rfl

theorem ownTimeSet : RefusesLengths Machine.ownTimeSet [8] := by
  intro params d h
  refine asRequest_refused _ _ d ?_
  split
  · exact absurd List.mem_cons_self h
  · rfl

theorem ownProfileSet : RefusesLengths Machine.ownProfileSet [18] :=
  fun _ _ h => if_neg fun length => h (List.mem_singleton.2 length)

theorem ownEntryGet : RefusesLengths Machine.ownEntryGet [1] := entryRequest _

theorem ownJournalTake : RefusesLengths Machine.ownJournalTake [1] :=
  one (fun d => asEvent_refused _ _ d rfl) (fun _ _ _ d => asEvent_refused _ _ d rfl)

theorem ownEntrySet : RefusesLengths Machine.ownEntrySet entrySetLengths := fun _ _ h => if_neg h

/-- The lengths of the request table are those its owners check. -/
theorem owner : ∀ p ∈ requestOwners, RefusesLengths p.2 (paramLengths p.1) := by
  intro p hp
  simp only [requestOwners, List.mem_append, List.mem_cons, List.not_mem_nil, or_false] at hp
  obtain ((device | lane) | table) | rest := hp
  · obtain rfl | rfl | rfl | rfl | rfl | rfl | rfl | rfl | rfl | rfl | rfl := device
    · exact none fun _ _ _ => rfl
    · exact none fun _ _ _ => rfl
    · exact two (fun _ => rfl) (fun _ _ => rfl) (fun _ _ _ _ _ => rfl)
    · exact ownAttentionConfig
    · exact two (fun _ => rfl) (fun _ _ => rfl) (fun _ _ _ _ _ => rfl)
    · exact two (fun _ => rfl) (fun _ _ => rfl) (fun _ _ _ _ _ => rfl)
    · exact none fun _ _ _ => rfl
    · exact none fun _ _ _ => rfl
    · exact ownTimeSet
    · exact none fun _ _ d => asRequest_refused _ _ d rfl
    · exact none fun _ _ d => asRequest_refused _ _ d rfl
  · obtain rfl | rfl | rfl | rfl | rfl | rfl | rfl | rfl | rfl | rfl | rfl := lane
    · exact asRequest (laneRequest _)
    · exact asRequest (laneRequest _)
    · exact laneRequest _
    · exact ownProfileSet
    · exact two (fun _ => rfl) (fun _ _ => rfl) (fun _ _ _ _ _ => rfl)
    · exact two (fun d => asRequest_refused _ _ d rfl) (fun _ d => asRequest_refused _ _ d rfl)
        (fun _ _ _ _ d => asRequest_refused _ _ d rfl)
    · exact asRequest (maskOnly .close)
    · exact two (fun _ => rfl) (fun _ _ => rfl) (fun _ _ _ _ _ => rfl)
    · exact asRequest (maskOnly .testStart)
    · exact asRequest (maskOnly .testStop)
    · exact asRequest (maskOnly .insert)
  · obtain rfl | rfl | rfl | rfl | rfl | rfl | rfl := table
    · exact ownEntrySet
    · exact ownEntryGet
    all_goals exact entryRequest _
  · obtain rfl | rfl | rfl | rfl | rfl | rfl | rfl | rfl := rest
    · exact ownJournalTake
    · exact none fun _ _ _ => rfl
    · exact two (fun _ => rfl) (fun _ _ => rfl) (fun _ _ _ _ _ => rfl)
    · exact one (fun _ => rfl) (fun _ _ _ _ => rfl)
    · exact asRequest (maskOnly .capture)
    · exact none fun _ _ _ => rfl
    · exact one (fun d => asRequest_refused _ _ d rfl) (fun _ _ _ d => asRequest_refused _ _ d rfl)
    · exact asRequest (laneRequest _)

end RefusesLengths

/-- Settles O7: no owner has an unknown code, and each owner checks its lengths first. -/
theorem unknownCodesAndWrongLengthsAreRefused : Obligations.UnknownCodesAndWrongLengthsAreRefused := by
  refine ⟨fun tag code params s unknown quiet => ?_, fun c code tag params s request known wf length quiet => ?_⟩
  · rw [exec_unknownCode unknown]
    exact onDevice_request_refused s quiet _ (requestOwner_unknown unknown params _)
  · rw [exec_request_of_wf request wf]
    exact onDevice_request_refused s quiet _ (RefusesLengths.owner _ (requestOwner_mem known) params _ length)

/-- Settles O8: the owner answers the identity and leaves the device as it was. -/
theorem deviceInfoAnswersItsIdentity : Obligations.DeviceInfoAnswersItsIdentity := by
  intro tag s quiet
  exact onDevice_request_answered s quiet _ _ rfl

end Sys2Proof.Machine
end

