-- ==== Sys2Proof/Proofs/Receiver.lean ====
section
namespace Sys2Proof.Machine

open Sys2Proof

/-! ### The check byte (10 R179) -/

theorem crcShift_eq (r : Byte) : crcShift r = if r.getLsbD 7 then (r <<< 1) ^^^ 0x07#8 else r <<< 1 := by
  rw [crcShift, BitVec.msb_eq_getLsbD_last]

theorem crc_concat (bytes : List Byte) (b : Byte) : crc (bytes ++ [b]) = crcByte (crc bytes) b := by
  rw [crc, List.foldl_append]
  rfl

/-! ### One character (10 R177, R178) -/

/-- The device with its receiver in this state; nothing else differs. -/
def Device.receiving (d : Device) (rx : RxState) : Device := { d with port := { d.port with rx := rx } }

/-- A complete frame ends in WAITING, whatever the receiver held of it. -/
@[simp] theorem request_receiving (d : Device) (rx : RxState) (code tag : Byte) (owner : Device → Device × Answer) :
    (d.receiving rx).request code tag owner = d.request code tag owner := rfl

/-- A frame that is discarded raises one port error and nothing else. -/
theorem discardFrame_eq (d : Device) : d.discardFrame = d.withPortError := rfl

section
variable {s : State} (waiting : s.dev.port.rx = .waiting)
include waiting

theorem exec_crxCharacter_startOfFrame :
    exec (.crxCharacter 0xC3#8 true) s = .next (s.withDev (s.dev.receiving (.inFrame []))) := by
  simp only [exec, execCrxCharacter, onDevice_eq, waiting]
  rfl

theorem exec_crxCharacter_ignored {b : Byte} {good : Bool} (h : ¬ (b = 0xC3#8 ∧ good = true)) :
    exec (.crxCharacter b good) s = .next s := by
  simp only [exec, execCrxCharacter, onDevice_eq, waiting]
  rw [if_neg fun begins => h begins.symm]

theorem exec_frameGapTimeout_waiting : exec .frameGapTimeout s = .next s := by
  simp only [exec, execFrameGapTimeout, onDevice_eq, waiting]

end

section
variable {s : State} {bytes : List Byte} (inFrame : s.dev.port.rx = .inFrame bytes)
include inFrame

theorem exec_frameGapTimeout_inFrame : exec .frameGapTimeout s = .next (s.withDev s.dev.withPortError) := by
  simp only [exec, execFrameGapTimeout, onDevice_eq, inFrame]
  rfl

theorem exec_crxCharacter_badStop (b : Byte) : exec (.crxCharacter b false) s = .next (s.withDev s.dev.withPortError) := by
  simp only [exec, execCrxCharacter, onDevice_eq, inFrame]
  rfl

theorem exec_crxCharacter_inFrame (b : Byte) : exec (.crxCharacter b true) s = .next (s.withDev (s.dev.frameByte bytes b)) := by
  simp only [exec, execCrxCharacter, onDevice_eq, inFrame]
  rfl

end

/-! ### A character inside a frame (10 R177 to R181) -/

section
variable (d : Device)

theorem frameByte_badLen {b : Byte} (h : b.toNat < 2 ∨ 250 < b.toNat) : d.frameByte [] b = d.withPortError := if_pos h

theorem frameByte_len {b : Byte} (least : 2 ≤ b.toNat) (most : b.toNat ≤ 250) : d.frameByte [] b = d.receiving (.inFrame [b]) :=
  if_neg (not_or.2 ⟨Nat.not_lt.2 least, Nat.not_lt.2 most⟩)

theorem frameByte_kept {len : Byte} {rest : List Byte} (h : rest.length < len.toNat) (b : Byte) :
    d.frameByte (len :: rest) b = d.receiving (.inFrame (len :: rest ++ [b])) :=
  if_neg fun complete => h.ne (Nat.succ.inj complete)

theorem frameByte_check {len : Byte} {rest : List Byte} (h : rest.length = len.toNat) (b : Byte) :
    d.frameByte (len :: rest) b = d.frameDone (len :: rest) b := if_pos (congrArg Nat.succ h)

theorem frameDone_discarded {bytes : List Byte} {check : Byte} (h : crc bytes ≠ check ∨ d.port.reply.isSome = true) :
    d.frameDone bytes check = d.withPortError := by
  unfold Device.frameDone
  split
  · rfl
  · next quiet => rw [if_pos (h.resolve_right quiet)]; rfl

/-- A frame with a right CHECK is the request of its code: an overrun there as here (10 R180, R181). -/
theorem frameDone_request (len tag code : Byte) (params : List Byte) :
    d.frameDone (len :: tag :: code :: params) (crc (len :: tag :: code :: params)) =
      d.request code tag (requestOwner code params) := by
  unfold Device.frameDone
  split
  · next busy => exact (request_busy d code tag _ busy).symm
  · exact if_neg (not_not.2 rfl)

end

theorem exec_badFrame {cause : FrameFault} {s : State} (h : cause ≠ .overrun ∨ s.dev.port.reply.isSome = true) :
    exec (.badFrame cause) s = .next (s.withDev s.dev.withPortError) := by
  cases cause with
  | overrun =>
    have busy := h.resolve_left fun other => other rfl
    simp only [exec, execBadFrame, onDevice_eq, busy, if_true]
    rfl
  | badStopBit | lenOutOfRange | wrongCheck => rfl

/-- Settles O51: each state of the receiver with each character, the gap, and the frames handed over as a whole. -/
theorem discardedFramesRaiseOnePortError : Obligations.DiscardedFramesRaiseOnePortError := by
  intro s
  refine ⟨fun waiting => ⟨exec_crxCharacter_startOfFrame waiting, exec_frameGapTimeout_waiting waiting,
      fun b good other => exec_crxCharacter_ignored waiting other⟩,
    fun bytes inFrame => ⟨exec_frameGapTimeout_inFrame inFrame, exec_crxCharacter_badStop inFrame⟩,
    fun inFrame b => ⟨fun bad => ?_, fun least most => ?_⟩, fun len rest inFrame b => ⟨fun more => ?_, fun complete bad => ?_⟩,
    fun cause => exec_badFrame⟩
  all_goals rw [exec_crxCharacter_inFrame inFrame]
  · rw [frameByte_badLen _ bad]
  · rw [frameByte_len _ least most]; rfl
  · rw [frameByte_kept _ more]; rfl
  · rw [frameByte_check _ complete, frameDone_discarded _ bad]

/-! ### A frame character by character (10 R177 to R180) -/

/-- The machine inside a frame, with these bytes held of it from LEN on. -/
def State.inFrame (s : State) (bytes : List Byte) : State := s.withDev (s.dev.receiving (.inFrame bytes))

theorem runChars_cons {b : Byte} {s t : State} (h : exec (.crxCharacter b true) s = .next t) (rest : List Byte) :
    runChars (b :: rest) s = runChars rest t := by
  rw [runChars, h]

theorem exec_crxCharacter_len (s : State) {len : Byte} (least : 2 ≤ len.toNat) (most : len.toNat ≤ 250) :
    exec (.crxCharacter len true) (s.inFrame []) = .next (s.inFrame [len]) := by
  rw [exec_crxCharacter_inFrame rfl, frameByte_len _ least most]
  rfl

theorem exec_crxCharacter_kept (s : State) {len : Byte} {held : List Byte} (h : held.length < len.toNat) (b : Byte) :
    exec (.crxCharacter b true) (s.inFrame (len :: held)) = .next (s.inFrame (len :: (held ++ [b]))) := by
  rw [exec_crxCharacter_inFrame rfl, frameByte_kept _ h]
  rfl

/-- The receiver keeps the characters that LEN counts. -/
theorem runChars_kept (s : State) (len : Byte) (held more rest : List Byte) (counted : held.length + more.length ≤ len.toNat) :
    runChars (more ++ rest) (s.inFrame (len :: held)) = runChars rest (s.inFrame (len :: (held ++ more))) := by
  induction more generalizing held with
  | nil => rw [List.append_nil, List.nil_append]
  | cons b more ih =>
    rw [List.length_cons] at counted
    have room : held.length < len.toNat := by omega
    have counted' : (held ++ [b]).length + more.length ≤ len.toNat := by
      rw [List.length_append, List.length_singleton]
      omega
    rw [List.cons_append, runChars_cons (exec_crxCharacter_kept s room b), ih (held ++ [b]) counted', List.append_assoc]
    rfl

/-- The CHECK character of a frame that holds what LEN counts hands the frame to the owner of its code. -/
theorem exec_crxCharacter_check (s : State) {len tag code : Byte} {params : List Byte} (counts : params.length + 2 = len.toNat) :
    exec (.crxCharacter (crc (len :: tag :: code :: params)) true) (s.inFrame (len :: tag :: code :: params)) =
      s.onDevice fun d => d.request code tag (requestOwner code params) := by
  rw [exec_crxCharacter_inFrame rfl, frameByte_check _ (rest := tag :: code :: params) counts, frameDone_request, State.inFrame,
    dev_withDev, request_receiving]
  rfl

/-- From SOF to CHECK: a frame whose LEN counts its tag, code and parameters is the request of its code. -/
theorem runChars_frame {s : State} (waiting : s.dev.port.rx = .waiting) {len tag code : Byte} {params : List Byte}
    (counts : params.length + 2 = len.toNat) (most : len.toNat ≤ 250) :
    runChars (0xC3#8 :: len :: ((tag :: code :: params) ++ [crc (len :: tag :: code :: params)])) s =
      s.onDevice fun d => d.request code tag (requestOwner code params) :=
  calc _
    _ = runChars (len :: ((tag :: code :: params) ++ [crc (len :: tag :: code :: params)])) (s.inFrame []) :=
      runChars_cons (exec_crxCharacter_startOfFrame waiting) _
    _ = runChars ((tag :: code :: params) ++ [crc (len :: tag :: code :: params)]) (s.inFrame [len]) :=
      runChars_cons (exec_crxCharacter_len s (counts ▸ Nat.le_add_left 2 _) most) _
    _ = runChars [crc (len :: tag :: code :: params)] (s.inFrame (len :: tag :: code :: params)) :=
      runChars_kept s len [] _ _ ((Nat.zero_add _).trans counts).le
    _ = _ := runChars_cons (exec_crxCharacter_check s counts) []

/-- At most 248 parameters are counted, with the tag and the code, by a LEN of one byte (10 FRAMES). -/
theorem runChars_requestFrame {s : State} (waiting : s.dev.port.rx = .waiting) (code tag : Byte) {params : List Byte}
    (fits : params.length ≤ Config.paramsMax) :
    runChars (requestFrame code tag params) s = s.onDevice fun d => d.request code tag (requestOwner code params) := by
  have few : params.length ≤ 248 := fits
  have counts : params.length + 2 = (BitVec.ofNat 8 (params.length + 2)).toNat := by
    rw [BitVec.toNat_ofNat]
    omega
  exact runChars_frame waiting counts (by omega)

/-- A request that a sender can form fits a frame (10 FRAMES). -/
theorem params_fit {c : Instr} {code tag : Byte} {params : List Byte} (h : c.request? = some (code, tag, params))
    (wf : c.wf = true) : params.length ≤ Config.paramsMax := by
  cases c with
  | unknownCode t k p =>
    cases h
    rw [Instr.wf, Bool.and_eq_true] at wf
    exact of_decide_eq_true wf.2
  | _ => cases h <;> exact of_decide_eq_true wf

/-- Settles O52: the check register, the image of a reply and the codes, and a request frame taken character by character. -/
theorem requestFramesReachTheirOwners : Obligations.RequestFramesReachTheirOwners := by
  refine ⟨⟨rfl, fun bytes b => ?_⟩, fun r => rfl, rfl, fun c code tag params s request wf waiting => ?_⟩
  · simp only [crc_concat, crcByte, crcShift_eq]
  · rw [runChars_requestFrame waiting code tag (params_fit request wf), exec_request_of_wf request wf]

end Sys2Proof.Machine
end

