-- ==== Sys2Proof/Proofs/LinkResets.lean ====
section
namespace Sys2Proof.Machine

open Sys2Proof

/-! ### The end of a reply (10 R181, R188; log 16) -/

theorem Reply.isReset_iff (r : Reply) : r.isReset = true ↔ r.code = 0x82#8 ∧ r.status = .ok := by
  rw [Reply.isReset, Bool.and_eq_true, decide_eq_true_eq, decide_eq_true_eq]

theorem exec_resetTakesEffect_quiet {s : State} (quiet : s.dev.quiet) : exec .resetTakesEffect s = .next s := by
  have idle : s.dev.port.reply = none := quiet
  simp only [exec, execResetTakesEffect, onDevice_eq, idle]

theorem exec_replySent_quiet {s : State} (quiet : s.dev.quiet) : exec .replySent s = .next s := by
  have idle : s.dev.port.reply = none := quiet
  simp only [exec, execReplySent, onDevice_eq, Device.replyEnds, idle]

section
variable {s : State} {r : Reply} (reply : s.dev.port.reply = some r) (other : ¬ (r.code = 0x82#8 ∧ r.status = .ok))
include reply other

theorem exec_resetTakesEffect_otherReply : exec .resetTakesEffect s = .next s := by
  simp only [exec, execResetTakesEffect, onDevice_eq, reply, Reply.isReset_iff, if_neg other]

theorem exec_replySent_otherReply :
    exec .replySent s = .next (s.withDev { s.dev with port := { s.dev.port with reply := none } }) := by
  simp only [exec, execReplySent, onDevice_eq, Device.replyEnds, reply, Reply.isReset_iff, if_neg other]
  rfl

end

/-! ### What each reset does to the timebase and the link rate (05 R110, 10 R176, R188) -/

/-- The reset request keeps the timebase and the link rate. -/
theorem resetRequest_keeps (d : Device) :
    d.resetRequest.timebase = d.timebase ∧ d.resetRequest.port.rate = d.port.rate := by
  rw [Device.resetRequest, timebase_recordArrives, port_recordArrives]
  exact ⟨rfl, rfl⟩

/-- Settles O10: RESET answers alone, what the end of a reply does by the reply in progress, and the three resets. -/
theorem resetsKeepTheirTimeAndRate : Obligations.ResetsKeepTheirTimeAndRate := by
  refine ⟨fun tag s => ⟨fun quiet => onDevice_request_answered s quiet _ _ rfl,
      fun quiet => ⟨exec_resetTakesEffect_quiet quiet, exec_replySent_quiet quiet⟩,
      fun reset => (exec_replySent_of_resetting reset).trans (exec_resetTakesEffect_of_resetting reset).symm,
      fun r reply other => ⟨exec_resetTakesEffect_otherReply reply other, exec_replySent_otherReply reply other⟩⟩,
    fun s => ⟨fun r1 r0 => ⟨_, rfl, rfl, rfl, rfl⟩, fun r1 r0 => ⟨_, rfl, rfl, rfl⟩,
      fun reset => ⟨_, exec_resetTakesEffect_of_resetting reset, resetRequest_keeps s.dev⟩⟩⟩

end Sys2Proof.Machine
end

