-- ==== Sys2Proof/Proofs/Commands.lean ====
section
namespace Sys2Proof.Machine

open Sys2Proof

/-! ### The queue (log 14) -/

theorem step_nil {s : State} (h : s.pending = []) : step s = .next s := by
  rw [step, h]

theorem step_cons {c : Instr} {rest : List Instr} {s : State} (h : s.pending = c :: rest) :
    step s = exec c { s with pending := rest } := by
  rw [step, h]

/-- Settles O1: the queue has a front. -/
theorem stepTakesTheFrontCommand : Obligations.StepTakesTheFrontCommand :=
  fun c rest s => step_cons (s := { s with pending := c :: rest }) rfl

/-! ### Every command completes -/

/-- A request command changes the device alone: the port and the owner of its code. -/
theorem exec_request_completes {c : Instr} {r : Byte × Byte × List Byte} (h : c.request? = some r) (s : State) :
    ∃ d, exec c s = .next (s.withDev d) := by
  obtain ⟨code, tag, params⟩ := r
  obtain idle | ran := exec_of_request? h s
  · exact ⟨s.dev, idle⟩
  · exact ⟨s.dev.request code tag (requestOwner code params), ran⟩

/-- So does every reset and every event. -/
theorem exec_event_completes {c : Instr} (h : c.request? = none) (s : State) : ∃ d, exec c s = .next (s.withDev d) := by
  cases c with
  | powerOnReset | resetPin | resetTakesEffect => exact ⟨_, rfl⟩
  | badFrame | frameGapTimeout | crxCharacter | replySent => exact ⟨_, rfl⟩
  | cellArrival | transmitCell | driverFault | secondArrival => exact ⟨_, rfl⟩
  | fineTick | oscFault | oscMeasureRestart | oscResumed | crystalCycleSeen => exact ⟨_, rfl⟩
  | scheduleSecondArrival | minuteArrival | scheduleFineTick | scheduleEdge | countdownExpiry => exact ⟨_, rfl⟩
  | filterSample | extEdge => exact ⟨_, rfl⟩
  | recordArrival | conditionChange => exact ⟨_, rfl⟩
  | _ => cases h

theorem exec_completes (c : Instr) (s : State) : ∃ d, exec c s = .next (s.withDev d) := by
  cases h : c.request? with
  | none => exact exec_event_completes h s
  | some r => exact exec_request_completes h s

/-- Settles O2: a command is a request or an event, and an empty queue has no command. -/
theorem everyCommandCompletes : Obligations.EveryCommandCompletes :=
  ⟨exec_completes, fun _ => step_nil⟩

/-! ### Nothing to take (04 R76, 09 R169, R174; logs 16, 27) -/

theorem takeSent_absent {place : Nat} {sent : List Sent} (h : sent[place]? = none) : takeSent place sent = none := by
  rw [takeSent, h]

/-- A record that stays behind an earlier one is not taken. -/
theorem takeSent_behind {place : Nat} {sent : List Sent} {x y : Sent} (hx : sent[place]? = some x)
    (hy : y ∈ sent.take place) (behind : x.Behind y) : takeSent place sent = none := by
  have waits : ((sent.take place).any fun z => x.waitsFor z) = true := List.any_eq_true.2 ⟨y, hy, (waitsFor_iff x y).2 behind⟩
  simp only [takeSent, hx, waits, if_true]

theorem takeChange_none {c : CondNo} {changes : List LevelChange} (h : ∀ x ∈ changes, x.cond ≠ c) :
    takeChange c changes = none := by
  induction changes with
  | nil => rfl
  | cons x rest ih =>
    rw [takeChange, if_neg (h x List.mem_cons_self), ih fun y hy => h y (List.mem_cons_of_mem x hy), Option.map_none]

theorem firstStamped_none {p : Pin} {edges : List StampedEdge} (h : ∀ e ∈ edges, e.edge.pin ≠ p) :
    firstStamped p edges = none := by
  induction edges with
  | nil => rfl
  | cons e rest ih =>
    rw [firstStamped, if_neg (h e List.mem_cons_self), ih fun f hf => h f (List.mem_cons_of_mem e hf), Option.map_none]

section
variable {s : State}

theorem exec_recordArrival_nothing {place : Nat} (h : takeSent place s.dev.inFlight = none) :
    exec (.recordArrival place) s = .next s := by
  simp only [exec, execRecordArrival, onDevice_eq, h]

theorem exec_conditionChange_nothing {c : CondNo} (h : takeChange c s.dev.attention.changes = none) :
    exec (.conditionChange c) s = .next s := by
  simp only [exec, execConditionChange, onDevice_eq, h]

theorem exec_extEdge_nothing {p : Pin} (h : firstStamped p s.dev.inputs.edges = none) : exec (.extEdge p) s = .next s := by
  have unnoted : s.dev.noteEdge p = s.dev := by simp only [Device.noteEdge, h]
  rw [exec_extEdge, unnoted, settle_self]
  rfl

theorem exec_badFrame_overrun_quiet (quiet : s.dev.quiet) : exec (.badFrame .overrun) s = .next s := by
  have idle : s.dev.port.reply = none := quiet
  simp only [exec, execBadFrame, onDevice_eq, idle, Option.isSome_none, Bool.false_eq_true, if_false]

theorem exec_unknownCode_known {code : Byte} (h : code ∈ Config.requestCodes) (tag : Byte) (params : List Byte) :
    exec (.unknownCode tag code params) s = .next s :=
  congrArg (fun d => s.onDevice fun _ => d) (if_pos h)

end

/-- Settles O56: each command looks for what its event takes, and finds none. -/
theorem eventsWithNothingToTakeDoNothing : Obligations.EventsWithNothingToTakeDoNothing := by
  intro s
  refine ⟨fun place held => exec_recordArrival_nothing ?_,
    fun c absent => exec_conditionChange_nothing (takeChange_none absent),
    fun pin absent => exec_extEdge_nothing (firstStamped_none absent),
    exec_badFrame_overrun_quiet,
    fun tag code params known => exec_unknownCode_known known tag params⟩
  obtain absent | ⟨x, y, hx, hy, behind⟩ := held
  · exact takeSent_absent absent
  · exact takeSent_behind hx hy behind

end Sys2Proof.Machine
end

