-- ==== Sys2Proof/Proofs/LaneForms.lean ====
section
namespace Sys2Proof.Machine

open Sys2Proof

/-! ### Interval numbers (03 R58) -/

theorem numberChain_append_next {numbers : List Nat} {next : Nat} (h : numberChain numbers next = true) :
    numberChain (numbers ++ [next]) ((next + 1) % 65536) = true := by
  induction numbers with
  | nil => exact decide_eq_true rfl
  | cons a rest ih =>
    cases rest with
    | nil => exact Bool.and_eq_true_iff.2 ⟨h, decide_eq_true rfl⟩
    | cons b rest =>
      obtain ⟨follows, chain⟩ := Bool.and_eq_true_iff.1 h
      exact Bool.and_eq_true_iff.2 ⟨follows, ih chain⟩

theorem numberChain_of_suffix {numbers left : List Nat} {next : Nat} (hs : left <:+ numbers)
    (h : numberChain numbers next = true) : numberChain left next = true := by
  induction numbers with
  | nil => rw [List.suffix_nil.1 hs]; rfl
  | cons a rest ih =>
    obtain rfl | hs := List.suffix_cons_iff.1 hs
    · exact h
    · cases rest with
      | nil => rw [List.suffix_nil.1 hs]; rfl
      | cons b rest => exact ih hs (Bool.and_eq_true_iff.1 h).2

/-! ### What a change of mode keeps of a lane (01 R20) -/

/-- The part of a lane's form that does not speak of its mode: the open interval, the ring, the interval number, the pages. -/
structure Lane.BooksWf (l : Lane) : Prop where
  interval : ∀ iv, l.interval = some iv → iv.Wf
  ring : l.ring.length ≤ 8 ∧ numberChain (l.ring.map (·.number)) l.number = true
  number : l.number < 65536
  pages : l.pages[0].inRange = true ∧ l.pages[1].inRange = true

theorem Lane.Wf.books {l : Lane} (h : l.Wf) : l.BooksWf := ⟨h.interval, h.ring, h.number, h.pages⟩

/-- A lane that enters a mode starts its receive side, transmitter and checker afresh, so its form is that of its books. -/
theorem Lane.BooksWf.enter {l : Lane} (h : l.BooksWf) {m : Mode} (opened : l.interval.isSome = decide (m ≠ .off))
    (off : m = .off → l.swapPending = false ∧ l.txFault = false) : (l.enter m).Wf where
  fits := by cases m <;> rfl
  opened := opened
  interval := h.interval
  off := off
  inserting := Bool.noConfusion
  history := ⟨Nat.zero_le _, fun _ => rfl⟩
  ring := h.ring
  number := h.number
  receiver := ⟨Nat.zero_le _, Bool.noConfusion, Nat.zero_lt_succ _, Nat.zero_le _⟩
  pages := h.pages

/-- The closed interval's record takes the interval's number, and the next interval the one after it (03 R58). -/
theorem Lane.BooksWf.intervalClosed {l : Lane} (h : l.BooksWf) (n : LaneNo) (iv : OpenInterval) (reason : CloseReason)
    (stop start : Stamp) : (l.intervalClosed n iv reason stop start).BooksWf where
  interval := fun jv hj => by
    unfold Lane.intervalClosed at hj
    dsimp only at hj
    split at hj
    · cases hj
    · cases hj; exact newInterval_wf start
  ring := by
    obtain ⟨short, chain⟩ := h.ring
    unfold Lane.intervalClosed Lane.closedRing
    dsimp only
    rw [List.map_append]
    split
    · refine ⟨?_, numberChain_append_next chain⟩
      rw [List.length_append, List.length_singleton]; omega
    · refine ⟨?_, numberChain_append_next (numberChain_of_suffix ((List.tail_suffix _).map _) chain)⟩
      rw [List.length_append, List.length_singleton, List.length_tail]; omega
  number := Nat.mod_lt _ (by decide)
  pages := h.pages

theorem Lane.BooksWf.modeClosed {l : Lane} (h : l.BooksWf) (n : LaneNo) (reason : CloseReason) (st : Stamp) :
    (l.modeClosed n reason st).BooksWf := by
  unfold Lane.modeClosed
  split
  · exact h
  · next iv _ => exact { h.intervalClosed n iv reason st st with }

/-! ### Pieces of a lane's work (01 R4 to R12, 02 R34 to R37) -/

namespace Lane

variable {l : Lane}

/-- A lane that runs has its interval open (03 R43). -/
theorem Wf.running_opened (h : l.Wf) (hm : l.mode ≠ .off) : ∃ iv, l.interval = some iv :=
  Option.isSome_iff_exists.1 (h.opened.trans (decide_eq_true hm))

/-- A lane in OFF is in no state of a cell stream (01 R1). -/
theorem Wf.line_off (h : l.Wf) (hm : l.mode = .off) : l.line = .none := by
  have fits := h.fits
  rw [hm] at fits
  exact of_decide_eq_true fits

/-- HUNT and LOCKED are states of MONITOR (01 R1). -/
theorem Wf.mode_monitor (h : l.Wf) (hl : l.line = .hunt ∨ l.line = .locked) : l.mode = .monitor := by
  have fits := h.fits
  obtain hl | hl := hl <;> rw [hl] at fits <;> revert fits <;> cases l.mode <;> decide

/-- SEARCH and TRACK are states of TEST (01 R1). -/
theorem Wf.mode_test (h : l.Wf) (hl : l.line = .search ∨ l.line = .track) : l.mode = .test := by
  have fits := h.fits
  obtain hl | hl := hl <;> rw [hl] at fits <;> revert fits <;> cases l.mode <;> decide

theorem Wf.lostLock (h : l.Wf) : l.lostLock.Wf := h.mapInterval fun _ => wf_lostLock

theorem Wf.unitSeen (h : l.Wf) : l.unitSeen.Wf := h.mapInterval fun _ => wf_unit

theorem length_pushHistory {history : List Byte} (h : history.length ≤ 32) (b : Byte) : (pushHistory history b).length ≤ 32 := by
  unfold pushHistory Config.historyCapacity
  split <;> simp only [List.length_append, List.length_singleton, List.length_tail] <;> omega

theorem length_pushWindow {window : List Cell} (h : window.length ≤ 16) (c : Cell) : (pushWindow window c).length ≤ 16 := by
  unfold pushWindow Config.windowCells
  split <;> simp only [List.length_append, List.length_singleton, List.length_tail] <;> omega

/-- Only an assembling lane takes a byte into its history (01 R12). -/
theorem Wf.handed (h : l.Wf) (assembling : l.assembling = true) (b : Byte) : (l.handed b).Wf :=
  { h with history := ⟨length_pushHistory h.history.1 b, fun idle => absurd (assembling.symm.trans idle) (by decide)⟩ }

theorem Wf.syncHanded (h : l.Wf) (assembling : l.assembling = true) (w : List Cell) : (l.syncHanded w).Wf :=
  (h.handed assembling _).handed assembling _

/-- A change of the receive side alone. -/
theorem Wf.withReceiver (h : l.Wf) {r : Receiver}
    (hr : r.run ≤ 65535 ∧ (r.idleCounted = true → 0 < r.run) ∧ r.validCells < 64 ∧ r.window.length ≤ 16) :
    ({ l with rx := r } : Lane).Wf := { h with receiver := hr }

theorem Wf.withChecker (h : l.Wf) (k : Checker) : ({ l with checker := k } : Lane).Wf := { h with }

/-- A lane that goes to another state of its mode with an empty history (01 R5, R10, 02 R36, R37, 07 R142). -/
theorem Wf.restartedAt (h : l.Wf) {line : LineState} (fits : line.fits l.mode = true) {r : Receiver}
    (hr : r.run ≤ 65535 ∧ (r.idleCounted = true → 0 < r.run) ∧ r.validCells < 64 ∧ r.window.length ≤ 16) :
    ({ l with history := [], line := line, rx := r } : Lane).Wf :=
  { h with fits := fits, history := ⟨Nat.zero_le _, fun _ => rfl⟩, receiver := hr }

theorem cleared_form (r : Receiver) : r.cleared.run ≤ 65535 ∧ (r.cleared.idleCounted = true → 0 < r.cleared.run) ∧
    r.cleared.validCells < 64 ∧ r.cleared.window.length ≤ 16 :=
  ⟨Nat.zero_le _, Bool.noConfusion, Nat.zero_lt_succ _, Nat.zero_le _⟩

theorem fresh_form : Receiver.fresh.run ≤ 65535 ∧ (Receiver.fresh.idleCounted = true → 0 < Receiver.fresh.run) ∧
    Receiver.fresh.validCells < 64 ∧ Receiver.fresh.window.length ≤ 16 := cleared_form Receiver.fresh

/-! ### A cell (01 R3) -/

theorem Wf.signalLost (h : l.Wf) (hm : l.mode ≠ .off) : l.signalLost.Wf where
  fits := by
    change LineState.fits .noSignal l.mode = true
    revert hm; cases l.mode <;> decide
  opened := by
    refine Eq.trans ?_ h.opened
    exact Option.isSome_map
  interval := fun jv hj => by
    obtain ⟨iv, hi, rfl⟩ := Option.map_eq_some_iff.1 hj
    obtain ⟨x, y, units⟩ := h.interval iv hi
    exact ⟨x, y, units⟩
  off := h.off
  inserting := h.inserting
  history := by
    obtain ⟨short, idle⟩ := h.history
    cases ha : l.assembling with
    | false => simp [Lane.signalLost, ha, idle ha]
    | true => simp [Lane.signalLost, ha]
  ring := h.ring
  number := h.number
  receiver := cleared_form l.rx
  pages := h.pages

theorem Wf.noSignalCell (h : l.Wf) (hl : l.line = .noSignal) (hm : l.mode ≠ .off) (c : Cell) : (l.noSignalCell c).Wf := by
  obtain ⟨run, idle, valid, window⟩ := h.receiver
  unfold Lane.noSignalCell
  split
  · next few =>
    refine h.withReceiver ⟨run, idle, ?_, window⟩
    dsimp only
    split
    · exact Nat.zero_lt_succ _
    · next valid => exact few.resolve_left valid
  · have empty : l.history = [] := h.history.2 (by simp [Lane.assembling, hl])
    refine { h with fits := ?_, history := ?_, receiver := cleared_form l.rx }
    · unfold Lane.signalBack
      dsimp only
      revert hm; cases l.mode <;> decide
    · exact ⟨h.history.1, fun _ => empty⟩

theorem Wf.runCell (h : l.Wf) (hm : l.mode ≠ .off) (c : Cell) : (l.runCell c).Wf := by
  obtain ⟨run, idle, valid, window⟩ := h.receiver
  unfold Lane.runCell Config.countMax
  split
  · split
    · next short =>
      have longer : l.runLonger.Wf := h.withReceiver ⟨short, fun _ => Nat.succ_pos _, valid, window⟩
      have counted : (if l.idleDue then l.runLonger.counting .idle else l.runLonger).Wf := by
        split
        · exact longer.counting _
        · exact longer
      dsimp only
      split
      · refine counted.signalLost ?_
        split <;> exact hm
      · exact counted
    · exact h
  · exact h.withReceiver ⟨Nat.zero_le _, Bool.noConfusion, valid, window⟩

theorem Wf.huntCell (h : l.Wf) (hl : l.line = .hunt) (c : Cell) : (l.huntCell c).Wf := by
  obtain ⟨run, idle, valid, window⟩ := h.receiver
  have pushed := length_pushWindow window c
  have empty : l.history = [] := h.history.2 (by simp [Lane.assembling, hl])
  unfold Lane.huntCell
  dsimp only
  split
  · split
    · have locked : (l.locked (pushWindow l.rx.window c)).Wf :=
        { h with
          fits := by change LineState.fits .locked l.mode = true; rw [h.mode_monitor (.inl hl)]; rfl
          history := ⟨h.history.1, fun _ => empty⟩
          receiver := ⟨run, idle, valid, pushed⟩ }
      exact locked.syncHanded rfl _
    · exact h.withReceiver ⟨run, idle, valid, pushed⟩
  · exact h.withReceiver ⟨run, idle, valid, pushed⟩

theorem Wf.lockLost (h : l.Wf) (hm : l.mode = .monitor) : l.lockLost.Wf := by
  obtain ⟨run, idle, valid, -⟩ := h.receiver
  refine h.lostLock.restartedAt ?_ ⟨run, idle, valid, Nat.zero_le _⟩
  change LineState.fits .hunt l.mode = true
  rw [hm]; rfl

theorem Wf.frameCheck (h : l.Wf) (hl : l.line = .locked) : l.frameCheck.Wf := by
  have missed (l : Lane) (h : l.Wf) (k : Nat) : (l.missed k).Wf := by
    obtain ⟨run, idle, valid, window⟩ := h.receiver
    exact h.withReceiver ⟨run, idle, valid, window⟩
  have assembling : l.assembling = true := by simp [Lane.assembling, hl]
  unfold Lane.frameCheck
  split
  · exact (missed _ h.unitSeen 0).syncHanded assembling _
  · have counted := (missed l h (l.rx.mismatches + 1)).counting .slip
    dsimp only
    split
    · exact counted.syncHanded assembling _
    · exact counted.lockLost (h.mode_monitor (.inr hl))

theorem Wf.lockedCell (h : l.Wf) (hl : l.line = .locked) (c : Cell) : (l.lockedCell c).Wf := by
  obtain ⟨run, idle, valid, window⟩ := h.receiver
  have moved : (l.moved c).Wf := h.withReceiver ⟨run, idle, valid, length_pushWindow window c⟩
  unfold Lane.lockedCell
  split
  · exact moved.frameCheck hl
  · split
    · exact moved.handed (by simp [Lane.assembling, Lane.moved, hl]) _
    · exact moved

theorem Wf.searchCell (h : l.Wf) (hl : l.line = .search) (p : Pattern) (c : Cell) : (l.searchCell p c).Wf := by
  have empty : l.history = [] := h.history.2 (by simp [Lane.assembling, hl])
  unfold Lane.searchCell
  dsimp only
  split
  · exact h.withChecker _
  · exact
      { h with
        fits := by change LineState.fits .track l.mode = true; rw [h.mode_test (.inl hl)]; rfl
        history := ⟨h.history.1, fun _ => empty⟩ }

theorem Wf.trackLost (h : l.Wf) (hm : l.mode = .test) : l.trackLost.Wf := by
  obtain ⟨run, idle, valid, -⟩ := h.receiver
  have searching : ({ l.lostLock with history := [], line := .search, rx := { l.rx with window := [] } } : Lane).Wf := by
    refine h.lostLock.restartedAt ?_ ⟨run, idle, valid, Nat.zero_le _⟩
    change LineState.fits .search l.mode = true
    rw [hm]; rfl
  exact searching.withChecker _

theorem Wf.trackCell (h : l.Wf) (hl : l.line = .track) (p : Pattern) (c : Cell) : (l.trackCell p c).Wf := by
  unfold Lane.trackCell
  dsimp only
  obtain ⟨next, hnext⟩ : ∃ x, x = l.checker.track p l.page.invert c := ⟨_, rfl⟩
  rw [← hnext]
  obtain ⟨counted, hc⟩ : ∃ x, x = if next.2 then ({ l with checker := next.1 } : Lane).counting .pattern
    else { l with checker := next.1 } := ⟨_, rfl⟩
  have form : counted.Wf ∧ counted.line = .track := by
    rw [hc]
    split
    · exact ⟨(h.withChecker _).counting _, hl⟩
    · exact ⟨h.withChecker _, hl⟩
  obtain ⟨wf, line⟩ := form
  have assembling : counted.assembling = true := by simp [Lane.assembling, line]
  have unit : (if next.1.whole = true ∧ next.1.alignment = some 15 then counted.unitSeen else counted).Wf ∧
      (if next.1.whole = true ∧ next.1.alignment = some 15 then counted.unitSeen else counted).assembling = true := by
    split
    · exact ⟨wf.unitSeen, assembling⟩
    · exact ⟨wf, assembling⟩
  rw [← hc]
  split
  · exact wf.trackLost (wf.mode_test (.inr line))
  · split
    · exact unit.1.handed unit.2 _
    · exact unit.1

theorem mode_runCell (l : Lane) (c : Cell) : (l.runCell c).mode = l.mode := by
  unfold Lane.runCell
  dsimp only
  repeat' split
  all_goals rfl

theorem mode_lineCell (l : Lane) (p : Pattern) (c : Cell) : (l.lineCell p c).mode = l.mode := by
  unfold Lane.lineCell Lane.huntCell Lane.lockedCell Lane.frameCheck Lane.searchCell Lane.trackCell
  dsimp only
  repeat' split
  all_goals rfl

/-- A cell changes no lane's mode (01 R3). -/
theorem mode_takeCell (l : Lane) (p : Pattern) (c : Cell) : (l.takeCell p c).mode = l.mode := by
  have worked : (((if c = .violation then l.counting .code else l).runCell c).lineCell p c).mode = l.mode := by
    rw [mode_lineCell, mode_runCell]
    split <;> rfl
  unfold Lane.takeCell
  split
  · rfl
  · unfold Lane.noSignalCell
    split <;> rfl
  all_goals exact worked

theorem Wf.lineCell (h : l.Wf) (p : Pattern) (c : Cell) : (l.lineCell p c).Wf := by
  unfold Lane.lineCell
  split
  · exact h
  · exact h
  · next hl => exact h.huntCell hl c
  · next hl => exact h.lockedCell hl c
  · next hl => exact h.searchCell hl p c
  · next hl => exact h.trackCell hl p c

/-- A cell keeps its lane's form (01 R3). -/
theorem Wf.takeCell (h : l.Wf) (hm : l.mode ≠ .off) (p : Pattern) (c : Cell) : (l.takeCell p c).Wf := by
  have counted : (if c = .violation then l.counting .code else l).Wf ∧
      (if c = .violation then l.counting .code else l).mode = l.mode := by
    split
    · exact ⟨h.counting _, rfl⟩
    · exact ⟨h, rfl⟩
  obtain ⟨wf, mode⟩ := counted
  have worked := (wf.runCell (mode ▸ hm) c).lineCell p c
  unfold Lane.takeCell
  split
  · exact h
  · next hl => exact h.noSignalCell hl hm c
  all_goals exact worked

/-! ### A close, and what goes with a change of mode (03 R55 to R58, 01 R17 to R22, 07 R144, R145) -/

theorem Wf.exchanged (h : l.Wf) : l.exchanged.Wf := { h with off := fun hm => ⟨rfl, (h.off hm).2⟩ }

theorem Wf.intervalClosed (h : l.Wf) (hm : l.mode ≠ .off) (n : LaneNo) (iv : OpenInterval) {reason : CloseReason}
    (hr : reason ≠ .stopped) (stop start : Stamp) : (l.intervalClosed n iv reason stop start).Wf := by
  have books := h.books.intervalClosed n iv reason stop start
  refine { h with opened := ?_, interval := books.interval, ring := books.ring, number := books.number }
  unfold Lane.intervalClosed
  dsimp only
  rw [if_neg hr, decide_eq_true hm, Option.isSome_some]

theorem Wf.restarted (h : l.Wf) {line : LineState} (fits : line.fits l.mode = true) (lost : Bool) : (l.restarted line lost).Wf := by
  unfold Lane.restarted
  cases lost
  · exact h.restartedAt fits fresh_form
  · exact h.lostLock.restartedAt fits fresh_form

theorem Wf.checkerRestarted (h : l.Wf) (hm : l.mode = .test) (newRate : Bool) : (l.checkerRestarted newRate).Wf := by
  have fits : LineState.fits .search l.mode = true := by rw [hm]; rfl
  have restarted := h.restarted fits (decide (l.line = .track))
  have mode : (l.restarted .search (decide (l.line = .track))).mode = .test := by
    refine Eq.trans ?_ hm
    unfold Lane.restarted
    dsimp only
    split <;> rfl
  exact { restarted with inserting := fun _ => mode }

theorem Wf.swappedAtClose (h : l.Wf) (reason : CloseReason) : (l.swappedAtClose reason).Wf := by
  unfold Lane.swappedAtClose
  split
  · exact h.exchanged
  · split
    · exact h.exchanged
    · next hm =>
      refine h.exchanged.restarted ?_ _
      change LineState.fits .hunt l.mode = true
      rw [hm]; rfl
    · next hm => exact h.exchanged.checkerRestarted hm _

/-- A close that opens the next interval keeps its lane's form (03 R55). -/
theorem Wf.afterClose (h : l.Wf) (hm : l.mode ≠ .off) (n : LaneNo) {reason : CloseReason} (hr : reason ≠ .stopped)
    (stop start : Stamp) : (l.afterClose n reason stop start).Wf := by
  unfold Lane.afterClose
  split
  · exact h
  · next iv _ =>
    have closed := h.intervalClosed hm n iv hr stop start
    split
    · exact closed.swappedAtClose reason
    · exact closed

/-- The close of the stop sequence opens no interval, so OFF finds none (01 R19, 03 R43). -/
theorem Wf.stopped (h : l.Wf) (hm : l.mode ≠ .off) (n : LaneNo) (st : Stamp) : (l.stopped n st).Wf := by
  obtain ⟨iv, hi⟩ := h.running_opened hm
  have books := h.books.modeClosed n .stopped st
  refine BooksWf.enter (l := { l.modeClosed n .stopped st with txFault := false }) { books with } ?_ fun _ => ⟨?_, rfl⟩
  · simp only [Lane.modeClosed, hi]; rfl
  · simp only [Lane.modeClosed, hi]

/-- A close at a change of mode that goes on leaves an interval open for the next mode (03 R55). -/
theorem Wf.modeClosed_enter (h : l.Wf) (hm : l.mode ≠ .off) (n : LaneNo) {reason : CloseReason} (hr : reason ≠ .stopped)
    (st : Stamp) {m : Mode} (running : m ≠ .off) : ((l.modeClosed n reason st).enter m).Wf := by
  obtain ⟨iv, hi⟩ := h.running_opened hm
  refine (h.books.modeClosed n reason st).enter ?_ fun off => absurd off running
  rw [modeClosed_of_open hi n hr, decide_eq_true running]
  rfl

theorem Wf.testEnded (h : l.Wf) (hm : l.mode ≠ .off) (n : LaneNo) (st : Stamp) : (l.testEnded n st).Wf := by
  have entered : ((l.modeClosed n .testStop st).enter .monitor).Wf := h.modeClosed_enter hm n (by decide) st (by decide)
  unfold Lane.testEnded
  split
  · exact entered.lostLock
  · exact entered

theorem mode_testEnded (l : Lane) (n : LaneNo) (st : Stamp) : (l.testEnded n st).mode = .monitor := by
  unfold Lane.testEnded
  split <;> rfl

theorem Wf.faultTaken (h : l.Wf) (hm : l.mode ≠ .off) (n : LaneNo) (st : Stamp) : (l.faultTaken n st).Wf := by
  have faulty : ({ l with txFault := true } : Lane).Wf := { h with off := fun off => absurd off hm }
  exact faulty.testEnded hm n st

theorem Wf.testBegun (h : l.Wf) (hm : l.mode ≠ .off) (n : LaneNo) (st : Stamp) : (l.testBegun n st).Wf := by
  have entered : ((l.modeClosed n .testStart st).enter .test).Wf := h.modeClosed_enter hm n (by decide) st (by decide)
  unfold Lane.testBegun
  split
  · exact entered
  · exact entered.faultTaken Mode.noConfusion n st

/-- An operation on a lane by its name keeps the lane's form (01 R15). -/
theorem Wf.afterAction (h : l.Wf) (a : LaneAction) (n : LaneNo) (o : Origin) (st : Stamp) : (l.afterAction a n o st).Wf := by
  have asked : o.closeReason ≠ .stopped := by cases o <;> decide
  unfold Lane.afterAction
  cases hm : l.mode with
  | off =>
    cases a with
    | swap => exact h.exchanged
    | _ => exact h
  | monitor =>
    have on : l.mode ≠ .off := by rw [hm]; decide
    cases a with
    | close => exact h.afterClose on n asked st st
    | swap => exact { h with off := fun off => absurd off on }
    | testStart =>
      dsimp only
      split
      · exact h
      · exact h.testBegun on n st
    | testStop | insert | capture => exact h
  | test =>
    have on : l.mode ≠ .off := by rw [hm]; decide
    cases a with
    | close => exact h.afterClose on n asked st st
    | swap => exact { h with off := fun off => absurd off on }
    | testStop => exact h.testEnded on n st
    | insert => exact { h with inserting := fun _ => hm }
    | testStart | capture => exact h

end Lane

end Sys2Proof.Machine
end

