-- ==== Sys2Proof/Proofs/CapturesKept.lean ====
section
namespace Sys2Proof.Machine

open Sys2Proof

/-! ### The cell sent (07 R138, R147) -/

/-- The lane after its transmitter has sent a cell (07 R138, R147). -/
def Lane.cellSent (l : Lane) (cell : Cell) : Lane :=
  { l with tx :=
    { insertPending := l.tx.insertPending && !l.tx.inserts
      position := if l.tx.position < 15 then l.tx.position + 1 else 0
      reading := l.txReading
      recent := lastThree (l.tx.recent ++ [cell]) } }

theorem lane_transmit (d : Device) (n : LaneNo) (st : Stamp) :
    (d.transmit n st).lane n = (d.lane n).cellSent (d.nextCell n) := by
  unfold Device.transmit
  dsimp only
  split
  · exact (lane_writeLane _ _ _ _ _ _).trans (lane_modLane_same _ _ _)
  · exact lane_modLane_same _ _ _

/-! ### What the device's work keeps of the lanes and the capture unit -/

/-- The work keeps the form of the lanes and the capture unit. -/
def Device.CapturesKept (d d' : Device) : Prop := d.CapturesWf → d'.CapturesWf

theorem Device.CapturesWf.pagesWf {d : Device} (h : d.CapturesWf) : d.PagesWf := fun n => (h.lanes n).pages

namespace Device.CapturesKept

theorem of_eq {d d' : Device} (lanes : d'.lanes = d.lanes) (capture : d'.capture = d.capture) : d.CapturesKept d' := by
  intro wf
  have lane (n : LaneNo) : d'.lane n = d.lane n := by unfold Device.lane; rw [lanes]
  refine ⟨fun n => ?_, ?_, fun n off => ?_⟩
  · rw [lane]; exact wf.lanes n
  · rw [capture]; exact wf.unit
  · rw [capture]; exact wf.offIdle n (lane n ▸ off)

theorem refl (d : Device) : d.CapturesKept d := id

theorem trans {a b c : Device} (h : a.CapturesKept b) (k : b.CapturesKept c) : a.CapturesKept c := k ∘ h

theorem settle {d d' : Device} (b : Device) (h : d.CapturesKept d') : d.CapturesKept (Device.settle b d') :=
  h.trans (of_eq (lanes_settle b d') (capture_settle b d'))

/-! ### Work of one lane -/

section
variable {n : LaneNo} {d d' : Device}

/-- Work of one lane keeps all forms where it keeps that lane's and leaves no capture in progress in OFF (08 R162). -/
theorem laneWork (step : LaneStep n d d') (unit : CaptureStep n d d') (lane : d.CapturesWf → (d'.lane n).Wf)
    (idle : d.CapturesWf → (d'.lane n).mode = .off → d'.capture.busy n = false) : d.CapturesKept d' := by
  intro wf
  refine ⟨fun m => ?_, unit.wf wf.pagesWf wf.unit, fun m off => ?_⟩
  · by_cases hm : m = n
    · subst hm; exact lane wf
    · rw [step.lanes m hm]; exact wf.lanes m
  · by_cases hm : m = n
    · subst hm; exact idle wf off
    · rw [unit.busy m hm]
      exact wf.offIdle m (by rw [← step.lanes m hm]; exact off)

/-- Work that leaves its lane running. -/
theorem running (step : LaneStep n d d') (unit : CaptureStep n d d') (lane : (d.lane n).Wf → (d'.lane n).Wf)
    (on : (d'.lane n).mode ≠ .off) : d.CapturesKept d' :=
  laneWork step unit (fun wf => lane (wf.lanes n)) fun _ off => absurd off on

/-- A change of one lane that keeps its mode and its form. -/
theorem modLane (d : Device) (n : LaneNo) {f : Lane → Lane} (form : (d.lane n).Wf → (f (d.lane n)).Wf)
    (mode : (f (d.lane n)).mode = (d.lane n).mode) : d.CapturesKept (d.modLane n f) := by
  intro wf
  refine ⟨fun m => ?_, wf.unit, fun m off => wf.offIdle m ?_⟩
  · by_cases hm : m = n
    · subst hm; rw [lane_modLane_same]; exact form (wf.lanes m)
    · rw [lane_modLane_ne d f hm]; exact wf.lanes m
  · by_cases hm : m = n
    · subst hm; rw [lane_modLane_same, mode] at off; exact off
    · rwa [lane_modLane_ne d f hm] at off

end

section
variable (d : Device) (n : LaneNo) (st : Stamp)

/-- A lane in OFF judges no cell (01 R2). -/
theorem takeCell (c : Cell) : d.CapturesKept (d.takeCell n c st) := by
  intro wf
  by_cases hm : (d.lane n).mode = .off
  · rw [takeCell_none _ _ _ _ ((wf.lanes n).line_off hm)]; exact wf
  · refine running (.takeCell n d c st) (.takeCell n d c st) (fun h => ?_) ?_ wf
    · rw [lane_takeCell]; exact h.takeCell hm d.pattern c
    · rw [lane_takeCell, Lane.mode_takeCell]; exact hm

theorem transmit : d.CapturesKept (d.transmit n st) := by
  refine laneWork (.transmit n d st) (.transmit n d st) (fun wf => ?_) fun wf off => ?_
  · have h := wf.lanes n
    rw [lane_transmit]
    exact { h with inserting := fun pending => h.inserting (Bool.and_eq_true_iff.1 pending).1 }
  · rw [lane_transmit] at off
    have unit : (d.transmit n st).capture = d.capture := by
      unfold Device.transmit
      dsimp only
      split <;> rfl
    rw [unit]; exact wf.offIdle n off

theorem startLane : d.CapturesKept (d.startLane n st).1 := by
  unfold Device.startLane
  split
  · refine running ((LaneStep.modLane n d _).trans (.writeLane n n _ _ _ _))
      ((CaptureStep.modLane n d _).trans (.writeLane n n _ _ _ _)) (fun h => ?_) ?_
    · rw [lane_writeLane, lane_modLane_same]
      have opened : ({ d.lane n with interval := some (OpenInterval.fresh st) } : Lane).BooksWf :=
        { h.books with interval := fun iv hi => by cases hi; exact newInterval_wf st }
      exact opened.enter rfl fun off => Mode.noConfusion off
    · rw [lane_writeLane, lane_modLane_same]; exact Mode.noConfusion
  · exact refl d
  · exact refl d

theorem stopLane : d.CapturesKept (d.stopLane n st).1 := by
  have stopped (hm : (d.lane n).mode ≠ .off) : d.CapturesKept (d.stopSequence n st) := by
    refine laneWork (.stopSequence n d st) (.stopSequence n d st) (fun wf => ?_) fun wf _ => ?_
    · rw [lane_stopSequence]; exact (wf.lanes n).stopped hm n st
    · obtain ⟨iv, hi⟩ := (wf.lanes n).running_opened hm
      obtain ⟨-, unit⟩ := stopSequence_records d n st hi (wf.unit.notBothFor n)
      rw [unit]; exact busy_endedCapture d n wf.unit
  unfold Device.stopLane
  split
  · exact refl d
  · next hm => exact stopped (by rw [hm]; decide)
  · next hm => exact stopped (by rw [hm]; decide)

/-- An operation leaves no lane in OFF that was not there, and one in OFF takes a swap alone (01 R15, 02 R33). -/
theorem laneAction (a : LaneAction) (o : Origin) : d.CapturesKept (d.laneAction a n o st).1 := by
  by_cases hm : (d.lane n).mode = .off
  · rw [laneAction_off hm]
    split
    · refine laneWork (.swapInOff n d st) (.swapInOff n d st) (fun wf => ?_) fun wf _ => wf.offIdle n hm
      rw [Device.swapInOff, lane_writeLane, lane_exchangePages]
      exact (wf.lanes n).exchanged
    · exact refl d
  · refine running (.laneAction n d a o st) (.laneAction n d a o st) (fun wf => ?_) fun off => hm ?_
    · rw [lane_laneAction]; exact wf.afterAction a n o st
    · rw [lane_laneAction] at off; exact (off_afterAction _ a n o st).1 off

/-- A close that goes on: a boundary, or the closes of a TIME SET (03 R51, 05 R100). -/
theorem close {reason : CloseReason} (hr : reason ≠ .stopped) (stop start : Stamp) (hm : (d.lane n).mode ≠ .off) :
    d.CapturesKept (d.close n reason stop start) := by
  refine running (.close n d reason stop start) (.close n d reason stop start) (fun wf => ?_) ?_
  · rw [lane_close]; exact wf.afterClose hm n hr stop start
  · rw [lane_close, mode_afterClose]; exact hm

theorem boundary (a : Arrival) : d.CapturesKept (d.boundary n a) := by
  have closed (hm : (d.lane n).mode ≠ .off) := close d n (reason := .boundary) (by decide) (d.timebase.stampOf a.time)
    (d.timebase.stampOf a.time) hm
  unfold Device.boundary
  split
  · exact refl d
  · exact refl d
  · next hm _ =>
    split
    · exact closed (by rw [hm]; decide)
    · exact refl d
  · next hm _ =>
    split
    · exact closed (by rw [hm]; decide)
    · exact refl d

theorem takeFault (hm : (d.lane n).mode ≠ .off) : d.CapturesKept (d.takeFault n st) := by
  refine running (.takeFault n d st) (.takeFault n d st) (fun wf => ?_) ?_
  · rw [lane_takeFault]; exact wf.faultTaken hm n st
  · rw [lane_takeFault, Lane.faultTaken, Lane.mode_testEnded]; decide

theorem cancelSwap : d.CapturesKept (d.cancelSwap n).1 := by
  rw [cancelSwap_eq]
  dsimp only
  split
  · exact refl d
  · next hm => exact modLane d n (f := Lane.swapCleared) (fun wf => { wf with off := fun off => absurd off hm }) rfl

/-- PAGE SWAP's ARM is the operation by its name (02 R33). -/
theorem armSwap : d.CapturesKept (d.armSwap n st).1 := laneAction d n st .swap .host

/-- A profile in range goes to the idle page (02 R31). -/
theorem setProfile {p : Profile} (hp : p.inRange = true) : d.CapturesKept (d.setProfile n p).1 := by
  unfold Device.setProfile
  split
  · exact refl d
  · refine modLane d n (f := fun l => { l with pages := l.pages.set l.idle.val p }) (fun wf => ?_) rfl
    obtain ⟨page0, page1⟩ := wf.pages
    refine { wf with pages := ⟨?_, ?_⟩ }
    · dsimp only; rw [Vector.getElem_set]; split
      · exact hp
      · exact page0
    · dsimp only; rw [Vector.getElem_set]; split
      · exact hp
      · exact page1

/-- The oldest records leave the ring, and those left are numbered in a row (03 R58, R65). -/
theorem takeIntervals (count : Nat) : d.CapturesKept (d.takeIntervals n count).1 := by
  refine modLane d n (f := fun l => { l with ring := l.ring.drop count }) (fun wf => ?_) rfl
  obtain ⟨short, chain⟩ := wf.ring
  exact { wf with ring := ⟨(List.drop_suffix count _).length_le.trans short,
    numberChain_of_suffix ((List.drop_suffix count _).map _) chain⟩ }

theorem abortCapture : d.CapturesKept (d.abortCapture n).1 := by
  by_cases hm : (d.lane n).mode = .off
  · intro wf
    rw [abortCapture_idle (wf.offIdle n hm)]
    exact wf
  · have unit : Device.CaptureStep n d (d.abortCapture n).1 := by
      unfold Device.abortCapture
      split
      · exact .truncate n d _
      · split
        · exact (Device.CaptureStep.dropEntry n d _).trans (.grantTest n _)
        · exact .refl n d
    have lane : (d.abortCapture n).1.lane n = d.lane n := by
      unfold Device.abortCapture
      split
      · exact lane_truncate _ _ _ _
      · split
        · rw [lane_grantTest, lane_dropEntry]
        · rfl
    refine running (laneStep_abortCapture d n) unit (fun wf => ?_) ?_
    · rw [lane]; exact wf
    · rw [lane]; exact hm

end

/-- A slot that is taken fills for no lane, before or after (08 R164). -/
theorem takeCapture (d : Device) (k : SlotNo) : d.CapturesKept (d.takeCapture k).1 := by
  unfold Device.takeCapture
  split
  · next c full =>
    have fills (n : LaneNo) : Slot.free.fillsFor n = (d.capture.slots[k.val]).fillsFor n := by rw [full]; rfl
    have freed : d.CapturesKept { d with capture := d.capture.setSlot k .free } := by
      intro wf
      refine ⟨wf.lanes, wf.unit.setSlot k (by rw [full]; rfl) fills trivial, fun n off => ?_⟩
      have busy : (d.capture.setSlot k .free).busy n = d.capture.busy n := by
        refine CaptureUnit.busy_congr (or_congr Iff.rfl (exists_congr fun j => ?_))
        simp only [CaptureUnit.setSlot]
        rw [slot_set]
        split
        · next hj => subst hj; rw [fills]
        · rfl
      exact busy.trans (wf.offIdle n off)
    have granted (e : Device) : e.CapturesKept e.grantTest := by
      intro wf
      refine ⟨fun n => ?_, wf_grantTest e wf.pagesWf wf.unit, fun n off => ?_⟩
      · rw [lane_grantTest]; exact wf.lanes n
      · rw [lane_grantTest] at off
        rw [busy_grantTest]; exact wf.offIdle n off
    exact freed.trans (granted _)
  all_goals exact refl d

/-! ### Records that arrive, resets and requests -/

theorem recordArrives (d : Device) (r : Record) : d.CapturesKept (d.recordArrives r) :=
  of_eq (by rw [recordArrives_frame]) (capture_recordArrives d r)

theorem arriveFirst (d : Device) (first : Sent → Bool) : d.CapturesKept (d.arriveFirst first) :=
  of_eq (by rw [arriveFirst_frame]) (by rw [arriveFirst_frame])

/-- A reset leaves every lane in OFF and the capture unit with nothing to do (01 R25, 08 R167). -/
theorem of_cleared {d d' : Device} (h : d'.Cleared) : d.CapturesKept d' := by
  refine fun _ => ⟨fun n => ?_, ?_, fun n _ => ?_⟩
  · obtain ⟨txf, lane⟩ := h.lanes n
    rw [lane]; exact Lane.afterReset_wf txf
  · rw [h.capture]; exact CaptureUnit.afterReset_wf
  · rw [h.capture]; fin_cases n <;> rfl

theorem resetRequest (d : Device) : d.CapturesKept d.resetRequest := of_cleared ((resetBlocks_cleared d).recordArrives _)

theorem request {own : Device → Device × Answer} {d : Device} (code tag : Byte)
    (h : d.frameEnds.CapturesKept (own d.frameEnds).1) : d.CapturesKept (d.request code tag own) := by
  unfold Device.request
  split
  · exact of_eq rfl rfl
  · exact trans (b := d.frameEnds) (of_eq rfl rfl) (h.trans (of_eq (by rfl) (by rfl)))

theorem asRequest {own : Device → Device × Answer} {d : Device} (h : d.CapturesKept (own d).1) :
    d.CapturesKept (asRequest own d).1 := (h.settle d).trans (of_eq rfl rfl)

/-! ### Operations on lanes and time -/

theorem maskRequest {f : LaneNo → Device → Device × Status} (h : ∀ n (d : Device), d.CapturesKept (f n d).1) (mask : Byte)
    (d : Device) : d.CapturesKept (Device.maskRequest f mask d).1 := by
  have fold (ns : List LaneNo) (d : Device) : d.CapturesKept (Device.onLanes f ns d).1 := by
    induction ns generalizing d with
    | nil => exact refl d
    | cons n ns ih => exact (h n d).trans (ih _)
  unfold Device.maskRequest
  split
  · exact fold _ d
  · exact refl d

theorem maskOnly (a : LaneAction) (params : List Byte) (d : Device) : d.CapturesKept (maskOnly a params d).1 := by
  unfold Machine.maskOnly
  split
  · exact maskRequest (fun n d => laneAction d n d.now a .host) _ d
  · exact refl d

theorem laneRequest {take : LaneNo → Device → Device × Answer} (params : List Byte) (d : Device)
    (h : ∀ n, d.CapturesKept (take n d).1) : d.CapturesKept (laneRequest params take d).1 := by
  unfold Machine.laneRequest
  repeat' split
  · exact h _
  all_goals exact refl d

theorem closeForSetting (d : Device) (n : LaneNo) (old new : Stamp) : d.CapturesKept (d.closeForSetting n old new) := by
  have closed (hm : (d.lane n).mode ≠ .off) := close d n (reason := .timeSet) (by decide) old new hm
  unfold Device.closeForSetting
  split
  · exact refl d
  · next hm => exact closed (by rw [hm]; decide)
  · next hm => exact closed (by rw [hm]; decide)

theorem setTime (d : Device) (x : Setting) : d.CapturesKept (d.setTime x) := by
  have fold (ns : List LaneNo) (old new : Stamp) (d : Device) :
      d.CapturesKept (ns.foldl (fun d n => d.closeForSetting n old new) d) := by
    induction ns generalizing d with
    | nil => exact refl d
    | cons n ns ih => exact (closeForSetting d n old new).trans (ih _)
  have set : d.CapturesKept (d.withTimebase (d.timebase.set x)) := of_eq rfl rfl
  exact (set.trans (fold allLanes _ _ _)).trans (of_eq rfl rfl)

theorem setRun (d : Device) (r : RunState) (k : Kind) : d.CapturesKept (d.setRun r k) := by
  unfold Device.setRun
  split <;> exact of_eq rfl rfl

/-- The arrivals that a second delivers wait at the lanes; nothing of a lane's form speaks of them (05 R93). -/
theorem deliver (d : Device) (minute : Bool) : d.CapturesKept (d.deliver minute) := by
  intro wf
  refine ⟨fun n => ?_, wf.unit, fun n off => wf.offIdle n ?_⟩
  · rw [lane_deliver]; exact { wf.lanes n with }
  · rw [lane_deliver] at off; exact off

theorem fineTick (d : Device) : d.CapturesKept d.fineTick := by
  cases fault : d.timebase.oscFault with
  | true => rw [fineTick_fault fault]; exact refl d
  | false =>
    cases run : d.timebase.run with
    | stopped => rw [fineTick_stopped fault run]; exact of_eq rfl rfl
    | running =>
      by_cases within : d.timebase.fraction < 1023
      · rw [fineTick_within fault run within]; exact of_eq rfl rfl
      · rw [fineTick_second fault run (Nat.not_lt.1 within)]
        exact trans (b := d.deliverTick.withTimebase _) (of_eq rfl rfl) (deliver _ _)

/-! ### The table's work (06 R122, R128) -/

theorem noteRefusal (d : Device) (e : EntryNo) (place target : Nat) (st : Stamp) (status : Status) :
    d.CapturesKept (d.noteRefusal e place target st status) := by
  unfold Device.noteRefusal
  split <;> exact of_eq rfl rfl

theorem noteFire (d : Device) (e : EntryNo) (st : Stamp) : d.CapturesKept (d.noteFire e st) := by
  unfold Device.noteFire
  repeat' split
  all_goals exact of_eq rfl rfl

theorem tableOp (d : Device) (st : Stamp) (op : TableOp) (rest : List TableOp) : d.CapturesKept (d.tableOp st op rest).1 := by
  have entrySet (f : EntryNo) (x : Entry) : d.CapturesKept (d.setEntry f x) := of_eq rfl rfl
  cases op with
  | turn e =>
    simp only [Device.tableOp]
    split
    · exact (entrySet e _).trans (noteFire _ e st)
    · exact refl d
  | onLane e place a n =>
    exact ((laneAction d n st a .schedule).trans (noteRefusal _ e place n.val st _)).trans (of_eq rfl rfl)
  | mark e tag => exact (arriveFirst d _).trans (recordArrives _ _)
  | arm e place target => exact (entrySet target _).trans (noteRefusal _ e place target.val st _)
  | disarm e place target => exact (entrySet target _).trans (noteRefusal _ e place target.val st _)

theorem tableOps (st : Stamp) (k : Nat) (d : Device) (ops : List TableOp) :
    d.CapturesKept (Device.tableOps st k d ops).1 := by
  induction k generalizing d ops with
  | zero => exact refl d
  | succ k ih =>
    cases ops with
    | nil => exact refl d
    | cons op rest => exact (tableOp d st op rest).trans (ih _ _)

theorem runTable (d : Device) (share : Option Nat) : d.CapturesKept (d.runTable share) := by
  unfold Device.runTable
  split
  · exact refl d
  · next w _ =>
    have worked := tableOps w.stamp (share.getD (d.stepsLeft w.ops)) { d with events := w.event } w.ops
    exact trans (b := { d with events := w.event }) (of_eq rfl rfl) (worked.trans (of_eq (by rfl) (by rfl)))

theorem tableEvent (d : Device) (share : Option Nat) {take : Device → Option Device}
    (h : ∀ d', take d = some d' → d.CapturesKept d') : d.CapturesKept (d.tableEvent share take) := by
  unfold Device.tableEvent
  split
  · exact runTable d share
  · split
    · exact refl d
    · next d' hd => exact (h d' hd).trans (runTable d' share)

theorem expire (d : Device) (e : EntryNo) : d.CapturesKept (d.expire e) := by
  unfold Device.expire
  repeat' split
  · exact runTable d _
  all_goals exact refl d

theorem beginEvent (d : Device) (ev : TableEvent) (st : Stamp) : d.CapturesKept (d.beginEvent ev st) := by
  unfold Device.beginEvent
  dsimp only
  split <;> exact of_eq rfl rfl

/-- An event taken off its list, and then judged (06 R122). -/
theorem taken {d e : Device} (lanes : e.lanes = d.lanes) (capture : e.capture = d.capture) (ev : TableEvent) (st : Stamp) :
    d.CapturesKept (e.beginEvent ev st) := (of_eq lanes capture).trans (beginEvent e ev st)

theorem takeSecond {d d' : Device} (h : d.takeSecond = some d') : d.CapturesKept d' := by
  unfold Device.takeSecond at h
  split at h <;> cases h
  exact taken (by rfl) (by rfl) _ _

theorem takeMinute {d d' : Device} (h : d.takeMinute = some d') : d.CapturesKept d' := by
  unfold Device.takeMinute at h
  split at h <;> cases h
  exact taken (by rfl) (by rfl) _ _

theorem takeFine {d d' : Device} (h : d.takeFine = some d') : d.CapturesKept d' := by
  unfold Device.takeFine at h
  split at h <;> cases h
  exact taken (by rfl) (by rfl) _ _

theorem takeEdge {d d' : Device} (p : Pin) (h : d.takeEdge p = some d') : d.CapturesKept d' := by
  unfold Device.takeEdge at h
  split at h <;> cases h
  exact taken (by rfl) (by rfl) _ _

theorem moveEntry (f : Entry → Entry × Status) (e : EntryNo) (d : Device) : d.CapturesKept (moveEntry f e d).1 := by
  unfold Machine.moveEntry
  dsimp only
  split <;> exact of_eq rfl rfl

theorem entryRequest {take : EntryNo → Device → Device × Answer} (h : ∀ e (d : Device), d.CapturesKept (take e d).1)
    (params : List Byte) (d : Device) : d.CapturesKept (entryRequest params take d).1 := by
  unfold Machine.entryRequest
  repeat' split
  · exact (runTable d none).trans (h _ _)
  all_goals exact refl d

end Device.CapturesKept

/-! ### The owners of the requests (10 R183) -/

/-- The owners that work on no lane, capture, journal or timebase, and not on the attention unit. -/
def outerOwners : List (List Byte → Device → Device × Answer) :=
  [ownDeviceInfo, ownReset, ownExtConfig, ownPatternSet, ownPatternGet, ownTimeGet, ownLaneStatus, ownProfileGet,
    ownJournalStatus, ownCaptureStatus]

/-- What those owners leave alone. -/
def Device.inner (d : Device) : Vector Lane 4 × CaptureUnit × Journal × Timebase × Attention :=
  (d.lanes, d.capture, d.journal, d.timebase, d.attention)

theorem inner_outerOwner {own : List Byte → Device → Device × Answer} (h : own ∈ outerOwners) (params : List Byte) (d : Device) :
    (own params d).1.inner = d.inner := by
  simp only [outerOwners, List.mem_cons, List.not_mem_nil, or_false] at h
  obtain rfl | rfl | rfl | rfl | rfl | rfl | rfl | rfl | rfl | rfl := h
  all_goals
    simp only [ownDeviceInfo, ownReset, ownExtConfig, ownPatternSet, ownPatternGet, ownTimeGet, ownLaneStatus, laneRequest,
      ownProfileGet, ownJournalStatus, ownCaptureStatus]
    repeat' split
    all_goals rfl

namespace Device.CapturesKept

theorem outerOwner {own : List Byte → Device → Device × Answer} (h : own ∈ outerOwners) (params : List Byte) (d : Device) :
    d.CapturesKept (own params d).1 := by
  have inner := inner_outerOwner h params d
  simp only [Device.inner, Prod.mk.injEq] at inner
  obtain ⟨lanes, capture, -, -, -⟩ := inner
  exact of_eq lanes capture

section
variable (params : List Byte) (d : Device)

theorem ownAttention : d.CapturesKept (ownAttention params d).1 := by
  unfold Machine.ownAttention
  repeat' split
  all_goals exact of_eq rfl rfl

theorem ownAttentionConfig : d.CapturesKept (ownAttentionConfig params d).1 := by
  unfold Machine.ownAttentionConfig
  repeat' split
  all_goals exact of_eq rfl rfl

theorem ownTimeSet : d.CapturesKept (ownTimeSet params d).1 := by
  unfold Machine.ownTimeSet
  apply asRequest
  repeat' split
  · exact refl d
  · exact refl d
  · exact setTime d _
  · exact refl d

theorem ownTimeStop : d.CapturesKept (ownTimeStop params d).1 := by
  unfold Machine.ownTimeStop
  apply asRequest
  split
  · exact setRun d _ _
  · exact refl d

theorem ownTimeRun : d.CapturesKept (ownTimeRun params d).1 := by
  unfold Machine.ownTimeRun
  apply asRequest
  split
  · exact setRun d _ _
  · exact refl d

/-- PROFILE SET takes a profile in range alone (02 R31). -/
theorem ownProfileSet : d.CapturesKept (ownProfileSet params d).1 := by
  unfold Machine.ownProfileSet
  split
  · split
    · next p _ hp =>
      obtain ⟨-, inRange, -⟩ := profileOf_eq_some.1 hp
      exact setProfile d _ inRange
    · exact refl d
  · exact refl d

theorem ownPageSwap : d.CapturesKept (ownPageSwap params d).1 := by
  unfold Machine.ownPageSwap
  apply asRequest
  repeat' split
  · exact maskRequest (fun n d => armSwap d n d.now) _ d
  · exact maskRequest (fun n d => cancelSwap d n) _ d
  all_goals exact refl d

theorem ownIntervalTake : d.CapturesKept (ownIntervalTake params d).1 := by
  unfold Machine.ownIntervalTake
  repeat' split
  · exact takeIntervals d _ _
  all_goals exact refl d

theorem ownEntrySet : d.CapturesKept (ownEntrySet params d).1 := by
  have defined (d : Device) (e : EntryNo) (df : Definition) : d.CapturesKept (d.defineEntry e df).1 := by
    unfold Device.defineEntry
    split <;> exact of_eq rfl rfl
  unfold Machine.ownEntrySet
  repeat' split
  · exact (runTable d none).trans (defined _ _ _)
  all_goals exact refl d

theorem ownJournalTake : d.CapturesKept (ownJournalTake params d).1 := by
  unfold Machine.ownJournalTake asEvent
  apply settle
  repeat' split
  all_goals exact of_eq rfl rfl

theorem ownJournalConfig : d.CapturesKept (ownJournalConfig params d).1 := by
  have configured (p : Policy) (threshold : Nat) : d.CapturesKept (d.configJournal p threshold).1 := by
    have frame := (Device.JournalWork.configJournal d p threshold).frame
    exact of_eq (by rw [frame]) (by rw [frame])
  unfold Machine.ownJournalConfig
  repeat' split
  · exact configured _ _
  all_goals exact refl d

theorem ownJournalMark : d.CapturesKept (ownJournalMark params d).1 := by
  unfold Machine.ownJournalMark
  split
  · exact (arriveFirst d _).trans (recordArrives _ _)
  · exact refl d

theorem ownCaptureTake : d.CapturesKept (ownCaptureTake params d).1 := by
  unfold Machine.ownCaptureTake
  apply asRequest
  repeat' split
  · exact takeCapture d _
  all_goals exact refl d

end

theorem owner : ∀ p ∈ requestOwners, ∀ (params : List Byte) (d : Device), d.CapturesKept (p.2 params d).1 := by
  intro p hp params d
  have passes {own : List Byte → Device → Device × Answer} (h : own ∈ outerOwners) : d.CapturesKept (own params d).1 :=
    outerOwner h params d
  simp only [requestOwners, List.mem_append, List.mem_cons, List.not_mem_nil, or_false] at hp
  obtain ((device | lane) | table) | rest := hp
  · obtain rfl | rfl | rfl | rfl | rfl | rfl | rfl | rfl | rfl | rfl | rfl := device
    · exact passes (by simp [outerOwners])
    · exact passes (by simp [outerOwners])
    · exact ownAttention params d
    · exact ownAttentionConfig params d
    iterate 4 exact passes (by simp [outerOwners])
    · exact ownTimeSet params d
    · exact ownTimeStop params d
    · exact ownTimeRun params d
  · obtain rfl | rfl | rfl | rfl | rfl | rfl | rfl | rfl | rfl | rfl | rfl := lane
    · exact asRequest (laneRequest params d fun n => startLane d n _)
    · exact asRequest (laneRequest params d fun n => stopLane d n _)
    · exact passes (by simp [outerOwners])
    · exact ownProfileSet params d
    · exact passes (by simp [outerOwners])
    · exact ownPageSwap params d
    · exact asRequest (maskOnly .close params d)
    · exact ownIntervalTake params d
    · exact asRequest (maskOnly .testStart params d)
    · exact asRequest (maskOnly .testStop params d)
    · exact asRequest (maskOnly .insert params d)
  · obtain rfl | rfl | rfl | rfl | rfl | rfl | rfl := table
    · exact ownEntrySet params d
    · exact entryRequest (fun _ d => refl d) params d
    all_goals exact entryRequest (moveEntry _) params d
  · obtain rfl | rfl | rfl | rfl | rfl | rfl | rfl | rfl := rest
    · exact ownJournalTake params d
    · exact passes (by simp [outerOwners])
    · exact ownJournalConfig params d
    · exact ownJournalMark params d
    · exact asRequest (maskOnly .capture params d)
    · exact passes (by simp [outerOwners])
    · exact ownCaptureTake params d
    · exact asRequest (laneRequest params d fun n => abortCapture d n)

theorem requestOwner (code : Byte) (params : List Byte) (d : Device) : d.CapturesKept (requestOwner code params d).1 := by
  unfold Machine.requestOwner
  cases h : requestOwners.lookup code with
  | none => exact refl d
  | some own =>
    obtain ⟨before, after, owners, -⟩ := List.lookup_eq_some_iff.1 h
    exact owner (code, own) (by rw [owners]; simp) params d

/-! ### Every command -/

/-- A frame's last character hands the frame to the owner of its code (10 R178, R180). -/
theorem crxCharacter {b : Byte} {good : Bool} {s t : State} (h : exec (.crxCharacter b good) s = .next t) :
    s.dev.CapturesKept t.dev := by
  have done (bytes : List Byte) (d : Device) : d.CapturesKept (d.frameDone bytes b) := by
    unfold Device.frameDone
    repeat' split
    case h_1 tag code params _ => exact request code tag (requestOwner code params d.frameEnds)
    all_goals exact of_eq rfl rfl
  have inFrame (bytes : List Byte) (d : Device) : d.CapturesKept (d.frameByte bytes b) := by
    unfold Device.frameByte
    repeat' split
    · exact of_eq rfl rfl
    · exact of_eq rfl rfl
    · exact done _ d
    · exact of_eq rfl rfl
  cases h
  dsimp only
  repeat' split
  · exact of_eq rfl rfl
  · exact refl s.dev
  · exact inFrame _ s.dev
  · exact of_eq rfl rfl

/-- TXFn is of no lane's form; low in TEST it ends the test (01 R22). -/
theorem driverFault {n : LaneNo} {level : Bool} {s t : State} (h : exec (.driverFault n level) s = .next t) :
    s.dev.CapturesKept t.dev := by
  have line : s.dev.CapturesKept (s.dev.modLane n fun l => { l with txf := level }) :=
    modLane s.dev n (f := fun l => { l with txf := level }) (fun wf => { wf with }) rfl
  cases h
  dsimp only
  split
  · next low =>
    refine (line.trans (takeFault _ n _ ?_)).settle _
    rw [lane_modLane_same]
    exact fun off => Mode.noConfusion (low.1.symm.trans off)
  · exact line

theorem secondArrival {n : LaneNo} {s t : State} (h : exec (.secondArrival n) s = .next t) : s.dev.CapturesKept t.dev := by
  cases h
  dsimp only
  split
  · exact refl s.dev
  · next a rest _ =>
    have left : s.dev.CapturesKept (s.dev.modLane n fun l => { l with seconds := rest }) :=
      modLane s.dev n (f := fun l => { l with seconds := rest }) (fun wf => { wf with }) rfl
    exact (left.trans (boundary _ n a)).settle _

theorem transmitCell {n : LaneNo} {s t : State} (h : exec (.transmitCell n) s = .next t) : s.dev.CapturesKept t.dev := by
  have sent : s.dev.CapturesKept (Device.settle s.dev (s.dev.transmit n s.dev.now)) := (transmit s.dev n _).settle _
  cases h
  dsimp only
  repeat' split
  · exact sent.trans ((takeCell _ n _ _).settle _)
  · exact sent
  · exact refl s.dev

theorem event {c : Instr} (hc : c.request? = none) {s t : State} (h : exec c s = .next t) : s.dev.CapturesKept t.dev := by
  cases c with
  | powerOnReset r1 r0 =>
    obtain ⟨t', ht, cleared, -⟩ := exec_resetting (s := s) (c := .powerOnReset r1 r0) trivial
    cases ht.symm.trans h
    exact of_cleared cleared
  | resetPin r1 r0 =>
    obtain ⟨t', ht, cleared, -⟩ := exec_resetting (s := s) (c := .resetPin r1 r0) trivial
    cases ht.symm.trans h
    exact of_cleared cleared
  | resetTakesEffect =>
    cases h
    dsimp only
    repeat' split
    · exact refl s.dev
    · exact resetRequest s.dev
    · exact refl s.dev
  | replySent =>
    cases h
    dsimp only
    unfold Device.replyEnds
    repeat' split
    · exact refl s.dev
    · exact resetRequest s.dev
    · exact of_eq rfl rfl
  | badFrame cause =>
    cases h
    dsimp only
    repeat' split
    all_goals exact of_eq rfl rfl
  | frameGapTimeout =>
    cases h
    dsimp only
    split <;> exact of_eq rfl rfl
  | crxCharacter b good => exact crxCharacter h
  | cellArrival n x =>
    cases h
    dsimp only
    split
    · exact (takeCell s.dev n _ x).settle _
    · exact refl s.dev
  | transmitCell n => exact transmitCell h
  | driverFault n level => exact driverFault h
  | secondArrival n => exact secondArrival h
  | fineTick => cases h; exact fineTick s.dev
  | filterSample e0 e1 =>
    cases h
    dsimp only
    unfold Device.sample
    split <;> exact of_eq rfl rfl
  | extEdge p =>
    cases h
    refine settle _ ?_
    unfold Device.noteEdge
    dsimp only
    repeat' split
    all_goals exact of_eq rfl rfl
  | oscFault =>
    cases h
    refine settle _ ?_
    unfold Device.detectFault
    split <;> exact of_eq rfl rfl
  | oscResumed =>
    cases h
    refine settle _ ?_
    unfold Device.recover
    split <;> exact of_eq rfl rfl
  | oscMeasureRestart => cases h; exact of_eq rfl rfl
  | crystalCycleSeen =>
    cases h
    dsimp only
    split <;> exact of_eq rfl rfl
  | scheduleSecondArrival share => cases h; exact tableEvent s.dev share fun _ => takeSecond
  | minuteArrival share => cases h; exact tableEvent s.dev share fun _ => takeMinute
  | scheduleFineTick share => cases h; exact tableEvent s.dev share fun _ => takeFine
  | scheduleEdge p share => cases h; exact tableEvent s.dev share fun _ => takeEdge p
  | countdownExpiry e => cases h; exact expire s.dev e
  | recordArrival place =>
    cases h
    dsimp only
    split
    · exact refl s.dev
    · next r rest _ => exact trans (b := { s.dev with inFlight := rest }) (of_eq rfl rfl) (recordArrives _ r)
  | conditionChange cond =>
    cases h
    dsimp only
    split <;> exact of_eq rfl rfl
  | _ => cases hc

theorem exec {c : Instr} {s t : State} (h : exec c s = .next t) : s.dev.CapturesKept t.dev := by
  cases hc : c.request? with
  | none => exact event hc h
  | some r =>
    obtain ⟨code, tag, params⟩ := r
    obtain idle | ran := exec_of_request? hc s
    · cases idle.symm.trans h
      exact refl s.dev
    · cases ran.symm.trans h
      exact request code tag (requestOwner code params s.dev.frameEnds)

end Device.CapturesKept

/-- Settles O59: no command's work takes a lane or the capture unit out of its form, and a step runs one command or none. -/
theorem lanesAndCapturesKeepTheirForm : Obligations.LanesAndCapturesKeepTheirForm := by
  intro s t wf h
  unfold step at h
  split at h
  · cases h; exact wf
  · exact Device.CapturesKept.exec h wf

end Sys2Proof.Machine
end

