-- ==== Sys2Proof/Proofs/Transmitter.lean ====
section
namespace Sys2Proof.Machine

open Sys2Proof

/-! ### A cell that is taken leaves the transmitter alone (07 R138) -/

theorem Lane.tx_runCell (l : Lane) (c : Cell) : (l.runCell c).tx = l.tx := by
  unfold Lane.runCell
  dsimp only
  repeat' split
  all_goals rfl

theorem Lane.tx_lineCell (l : Lane) (p : Pattern) (c : Cell) : (l.lineCell p c).tx = l.tx := by
  unfold Lane.lineCell Lane.huntCell Lane.lockedCell Lane.frameCheck Lane.searchCell Lane.trackCell
  dsimp only
  repeat' split
  all_goals rfl

theorem Lane.tx_takeCell (l : Lane) (p : Pattern) (c : Cell) : (l.takeCell p c).tx = l.tx := by
  have worked : (((if c = .violation then l.counting .code else l).runCell c).lineCell p c).tx = l.tx := by
    rw [tx_lineCell, tx_runCell]
    split <;> rfl
  unfold Lane.takeCell
  split
  · rfl
  · unfold Lane.noSignalCell
    split <;> rfl
  all_goals exact worked

/-! ### What the transmitter sends (07 R137, R138, R147) -/

theorem getLast?_lastThree (cells : List Cell) (c : Cell) : (lastThree (cells ++ [c])).getLast? = some c := by
  have length : (cells ++ [c]).length = cells.length + 1 := List.length_append
  rw [lastThree, List.getLast?_drop, if_neg (by omega), List.getLast?_append]
  rfl

/-- TXn carries the cell just sent while TXEn is asserted (01 R21). -/
theorem Lane.txd_of_sent {l : Lane} (hm : l.mode = .test) {cells : List Cell} {c : Cell}
    (sent : l.tx.recent = lastThree (cells ++ [c])) : l.txd = some c := by
  have asserted : l.txe = true := decide_eq_true hm
  rw [Lane.txd, if_pos asserted, sent]
  exact getLast?_lastThree cells c

theorem Transmitter.inserts_iff (t : Transmitter) :
    t.inserts = true ↔ t.insertPending = true ∧ t.recent = [.one, .one, .one] :=
  Bool.and_eq_true_iff.trans (and_congr_right fun _ => decide_eq_true_iff)

theorem transmit_eq (d : Device) (n : LaneNo) (st : Stamp) : d.transmit n st =
    if (d.lane n).tx.inserts then (d.modLane n (·.cellSent (d.nextCell n))).writeLane n st .insertDone 0
    else d.modLane n (·.cellSent (d.nextCell n)) := rfl

theorem capture_transmit (d : Device) (n : LaneNo) (st : Stamp) : (d.transmit n st).capture = d.capture := by
  rw [transmit_eq]; split <;> rfl

/-- A cell that an insertion replaces writes INSERT_DONE (07 R147). -/
theorem written_transmit (d : Device) (n : LaneNo) (st : Stamp) :
    d.written (d.transmit n st) = recordIf (d.lane n).tx.inserts ((d.lane n).writes n st .insertDone 0) := by
  rw [transmit_eq]
  cases (d.lane n).tx.inserts with
  | false => exact written_self d
  | true =>
    refine (written_writeLane (d.modLane n (·.cellSent (d.nextCell n))) n st _ _).trans ?_
    rw [lane_modLane_same]
    rfl

theorem exec_transmitCell_outside {n : LaneNo} {s : State} (hm : (s.dev.lane n).mode ≠ .test) :
    exec (.transmitCell n) s = .next s := by
  simp only [exec, execTransmitCell, onDevice_eq, if_neg hm]

/-- The device after its lane has sent a cell, the event settled. -/
def Device.sent (d : Device) (n : LaneNo) : Device := Device.settle d (d.transmit n d.now)

theorem exec_transmitCell {n : LaneNo} {s : State} (hm : (s.dev.lane n).mode = .test) :
    exec (.transmitCell n) s = .next (s.withDev (if (s.dev.lane n).page.loopback = .internal then
      Device.settle (s.dev.sent n) ((s.dev.sent n).takeCell n (s.dev.nextCell n) (s.dev.sent n).now) else s.dev.sent n)) := by
  simp only [exec, execTransmitCell, onDevice_eq, if_pos hm]
  rfl

section
variable (d : Device) (n : LaneNo)

theorem lane_sent : (d.sent n).lane n = (d.lane n).cellSent (d.nextCell n) :=
  (lane_settle _ _ _).trans (lane_transmit d n d.now)

theorem lane_sent_ne {m : LaneNo} (hm : m ≠ n) : (d.sent n).lane m = d.lane m :=
  (lane_settle _ _ _).trans ((Device.LaneStep.transmit n d d.now).lanes m hm)

theorem capture_sent : (d.sent n).capture = d.capture := (capture_settle _ _).trans (capture_transmit d n d.now)

theorem written_sent : d.written (d.sent n) = recordIf (d.lane n).tx.inserts ((d.lane n).writes n d.now .insertDone 0) :=
  (written_congr rfl (inFlight_settle _ _)).trans (written_transmit d n d.now)

theorem timebase_sent : (d.sent n).timebase = d.timebase :=
  (timebase_settle _ _).trans (Device.LaneStep.transmit n d d.now).timebase

theorem pattern_sent : (d.sent n).pattern = d.pattern :=
  (pattern_settle _ _).trans (Device.LaneStep.transmit n d d.now).pattern

/-- What TRANSMIT_CELL leaves of the device, however the cell is looped back: the other lanes, and the lane's mode and
transmitter (07 R138, R139). -/
theorem lane_transmitCell {t : Device} (h : t = if (d.lane n).page.loopback = .internal then
      Device.settle (d.sent n) ((d.sent n).takeCell n (d.nextCell n) (d.sent n).now) else d.sent n) :
    (∀ m, m ≠ n → t.lane m = d.lane m) ∧ (t.lane n).mode = (d.lane n).mode ∧
      (t.lane n).tx = ((d.lane n).cellSent (d.nextCell n)).tx := by
  subst h
  split
  · refine ⟨fun m hm => ?_, ?_, ?_⟩
    · rw [lane_settle, (Device.LaneStep.takeCell n _ _ _).lanes m hm, lane_sent_ne d n hm]
    · rw [lane_settle, lane_takeCell, Lane.mode_takeCell, lane_sent]; rfl
    · rw [lane_settle, lane_takeCell, Lane.tx_takeCell, lane_sent]
  · refine ⟨fun m hm => lane_sent_ne d n hm, ?_, ?_⟩
    · rw [lane_sent]; rfl
    · rw [lane_sent]

end

/-- Settles O37: the next cell and the transmitter after it, which the cell that loops back leaves alone. -/
theorem theTransmitterSendsThePattern : Obligations.TheTransmitterSendsThePattern := by
  intro n s l
  refine ⟨fun hm => ?_, fun hm => ?_⟩
  · have released : l.txe = false := decide_eq_false hm
    exact ⟨exec_transmitCell_outside hm, released, if_neg (Bool.eq_false_iff.1 released)⟩
  · intro reading a b bit inserts cell
    have inserting : decide inserts = l.tx.inserts :=
      Bool.eq_iff_iff.2 (decide_eq_true_iff.trans (Transmitter.inserts_iff l.tx).symm)
    have next : s.dev.nextCell n = cell := by
      change (if l.tx.inserts = true then Cell.violation else
        if (s.dev.pattern.inverted l.txReading).cell l.tx.position then .one else .zero) = cell
      rw [cell_inverted]
      exact if_congr (Transmitter.inserts_iff l.tx) rfl rfl
    have tx : (l.cellSent cell).tx = ⟨if inserts then false else l.tx.insertPending,
        if l.tx.position < 15 then l.tx.position + 1 else 0, reading, lastThree (l.tx.recent ++ [cell])⟩ := by
      have pending : (l.tx.insertPending && !l.tx.inserts) = if inserts then false else l.tx.insertPending := by
        rw [← inserting]
        by_cases h : inserts
        · rw [if_pos h, decide_eq_true h, Bool.not_true, Bool.and_false]
        · rw [if_neg h, decide_eq_false h, Bool.not_false, Bool.and_true]
      rw [Lane.cellSent, pending]
      rfl
    obtain ⟨others, mode, sent⟩ := lane_transmitCell s.dev n rfl
    refine ⟨_, exec_transmitCell hm, ?_⟩
    rw [next] at sent others mode ⊢
    obtain ⟨t, ht⟩ : ∃ t, t = if (s.dev.lane n).page.loopback = .internal then
      Device.settle (s.dev.sent n) ((s.dev.sent n).takeCell n cell (s.dev.sent n).now) else s.dev.sent n := ⟨_, rfl⟩
    rw [← ht] at sent others mode
    rw [dev_withDev, ← ht]
    have test : (t.lane n).mode = .test := mode.trans hm
    have lane : (s.dev.sent n).lane n = { l with tx := (t.lane n).tx } := by
      rw [lane_sent, next, sent]; rfl
    refine ⟨others, decide_eq_true hm, decide_eq_true test, Lane.txd_of_sent test (by rw [sent]; rfl), sent.trans tx,
      fun external => ?_, fun internal => ⟨s.dev.sent n, fun m => ?_, ?_, pattern_sent _ _, capture_sent _ _, ?_, ?_⟩⟩
    · have alone : t = s.dev.sent n := ht.trans (if_neg fun internal => Loopback.noConfusion (internal.symm.trans external))
      rw [alone] at lane ⊢
      exact ⟨lane, capture_sent _ _, inserting ▸ written_sent _ _⟩
    · split
      · next hm => subst hm; exact lane
      · next hm => exact lane_sent_ne _ _ hm
    · exact congrArg Timebase.stamp (timebase_sent s.dev n)
    · rw [inserting]; exact written_sent _ _
    · exact ht.trans (if_pos internal)

end Sys2Proof.Machine
end

