-- ==== Sys2Proof/Proofs/HandedBytes.lean ====
section
namespace Sys2Proof.Machine

open Sys2Proof

/-! ### The hand-off of a byte (01 R11, R12) -/

/-- The byte is a payload byte of a lane in LOCKED and its trigger byte (08 R153). -/
def Lane.comparesTo (l : Lane) (b : Byte) (payload : Bool) : Prop :=
  l.line = .locked ∧ payload = true ∧ l.page.triggerByte = some b

/-- Steps 3 and 4 of the hand-off: the byte goes to the FILLING capture, and the pending entry is one byte later (08 R154, R158). -/
def Device.byteFilled (d : Device) (n : LaneNo) (b : Byte) (st : Stamp) : Device :=
  { d.captureByte n b st with capture := (d.captureByte n b st).capture.later n }

/-- The end of the hand-off: the byte of a trigger that the unit takes goes no further (08 R154). -/
def handedOn (n : LaneNo) (b : Byte) (st : Stamp) (raised : Device × Bool) : Device :=
  if raised.2 then raised.1 else raised.1.byteFilled n b st

/-- The lane's comparison of the byte, as it stands in the hand-off. -/
def Lane.compares (l : Lane) (b : Byte) (payload : Bool) : Bool :=
  decide (l.line = .locked) && payload && decide (l.page.triggerByte = some b)

theorem Lane.compares_iff (l : Lane) (b : Byte) (payload : Bool) : l.compares b payload = true ↔ l.comparesTo b payload := by
  rw [Lane.compares, Bool.and_eq_true, Bool.and_eq_true, decide_eq_true_iff, decide_eq_true_iff, and_assoc]
  rfl

section
variable {d : Device} {n : LaneNo} {b : Byte} {payload : Bool} (st : Stamp)

/-- The byte joins the history before the lane compares it, which reads nothing of the history. -/
theorem handByte_eq : d.handByte n b payload st = handedOn n b st
    (if (d.lane n).compares b payload then (d.modLane n (·.handed b)).triggerOrMiss n .byte st
      else (d.modLane n (·.handed b), false)) := by
  have compares : (d.lane n).compares b payload = ((d.modLane n (·.handed b)).lane n).compares b payload := by
    rw [lane_modLane_same]; rfl
  rw [compares]
  rfl

theorem handByte_notCompared (h : ¬ (d.lane n).comparesTo b payload) :
    d.handByte n b payload st = (d.modLane n (·.handed b)).byteFilled n b st := by
  rw [handByte_eq, if_neg fun compared => h ((Lane.compares_iff _ _ _).1 compared)]
  rfl

theorem handByte_trigger (h : (d.lane n).comparesTo b payload) (idle : d.capture.busy n = false) :
    d.handByte n b payload st = Device.grantTest { d.modLane n (·.handed b) with
      capture := { d.capture with waiting := d.capture.waiting ++ [⟨n, .byte, st, 0⟩] } } := by
  have idle : ¬ (d.modLane n (·.handed b)).capture.busy n = true := Bool.eq_false_iff.1 idle
  rw [handByte_eq, if_pos ((Lane.compares_iff _ _ _).2 h), Device.triggerOrMiss, if_neg idle, Device.trigger, if_neg idle]
  rfl

/-- A trigger that the unit does not take is missed, and its byte goes on (08 R153). -/
theorem handByte_missed (h : (d.lane n).comparesTo b payload) (busy : d.capture.busy n = true) : d.handByte n b payload st =
    ((d.modLane n (·.handed b)).write ((d.lane n).writes n st .captureMissed 1)).byteFilled n b st := by
  have busy : (d.modLane n (·.handed b)).capture.busy n = true := busy
  rw [handByte_eq, if_pos ((Lane.compares_iff _ _ _).2 h), Device.triggerOrMiss, if_pos busy, Device.writeLane,
    laneRecord_eq_writes, lane_modLane_same]
  rfl

end

/-! ### The byte at the capture unit (08 R158, R159) -/

/-- An engine that a grant test leaves bound to a slot that was FULL before it was bound so before: a grant takes FREE slots. -/
theorem engines_grantTest_of_full (d : Device) {k : SlotNo} {c : Capture} (full : d.capture.slots[k.val] = .full c)
    (free : ∀ e : Fin 2, d.capture.engines[e.val] ≠ some k) (e : Fin 2) : d.grantTest.capture.engines[e.val] ≠ some k := by
  refine (grantTest_induction (P := fun x => x.capture.slots[k.val] = .full c ∧ ∀ e : Fin 2, x.capture.engines[e.val] ≠ some k)
    (fun x x' granted h => ⟨full_grantOne granted k c h.1, fun e bound => ?_⟩) d ⟨full, free⟩).2 e
  obtain ⟨slot, unbound⟩ := h
  obtain ⟨w, rest, e', j, x, -, -, hj, -, -, -, -, -, rfl⟩ := grantOne_cases granted
  dsimp only at bound
  rw [Vector.getElem_set] at bound
  split at bound
  · cases bound; rw [slot] at hj; cases hj
  · exact unbound e bound

theorem engines_ended (u : CaptureUnit) (k : SlotNo) (c : Capture) (e : Fin 2) : (u.ended k c).engines[e.val] ≠ some k := by
  have freed (x : Option SlotNo) : (if x = some k then none else x) ≠ some k := by
    split
    · exact nofun
    · assumption
  fin_cases e
  · exact freed _
  · exact freed _

section
variable {d : Device} {n : LaneNo} {k : SlotNo} {c : Capture}

/-- The end of a capture: its slot FULL and its engine free, whatever the grant test does then (08 R159, R160). -/
theorem endCapture_done (d : Device) (k : SlotNo) (c : Capture) (t : Bool) (st : Stamp) : let d' := d.endCapture k c t st
    d'.capture.slots[k.val] = .full { c with truncated := t } ∧
    d'.capture = (Device.grantTest { d with capture := d.capture.ended k { c with truncated := t } }).capture ∧
    d.written d' = [⟨st, .capture, .captureDone, captureDoneDetail k t, none⟩] ∧
    (∀ e : Fin 2, d'.capture.engines[e.val] ≠ some k) ∧ d'.lanes = d.lanes := by
  obtain ⟨x, hx⟩ : ∃ x, x = Device.writePlain { d with capture := d.capture.ended k { c with truncated := t } } .capture st
    .captureDone (captureDoneDetail k t) := ⟨_, rfl⟩
  have full : x.capture.slots[k.val] = .full { c with truncated := t } := by
    rw [hx]; exact (slot_set _ _ _ _).trans (if_pos rfl)
  intro d'
  have worked : d' = x.grantTest := by rw [hx]; exact endCapture_eq d k c t st
  rw [worked]
  refine ⟨full_grantTest x k _ full, ?_, ?_, engines_grantTest_of_full x full fun e => ?_, ?_⟩
  · exact capture_grantTest_congr (by rw [hx]; rfl) fun w _ => by rw [hx]; exact ⟨rfl, rfl, rfl⟩
  · refine (written_of_append (added := [⟨d.events, ⟨st, .capture, .captureDone, captureDoneDetail k t, none⟩, false, false⟩])
      ?_).trans rfl
    rw [inFlight_grantTest, hx]; rfl
  · rw [hx]; exact engines_ended d.capture k _ e
  · rw [lanes_grantTest, hx]; rfl

theorem captureByte_filling (hu : d.capture.Wf) (hk : d.capture.slots[k.val] = .filling c) (b : Byte) (st : Stamp) :
    d.captureByte c.lane b st =
      if c.data.length + 1 = c.pre + c.post then d.endCapture k { c with data := c.data ++ [b] } false st
      else { d with capture := d.capture.setSlot k (.filling { c with data := c.data ++ [b] }) } := by
  have filling : d.capture.fillingSlot c.lane = some k :=
    CaptureUnit.fillingSlot_eq hu ((CaptureUnit.fillsFor_iff _ _).2 ⟨c, hk, rfl⟩)
  obtain ⟨none, -⟩ | ⟨j, x, hj, hx, -, ran⟩ := captureByte_cases d c.lane b st
  · cases filling.symm.trans none
  · cases filling.symm.trans hj
    cases hk.symm.trans hx
    obtain ⟨-, -, -, preBytes, -⟩ : (Slot.filling c).sized := hk ▸ hu.sized k
    rw [ran]
    refine if_congr ?_ rfl rfl
    omega

end

/-- Settles O35: the hand-off by whether the byte is compared and whether a capture is in progress, and the byte at the unit by
whether it completes the capture. -/
theorem bytesAreHandedOn : Obligations.BytesAreHandedOn := by
  refine ⟨fun d n b payload st => ?_, fun d n b st => ⟨fun none => ?_, fun k c hu hk hn => ?_⟩⟩
  · intro l d' history kept compared
    refine ⟨lane_handByte d n st b payload, (Device.LaneStep.handByte n d b payload st).lanes, fun h idle => ?_, fun h => ?_⟩
    · exact handByte_trigger st h idle
    · intro missed filled
      by_cases hc : compared
      · have busy : d.capture.busy n = true := Bool.eq_true_of_not_eq_false fun idle => h ⟨hc, idle⟩
        have wrote : missed = (d.modLane n (·.handed b)).write ((d.lane n).writes n st .captureMissed 1) := if_pos hc
        refine (handByte_missed st hc busy).trans ?_
        rw [← wrote]
        rfl
      · have wroteNothing : missed = d.modLane n (·.handed b) := if_neg hc
        refine (handByte_notCompared st hc).trans ?_
        rw [← wroteNothing]
        rfl
  · rw [Device.captureByte, none]
  · subst hn
    intro d'
    have ran := captureByte_filling hu hk b st
    obtain ⟨truncated, -⟩ : (Slot.filling c).sized := hk ▸ hu.sized k
    refine ⟨fun short => ran.trans (if_neg short), fun complete => ?_⟩
    have ended : d' = d.endCapture k { c with data := c.data ++ [b] } false st := ran.trans (if_pos complete)
    have kept : ({ c with data := c.data ++ [b], truncated := false } : Capture) = { c with data := c.data ++ [b] } := by
      rw [← truncated]
    obtain ⟨full, unit, written, unbound, lanes⟩ := endCapture_done d k { c with data := c.data ++ [b] } false st
    rw [ended]
    dsimp only at full unit
    rw [kept] at full unit
    exact ⟨full, unit, written, fun e bound => absurd bound (unbound e), lanes⟩

end Sys2Proof.Machine
end

