-- ==== Sys2Proof/Proofs/FrameSync.lean ====
section
namespace Sys2Proof.Machine

open Sys2Proof

/-! ### Cells, bytes and the window (01 R7, R11) -/

theorem getLsbD_byteOfCells (cells : List Cell) (j : Fin 8) :
    (byteOfCells cells).getLsbD j.val = ((cells[j.val]?).map cellBit).getD false := by
  rw [byteOfCells, getLsbD_byteOfBits, List.getElem?_map]

/-- The window matches: its 16 cells are the bits of the sync word, oldest first (01 R7). -/
theorem windowMatches_iff (w : List Cell) (sync : SyncWord) : windowMatches w sync = true ↔
    w.length = 16 ∧ ∀ k : Fin 16, w[k.val]? = some (if sync.getLsbD k.val then .one else .zero) := by
  rw [windowMatches, Bool.and_eq_true, decide_eq_true_iff, List.all_eq_true]
  refine and_congr_right fun _ => ⟨fun all k => ?_, fun each k hk => decide_eq_true ?_⟩
  · exact of_decide_eq_true (all k.val (List.mem_range.2 k.isLt))
  · exact each ⟨k, List.mem_range.1 hk⟩

/-! ### A cell in HUNT (01 R8) -/

section
variable (d : Device) (n : LaneNo) (c : Cell) (st : Stamp)

/-- The device as its lane enters LOCKED, before the sync bytes are handed on. -/
def Device.lockEntered (d : Device) (n : LaneNo) (w : List Cell) : Device := d.modLane n (·.locked w)

theorem huntCell_unmatched (h : ¬ windowMatches (pushWindow (d.lane n).rx.window c) (d.lane n).page.syncWord = true) :
    d.huntCell n c st = d.modLane n fun l => { l with rx := { l.rx with
      window := pushWindow (d.lane n).rx.window c, candidate := (d.lane n).rx.candidate.map (· + 1) } } := if_neg h

theorem huntCell_candidate (h : windowMatches (pushWindow (d.lane n).rx.window c) (d.lane n).page.syncWord = true)
    (elsewhere : (d.lane n).rx.candidate.map (· + 1) ≠ some (d.lane n).page.frameCells) :
    d.huntCell n c st = d.modLane n fun l => { l with rx := { l.rx with
      window := pushWindow (d.lane n).rx.window c, candidate := some 0 } } := (if_pos h).trans (if_neg elsewhere)

theorem huntCell_locks (h : windowMatches (pushWindow (d.lane n).rx.window c) (d.lane n).page.syncWord = true)
    (there : (d.lane n).rx.candidate.map (· + 1) = some (d.lane n).page.frameCells) :
    d.huntCell n c st = ((d.lockEntered n (pushWindow (d.lane n).rx.window c)).handSyncBytes n
      (pushWindow (d.lane n).rx.window c) st).writeLane n st .laneLock 0 := (if_pos h).trans (if_pos there)

/-! ### The frame check (01 R9, R10) -/

/-- The loss of lock is a restart that keeps the rest of the receive side (01 R10). -/
theorem loseLock_eq : d.loseLock n st = d.restartedBy n true
    (fun l => { l with line := .hunt, rx := { l.rx with window := [], candidate := none } }) .laneUnlock st := rfl

/-- The device with one more mismatch in a row and its SLIP error counted (01 R9). -/
def Device.slipCounted (d : Device) (n : LaneNo) (st : Stamp) : Device :=
  (d.modLane n fun l => { l with rx := { l.rx with mismatches := l.rx.mismatches + 1 } }).countError n .slip st

theorem lane_slipCounted :
    (d.slipCounted n st).lane n = ((d.lane n).missed ((d.lane n).rx.mismatches + 1)).counting .slip := by
  rw [Device.slipCounted, lane_countError, lane_modLane_same]; rfl

theorem laneStep_slipCounted : Device.LaneStep n d (d.slipCounted n st) :=
  (Device.LaneStep.modLane n d _).trans (.countError n _ _ st)

theorem frameCheck_matched (h : windowMatches (d.lane n).rx.window (d.lane n).page.syncWord = true) :
    d.frameCheck n st = (d.modLane n fun l => { l with
      rx := { l.rx with mismatches := 0 }
      interval := l.interval.map fun iv => { iv with units := min (iv.units + 1) 65535 } }).handSyncBytes n
        (d.lane n).rx.window st := by
  refine (if_pos h).trans ?_
  rw [Device.countUnit, Device.modInterval, modLane_modLane]
  rfl

theorem frameCheck_missed (h : windowMatches (d.lane n).rx.window (d.lane n).page.syncWord = false) :
    d.frameCheck n st = if (d.lane n).rx.mismatches + 1 < 3 then (d.slipCounted n st).handSyncBytes n (d.lane n).rx.window st
      else (d.slipCounted n st).loseLock n st :=
  if_neg (Bool.eq_false_iff.1 h)

end

/-- Settles O34: HUNT by the window and the distance to the candidate, LOCKED by the place in the frame, the frame check by the
mismatches in a row. -/
theorem secondMatchLocksThirdMismatchUnlocks : Obligations.SecondMatchLocksThirdMismatchUnlocks := by
  refine ⟨getLsbD_byteOfCells, fun c => by cases c <;> rfl, fun d n c st => ?_, fun d n c st => ?_, fun d n st => ?_⟩
  · intro l window matched d'
    have matches_iff : windowMatches window l.page.syncWord = true ↔ matched := windowMatches_iff _ _
    refine ⟨fun unmatched => ?_, fun again elsewhere => ?_, fun second there => ?_⟩
    · rw [show d' = _ from huntCell_unmatched d n c st fun h => unmatched (matches_iff.1 h)]
      exact ⟨rfl, lane_modLane_same _ _ _⟩
    · rw [show d' = _ from huntCell_candidate d n c st (matches_iff.2 again) elsewhere]
      exact ⟨rfl, lane_modLane_same _ _ _⟩
    · intro locked handed
      have ran : d' = handed.writeLane n st .laneLock 0 := huntCell_locks d n c st (matches_iff.2 second) there
      have handedLane : handed.lane n = (l.locked window).syncHanded window := by
        refine (lane_handSyncBytes locked n st window).trans ?_
        rw [lane_modLane_same]; rfl
      have lane : d'.lane n = (l.locked window).syncHanded window := by rw [ran, lane_writeLane, handedLane]
      have written : d' = { handed with
          inFlight := handed.inFlight ++ [⟨handed.events, (handed.lane n).writes n st .laneLock 0, false, false⟩] } := ran
      rw [handedLane] at written
      rw [lane]
      exact ⟨rfl, rfl, rfl, rfl, written⟩
  · intro l position window moved
    exact ⟨byteOfCells (window.drop 8), fun j => by rw [getLsbD_byteOfCells, List.getElem?_drop], lockedCell_eq d n c st⟩
  · intro l d' missed
    have ran (h : windowMatches l.rx.window l.page.syncWord = false) : d' = _ := frameCheck_missed d n st h
    have missedLane : missed.lane n = (l.missed (l.rx.mismatches + 1)).counting .slip := lane_slipCounted d n st
    refine ⟨frameCheck_matched d n st, fun h again => ?_, fun h third => ?_⟩
    · have kept : d' = missed.handSyncBytes n l.rx.window st := (ran h).trans (if_pos again)
      have lane : d'.lane n = ((l.missed (l.rx.mismatches + 1)).counting .slip).syncHanded l.rx.window := by
        rw [kept, lane_handSyncBytes, missedLane]
      rw [lane, lane_countError]
      exact ⟨kept, rfl, rfl, rfl⟩
    · have lost : d' = missed.loseLock n st := (ran h).trans (if_neg (Nat.not_lt.2 third))
      have lane : d'.lane n = ((l.missed (l.rx.mismatches + 1)).counting .slip).lockLost := by
        rw [lost, lane_loseLock, missedLane]
      have capture : d'.capture = (missed.modLane n fun l => { l with history := [] }).truncatedCapture n := by
        rw [lost, loseLock_eq, capture_restartedBy]
      have records : d.written d' = d.written missed ++ missed.capture.truncatedRecords n st ++
          [(d'.lane n).writes n st .laneUnlock 0] := by
        have before : Device.LaneStep n d missed := laneStep_slipCounted d n st
        rw [lost, before.written_trans (.loseLock n _ st), loseLock_eq, written_restartedBy,
          ← List.append_assoc]
        rfl
      rw [lane] at records ⊢
      rw [lane_countError]
      exact ⟨rfl, rfl, rfl, rfl, rfl, rfl, capture, records⟩

end Sys2Proof.Machine
end

