-- ==== Sys2Proof/Proofs/ViolationRuns.lean ====
section
namespace Sys2Proof.Machine

open Sys2Proof

/-! ### The loss of the signal (01 R5, 07 R143) -/

/-- A lane's part of the loss of its signal (01 R5). -/
def Lane.noSignalEntered (l : Lane) : Lane :=
  { l with line := .noSignal, rx := l.rx.cleared, checker := if l.mode = .test then Checker.fresh else l.checker }

section
variable {d : Device} {n : LaneNo} (st : Stamp)

/-- A lane that was assembling loses its frame or pattern with the signal: a restart, with the record of the signal (01 R5, R14). -/
theorem loseSignal_assembling (h : (d.lane n).assembling = true) :
    d.loseSignal n st = (d.reportNoSignal n).restartedBy n true Lane.noSignalEntered .signalLost st := by
  unfold Device.loseSignal
  rw [h]
  rfl

theorem loseSignal_idle (h : (d.lane n).assembling = false) :
    d.loseSignal n st = ((d.reportNoSignal n).modLane n Lane.noSignalEntered).writeLane n st .signalLost 0 := by
  unfold Device.loseSignal
  rw [h]
  rfl

/-- What a lane's capture leaves at its end reads of the lane only its pages and which is live, its history being empty by then
(08 R157, R160). -/
theorem truncatedCapture_emptied_congr {d d' : Device} (unit : d.capture = d'.capture)
    (others : ∀ m, m ≠ n → d.lane m = d'.lane m) (live : (d.lane n).live = (d'.lane n).live)
    (pages : (d.lane n).pages = (d'.lane n).pages) :
    (d.modLane n fun l => { l with history := [] }).truncatedCapture n =
      (d'.modLane n fun l => { l with history := [] }).truncatedCapture n := by
  refine truncatedCapture_congr (d := d.modLane n _) (d' := d'.modLane n _) unit n fun _ _ w _ =>
    sameSizes_of_lane (n := n) (fun m hm => ?_) ?_ w.lane
  · rw [lane_modLane_ne _ _ hm, lane_modLane_ne _ _ hm, others m hm]
  · unfold Device.SameSizes
    rw [lane_modLane_same, lane_modLane_same]
    exact ⟨live, pages, rfl⟩

theorem capture_loseSignal : (d.loseSignal n st).capture =
    if (d.lane n).assembling then (d.modLane n fun l => { l with history := [] }).truncatedCapture n else d.capture := by
  cases h : (d.lane n).assembling with
  | true =>
    rw [loseSignal_assembling st h, capture_restartedBy]
    refine truncatedCapture_emptied_congr rfl (Device.LaneStep.reportNoSignal n d).lanes ?_ ?_
    · rw [Device.reportNoSignal, lane_modInterval_same]
    · rw [Device.reportNoSignal, lane_modInterval_same]
  | false => rw [loseSignal_idle st h]; rfl

theorem written_loseSignal : d.written (d.loseSignal n st) =
    (if (d.lane n).assembling then d.capture.truncatedRecords n st else []) ++
      [((d.loseSignal n st).lane n).writes n st .signalLost 0] := by
  cases h : (d.lane n).assembling with
  | true =>
    rw [loseSignal_assembling st h]
    exact written_restartedBy (d.reportNoSignal n) n true Lane.noSignalEntered .signalLost st
  | false =>
    rw [loseSignal_idle st h, lane_writeLane]
    exact written_writeLane ((d.reportNoSignal n).modLane n Lane.noSignalEntered) n st .signalLost 0

/-! ### The violation run (01 R4) -/

/-- The device with one more violation in its lane's run. -/
def Device.runLonger (d : Device) (n : LaneNo) : Device := d.modLane n Lane.runLonger

variable (d n) in
theorem runStep_longer (h : (d.lane n).rx.run < 65535) : d.runStep n .violation st =
    if (d.lane n).rx.run + 1 = (d.lane n).page.losThreshold then
      (if (d.lane n).idleDue then (d.runLonger n).countError n .idle st else d.runLonger n).loseSignal n st
    else if (d.lane n).idleDue then (d.runLonger n).countError n .idle st else d.runLonger n := if_pos h

theorem Lane.idleDue_iff (l : Lane) :
    l.idleDue = true ↔ l.rx.run + 1 = l.page.idleThreshold ∧ l.rx.idleCounted = false := by
  rw [Lane.idleDue, Bool.and_eq_true, decide_eq_true_iff, Bool.not_eq_true']

end

/-- Settles O33: the run by the cell and its length, and the loss of the signal, whose run counts no IDLE error. -/
theorem violationRunsReachTheirThresholds : Obligations.ViolationRunsReachTheirThresholds := by
  intro d n c st l d' idle longer
  have due : l.idleDue = decide idle := Bool.eq_iff_iff.2 ((Lane.idleDue_iff l).trans decide_eq_true_iff.symm)
  have grown : longer = d.runLonger n :=
    congrArg (fun b => d.modLane n fun l => { l with rx := { l.rx with run := l.rx.run + 1, idleCounted := l.rx.idleCounted || b } })
      due.symm
  refine ⟨fun valid => ?_, fun violation long => ?_, fun violation short below => ?_,
    fun iv violation short los order opened => ?_⟩
  · have ran : d' = d.modLane n fun l => { l with rx := { l.rx with run := 0, idleCounted := false } } := if_neg valid
    rw [ran]
    exact ⟨rfl, fun m hm => lane_modLane_ne _ _ hm, lane_modLane_same _ _ _⟩
  · exact (if_pos violation).trans (if_neg (Nat.not_lt.2 long))
  · subst violation
    rw [grown]
    exact ((runStep_longer d n st short).trans (if_neg below)).trans (if_congr ((Lane.idleDue_iff l)) rfl rfl)
  · subst violation
    have notDue : ¬ l.idleDue = true := fun h => by
      have reached := ((Lane.idleDue_iff l).1 h).1
      omega
    have ran : d' = (d.runLonger n).loseSignal n st := by
      refine ((runStep_longer d n st short).trans (if_pos los)).trans ?_
      rw [if_neg notDue]
    have longerLane : (d.runLonger n).lane n = l.runLonger := lane_modLane_same _ _ _
    have assembling : ((d.runLonger n).lane n).assembling = l.assembling := by rw [longerLane]; rfl
    have lane : d'.lane n = l.runLonger.signalLost := by rw [ran, lane_loseSignal, longerLane]
    have capture : d'.capture = if l.assembling then (d.modLane n fun l => { l with history := [] }).truncatedCapture n
        else d.capture := by
      have emptied := truncatedCapture_emptied_congr (d := d.runLonger n) (d' := d) (n := n) rfl
        (fun m hm => lane_modLane_ne _ _ hm) (by rw [longerLane]; rfl) (by rw [longerLane]; rfl)
      rw [ran, capture_loseSignal, assembling, emptied]
      rfl
    have records : d.written d' = (if l.assembling then d.capture.truncatedRecords n st else []) ++
        [(d'.lane n).writes n st .signalLost 0] := by
      have written := written_loseSignal (d := d.runLonger n) (n := n) st
      rw [assembling, ← ran] at written
      exact written
    rw [lane] at records ⊢
    refine ⟨rfl, rfl, rfl, rfl, ?_, fun test => ?_, capture, records⟩
    · exact congrArg (Option.map _) opened
    · have fresh : l.runLonger.signalLost.checker = Checker.fresh := if_pos test
      rw [fresh]
      exact ⟨rfl, rfl, rfl⟩

end Sys2Proof.Machine
end

