-- ==== Sys2Proof/Proofs/LevelMoves.lean ====
section
namespace Sys2Proof.Machine

open Sys2Proof

/-! ### Moves of one level (09 R168) -/

/-- A level that only rises rises once at most: it would have to fall before it rose again. -/
theorem length_le_one_of_rises {x y : Bool} {moves : List Bool} (h : movesFromTo x moves y) (rises : ∀ b ∈ moves, b = true) :
    moves.length ≤ 1 := by
  match moves with
  | [] => exact Nat.zero_le _
  | [_] => exact Nat.le_refl _
  | a :: b :: _ =>
    obtain ⟨-, falls, -⟩ := h
    rw [rises a List.mem_cons_self, rises b (List.mem_cons_of_mem _ List.mem_cons_self)] at falls
    exact absurd rfl falls

/-- The level seen is the one that the changes on their way lead from (09 R168). -/
theorem levelSeen_of_lead {d : Device} {c : CondNo} {x : Bool} (h : movesFromTo x (movesOf d.attention.changes c) (d.level c)) :
    d.levelSeen c = x := by
  unfold Device.levelSeen
  cases moves : movesOf d.attention.changes c with
  | nil => rw [moves] at h; exact h.symm
  | cons first rest =>
    rw [moves] at h
    exact Bool.not_eq_eq_eq_not.2 (Bool.eq_not_of_ne h.1)

/-- No condition is enabled, disabled or given another mode, and no latch is cleared. -/
def Device.LatchesKept (d d' : Device) : Prop :=
  ∀ c : CondNo, let x := d.attention.conditions[c.val]
    let x' := d'.attention.conditions[c.val]
    x'.enabled = x.enabled ∧ x'.mode = x.mode ∧ (x.latch = true → x'.latch = true)

theorem Device.LatchesKept.of_eq {d d' : Device} (h : d'.attention.conditions = d.attention.conditions) : d.LatchesKept d' := by
  intro c
  rw [h]
  exact ⟨rfl, rfl, id⟩

/-- New changes that lead on from the levels of the blocks leave the levels seen as they are, and so the unit follows. -/
theorem levelsFollowed_of_moves {d d' : Device} {moved : List LevelChange}
    (changes : d'.attention.changes = d.attention.changes ++ moved)
    (moves : ∀ i, movesFromTo (d.level i) (movesOf moved i) (d'.level i)) (latches : d.LatchesKept d')
    (h : d.LevelsFollowed) : d'.LevelsFollowed := by
  have lead (c : CondNo) : movesFromTo (d.levelSeen c) (movesOf d'.attention.changes c) (d'.level c) := by
    rw [changes, movesOf_append]
    exact movesFromTo_append (h.lead c) (moves c)
  have seen (c : CondNo) : d'.levelSeen c = d.levelSeen c := levelSeen_of_lead (lead c)
  refine ⟨fun c => seen c ▸ lead c, fun c => ?_⟩
  obtain ⟨enabled, mode, latch⟩ := latches c
  dsimp only
  rw [enabled, mode, seen]
  exact fun on level high => latch (h.latched c on level high)

/-! ### What a piece of work presents (09 R168) -/

/-- The moves that a piece of work may present of each level; it may always present none. -/
structure Allowed where
  of : CondNo → List Bool → Prop
  nil : ∀ i, of i []

namespace Allowed

/-- No level moves. -/
def silent : Allowed := ⟨fun _ moves => moves = [], fun _ => rfl⟩

/-- JOURNAL_LEVEL alone moves. -/
def level : Allowed := ⟨fun i moves => i ≠ 0 → moves = [], fun _ _ => rfl⟩

/-- The two levels of the journal alone move. -/
def journal : Allowed := ⟨fun i moves => i ≠ 0 → i ≠ 1 → moves = [], fun _ _ _ => rfl⟩

/-- Each level but JOURNAL_LEVEL moves once at most: one event. -/
def once : Allowed := ⟨fun i moves => i ≠ 0 → moves.length ≤ 1, fun _ _ => Nat.zero_le _⟩

/-- Each level but the journal's only rises. -/
def rising : Allowed := ⟨fun i moves => i ≠ 0 → i ≠ 1 → ∀ b ∈ moves, b = true, fun _ _ _ _ hb => absurd hb List.not_mem_nil⟩

end Allowed

/-- The work presents the moves of each level in order and nothing else, those of each level being allowed, and the attention unit
follows the levels after it where it did before. -/
structure Device.Presents (a : Allowed) (d d' : Device) : Prop where
  moves : ∃ moved, d'.attention.changes = d.attention.changes ++ moved ∧
    ∀ i, movesFromTo (d.level i) (movesOf moved i) (d'.level i) ∧ a.of i (movesOf moved i)
  followed : d.LevelsFollowed → d'.LevelsFollowed

namespace Device.Presents

variable {a b c : Allowed} {x y z : Device}

theorem of_moves {moved : List LevelChange} (changes : y.attention.changes = x.attention.changes ++ moved)
    (moves : ∀ i, movesFromTo (x.level i) (movesOf moved i) (y.level i)) (allowed : ∀ i, a.of i (movesOf moved i))
    (latches : x.LatchesKept y) : x.Presents a y :=
  ⟨⟨moved, changes, fun i => ⟨moves i, allowed i⟩⟩, levelsFollowed_of_moves changes moves latches⟩

/-- Work that moves no level. -/
theorem still (changes : y.attention.changes = x.attention.changes) (levels : ∀ i, y.level i = x.level i)
    (latches : x.LatchesKept y) : x.Presents a y :=
  of_moves (moved := []) (changes.trans (List.append_nil _).symm) (fun i => (levels i).symm) a.nil latches

/-- Work that comes neither to the attention unit nor to what the levels are read from. -/
theorem of_eq (attention : y.attention = x.attention) (levels : ∀ i, y.level i = x.level i) : x.Presents a y :=
  still (congrArg Attention.changes attention) levels (.of_eq (congrArg Attention.conditions attention))

theorem refl (x : Device) : x.Presents a x := of_eq rfl fun _ => rfl

theorem mono (h : x.Presents a y) (sub : ∀ i moves, (∃ p q, movesFromTo p moves q) → a.of i moves → b.of i moves) :
    x.Presents b y := by
  obtain ⟨moved, changes, moves⟩ := h.moves
  refine ⟨⟨moved, changes, fun i => ⟨(moves i).1, sub i _ ⟨_, _, (moves i).1⟩ (moves i).2⟩⟩, h.followed⟩

/-- What two pieces of work present, one after the other. -/
theorem append (h : x.Presents a y) (k : y.Presents b z)
    (both : ∀ i first second, a.of i first → b.of i second → c.of i (first ++ second)) : x.Presents c z := by
  obtain ⟨first, changes, moves⟩ := h.moves
  obtain ⟨second, changes', moves'⟩ := k.moves
  refine ⟨⟨first ++ second, by rw [changes', changes, List.append_assoc], fun i => ?_⟩, k.followed ∘ h.followed⟩
  rw [movesOf_append]
  exact ⟨movesFromTo_append (moves i).1 (moves' i).1, both i _ _ (moves i).2 (moves' i).2⟩

theorem before (h : x.Presents .silent y) (k : y.Presents a z) : x.Presents a z :=
  h.append k fun i first second none allowed => by
    obtain rfl : first = [] := none
    exact allowed

theorem after (h : x.Presents a y) (k : y.Presents .silent z) : x.Presents a z :=
  h.append k fun i first second allowed none => by
    obtain rfl : second = [] := none
    rw [List.append_nil]; exact allowed

/-! ### One event -/

/-- An event that is presented gives each level one move or none. -/
theorem present (h : y.attention = x.attention) (allowed : ∀ i, x.level i ≠ y.level i → a.of i [y.level i]) :
    x.Presents a (Device.present x y) := by
  refine of_moves (moved := changesBetween x y) ?_ (movesFromTo_changesBetween x y) (fun i => ?_) (.of_eq ?_)
  · rw [← h]; rfl
  · rw [movesOf_changesBetween]
    split
    · exact a.nil i
    · next moved => exact allowed i moved
  · rw [← h]; rfl

/-- The end of an event that came to the attention unit nowhere before. -/
theorem settle_of (h : y.attention = x.attention) (allowed : ∀ i, x.level i ≠ y.level i → a.of i [y.level i]) :
    x.Presents a (Device.settle x y) := by
  unfold Device.settle
  split
  · exact present h allowed
  · exact present (y := { y with events := y.events + 1 }) h allowed

theorem settle (h : y.attention = x.attention) : x.Presents .once (Device.settle x y) :=
  settle_of h fun _ _ _ => Nat.le_refl _

theorem rising_append {i : CondNo} {first second : List Bool} (h : Allowed.rising.of i first) (k : Allowed.rising.of i second) :
    Allowed.rising.of i (first ++ second) := fun h0 h1 b hb =>
  (List.mem_append.1 hb).elim (h h0 h1 b) (k h0 h1 b)

theorem trans_rising (h : x.Presents .rising y) (k : y.Presents .rising z) : x.Presents .rising z :=
  h.append k fun _ _ _ => rising_append

theorem journal_rising (h : x.Presents .journal y) : x.Presents .rising y :=
  h.mono fun i moves _ only h0 h1 b hb => by
    obtain rfl : moves = [] := only h0 h1
    exact absurd hb List.not_mem_nil

/-! ### The journal (04 R77, R81, R82, R88) -/

/-- What changes the journal alone moves the journal's levels alone. -/
theorem setJournal (d : Device) (j : Journal) (allowed : ∀ i : CondNo, i = 0 ∨ i = 1 ∧ d.journal.holdOff ≠ j.holdOff →
    a.of i [({ d with journal := j } : Device).level i]) : d.Presents a (d.setJournal j) := by
  refine present rfl fun i moved => allowed i ?_
  fin_cases i
  · exact .inl rfl
  · exact .inr ⟨rfl, moved⟩
  all_goals exact absurd rfl moved

theorem setJournal_journal (d : Device) (j : Journal) : d.Presents .journal (d.setJournal j) :=
  setJournal d j fun _ hi h0 h1 => hi.elim (absurd · h0) fun held => absurd held.1 h1

theorem setJournal_once (d : Device) (j : Journal) : d.Presents .once (d.setJournal j) :=
  setJournal d j fun _ _ _ => Nat.le_refl _

/-- A change that leaves the hold-off as it is moves JOURNAL_LEVEL alone. -/
theorem setJournal_level (d : Device) {j : Journal} (h : j.holdOff = d.journal.holdOff) : d.Presents .level (d.setJournal j) :=
  setJournal d j fun _ hi h0 => hi.elim (absurd · h0) fun held => absurd h.symm held.2

theorem level_append {i : CondNo} {first second : List Bool} (h : Allowed.level.of i first) (k : Allowed.level.of i second) :
    Allowed.level.of i (first ++ second) := fun h0 => by rw [h h0, k h0]; rfl

theorem trans_level (h : x.Presents .level y) (k : y.Presents .level z) : x.Presents .level z :=
  h.append k fun _ _ _ => level_append

theorem once_level (h : x.Presents .once y) (k : y.Presents .level z) : x.Presents .once z :=
  h.append k fun _ first second one none h0 => by rw [none h0, List.append_nil]; exact one h0

theorem level_once (h : x.Presents .level y) : x.Presents .once y :=
  h.mono fun _ moves _ none h0 => by rw [none h0]; exact Nat.zero_le _

theorem trans_journal (h : x.Presents .journal y) (k : y.Presents .journal z) : x.Presents .journal z :=
  h.append k fun _ first second none none' h0 h1 => by rw [none h0 h1, none' h0 h1]; rfl

/-- An arrival that makes room moves JOURNAL_LEVEL alone (04 R77). -/
theorem roomMade (d : Device) (r : Record) :
    d.Presents .level ((d.setJournal d.journal.giveUp).setJournal (d.journal.giveUp.append r)) :=
  trans_level (setJournal_level d (j := d.journal.giveUp) rfl) (setJournal_level _ (j := d.journal.giveUp.append r) rfl)

theorem recordArrives (d : Device) (r : Record) : d.Presents .once (d.recordArrives r) := by
  unfold Device.recordArrives
  split
  · exact level_once (roomMade d r)
  · exact setJournal_once d _

theorem recordArrives_journal (d : Device) (r : Record) : d.Presents .journal (d.recordArrives r) := by
  unfold Device.recordArrives
  split
  · exact trans_journal (setJournal_journal d _) (setJournal_journal _ _)
  · exact setJournal_journal d _

/-- Under WRAP no arrival begins or ends a hold-off (04 R77). -/
theorem recordArrives_wrap {d : Device} (h : d.journal.policy = .wrap) (r : Record) : d.Presents .level (d.recordArrives r) := by
  unfold Device.recordArrives
  split
  · exact roomMade d r
  · refine setJournal_level d ?_
    unfold Journal.arrive Journal.appendWrap
    rw [h]
    dsimp only
    split <;> rfl

/-- JOURNAL CONFIG ends a hold-off once at most (04 R82). -/
theorem configJournal (d : Device) (p : Policy) (threshold : Nat) : d.Presents .once (d.configJournal p threshold).1 := by
  have policy (d : Device) : d.Presents .once (d.setPolicy p) := by
    unfold Device.setPolicy
    dsimp only
    split
    · have resumed := recordArrives_wrap (d := d.setJournal { d.journal with policy := .wrap, holdOff := false }) rfl
        (Record.resumed (d.setJournal { d.journal with policy := .wrap, holdOff := false }).now d.journal.discards)
      exact once_level (once_level (setJournal_once d _) resumed) (setJournal_level _ rfl)
    · exact setJournal_once d _
  exact append (a := .level) (b := .once) (setJournal_level d (j := { d.journal with threshold := threshold }) rfl) (policy _)
    fun _ first second none one h0 => by rw [none h0]; exact one h0

theorem arriveFirst (d : Device) (first : Sent → Bool) : d.Presents .journal (d.arriveFirst first) := by
  have arrivals (sent : List Sent) (d : Device) :
      d.Presents .journal (sent.foldl (fun d x => d.recordArrives x.record) d) := by
    induction sent generalizing d with
    | nil => exact refl d
    | cons x rest ih => exact trans_journal (recordArrives_journal d x.record) (ih _)
  exact before (y := { d with inFlight := (splitSent first d.inFlight).2 }) (of_eq rfl fun _ => rfl) (arrivals _ _)

end Device.Presents

end Sys2Proof.Machine
end

