-- ==== Sys2Proof/Proofs/LevelsPresented.lean ====
section
namespace Sys2Proof.Machine

open Sys2Proof

/-! ### What an operation by its name moves at its lane (01 R14, R22) -/

/-- The lane keeps its state or is in the first state of its mode, and its latch is not cleared: its alarm and its latch can only
rise. -/
structure Lane.Raised (l l' : Lane) : Prop where
  state : l'.mode = l.mode ∧ l'.line = l.line ∨ l'.mode ≠ .off ∧ l'.line = l'.mode.firstLine
  latch : l.txFault = true → l'.txFault = true

namespace Lane

variable {l l' : Lane}

theorem Raised.alarm (h : l.Raised l') (raised : l.alarm = true) : l'.alarm = true := by
  obtain ⟨mode, line⟩ | ⟨on, line⟩ := h.state
  · have same : l'.alarm = l.alarm := by unfold Lane.alarm; rw [mode, line]
    exact same.trans raised
  · unfold Lane.alarm
    rw [line]
    revert on
    cases l'.mode <;> decide

theorem Raised.swappedAtClose (l : Lane) (reason : CloseReason) : l.Raised (l.swappedAtClose reason) := by
  have exchanged : l.Raised l.exchanged := ⟨.inl ⟨rfl, rfl⟩, id⟩
  have restarted (line : LineState) (lost : Bool) : (l.exchanged.restarted line lost).mode = l.mode ∧
      (l.exchanged.restarted line lost).txFault = l.txFault := by cases lost <;> exact ⟨rfl, rfl⟩
  unfold Lane.swappedAtClose
  split
  · exact exchanged
  · split
    · exact exchanged
    · next hm =>
      obtain ⟨mode, latch⟩ := restarted .hunt (decide (l.exchanged.line = .locked))
      refine ⟨.inr ?_, fun h => latch.trans h⟩
      rw [Lane.receiverRestarted, mode, hm]
      exact ⟨Mode.noConfusion, rfl⟩
    · next hm =>
      obtain ⟨mode, latch⟩ := restarted .search (decide (l.exchanged.line = .track))
      have mode : (l.exchanged.checkerRestarted (decide (l.page.bitRate ≠ l.exchanged.page.bitRate))).mode = .test :=
        mode.trans hm
      refine ⟨.inr ?_, fun h => latch.trans h⟩
      rw [mode]
      exact ⟨Mode.noConfusion, rfl⟩

theorem Raised.afterClose (l : Lane) (n : LaneNo) (reason : CloseReason) (stop start : Stamp) :
    l.Raised (l.afterClose n reason stop start) := by
  unfold Lane.afterClose
  split
  · exact ⟨.inl ⟨rfl, rfl⟩, id⟩
  · next iv _ =>
    split
    · obtain ⟨state, latch⟩ := Raised.swappedAtClose (l.intervalClosed n iv reason stop start) reason
      exact ⟨state, latch⟩
    · exact ⟨.inl ⟨rfl, rfl⟩, id⟩

theorem txFault_modeClosed (l : Lane) (n : LaneNo) (reason : CloseReason) (st : Stamp) :
    (l.modeClosed n reason st).txFault = l.txFault := by
  unfold Lane.modeClosed; split <;> rfl

/-- A change of mode that clears no latch. -/
theorem Raised.enter (l : Lane) (n : LaneNo) (reason : CloseReason) (st : Stamp) {m : Mode} (on : m ≠ .off) :
    l.Raised ((l.modeClosed n reason st).enter m) :=
  ⟨.inr ⟨on, rfl⟩, fun h => (txFault_modeClosed l n reason st).trans h⟩

theorem Raised.testEnded (l : Lane) (n : LaneNo) (st : Stamp) : l.Raised (l.testEnded n st) := by
  have entered : l.Raised ((l.modeClosed n .testStop st).enter .monitor) := .enter l n _ st (by decide)
  unfold Lane.testEnded
  split
  · exact ⟨.inr ⟨Mode.noConfusion, rfl⟩, entered.latch⟩
  · exact entered

/-- The test that finds TXFn low ends at once, in the first state of MONITOR (01 R22). -/
theorem Raised.testBegun (l : Lane) (n : LaneNo) (st : Stamp) : l.Raised (l.testBegun n st) := by
  have entered : l.Raised ((l.modeClosed n .testStart st).enter .test) := .enter l n _ st (by decide)
  unfold Lane.testBegun
  split
  · exact entered
  · have faulted := Raised.testEnded { (l.modeClosed n .testStart st).enter .test with txFault := true } n st
    refine ⟨.inr ⟨?_, ?_⟩, fun _ => faulted.latch rfl⟩
    · rw [Lane.faultTaken, mode_testEnded]; decide
    · unfold Lane.faultTaken Lane.testEnded
      split <;> rfl

/-- An operation by its name clears neither an alarm nor a latch: only LANE STOP does (01 R15, R22). -/
theorem Raised.afterAction (l : Lane) (a : LaneAction) (n : LaneNo) (o : Origin) (st : Stamp) :
    l.Raised (l.afterAction a n o st) := by
  have same : l.Raised l := ⟨.inl ⟨rfl, rfl⟩, id⟩
  unfold Lane.afterAction
  split
  · exact same
  · exact .afterClose l n _ st st
  · exact ⟨.inl ⟨rfl, rfl⟩, id⟩
  · exact ⟨.inl ⟨rfl, rfl⟩, id⟩
  · split
    · exact same
    · exact .testBegun l n st
  · exact same
  · exact .testEnded l n st
  · exact same
  · exact ⟨.inl ⟨rfl, rfl⟩, id⟩
  · exact same
  · exact same

end Lane

/-- Of the levels that are not the journal's, an operation at a lane moves only the lane's alarm, TX_FAULT and CAPTURE_READY, and
those only up (08 R164). -/
theorem level_laneAction_rises (d : Device) (n : LaneNo) (a : LaneAction) (o : Origin) (st : Stamp) {i : CondNo} (h0 : i ≠ 0)
    (h1 : i ≠ 1) (high : d.level i = true) : (d.laneAction a n o st).1.level i = true := by
  have step := Device.LaneStep.laneAction n d a o st
  have raised (m : LaneNo) : (d.lane m).Raised ((d.laneAction a n o st).1.lane m) := by
    by_cases hm : m = n
    · subst hm; rw [lane_laneAction]; exact .afterAction _ a m o st
    · rw [step.lanes m hm]; exact ⟨.inl ⟨rfl, rfl⟩, id⟩
  have alarm (m : LaneNo) (h : i = alarmCond m) : (d.laneAction a n o st).1.level i = true := by
    subst h
    rw [level_alarmCond] at high ⊢
    exact (raised m).alarm high
  fin_cases i
  · exact absurd rfl h0
  · exact absurd rfl h1
  · obtain ⟨k, c, full⟩ := (CaptureUnit.ready_iff _).1 high
    exact (CaptureUnit.ready_iff _).2 ⟨k, c, (Device.CaptureStep.laneAction n d a o st).full k c full⟩
  · exact alarm 0 rfl
  · exact alarm 1 rfl
  · exact alarm 2 rfl
  · exact alarm 3 rfl
  · obtain ⟨m, latched⟩ := (level_txFault d).1 high
    exact (level_txFault _).2 ⟨m, (raised m).latch latched⟩
  · exact (congrArg Timebase.clockLevel step.timebase).trans high
  · exact high

/-- The levels are read from the lanes, the capture unit, the journal and the timebase. -/
theorem level_of_inner {x y : Device} (h : y.inner = x.inner) (i : CondNo) : y.level i = x.level i := by
  simp only [Device.inner, Prod.mk.injEq] at h
  obtain ⟨lanes, capture, journal, timebase, -⟩ := h
  unfold Device.level Device.lane
  rw [lanes, capture, journal, timebase]

namespace Device.Presents

variable {a : Allowed} {x y : Device}

theorem of_inner (h : y.inner = x.inner) : x.Presents a y := by
  have attention : y.attention = x.attention := by
    simp only [Device.inner, Prod.mk.injEq] at h
    obtain ⟨-, -, -, -, attention⟩ := h
    exact attention
  exact of_eq attention (level_of_inner h)

theorem modLane (d : Device) (n : LaneNo) {f : Lane → Lane} (alarm : (f (d.lane n)).alarm = (d.lane n).alarm)
    (latch : (f (d.lane n)).txFault = (d.lane n).txFault) : d.Presents a (d.modLane n f) := by
  refine of_eq rfl fun i =>
    (level_eq_of_lanes (a := d) (b := d.modLane n f) (fun m => ?_) (fun m => ?_) rfl rfl rfl i).symm
  all_goals
    rw [lane_modLane]
    split
    · next hm => subst hm; assumption
    · rfl

/-! ### The table's work (06 R122, R128) -/

theorem noteRefusal (d : Device) (e : EntryNo) (place target : Nat) (st : Stamp) (status : Status) :
    (d.noteRefusal e place target st status).inner = d.inner := by
  unfold Device.noteRefusal
  split <;> rfl

theorem noteFire (d : Device) (e : EntryNo) (st : Stamp) : (d.noteFire e st).inner = d.inner := by
  unfold Device.noteFire
  repeat' split
  all_goals rfl

theorem tableOp (d : Device) (st : Stamp) (op : TableOp) (rest : List TableOp) : d.Presents .rising (d.tableOp st op rest).1 := by
  cases op with
  | turn e =>
    simp only [Device.tableOp]
    split
    · exact of_inner (noteFire (d.setEntry e (d.entry e).settled) e st)
    · exact refl d
  | onLane e place a n =>
    have noted := noteRefusal (d.laneAction a n .schedule st).1 e place n.val st (d.laneAction a n .schedule st).2
    refine present ?_ fun i moved h0 h1 b hb => ?_
    · simp only [Device.inner, Prod.mk.injEq] at noted
      obtain ⟨-, -, -, -, attention⟩ := noted
      exact attention.trans (Device.LaneStep.laneAction n d a .schedule st).attention
    · rw [level_of_inner noted] at moved hb
      rw [List.mem_singleton.1 hb]
      cases low : d.level i with
      | true => exact level_laneAction_rises d n a .schedule st h0 h1 low
      | false => rw [low] at moved; exact (Bool.eq_true_of_not_eq_false fun e => moved e.symm)
  | mark e tag =>
    exact journal_rising (trans_journal (arriveFirst d _) (recordArrives_journal _ _))
  | arm e place target => exact of_inner (noteRefusal (d.setEntry target _) e place target.val st _)
  | disarm e place target => exact of_inner (noteRefusal (d.setEntry target _) e place target.val st _)

theorem tableOps (st : Stamp) (k : Nat) (d : Device) (ops : List TableOp) :
    d.Presents .rising (Device.tableOps st k d ops).1 := by
  induction k generalizing d ops with
  | zero => exact refl d
  | succ k ih =>
    cases ops with
    | nil => exact refl d
    | cons op rest => exact trans_rising (tableOp d st op rest) (ih _ _)

theorem runTable (d : Device) (share : Option Nat) : d.Presents .rising (d.runTable share) := by
  unfold Device.runTable
  split
  · exact refl d
  · next w _ =>
    have worked := tableOps w.stamp (share.getD (d.stepsLeft w.ops)) { d with events := w.event } w.ops
    exact before (y := { d with events := w.event }) (of_inner rfl) (worked.after (of_inner (by rfl)))

theorem tableEvent (d : Device) (share : Option Nat) {take : Device → Option Device}
    (h : ∀ d', take d = some d' → d'.inner = d.inner) : d.Presents .rising (d.tableEvent share take) := by
  unfold Device.tableEvent
  split
  · exact runTable d share
  · split
    · exact refl d
    · next d' hd => exact before (of_inner (h d' hd)) (runTable d' share)

theorem expire (d : Device) (e : EntryNo) : d.Presents .rising (d.expire e) := by
  unfold Device.expire
  repeat' split
  · exact runTable d _
  all_goals exact refl d

theorem entryRequest {take : EntryNo → Device → Device × Answer} (h : ∀ e (d : Device), (take e d).1.inner = d.inner)
    (params : List Byte) (d : Device) : d.Presents .rising (entryRequest params take d).1 := by
  unfold Machine.entryRequest
  repeat' split
  · exact (runTable d none).after (of_inner (h _ _))
  all_goals exact refl d

end Device.Presents

theorem inner_beginEvent (d : Device) (ev : TableEvent) (st : Stamp) : (d.beginEvent ev st).inner = d.inner := by
  unfold Device.beginEvent
  dsimp only
  split <;> rfl

theorem inner_takeSecond {d d' : Device} (h : d.takeSecond = some d') : d'.inner = d.inner := by
  unfold Device.takeSecond at h
  split at h <;> cases h
  exact inner_beginEvent _ _ _

theorem inner_takeMinute {d d' : Device} (h : d.takeMinute = some d') : d'.inner = d.inner := by
  unfold Device.takeMinute at h
  split at h <;> cases h
  exact inner_beginEvent _ _ _

theorem inner_takeFine {d d' : Device} (h : d.takeFine = some d') : d'.inner = d.inner := by
  unfold Device.takeFine at h
  split at h <;> cases h
  exact inner_beginEvent _ _ _

theorem inner_takeEdge {d d' : Device} (p : Pin) (h : d.takeEdge p = some d') : d'.inner = d.inner := by
  unfold Device.takeEdge at h
  split at h <;> cases h
  exact inner_beginEvent _ _ _

theorem inner_moveEntry (f : Entry → Entry × Status) (e : EntryNo) (d : Device) : (moveEntry f e d).1.inner = d.inner := by
  unfold moveEntry
  dsimp only
  split <;> rfl

theorem inner_defineEntry (d : Device) (e : EntryNo) (df : Definition) : (d.defineEntry e df).1.inner = d.inner := by
  unfold Device.defineEntry
  split <;> rfl

end Sys2Proof.Machine
end

