-- ==== Sys2Proof/Proofs/EventLevels.lean ====
section
namespace Sys2Proof.Machine

open Sys2Proof

/-! ### Requests and resets (09 R169, 10 R178, R180) -/

/-- A port error sets PORT_ERROR's latch or none (09 R169). -/
theorem latchesKept_portError (d : Device) : d.LatchesKept d.portError := by
  intro c
  have latched : d.portError.attention.conditions[c.val] = if portErrorCond.val = c.val then
      (d.attention.conditions[portErrorCond.val]).event else d.attention.conditions[c.val] :=
    Vector.getElem_set portErrorCond.isLt c.isLt
  dsimp only
  rw [latched]
  split
  · next same =>
    obtain rfl : portErrorCond = c := Fin.ext same
    exact ⟨rfl, rfl, fun latch => Bool.or_eq_true_iff.2 (.inl latch)⟩
  · exact ⟨rfl, rfl, id⟩

/-- The unit follows the levels after an ATTENTION, which latches anew what it sees high in LEVEL mode (09 R171). -/
theorem levelsFollowed_attend (d : Device) (clear : Nat) (h : d.LevelsFollowed) : (d.attend clear).1.LevelsFollowed := by
  refine ⟨h.lead, fun c => ?_⟩
  have served : (d.attend clear).1.attention.conditions[c.val] = (d.attention.conditions[c.val]).serve (clear.testBit c.val)
      (d.levelTaken c) := conditions_each d.attention _ c
  dsimp only
  rw [served, levelTaken_eq_levelSeen]
  intro enabled mode high
  have enabled : (d.attention.conditions[c.val]).enabled = true := enabled
  have mode : (d.attention.conditions[c.val]).mode = .level := mode
  have high : d.levelSeen c = true := high
  rw [Condition.serve, enabled, mode, high]
  exact Bool.or_true _

theorem levelsFollowed_configAttention (d : Device) (enables modes : Nat) (h : d.LevelsFollowed) :
    (d.configAttention enables modes).LevelsFollowed := by
  refine ⟨h.lead, fun c => ?_⟩
  have configured : (d.configAttention enables modes).attention.conditions[c.val] =
      (d.attention.conditions[c.val]).configure (enables.testBit c.val) (modeIn modes c) (d.levelTaken c) :=
    conditions_each d.attention _ c
  dsimp only
  rw [configured, levelTaken_eq_levelSeen]
  intro enabled mode high
  have enabled : enables.testBit c.val = true := enabled
  have mode : modeIn modes c = .level := mode
  have high : d.levelSeen c = true := high
  rw [Condition.configure, enabled, mode, high]
  exact Bool.or_true _

namespace Device.Presents

variable {a : Allowed}

theorem discardFrame (d : Device) : d.Presents a d.discardFrame := still rfl (fun _ => rfl) (latchesKept_portError d.frameEnds)

theorem request {own : Device → Device × Answer} {d : Device} (code tag : Byte)
    (h : d.frameEnds.Presents a (own d.frameEnds).1) : d.Presents a (d.request code tag own) := by
  unfold Device.request
  split
  · exact discardFrame d
  · exact before (y := d.frameEnds) (of_inner rfl) (h.after (of_inner (by rfl)))

/-- A request that is one event, and comes to the attention unit at its end alone. -/
theorem asRequest {own : Device → Device × Answer} {d : Device} (h : (own d).1.attention = d.attention) :
    d.Presents .once (asRequest own d).1 := (settle h).after (of_inner (by rfl))

end Device.Presents

/-! ### Work that comes to the attention unit at its end alone -/

theorem attention_maskRequest {f : LaneNo → Device → Device × Status} (h : ∀ n d, Device.LaneStep n d (f n d).1) (mask : Byte)
    (d : Device) : (Device.maskRequest f mask d).1.attention = d.attention := by
  have fold (ns : List LaneNo) (d : Device) : (Device.onLanes f ns d).1.attention = d.attention := by
    induction ns generalizing d with
    | nil => rfl
    | cons n ns ih => exact (ih _).trans (h n d).attention
  unfold Device.maskRequest
  split
  · exact fold _ d
  · rfl

theorem attention_maskOnly (a : LaneAction) (params : List Byte) (d : Device) : (maskOnly a params d).1.attention = d.attention := by
  unfold maskOnly
  split
  · exact attention_maskRequest (fun n d => .laneAction n d a .host d.now) _ d
  · rfl

theorem attention_laneRequest {take : LaneNo → Device → Device × Answer} (params : List Byte) (d : Device)
    (h : ∀ n, Device.LaneStep n d (take n d).1) : (laneRequest params take d).1.attention = d.attention := by
  unfold laneRequest
  repeat' split
  · exact (h _).attention
  all_goals rfl

theorem attention_setTime (d : Device) (x : Setting) : (d.setTime x).attention = d.attention := by
  have whole := setTime_onto d d x
  rw [show d.onto d = d from rfl] at whole
  rw [whole]
  rfl

theorem attention_setRun (d : Device) (r : RunState) (k : Kind) : (d.setRun r k).attention = d.attention := by
  unfold Device.setRun
  split <;> rfl

/-! ### The owners of the requests (10 R183) -/

/-- The requests in which several records may arrive: those to the table, whose fires may hold MARK actions, and JOURNAL MARK
(04 R87, 06 R129). -/
def severalCodes : List Byte := [0x30#8, 0x31#8, 0x32#8, 0x33#8, 0x34#8, 0x35#8, 0x36#8, 0x43#8]

/-- What the request of a code may present. -/
def Allowed.ofCode (code : Byte) : Allowed := if severalCodes.contains code then .rising else .once

namespace Device.Presents

section
variable (params : List Byte) (d : Device)

theorem ownAttention : d.Presents .once (ownAttention params d).1 := by
  unfold Machine.ownAttention
  repeat' split
  · exact ⟨⟨[], (List.append_nil _).symm, fun i => ⟨rfl, Allowed.once.nil i⟩⟩, levelsFollowed_attend d _⟩
  all_goals exact refl d

theorem ownAttentionConfig : d.Presents .once (ownAttentionConfig params d).1 := by
  unfold Machine.ownAttentionConfig
  repeat' split
  · exact ⟨⟨[], (List.append_nil _).symm, fun i => ⟨rfl, Allowed.once.nil i⟩⟩, levelsFollowed_configAttention d _ _⟩
  all_goals exact refl d

theorem ownTimeSet : d.Presents .once (ownTimeSet params d).1 := by
  unfold Machine.ownTimeSet
  apply asRequest
  repeat' split
  · rfl
  · rfl
  · exact attention_setTime d _
  · rfl

theorem ownTimeStop : d.Presents .once (ownTimeStop params d).1 := by
  unfold Machine.ownTimeStop
  apply asRequest
  split
  · exact attention_setRun d _ _
  · rfl

theorem ownTimeRun : d.Presents .once (ownTimeRun params d).1 := by
  unfold Machine.ownTimeRun
  apply asRequest
  split
  · exact attention_setRun d _ _
  · rfl

/-- A profile or its reading moves no level (02 R31). -/
theorem ownProfileSet : d.Presents .once (ownProfileSet params d).1 := by
  have set (n : LaneNo) (p : Profile) : d.Presents .once (d.setProfile n p).1 := by
    unfold Device.setProfile
    split
    · exact refl d
    · exact modLane d n (f := fun l => { l with pages := l.pages.set l.idle.val p }) rfl rfl
  unfold Machine.ownProfileSet
  repeat' split
  · exact set _ _
  all_goals exact refl d

theorem ownPageSwap : d.Presents .once (ownPageSwap params d).1 := by
  unfold Machine.ownPageSwap
  apply asRequest
  repeat' split
  · exact attention_maskRequest (fun n d => .armSwap n d d.now) _ d
  · exact attention_maskRequest (fun n d => .cancelSwap n d) _ d
  all_goals rfl

theorem ownIntervalTake : d.Presents .once (ownIntervalTake params d).1 := by
  have taken (n : LaneNo) (count : Nat) : d.Presents .once (d.takeIntervals n count).1 :=
    modLane d n (f := fun l => { l with ring := l.ring.drop count }) rfl rfl
  unfold Machine.ownIntervalTake
  repeat' split
  · exact taken _ _
  all_goals exact refl d

theorem ownEntrySet : d.Presents .rising (ownEntrySet params d).1 := by
  unfold Machine.ownEntrySet
  repeat' split
  · exact (runTable d none).after (of_inner (inner_defineEntry _ _ _))
  all_goals exact refl d

theorem ownJournalTake : d.Presents .once (ownJournalTake params d).1 := by
  unfold Machine.ownJournalTake asEvent
  apply settle
  repeat' split
  all_goals rfl

theorem ownJournalConfig : d.Presents .once (ownJournalConfig params d).1 := by
  unfold Machine.ownJournalConfig
  repeat' split
  · exact configJournal d _ _
  all_goals exact refl d

theorem ownJournalMark : d.Presents .rising (ownJournalMark params d).1 := by
  unfold Machine.ownJournalMark
  split
  · exact journal_rising (trans_journal (arriveFirst d _) (recordArrives_journal _ _))
  · exact refl d

theorem ownCaptureTake : d.Presents .once (ownCaptureTake params d).1 := by
  unfold Machine.ownCaptureTake
  apply asRequest
  repeat' split
  · unfold Device.takeCapture
    split
    · exact (Device.LaneStep.grantTest 0 _).attention
    all_goals rfl
  all_goals rfl

end

theorem owner : ∀ p ∈ requestOwners, ∀ (params : List Byte) (d : Device), d.Presents (.ofCode p.1) (p.2 params d).1 := by
  intro p hp params d
  have passes {own : List Byte → Device → Device × Answer} (h : own ∈ outerOwners) : d.Presents .once (own params d).1 :=
    of_inner (inner_outerOwner h params d)
  simp only [requestOwners, List.mem_append, List.mem_cons, List.not_mem_nil, or_false] at hp
  obtain ((device | lane) | table) | rest := hp
  · obtain rfl | rfl | rfl | rfl | rfl | rfl | rfl | rfl | rfl | rfl | rfl := device
    · exact passes (by simp [outerOwners])
    · exact passes (by simp [outerOwners])
    · exact ownAttention params d
    · exact ownAttentionConfig params d
    iterate 4 exact passes (by simp [outerOwners])
    · exact ownTimeSet params d
    · exact ownTimeStop params d
    · exact ownTimeRun params d
  · obtain rfl | rfl | rfl | rfl | rfl | rfl | rfl | rfl | rfl | rfl | rfl := lane
    · exact asRequest (attention_laneRequest params d fun n => .startLane n d _)
    · exact asRequest (attention_laneRequest params d fun n => .stopLane n d _)
    · exact passes (by simp [outerOwners])
    · exact ownProfileSet params d
    · exact passes (by simp [outerOwners])
    · exact ownPageSwap params d
    · exact asRequest (attention_maskOnly .close params d)
    · exact ownIntervalTake params d
    · exact asRequest (attention_maskOnly .testStart params d)
    · exact asRequest (attention_maskOnly .testStop params d)
    · exact asRequest (attention_maskOnly .insert params d)
  · obtain rfl | rfl | rfl | rfl | rfl | rfl | rfl := table
    · exact ownEntrySet params d
    · exact entryRequest (fun _ _ => rfl) params d
    all_goals exact entryRequest (inner_moveEntry _) params d
  · obtain rfl | rfl | rfl | rfl | rfl | rfl | rfl | rfl := rest
    · exact ownJournalTake params d
    · exact passes (by simp [outerOwners])
    · exact ownJournalConfig params d
    · exact ownJournalMark params d
    · exact asRequest (attention_maskOnly .capture params d)
    · exact passes (by simp [outerOwners])
    · exact ownCaptureTake params d
    · exact asRequest (attention_laneRequest params d fun n => laneStep_abortCapture d n)

theorem requestOwner (code : Byte) (params : List Byte) (d : Device) :
    d.Presents (.ofCode code) (requestOwner code params d).1 := by
  unfold Machine.requestOwner
  cases h : requestOwners.lookup code with
  | none => exact refl d
  | some own =>
    obtain ⟨before, after, owners, -⟩ := List.lookup_eq_some_iff.1 h
    exact owner (code, own) (by rw [owners]; simp) params d

end Device.Presents

end Sys2Proof.Machine
end

