-- ==== Sys2Proof/Proofs/LevelChanges.lean ====
section
namespace Sys2Proof.Machine

open Sys2Proof

/-! ### Ticks, samples and the oscillator (05 R92, R93, R107, R108) -/

/-- The carry of the calendar leaves the validity of the time alone (05 R94). -/
theorem clockLevel_carrySecond (t : Timebase) : t.carrySecond.1.clockLevel = t.clockLevel := by
  unfold Timebase.carrySecond Timebase.carryMinute
  repeat' split
  all_goals rfl

/-- A change of the timebase that leaves the validity of the time alone moves no level. -/
theorem level_withTimebase {d : Device} {t : Timebase} (h : t.clockLevel = d.timebase.clockLevel) (i : CondNo) :
    (d.withTimebase t).level i = d.level i := by
  fin_cases i
  iterate 8 exact rfl
  · exact h
  · rfl

namespace Device.Presents

variable {a : Allowed}

theorem withTimebase {d : Device} {t : Timebase} (h : t.clockLevel = d.timebase.clockLevel) : d.Presents a (d.withTimebase t) :=
  of_eq rfl (level_withTimebase h)

/-- A second that is delivered waits at the lanes and at the table; no level is read from it (05 R93). -/
theorem deliver (d : Device) (minute : Bool) : d.Presents a (d.deliver minute) := by
  refine of_eq rfl fun i => (level_eq_of_lanes (a := d) (b := d.deliver minute) (fun m => ?_) (fun m => ?_) rfl rfl rfl i).symm
  all_goals rw [lane_deliver]
  rfl

theorem fineTick (d : Device) : d.Presents a d.fineTick := by
  have ticked : d.Presents .silent d.deliverTick := of_eq rfl (level_withTimebase (t := d.deliverTick.timebase) rfl)
  cases fault : d.timebase.oscFault with
  | true => rw [fineTick_fault fault]; exact refl d
  | false =>
    cases run : d.timebase.run with
    | stopped => rw [fineTick_stopped fault run]; exact ticked.before (refl _)
    | running =>
      refine ticked.before ?_
      by_cases within : d.timebase.fraction < 1023
      · rw [fineTick_within fault run within]
        exact withTimebase (t := { d.deliverTick.timebase with fraction := d.timebase.fraction + 1 }) rfl
      · rw [fineTick_second fault run (Nat.not_lt.1 within)]
        have carried := clockLevel_carrySecond { d.deliverTick.timebase with fraction := 0 }
        exact before (y := d.deliverTick.withTimebase _) (withTimebase carried) (deliver _ _)

end Device.Presents

/-! ### Every command -/

/-- What a command may present: JOURNAL_LEVEL alone may move more than once, and JOURNAL_HELD where several records may arrive. -/
def Allowed.ofCommand (c : Instr) : Allowed :=
  ⟨fun i moves => i ≠ 0 → i ≠ 1 ∨ c.severalArrive = false → moves.length ≤ 1, fun _ _ _ => Nat.zero_le _⟩

/-- The commands that carry out a reset, or take a change off the list. -/
def presentsNothing (c : Instr) (d : Device) : Prop :=
  match c with
  | .powerOnReset _ _ | .resetPin _ _ | .conditionChange _ => True
  | .resetTakesEffect | .replySent => ∃ r, d.port.reply = some r ∧ r.isReset = true
  | _ => False

/-- A request is idle or runs its owner; several records arrive in it where its code says so. -/
theorem exec_of_request_arrivals {c : Instr} {code tag : Byte} {params : List Byte} (h : c.request? = some (code, tag, params))
    (s : State) : exec c s = .next s ∨ c.severalArrive = severalCodes.contains code ∧
      exec c s = s.onDevice fun d => d.request code tag (requestOwner code params) := by
  obtain idle | ran := exec_of_request? h s
  · exact .inl idle
  · cases c with
    | unknownCode t k p =>
      cases h
      by_cases known : code ∈ Config.requestCodes
      · exact .inl (by simp only [exec, execUnknownCode, onDevice_eq, known, if_true])
      · refine .inr ⟨(Bool.eq_false_iff.2 fun several => known ?_).symm, ran⟩
        have requests : ∀ code ∈ severalCodes, code ∈ Config.requestCodes := by decide
        exact requests code (List.contains_iff_mem.1 several)
    | _ => cases h <;> exact .inr ⟨rfl, ran⟩

namespace Device.Presents

variable {c : Instr} {x y : Device}

theorem rising_command (several : c.severalArrive = true) (h : x.Presents .rising y) : x.Presents (.ofCommand c) y :=
  h.mono fun i moves ⟨_, _, lead⟩ rises h0 h1 => by
    obtain h1 | one := h1
    · exact length_le_one_of_rises lead (rises h0 h1)
    · cases several.symm.trans one

theorem once_command (h : x.Presents .once y) : x.Presents (.ofCommand c) y := h.mono fun _ _ _ one h0 _ => one h0

theorem code_command {code : Byte} (several : c.severalArrive = severalCodes.contains code) (h : x.Presents (.ofCode code) y) :
    x.Presents (.ofCommand c) y := by
  unfold Allowed.ofCode at h
  split at h
  · next holds => exact rising_command (several.trans holds) h
  · exact once_command h

/-- A frame's last character hands the frame to the owner of its code (10 R178, R180). -/
theorem crxCharacter {b : Byte} {good : Bool} {s t : State} (h : exec (.crxCharacter b good) s = .next t) :
    s.dev.Presents (.ofCommand (.crxCharacter b good)) t.dev := by
  have any (code : Byte) {d d' : Device} (h : d.Presents (.ofCode code) d') : d.Presents (.ofCommand (.crxCharacter b good)) d' := by
    unfold Allowed.ofCode at h
    split at h
    · exact rising_command rfl h
    · exact once_command h
  have done (bytes : List Byte) (d : Device) : d.Presents (.ofCommand (.crxCharacter b good)) (d.frameDone bytes b) := by
    unfold Device.frameDone
    repeat' split
    case h_1 tag code params _ => exact any code (request code tag (requestOwner code params d.frameEnds))
    all_goals exact discardFrame d
  have inFrame (bytes : List Byte) (d : Device) : d.Presents (.ofCommand (.crxCharacter b good)) (d.frameByte bytes b) := by
    unfold Device.frameByte
    repeat' split
    · exact discardFrame d
    · exact of_inner rfl
    · exact done _ d
    · exact of_inner rfl
  cases h
  dsimp only
  repeat' split
  · exact of_inner rfl
  · exact refl s.dev
  · exact inFrame _ s.dev
  · exact discardFrame s.dev

/-- The cell that is sent moves no level, and the cell that loops back is one event (07 R138, R139). -/
theorem transmitCell {n : LaneNo} {s t : State} (h : exec (.transmitCell n) s = .next t) : s.dev.Presents .once t.dev := by
  have sent : s.dev.Presents .silent (s.dev.sent n) := by
    have levels (i : CondNo) : (s.dev.transmit n s.dev.now).level i = s.dev.level i := by
      have step := Device.LaneStep.transmit n s.dev s.dev.now
      have lane (m : LaneNo) : ((s.dev.transmit n s.dev.now).lane m).alarm = (s.dev.lane m).alarm ∧
          ((s.dev.transmit n s.dev.now).lane m).txFault = (s.dev.lane m).txFault := by
        by_cases hm : m = n
        · subst hm; rw [lane_transmit]; exact ⟨rfl, rfl⟩
        · rw [step.lanes m hm]; exact ⟨rfl, rfl⟩
      exact (level_eq_of_lanes (fun m => (lane m).1) (fun m => (lane m).2) step.journal step.timebase
        (capture_transmit _ n _) i).symm
    exact settle_of (Device.LaneStep.transmit n _ _).attention fun i moved => absurd (levels i).symm moved
  by_cases hm : (s.dev.lane n).mode = .test
  · cases (exec_transmitCell hm).symm.trans h
    dsimp only [State.withDev]
    split
    · exact sent.before (settle (Device.LaneStep.takeCell n _ _ _).attention)
    · exact sent.before (refl _)
  · cases (exec_transmitCell_outside hm).symm.trans h
    exact refl s.dev

theorem driverFault {n : LaneNo} {level : Bool} {s t : State} (h : exec (.driverFault n level) s = .next t) :
    s.dev.Presents .once t.dev := by
  cases h
  dsimp only
  split
  · exact settle (Device.LaneStep.takeFault n _ _).attention
  · exact modLane s.dev n (f := fun l => { l with txf := level }) rfl rfl

theorem secondArrival {n : LaneNo} {s t : State} (h : exec (.secondArrival n) s = .next t) : s.dev.Presents .once t.dev := by
  cases h
  dsimp only
  split
  · exact refl s.dev
  · exact settle (Device.LaneStep.boundary n _ _).attention

theorem event {c : Instr} (hc : c.request? = none) {s t : State} (presents : ¬ presentsNothing c s.dev)
    (h : exec c s = .next t) : s.dev.Presents (.ofCommand c) t.dev := by
  cases c with
  | powerOnReset | resetPin | conditionChange => exact absurd trivial presents
  | resetTakesEffect =>
    cases h
    dsimp only
    split
    · exact refl s.dev
    · next r reply =>
      split
      · next reset => exact absurd ⟨r, reply, reset⟩ presents
      · exact refl s.dev
  | replySent =>
    cases h
    dsimp only
    unfold Device.replyEnds
    split
    · exact refl s.dev
    · next r reply =>
      split
      · next reset => exact absurd ⟨r, reply, reset⟩ presents
      · exact of_inner rfl
  | badFrame cause =>
    cases h
    dsimp only
    repeat' split
    case isFalse => exact refl s.dev
    all_goals exact discardFrame s.dev
  | frameGapTimeout =>
    cases h
    dsimp only
    split
    · exact refl s.dev
    · exact discardFrame s.dev
  | crxCharacter b good => exact crxCharacter h
  | cellArrival n x =>
    cases h
    dsimp only
    split
    · exact once_command (settle (Device.LaneStep.takeCell n _ _ _).attention)
    · exact refl s.dev
  | transmitCell n => exact once_command (transmitCell h)
  | driverFault n level => exact once_command (driverFault h)
  | secondArrival n => exact once_command (secondArrival h)
  | fineTick => cases h; exact fineTick s.dev
  | filterSample e0 e1 =>
    cases h
    dsimp only
    unfold Device.sample
    split <;> exact of_inner rfl
  | extEdge p =>
    cases h
    refine once_command (settle ?_)
    unfold Device.noteEdge
    dsimp only
    repeat' split
    all_goals rfl
  | oscFault =>
    cases h
    refine once_command (settle ?_)
    unfold Device.detectFault
    split <;> rfl
  | oscResumed =>
    cases h
    refine once_command (settle ?_)
    unfold Device.recover
    split <;> rfl
  | oscMeasureRestart => cases h; exact withTimebase (t := { s.dev.timebase with measure := _ }) rfl
  | crystalCycleSeen =>
    cases h
    dsimp only
    split
    · exact withTimebase (t := { s.dev.timebase with measure := _ }) rfl
    · exact refl s.dev
  | scheduleSecondArrival share => cases h; exact rising_command rfl (tableEvent s.dev share fun _ => inner_takeSecond)
  | minuteArrival share => cases h; exact rising_command rfl (tableEvent s.dev share fun _ => inner_takeMinute)
  | scheduleFineTick share => cases h; exact rising_command rfl (tableEvent s.dev share fun _ => inner_takeFine)
  | scheduleEdge p share => cases h; exact rising_command rfl (tableEvent s.dev share fun _ => inner_takeEdge p)
  | countdownExpiry e => cases h; exact rising_command rfl (expire s.dev e)
  | recordArrival place =>
    cases h
    dsimp only
    split
    · exact refl s.dev
    · next r rest _ =>
      exact once_command (before (y := { s.dev with inFlight := rest }) (of_inner rfl) (recordArrives _ r))
  | _ => cases hc

/-- A command presents each level that it moves, and the unit follows (09 R168, R169). -/
theorem exec {c : Instr} {s t : State} (presents : ¬ presentsNothing c s.dev) (h : exec c s = .next t) :
    s.dev.Presents (.ofCommand c) t.dev := by
  cases hc : c.request? with
  | none => exact event hc presents h
  | some r =>
    obtain ⟨code, tag, params⟩ := r
    obtain idle | ⟨several, ran⟩ := exec_of_request_arrivals hc s
    · cases idle.symm.trans h
      exact refl s.dev
    · cases ran.symm.trans h
      exact code_command several (request code tag (requestOwner code params s.dev.frameEnds))

end Device.Presents

/-! ### A change that is taken (09 R169) -/

/-- The change that is taken is the first of its condition; the others stay as they are (09 R168). -/
theorem movesOf_takeChange {c : CondNo} {changes rest : List LevelChange} {level : Bool}
    (h : takeChange c changes = some (level, rest)) :
    movesOf changes c = level :: movesOf rest c ∧ ∀ i, i ≠ c → movesOf rest i = movesOf changes i := by
  induction changes generalizing rest with
  | nil => cases h
  | cons x more ih =>
    unfold takeChange at h
    split at h
    · next same =>
      cases h
      subst same
      refine ⟨by simp [movesOf], fun i hi => ?_⟩
      simp [movesOf, Ne.symm hi]
    · next other =>
      obtain ⟨⟨level', rest'⟩, taken, eq⟩ := Option.map_eq_some_iff.1 h
      cases eq
      obtain ⟨first, others⟩ := ih taken
      refine ⟨?_, fun i hi => ?_⟩
      · simpa [movesOf, other] using first
      · have others := others i hi
        by_cases hx : x.cond = i
        · simpa [movesOf, hx] using others
        · simpa [movesOf, hx] using others

/-- The unit follows the levels after a change that it takes: it has then seen the level that the change brought, and latched it
in LEVEL mode where it is high (09 R169). -/
theorem levelsFollowed_conditionChange {c : CondNo} {s t : State} (h : exec (.conditionChange c) s = .next t)
    (followed : s.dev.LevelsFollowed) : t.dev.LevelsFollowed := by
  cases taken : takeChange c s.dev.attention.changes with
  | none =>
    have idle : exec (.conditionChange c) s = .next s := by
      simp only [exec, execConditionChange, onDevice_eq, taken]
    cases idle.symm.trans h
    exact followed
  | some r =>
    obtain ⟨level, rest⟩ := r
    cases (exec_conditionChange taken).symm.trans h
    obtain ⟨first, others⟩ := movesOf_takeChange taken
    obtain ⟨d, hd⟩ : ∃ d, d = ({ s.dev with attention := { s.dev.attention.modify c fun x => x.change level with
      changes := rest } } : Device) := ⟨_, rfl⟩
    change Device.LevelsFollowed { s.dev with attention := { s.dev.attention.modify c fun x => x.change level with
      changes := rest } }
    rw [← hd]
    have levels (i : CondNo) : d.level i = s.dev.level i := by rw [hd]; rfl
    have changes : d.attention.changes = rest := by rw [hd]
    have conditions (i : CondNo) : d.attention.conditions[i.val] = if c.val = i.val then
        (s.dev.attention.conditions[c.val]).change level else s.dev.attention.conditions[i.val] := by
      rw [hd]; exact Vector.getElem_set c.isLt i.isLt
    have led := followed.lead c
    rw [first] at led
    have lead (i : CondNo) :
        movesFromTo (if i = c then level else s.dev.levelSeen i) (movesOf d.attention.changes i) (d.level i) := by
      rw [changes, levels]
      split
      · next same => subst same; exact led.2
      · next other => rw [others i other]; exact followed.lead i
    have seen (i : CondNo) : d.levelSeen i = if i = c then level else s.dev.levelSeen i := levelSeen_of_lead (lead i)
    refine ⟨fun i => seen i ▸ lead i, fun i => ?_⟩
    dsimp only
    rw [conditions, seen]
    by_cases same : i = c
    · subst same
      rw [if_pos rfl, if_pos rfl]
      intro enabled mode high
      have enabled : (s.dev.attention.conditions[i.val]).enabled = true := enabled
      have mode : (s.dev.attention.conditions[i.val]).mode = .level := mode
      rw [Condition.change, enabled, mode, high]
      exact Bool.or_true _
    · rw [if_neg fun e => same (Fin.ext e.symm), if_neg same]
      exact followed.latched i

/-! ### Resets (04 R89, R90, 09 R175) -/

theorem disabled_afterReset : ∀ c : CondNo, (Attention.afterReset.conditions[c.val]).enabled = false := by decide

theorem levelsFollowed_resetBlocks (d : Device) : d.resetBlocks.LevelsFollowed :=
  levelsFollowed_of_disabled rfl disabled_afterReset

theorem levelsFollowed_resetRequest (d : Device) : d.resetRequest.LevelsFollowed :=
  (Device.Presents.recordArrives d.resetBlocks _).followed (levelsFollowed_resetBlocks d)

/-- A reset request keeps the journal and the time: the other levels are low (04 R90, 09 R175). -/
theorem level_resetBlocks (d : Device) (i : CondNo) :
    d.resetBlocks.level i = if i ∈ [0, 1, 8] then d.level i else false := by
  have cleared := resetBlocks_cleared d
  have alarm (n : LaneNo) : (d.resetBlocks.lane n).alarm = false := by rw [lane_resetBlocks]; rfl
  have latch : d.resetBlocks.level 7 = false := by
    refine Bool.eq_false_iff.2 fun high => ?_
    obtain ⟨n, latched⟩ := (level_txFault _).1 high
    rw [lane_resetBlocks] at latched
    cases latched
  fin_cases i
  · rfl
  · rfl
  · exact cleared.captureReady
  · exact alarm 0
  · exact alarm 1
  · exact alarm 2
  · exact alarm 3
  · exact latch
  · rfl
  · rfl

/-- The commands outside `Presents` keep the unit after the levels too. -/
theorem levelsFollowed_exec {c : Instr} {s t : State} (h : exec c s = .next t) (followed : s.dev.LevelsFollowed) :
    t.dev.LevelsFollowed := by
  by_cases presents : presentsNothing c s.dev
  · cases c with
    | powerOnReset => cases h; exact levelsFollowed_of_disabled rfl disabled_afterReset
    | resetPin => cases h; exact levelsFollowed_of_disabled rfl disabled_afterReset
    | conditionChange c => exact levelsFollowed_conditionChange h followed
    | resetTakesEffect =>
      obtain ⟨r, reply, reset⟩ := presents
      have ran : exec .resetTakesEffect s = .next (s.withDev s.dev.resetRequest) := by
        simp [exec, execResetTakesEffect, State.onDevice, State.withDev, reply, reset]
      cases ran.symm.trans h
      exact levelsFollowed_resetRequest s.dev
    | replySent =>
      obtain ⟨r, reply, reset⟩ := presents
      have ran : exec .replySent s = .next (s.withDev s.dev.resetRequest) := by
        simp [exec, execReplySent, Device.replyEnds, State.onDevice, State.withDev, reply, reset]
      cases ran.symm.trans h
      exact levelsFollowed_resetRequest s.dev
    | _ => exact presents.elim
  · exact (Device.Presents.exec presents h).followed followed

/-- Settles O3: what each command presents, and what the resets leave of the changes on their way. -/
theorem everyEventPresentsTheLevelsItMoves : Obligations.EveryEventPresentsTheLevelsItMoves := by
  refine ⟨fun c s t h notTaken notReset notRequest => ?_, fun s t followed h => ?_,
    fun r1 r0 s => ⟨⟨_, rfl, rfl⟩, ⟨_, rfl, rfl⟩⟩, fun s resets => ?_⟩
  · have isReset (r : Reply) (h : r.isReset = true) : r.code = 0x82#8 ∧ r.status = .ok := by
      rw [Reply.isReset, Bool.and_eq_true, decide_eq_true_iff, decide_eq_true_iff] at h
      exact h
    have presents : ¬ presentsNothing c s.dev := by
      intro nothing
      cases c with
      | powerOnReset r1 r0 => exact (notReset r1 r0).1 rfl
      | resetPin r1 r0 => exact (notReset r1 r0).2 rfl
      | conditionChange i => exact notTaken i rfl
      | resetTakesEffect =>
        obtain ⟨r, reply, reset⟩ := nothing
        exact notRequest (.inl rfl) r reply (isReset r reset)
      | replySent =>
        obtain ⟨r, reply, reset⟩ := nothing
        exact notRequest (.inr rfl) r reply (isReset r reset)
      | _ => exact nothing
    exact (Device.Presents.exec presents h).moves
  · unfold step at h
    split at h
    · cases h; exact followed
    · next c rest _ => exact levelsFollowed_exec (s := { s with pending := rest }) h followed
  · refine ⟨_, exec_resetTakesEffect_of_resetting resets, fun i => ?_⟩
    obtain ⟨moved, changes, moves⟩ := (Device.Presents.recordArrives s.dev.resetBlocks (Record.restart s.dev.now 3)).moves
    have changes : s.dev.resetRequest.attention.changes = moved := changes
    rw [dev_withDev, changes, ← level_resetBlocks]
    exact moves i

end Sys2Proof.Machine
end
